-- ==== Sys2Proof/Word.lean ====
section
/-! DEFINITION. The value types of the SoundWire decoder core (spec 00_scope.md R7, R8, R9). Every value is
unsigned and arithmetic on a value of N bits is modulo 2^N (R8), which is what `BitVec N` does. A value of one bit
is a `Bool`: true is 1, HIGH and ONE (R8, R9). -/

namespace Sys2Proof

/-- A sample index, SAMPLE_BITS = 64 (R7). -/
abbrev Sample := BitVec 64

/-- A history entry, ENTRY_BITS = 16 (R7, R80). -/
abbrev Entry := BitVec 16

/-- A control word, CW_BITS = 48 (R7, R85). -/
abbrev CtrlWord := BitVec 48

/-- The matcher's window, WINDOW_BITS = 128 (R7, R32). -/
abbrev Window := BitVec 128

/-- A row count, u9 (R35, R39). -/
abbrev Rows := BitVec 9

/-- A column count, u5 (R32, R35, R40). -/
abbrev Columns := BitVec 5

/-- A state of the dynamic-sync generator, u4 (R33). -/
abbrev DSync := BitVec 4

end Sys2Proof
end

