-- ==== Sys2Proof/Config.lean ====
section
/-! DEFINITION. What is fixed for a whole run: the configuration a block is created with (10_state.md R39 to R42)
and the one OPEN parameter, HISTORY_CAPACITY (00_scope.md R7, 92_eei_decisions.md D8). The machine carries it in its
state and no command changes it. -/

namespace Sys2Proof

/-- The configuration of a block (R39 to R42) together with the OPEN parameter HISTORY_CAPACITY (R7). -/
structure Configuration where
  /-- `CFG.hint_rows` (R39); 0 is "auto". -/
  hintRows : Rows
  /-- `CFG.hint_columns` (R40); 0 is "auto". -/
  hintColumns : Columns
  /-- `CFG.suppress_duplicate_pings` (R41): read by no rule of the block. -/
  suppressDuplicatePings : Bool
  /-- `HISTORY_CAPACITY` in entries (R7, R61). -/
  historyCapacity : Nat
deriving DecidableEq, Repr

/-- The least capacity the document asks for (R7, R61): "at least 69,632". -/
def minHistoryCapacity : Nat := 69632

end Sys2Proof
end

