-- ==== Sys2Proof/Syntax.lean ====
section
/-! DEFINITION. The commands of the block: one constructor per row of spec/opcode_table.json (30_encoding.md R99),
with the operands that R99 names and, for the units 0x3 to 0x7, the name of the instance acted on, which R99 calls
"an operand of the model, not a bit of the code". -/

namespace Sys2Proof

/-- A `Mark` (10_state.md R31): the value `BD.MARK` returns and `BD.RESTORE` takes. -/
structure Mark where
  lastLevel : Bool
  parityIsOdd : Bool
  currentSample : Sample
  index : Nat
  epoch : Nat
deriving DecidableEq, Repr

/-- The frame reader a command of unit FR acts on (R99): the driver's `FE.reader`, or one the caller names. -/
inductive ReaderName where
  | driver
  | named (k : Nat)
deriving DecidableEq, Repr

/-- The dynamic-sync generator a command of unit DSG acts on (R99): the driver's `FE.gen`, or one the caller names. -/
inductive GenName where
  | driver
  | named (k : Nat)
deriving DecidableEq, Repr

/-- The control word a command of unit CW acts on (R99): a frame reader's `FR.cw`, or an ephemeral ControlWord the
caller names. -/
inductive WordName where
  | ofReader (r : ReaderName)
  | ephemeral (k : Nat)
deriving DecidableEq, Repr

/-- The commands (R99). A matcher is named by its number: every matcher a command can name is the caller's own. -/
inductive Instr where
  -- unit HB, 0x1
  | hbAppend (level : Bool) (delta : Sample)
  | hbReadChain (index : Nat)
  | hbClear
  -- unit BD, 0x2
  | bdNextBit
  | bdSkipBits (n : BitVec 64)
  | bdResetParity
  | bdIsParityOdd
  | bdCurrentSample
  | bdCollectHistory (enable : Bool)
  | bdDiscardHistory
  | bdMark
  | bdRestore (mark : Mark)
  -- unit SM, 0x3
  | smInit (sm : Nat) (columns : Columns)
  | smPushBit (sm : Nat) (bit : Bool)
  -- unit DSG, 0x4
  | dsgSeed (g : GenName) (seed : DSync)
  | dsgNext (g : GenName)
  -- unit FR, 0x5
  | frReset (r : ReaderName)
  | frSetShape (r : ReaderName) (rows : Rows) (columns : Columns)
  | frPushBit (r : ReaderName) (bit : Bool)
  -- unit CW, 0x6: operations and predicates
  | cwReset (w : WordName)
  | cwLoad (w : WordName) (value : CtrlWord)
  | cwPushBit (w : WordName) (bit : Bool)
  | cwSkipBits (w : WordName) (n : BitVec 64)
  | cwValue (w : WordName)
  | cwIsPingSameAs (w : WordName) (other : CtrlWord)
  | cwIsFrameShapeChange (w : WordName)
  | cwGetNewShape (w : WordName)
  -- unit CW, 0x7: field accessors
  | cwPreq (w : WordName)
  | cwOpcode (w : WordName)
  | cwDevAddr (w : WordName)
  | cwStaticSync (w : WordName)
  | cwPhySync (w : WordName)
  | cwRegAddr (w : WordName)
  | cwRegData (w : WordName)
  | cwSsp (w : WordName)
  | cwPingStat4To11 (w : WordName)
  | cwPingStat0To3 (w : WordName)
  | cwDynamicSync (w : WordName)
  | cwPar (w : WordName)
  | cwNak (w : WordName)
  | cwAck (w : WordName)
  -- unit SF, 0x8
  | sfFindSync (rowsHint : Rows) (columnsHint : Columns)
  | sfTestIfSyncIsReal (rows : Rows) (columns : Columns) (offset : Nat) (start : Mark) (matched : Mark)
  | sfCheckSync (rows : Rows) (columns : Columns)
  -- unit FE, 0x9
  | feStart
  | feStep
deriving DecidableEq, Repr

/-- The zero Mark: what the mark lanes of a command port carry when nothing drives them. -/
def Mark.zero : Mark := ⟨false, false, 0, 0, 0⟩

/-- The operand lanes of the command port. R98: "Operands are not encoded in the command word; each command takes
its operands as named values (widths in rule R99)". One lane per operand name of R99, with its width, and one per
kind of instance; a lane that a command does not take is not read. -/
structure Operands where
  level : Bool := false
  delta : BitVec 64 := 0
  index : Nat := 0
  n : BitVec 64 := 0
  enable : Bool := false
  mark : Mark := Mark.zero
  columns : BitVec 5 := 0
  bit : Bool := false
  seed : BitVec 4 := 0
  rows : BitVec 9 := 0
  value : BitVec 48 := 0
  other : BitVec 48 := 0
  rowsHint : BitVec 9 := 0
  columnsHint : BitVec 5 := 0
  matchedBitOffset : Nat := 0
  searchStartMark : Mark := Mark.zero
  matchMark : Mark := Mark.zero
  matcher : Nat := 0
  generator : GenName := .driver
  reader : ReaderName := .driver
  word : WordName := .ofReader .driver
deriving DecidableEq, Repr

/-- A command as the host issues it: the CMD8 word (R98) and the operand lanes beside it. -/
structure Command where
  code : BitVec 8
  args : Operands := {}
deriving DecidableEq, Repr

end Sys2Proof
end

