-- ==== Sys2Proof/Machine/State.lean ====
section
/-! DEFINITION. The state of the block: every element of 10_state.md R22 to R55, the ports of R50 to R53 and, marked
as the MODEL's own, the command port and the command in progress. -/

namespace Sys2Proof.Machine

open Sys2Proof

/-- The codes of a model fault of the spec (60_exceptions.md R310). `raise Fault(code)` writes one into STATUS: in
this model that is a next state (Ops.lean, `raise`), as R310 describes it. -/
inductive FaultCode where
  | historyOverflow
  | historyCorrupt
  | staleMark
  | badMark
  | illegalShape
  | reservedCommand
  | badSequence
deriving DecidableEq, Repr

/-- STATUS (R47). -/
inductive Status where
  | idle
  | running
  | halted
  | faulted (code : FaultCode)
deriving DecidableEq, Repr

/-- `BD.next_history_read_index` (R27): an index of the history, or SENTINEL, which R27 and 93 row 4 let a model
hold as a constructor of its own. -/
inductive ReadIndex where
  | sentinel
  | entry (i : Nat)
deriving DecidableEq, Repr

/-- The BitstreamDecoder's registers (R22 to R28). -/
structure Decoder where
  /-- R22; true is HIGH. -/
  lastLevel : Bool
  /-- R23. -/
  parityIsOdd : Bool
  /-- R24. -/
  currentSample : Sample
  /-- R25. -/
  contiguousToggleCount : BitVec 13
  /-- R26. -/
  runStartSample : Sample
  /-- R27. -/
  nextHistoryReadIndex : ReadIndex
  /-- R28. -/
  collectHistory : Bool
deriving DecidableEq, Repr

/-- HB, the block's only memory (R29, R60): its entries in index order, and the model-only epoch (R30). `HB.size`
is the number of entries. -/
structure History where
  entries : List Entry
  epoch : Nat
deriving DecidableEq, Repr

/-- `HB.size` (R29). -/
def History.size (h : History) : Nat := h.entries.length

/-- A StaticSyncMatcher (R32). `pattern` is the document's match word. -/
structure Matcher where
  columns : Columns
  acc : Window
  mask : Window
  pattern : Window
deriving DecidableEq, Repr

/-- A ControlWord (R34). -/
structure ControlWord where
  value : CtrlWord
  wmask : CtrlWord
deriving DecidableEq, Repr

/-- The held states of a FrameReader (R35, R95). CAPTURE_PARITY is no held state. -/
inductive ReaderState where
  | frameStart
  | needMoreBits
  | frameComplete
deriving DecidableEq, Repr

/-- A FrameReader (R35). -/
structure FrameReader where
  rows : Rows
  columns : Columns
  currentRow : BitVec 8
  currentColumn : BitVec 4
  cw : ControlWord
  state : ReaderState
deriving DecidableEq, Repr

/-- The SyncFinder's committed shape (R36). -/
structure SyncShape where
  rows : Rows
  columns : Columns
deriving DecidableEq, Repr

/-- The driver's registers (R37). -/
structure Driver where
  started : Bool
  inSync : Bool
  firstFrame : Bool
  startMark : Mark
  reader : FrameReader
  gen : DSync
  fStart : Sample
  actualParityIsOdd : Bool
deriving DecidableEq, Repr

/-- An edge record of the edge input (R50); level true is HIGH. -/
structure Edge where
  sample : Sample
  level : Bool
deriving DecidableEq, Repr

/-- A frame record (R45); flags bit 0 is PARITY_BAD, bit 1 is SYNC_LOST (R96). -/
structure FrameRecord where
  startSample : Sample
  endSample : Sample
  controlWord : CtrlWord
  flags : BitVec 2
deriving DecidableEq, Repr

/-- The events of the output log (R52). -/
inductive Event where
  | frame (r : FrameRecord)
  | busReset (startSample endSample : Sample)
  | shapeChange (sample : Sample) (rows : Rows) (columns : Columns)
  | invalidShape (sample : Sample) (data : BitVec 8)
deriving DecidableEq, Repr

/-- The result value of a command, with the width R99 gives it. -/
inductive Value where
  | none
  | u1 (b : Bool)
  | u2 (v : BitVec 2)
  | u3 (v : BitVec 3)
  | u4 (v : BitVec 4)
  | u8 (v : BitVec 8)
  | u16 (v : BitVec 16)
  | u48 (v : BitVec 48)
  | u64 (v : BitVec 64)
  | chain (level : Bool) (delta : Sample) (next : Nat)
  | mark (m : Mark)
  | shape (rows : Rows) (columns : Columns)
  | count (n : Nat)
deriving DecidableEq, Repr

/-- Who asked for a sync search: the command `SF.FIND_SYNC`, or the driver's resync (R275). -/
inductive Finder where
  | command
  | driver
deriving DecidableEq, Repr

/-- The working values `SF.FIND_SYNC` holds while it runs (R36, R241). The column candidate is the matcher's
`columns`. -/
structure Scan where
  rowsHint : Rows
  columnsHint : Columns
  /-- `search_start_mark`. -/
  startMark : Mark
  /-- The column candidates still to try after the current one. -/
  columnsLeft : List Columns
  /-- The search's private StaticSyncMatcher. -/
  matcher : Matcher
  /-- `matched_bit_offset`. -/
  offset : Nat
  /-- `match_mark`. -/
  matchMark : Mark
  /-- The current row candidate. -/
  row : Rows
  /-- The row candidates still to try after the current one. -/
  rowsLeft : List Rows
deriving DecidableEq, Repr

/-- Who takes the answer of `SF.CHECK_SYNC` (R241, R243, R244): the command itself, the command
`SF.TEST_IF_SYNC_IS_REAL`, or a search. -/
inductive Asker where
  | check
  | test
  | search (who : Finder) (w : Scan)
deriving DecidableEq, Repr

/-- The working values `SF.CHECK_SYNC` holds while it runs (R36, R244): its private FrameReader and
DynamicSyncGenerator, the initial mark, the frame count `n` (0 while the seed frame is read) and the parity captured
in the frame being read (R245). -/
structure Check where
  reader : FrameReader
  gen : DSync
  entryMark : Mark
  framesOk : Nat
  cap : Bool
deriving DecidableEq, Repr

/-- A command in progress: where it stands when it needs its next decoded bit. A command that finds no edge record
waits here, and the next record resumes it (R10, R318, R326). `count` is `SF.scan_count` (R251). -/
inductive Task where
  /-- `BD.NEXT_BIT` (R130). -/
  | nextBit
  /-- `BD.SKIP_BITS` with `left` bits to go (R135). -/
  | skipBits (left : Nat)
  /-- `FE.START` at its priming bit (R270). -/
  | feStart
  /-- `FE.STEP` in sync (R271). -/
  | feBit
  /-- Phase 1 of a search (R242). -/
  | scan (who : Finder) (w : Scan) (count : Nat)
  /-- The replay to the live tail between two windows (R246). -/
  | advance (who : Finder) (w : Scan) (count : Nat)
  /-- The alignment skip of phase 2 with `left` bits to go (R243). -/
  | align (ask : Asker) (rows : Rows) (columns : Columns) (left : Nat) (count : Nat)
  /-- READ_FRAME inside `SF.CHECK_SYNC` (R244, R245). -/
  | check (ask : Asker) (c : Check) (count : Nat)
deriving DecidableEq, Repr

/-- The state of the block and its ports. -/
structure State where
  /-- The BitstreamDecoder (R22 to R28). -/
  bd : Decoder
  /-- The history buffer (R29, R30). -/
  hb : History
  /-- The matchers callers name (R32), by number; an unlisted one is at its reset value. -/
  matchers : List (Nat × Matcher)
  /-- The generators callers name (R33), by number; an unlisted one is at its reset value. -/
  generators : List (Nat × DSync)
  /-- The frame readers callers name (R35), by number; an unlisted one is at its reset value. -/
  readers : List (Nat × FrameReader)
  /-- The ephemeral control words callers name (R34), by number; an unlisted one is at its reset value. -/
  words : List (Nat × ControlWord)
  /-- `SF.rows`, `SF.columns` (R36). -/
  sf : SyncShape
  /-- The driver (R37). -/
  fe : Driver
  /-- The configuration registers (R39 to R41) and the OPEN parameter (R7). -/
  cfg : Configuration
  /-- STATUS (R47). -/
  status : Status
  /-- The edge input (R50): the records not yet taken, in order. -/
  edges : List Edge
  /-- The number of edge records consumed (R13). -/
  edgesTaken : Nat
  /-- The cancel input (R51): its value at each poll point to come, the next one first; 0 past the end. -/
  cancel : List Bool
  /-- The output event log (R52), in the order of the events. -/
  events : List Event
  /-- `progress_sample` (R53). -/
  progressSample : Sample
  /-- MODEL: the command port, the commands issued and not yet taken, in order (R98, R101). -/
  commands : List Command
  /-- MODEL: the result port, the value the last completed command returned (R98). -/
  result : Value
  /-- MODEL: the command in progress, if one waits for an edge record (R318, R326). -/
  task : Option Task
deriving DecidableEq, Repr

/-- Why a step stops. No meaning of a command answers with one of these: only `step` does. -/
inductive Fault where
  /-- Raised by `step` when STATUS is HALTED or FAULTED: R309, "A model gives such a block no further step, and the
  run has ended." Safe: nothing can be claimed of a step that does not exist. -/
  | runEnded
  /-- Raised by `step` when the command in progress needs an edge record and the input has none: R318, "A model has
  no step for it (stuck)". The state before the step is the state in which the block waits. Safe. -/
  | waitingForEdge
deriving DecidableEq, Repr

/-- Why a command is given no meaning. -/
inductive Refusal where
  /-- Raised only by an arm of `exec` that has no meaning yet; no arm is left so. Safe. -/
  | notModelled (mnemonic : String)
  /-- Raised by every command issued while another one is in progress: R76, "no two commands overlap". `step` never
  issues one then. Safe. -/
  | commandOverlap
  /-- Raised by `create` for a configuration R311 refuses: "no block is created and nothing runs". Safe. -/
  | illegalConfiguration
deriving DecidableEq, Repr

/-- The outcomes of the machine. -/
abbrev Out := Host.Outcome State Fault Refusal

/-- The reset ControlWord (R34): value 0, write mask 1 << 47. -/
def ControlWord.reset : ControlWord := ⟨0, 0x800000000000⟩

/-- The reset FrameReader (R35, decision D40): shape 48 × 2, at FRAME_START. -/
def FrameReader.reset : FrameReader := ⟨48, 2, 0, 0, ControlWord.reset, .frameStart⟩

/-- A matcher no SM.INIT has constructed. DESIGN CHOICE (log entry 4): R331 gives it no value; the model gives it
the words `SM.INIT 2` constructs (R91), 2 being the first of COLUMN_SET, and the window 0 of R32. -/
def Matcher.reset : Matcher := ⟨2, 0, 0x5555, 0x4501⟩

/-- The reset BitstreamDecoder (R22 to R28, decision D5). -/
def Decoder.reset : Decoder := ⟨false, false, 0, 0, 0, .sentinel, false⟩

/-- The reset driver (R37). `FE.start_mark` has no reset value (R331): DESIGN CHOICE (log entry 3), the zero mark. -/
def Driver.reset : Driver := ⟨false, false, false, Mark.zero, FrameReader.reset, 0, 0, false⟩

/-- The configuration of the reset block. R39 to R41 give none: DESIGN CHOICE (log entry 2), both hints 0 (auto), no
suppression, and the least capacity of R7. -/
def defaultConfiguration : Configuration := ⟨0, 0, false, minHistoryCapacity⟩

/-- The block right after its creation with configuration `cfg` (R55, R330). -/
def State.resetWith (cfg : Configuration) : State where
  bd := Decoder.reset
  hb := ⟨[], 0⟩
  matchers := []
  generators := []
  readers := []
  words := []
  sf := ⟨0, 0⟩
  fe := Driver.reset
  cfg := cfg
  status := .idle
  edges := []
  edgesTaken := 0
  cancel := []
  events := []
  progressSample := 0
  commands := []
  result := .none
  task := none

/-- The machine right after reset (R55, R330). -/
def State.reset : State := State.resetWith defaultConfiguration

end Sys2Proof.Machine
end

