-- ==== Sys2Proof/Machine/Operands.lean ====
section
/-! DEFINITION. The operand forms of the commands: the instances a command may name (30_encoding.md R99), and the
fields of a control word (30_encoding.md R85). -/

namespace Sys2Proof.Machine

open Sys2Proof

/-- The instance number `k` of a list of instances; `d` is what an unlisted one holds. -/
def poolGet {α : Type} (d : α) (k : Nat) : List (Nat × α) → α
  | [] => d
  | (j, v) :: rest => if j = k then v else poolGet d k rest

/-- `(k, v)` put in its place in a list of instances sorted by number. -/
def poolInsert {α : Type} (k : Nat) (v : α) : List (Nat × α) → List (Nat × α)
  | [] => [(k, v)]
  | (j, w) :: rest => if k < j then (k, v) :: (j, w) :: rest else (j, w) :: poolInsert k v rest

/-- The list of instances with number `k` at `v`. The list stays sorted, and it lists no instance at the value `d`
of an unlisted one. -/
def poolSet {α : Type} [DecidableEq α] (d : α) (k : Nat) (v : α) (p : List (Nat × α)) : List (Nat × α) :=
  let others := p.filter (fun e => e.1 != k)
  if v = d then others else poolInsert k v others

/-- The matcher a command names. -/
def State.matcher (s : State) (k : Nat) : Matcher := poolGet Matcher.reset k s.matchers

/-- The state with the named matcher at `m`. -/
def State.setMatcher (s : State) (k : Nat) (m : Matcher) : State :=
  { s with matchers := poolSet Matcher.reset k m s.matchers }

/-- The generator a command names (reset value 0, R33). -/
def State.generator (s : State) : GenName → DSync
  | .driver => s.fe.gen
  | .named k => poolGet 0 k s.generators

/-- The state with the named generator at `v`. -/
def State.setGenerator (s : State) (g : GenName) (v : DSync) : State :=
  match g with
  | .driver => { s with fe := { s.fe with gen := v } }
  | .named k => { s with generators := poolSet 0 k v s.generators }

/-- The frame reader a command names. -/
def State.reader (s : State) : ReaderName → FrameReader
  | .driver => s.fe.reader
  | .named k => poolGet FrameReader.reset k s.readers

/-- The state with the named frame reader at `r`. -/
def State.setReader (s : State) (n : ReaderName) (r : FrameReader) : State :=
  match n with
  | .driver => { s with fe := { s.fe with reader := r } }
  | .named k => { s with readers := poolSet FrameReader.reset k r s.readers }

/-- The control word a command names. -/
def State.word (s : State) : WordName → ControlWord
  | .ofReader n => (s.reader n).cw
  | .ephemeral k => poolGet ControlWord.reset k s.words

/-- The state with the named control word at `w`. -/
def State.setWord (s : State) (n : WordName) (w : ControlWord) : State :=
  match n with
  | .ofReader r => s.setReader r { s.reader r with cw := w }
  | .ephemeral k => { s with words := poolSet ControlWord.reset k w s.words }

/-- The state with the result port at `v`. -/
def State.returning (s : State) (v : Value) : State := { s with result := v }

/-! The fields of a control word (R85). -/

/-- PREQ, bit 47 (R205). -/
def cwPreq (v : CtrlWord) : Bool := v.getLsbD 47

/-- OpCode, bits 46:44 (R206). -/
def cwOpcode (v : CtrlWord) : BitVec 3 := v.extractLsb' 44 3

/-- DevAddr, bits 43:40 (R207). -/
def cwDevAddr (v : CtrlWord) : BitVec 4 := v.extractLsb' 40 4

/-- SSP, bit 42 (R212). -/
def cwSsp (v : CtrlWord) : Bool := v.getLsbD 42

/-- RegAddr, bits 39:24 (R210). -/
def cwRegAddr (v : CtrlWord) : BitVec 16 := v.extractLsb' 24 16

/-- PingStat4_11, bits 39:24 (R213). -/
def cwPingStat4To11 (v : CtrlWord) : BitVec 16 := v.extractLsb' 24 16

/-- StaticSync, bits 23:16 (R208). -/
def cwStaticSync (v : CtrlWord) : BitVec 8 := v.extractLsb' 16 8

/-- PhySync, bit 15 (R209). -/
def cwPhySync (v : CtrlWord) : Bool := v.getLsbD 15

/-- RegData, bits 14:7 (R211). -/
def cwRegData (v : CtrlWord) : BitVec 8 := v.extractLsb' 7 8

/-- PingStat0_3, bits 14:7 (R214). -/
def cwPingStat0To3 (v : CtrlWord) : BitVec 8 := v.extractLsb' 7 8

/-- DynamicSync, bits 6:3 (R215). -/
def cwDynamicSync (v : CtrlWord) : BitVec 4 := v.extractLsb' 3 4

/-- PAR, bit 2 (R216). -/
def cwPar (v : CtrlWord) : Bool := v.getLsbD 2

/-- NAK, bit 1 (R217). -/
def cwNak (v : CtrlWord) : Bool := v.getLsbD 1

/-- ACK, bit 0 (R218). -/
def cwAck (v : CtrlWord) : Bool := v.getLsbD 0

end Sys2Proof.Machine
end

