-- ==== Sys2Proof/Machine/Flags.lean ====
section
/-! DEFINITION. Every flag and every encoded result (10_state.md R38): the parity accumulator, the matcher's result,
the frame reader's results (30_encoding.md R95), the frame record's flags (R96), the event kinds (R100) and the
numbers of the fault codes (R310). -/

namespace Sys2Proof.Machine

open Sys2Proof

/-- The decoded bit of a level (R133): 1 when it differs from the level before. -/
def decodedBit (lastLevel level : Bool) : Bool := level != lastLevel

/-- The parity accumulator after a level (R133): toggled by every HIGH level. -/
def parityAfter (parity level : Bool) : Bool := if level then !parity else parity

/-- The matcher's result (R162): `(SM.acc & SM.mask) == SM.match`. -/
def matcherFires (m : Matcher) : Bool := (m.acc &&& m.mask) == m.pattern

/-- The results of `FR.PUSH_BIT` (R95). -/
inductive ReaderResult where
  | frameStart
  | needMoreBits
  | captureParity
  | frameComplete
deriving DecidableEq, Repr

/-- The encoding of the results (R95). -/
def readerResultCode : ReaderResult → BitVec 2
  | .frameStart => 0
  | .needMoreBits => 1
  | .captureParity => 2
  | .frameComplete => 3

/-- The encoding of the held states (R95). -/
def readerStateCode : ReaderState → BitVec 2
  | .frameStart => 0
  | .needMoreBits => 1
  | .frameComplete => 3

/-- PARITY_BAD, bit 0 of a frame record's flags (R96). -/
def flagParityBad : BitVec 2 := 1

/-- SYNC_LOST, bit 1 of a frame record's flags (R96). -/
def flagSyncLost : BitVec 2 := 2

/-- The PARITY_BAD flag of a non-seed frame (R274, R302). -/
def parityBad (captured : Bool) (v : CtrlWord) : Bool := captured != cwPar v

/-- The SYNC_LOST condition of a non-seed frame (R274, R301); `expected` is the generator's next value. -/
def syncLost (expected : DSync) (v : CtrlWord) : Bool :=
  cwStaticSync v != 0xB1 || cwDynamicSync v != expected

/-- A frame record's flags from the two conditions (R96). -/
def frameFlags (parityIsBad syncIsLost : Bool) : BitVec 2 :=
  (if parityIsBad then flagParityBad else 0) ||| (if syncIsLost then flagSyncLost else 0)

/-- The kind of an event (R100). -/
def eventKind : Event → BitVec 2
  | .frame _ => 0
  | .busReset _ _ => 1
  | .shapeChange _ _ _ => 2
  | .invalidShape _ _ => 3

/-- The number of a fault code (R310). -/
def faultNumber : FaultCode → Nat
  | .historyOverflow => 1
  | .historyCorrupt => 2
  | .staleMark => 3
  | .badMark => 4
  | .illegalShape => 5
  | .reservedCommand => 6
  | .badSequence => 7

/-- The run has ended (R309): STATUS is HALTED or FAULTED. -/
def statusEnded : Status → Bool
  | .idle => false
  | .running => false
  | .halted => true
  | .faulted _ => true

end Sys2Proof.Machine
end

