-- ==== Sys2Proof/Machine/Tables.lean ====
section
/-! DEFINITION. The constants and tables of the block: 00_scope.md R7, 30_encoding.md R87 to R93. The document calls
them "process-wide read-only constants" (R325). -/

namespace Sys2Proof.Machine

open Sys2Proof

/-- STATIC_SYNC (R7, R90). -/
def staticSync : BitVec 8 := 0xB1

/-- BUS_RESET_RUN: decoded ones in a row that make a bus reset (R7, R134). -/
def busResetRun : Nat := 4096

/-- SEARCH_WINDOW_BITS, the document's kSearchWindowBits (R7). -/
def searchWindowBits : Nat := 4096

/-- The poll interval of the sync finder (R251). -/
def pollInterval : Nat := 4096

/-- SYNC_FRAMES: one seed frame and 15 verified (R7). -/
def syncFrames : Nat := 16

/-- PAR_ROW (R7). -/
def parRow : Nat := 45

/-- MAX_CHAIN: the most entries of one chain (R7). -/
def maxChainEntries : Nat := 5

/-- ROWS_TABLE (R87), indices 0 to 31; 0 marks a reserved slot. -/
def rowsTable : List Rows :=
  [48, 50, 60, 64, 75, 80, 125, 147, 96, 100, 120, 128, 150, 169, 250, 0,
   192, 200, 240, 256, 72, 144, 90, 180, 0, 0, 0, 0, 0, 0, 0, 0]

/-- COLS_TABLE (R88), which is also COLUMN_SET in its order. -/
def colsTable : List Columns := [2, 4, 6, 8, 10, 12, 14, 16]

/-- ROW_SET (R7): the non-zero entries of ROWS_TABLE, in the table's order (R87, R240). -/
def rowSet : List Rows := rowsTable.filter (fun r => r != 0)

/-- COLUMN_SET (R7, R88). -/
def columnSet : List Columns := colsTable

/-- DSYNC_TABLE (R89). -/
def dsyncTable : List DSync := [0, 2, 4, 6, 9, 11, 13, 15, 1, 3, 5, 7, 8, 10, 12, 14]

/-- A shape of ROW_SET × COLUMN_SET (R315). -/
def legalShape (rows : Rows) (columns : Columns) : Bool :=
  rowSet.contains rows && columnSet.contains columns

/-- A rows hint that a configuration may hold (R39, R311): 0 or one of ROW_SET. -/
def legalRowsHint (h : Rows) : Bool := h == 0 || rowSet.contains h

/-- A columns hint that a configuration may hold (R40, R311): 0 or one of COLUMN_SET. -/
def legalColumnsHint (h : Columns) : Bool := h == 0 || columnSet.contains h

/-- ColumnCandidates(hc) (R240). -/
def columnCandidates (hint : Columns) : List Columns := if hint = 0 then colsTable else [hint]

/-- RowCandidates(hr) (R240). -/
def rowCandidates (hint : Rows) : List Rows := if hint = 0 then rowSet else [hint]

/-- TotalBitsInFrame(R, C) (R92). -/
def totalBitsInFrame (rows : Rows) (columns : Columns) : Nat := rows.toNat * columns.toNat

/-- LastStaticSyncBitOffsetInFrame(C) (R92): the frame's bits up to and including row 31, column 0. -/
def lastStaticSyncBitOffset (columns : Columns) : Nat := 31 * columns.toNat + 1

/-- SearchLimit(C) (R92). -/
def searchLimit (columns : Columns) : Nat := searchWindowBits + totalBitsInFrame 256 columns

/-- The matcher's mask for stride `columns` (R161): bits i*C for i = 0..7. -/
def matcherMask (columns : Columns) : Window :=
  (List.range 8).foldl (fun m i => m ||| ((1 : Window) <<< (i * columns.toNat))) 0

/-- The matcher's match word for stride `columns` (R161): bit i*C where bit i of 0xB1 is 1. -/
def matcherPattern (columns : Columns) : Window :=
  (List.range 8).foldl
    (fun m i => if staticSync.getLsbD i then m ||| ((1 : Window) <<< (i * columns.toNat)) else m) 0

/-- The configuration check of R311. -/
def legalConfiguration (c : Configuration) : Bool :=
  legalRowsHint c.hintRows && legalColumnsHint c.hintColumns

end Sys2Proof.Machine
end

