-- ==== Sys2Proof/Machine/Ops.lean ====
section
/-! DEFINITION. The shared operations: raising a fault, the poll point, the event log, the history buffer and the
BitstreamDecoder (20_memory.md, 40_bitstream_decoder.md, 60_exceptions.md R308 and R310). -/

namespace Sys2Proof.Machine

open Sys2Proof

/-- How a part of a command ends: with a value, or with the command stopped where it stands, by a fault or by
cancellation (R307 item 7, R308). A stopped command keeps the state it had (R310). -/
inductive Res (α : Type) where
  | ok (a : α) (s : State)
  | stop (s : State)

/-- `r`, and then `k` unless `r` stopped the command. -/
def Res.andThen {α β : Type} (r : Res α) (k : α → State → Res β) : Res β :=
  match r with
  | .ok a s => k a s
  | .stop s => .stop s

/-- `raise Fault(code)` (R310): STATUS takes the code and the command ends where it stands; the rest of the state is
as it was. There is no saved state, vector or return (R320): only a new block runs again (R309). -/
def raise {α : Type} (code : FaultCode) (s : State) : Res α := .stop { s with status := .faulted code }

/-- `Poll()` (R308). The cancel input is read once per poll point. -/
def poll (s : State) : Res Unit :=
  match s.cancel with
  | [] => .ok () s
  | c :: rest =>
    if c then .stop { s with cancel := rest, status := .halted }
    else .ok () { s with cancel := rest }

/-- `Emit(ev)` (R10, R52): the event goes to the end of the log. -/
def emit (e : Event) (s : State) : State := { s with events := s.events ++ [e] }

/-! Entries and chains (R80 to R84). -/

/-- An entry (R80): LVL in bit 15, OVF in bit 14, FRAG in bits 13:0. -/
def mkEntry (level more : Bool) (frag : BitVec 14) : Entry :=
  BitVec.ofBool level ++ (BitVec.ofBool more ++ frag)

/-- FRAG, bits 13:0 (R80). -/
def entryFrag (e : Entry) : BitVec 14 := e.extractLsb' 0 14

/-- OVF, bit 14 (R80). -/
def entryMore (e : Entry) : Bool := e.getLsbD 14

/-- LVL, bit 15 (R80). -/
def entryLevel (e : Entry) : Bool := e.getLsbD 15

/-- The entries of a chain from its lowest fragment up, at most `fuel` of them (R82). -/
def encodeChainFrom (fuel : Nat) (level : Bool) (delta : Sample) : List Entry :=
  match fuel with
  | 0 => []
  | n + 1 =>
    if delta >>> 14 = 0 then [mkEntry level false (delta.extractLsb' 0 14)]
    else mkEntry level true (delta.extractLsb' 0 14) :: encodeChainFrom n level (delta >>> 14)

/-- EncodeChain(level, delta) (R82). Five fragments of 14 bits hold any 64-bit delta, so the bound of MAX_CHAIN cuts
nothing off. -/
def encodeChain (level : Bool) (delta : Sample) : List Entry := encodeChainFrom maxChainEntries level delta

/-- The entries of the chain at the head of `es`, up to its first entry with OVF = 0 (R84); none where `es` ends
first or the chain has more than `fuel` entries. -/
def takeChain (fuel : Nat) (es : List Entry) : Option (List Entry) :=
  match fuel, es with
  | 0, _ => none
  | _ + 1, [] => none
  | n + 1, e :: rest => if entryMore e then (takeChain n rest).map (e :: ·) else some [e]

/-- The delta a chain carries, modulo 2^64 (R83). -/
def chainDelta (c : List Entry) : Sample :=
  c.foldr (fun e acc => (acc <<< 14) ||| (entryFrag e).setWidth 64) 0

/-- The level a chain carries, that of its entries if they agree (R83): every entry agrees with the terminal one
exactly when every entry agrees with the first. -/
def chainLevel (c : List Entry) : Option Bool :=
  match c with
  | [] => none
  | e :: rest => if rest.all (fun x => entryLevel x == entryLevel e) then some (entryLevel e) else none

/-- DecodeChain at the head of `es` (R83): level, delta and number of entries, or none where R317 says
HISTORY_CORRUPT. -/
def decodeChain (es : List Entry) : Option (Bool × Sample × Nat) :=
  match takeChain maxChainEntries es with
  | none => none
  | some c =>
    match chainLevel c with
    | none => none
    | some level => some (level, chainDelta c, c.length)

/-! The history buffer (R60 to R65). -/

/-- `HistRead(i)` (R62); an index past the buffer holds no entry. -/
def histRead (s : State) (i : Nat) : Option Entry := s.hb.entries[i]?

/-- Entries that make whole chains (R65): `begun` is the chain begun and not yet ended, by its level and its number
of entries so far. Every entry of a chain carries one level (R81) and no chain has more than MAX_CHAIN entries. -/
def wholeChains (begun : Option (Bool × Nat)) (es : List Entry) : Bool :=
  match es with
  | [] => begun.isNone
  | e :: rest =>
    match begun with
    | none =>
      if entryMore e then wholeChains (some (entryLevel e, 1)) rest else wholeChains none rest
    | some (level, n) =>
      entryLevel e == level && decide (n + 1 ≤ maxChainEntries) &&
        (if entryMore e then wholeChains (some (level, n + 1)) rest else wholeChains none rest)

/-- The form of the history (R65): "the buffer either is empty or ends at a chain terminator", a concatenation of
whole chains. Equal histories are equal lists: an entry's index is its place. -/
def Memory.wf (es : List Entry) : Bool := wholeChains none es

/-- The capacity check and the append of a whole chain (R63, R120). -/
def histAppendChain (c : List Entry) (s : State) : Res Unit :=
  if s.hb.size + c.length > s.cfg.historyCapacity then raise .historyOverflow s
  else .ok () { s with hb := { s.hb with entries := s.hb.entries ++ c } }

/-- `HistClear()` (R64). -/
def histClear (s : State) : State := { s with hb := ⟨[], s.hb.epoch + 1⟩ }

/-- `HB.APPEND level, delta` (R120). -/
def hbAppend (level : Bool) (delta : Sample) (s : State) : Res Unit :=
  histAppendChain (encodeChain level delta) s

/-- `HB.READ_CHAIN index` (R121): level, delta and the index after the chain. -/
def hbReadChain (index : Nat) (s : State) : Res (Bool × Sample × Nat) :=
  match decodeChain (s.hb.entries.drop index) with
  | none => raise .historyCorrupt s
  | some (level, delta, n) => .ok (level, delta, index + n) s

/-! The BitstreamDecoder (R130 to R142). -/

/-- Common(level) (R133). -/
def commonBit (level : Bool) (s : State) : Bool × State :=
  (decodedBit s.bd.lastLevel level,
   { s with bd := { s.bd with parityIsOdd := parityAfter s.bd.parityIsOdd level, lastLevel := level } })

/-- BusResetCount(bit) (R134). -/
def busResetCount (bit : Bool) (s : State) : State :=
  if bit then
    let runStart := if s.bd.contiguousToggleCount = 0 then s.bd.currentSample else s.bd.runStartSample
    let count := s.bd.contiguousToggleCount + 1
    if count.toNat = busResetRun then
      emit (.busReset runStart s.bd.currentSample)
        { s with bd := { s.bd with runStartSample := runStart, contiguousToggleCount := 0 } }
    else { s with bd := { s.bd with runStartSample := runStart, contiguousToggleCount := count } }
  else { s with bd := { s.bd with contiguousToggleCount := 0 } }

/-- HistoryPath() (R131) and Common (R133): a replayed bit, which no bus reset counts. -/
def historyBit (index : Nat) (s : State) : Res Bool :=
  (hbReadChain index s).andThen fun (level, delta, next) s =>
    let s1 := { s with bd := { s.bd with
      currentSample := s.bd.currentSample + delta
      nextHistoryReadIndex := if next = s.hb.size then .sentinel else .entry next } }
    let (bit, s2) := commonBit level s1
    .ok bit s2

/-- The append of the live path (R132): only while collection is on. -/
def collectEdge (e : Edge) (s : State) : Res Unit :=
  if s.bd.collectHistory then hbAppend e.level (e.sample - s.bd.currentSample) s else .ok () s

/-- LivePath() (R132) on the record `e`, then Common (R133) and BusResetCount (R134). -/
def liveBit (e : Edge) (s : State) : Res Bool :=
  (collectEdge e s).andThen fun _ s =>
    let s1 := { s with bd := { s.bd with currentSample := e.sample } }
    let (bit, s2) := commonBit e.level s1
    .ok bit (busResetCount bit s2)

/-- EdgeIn() (R10, R50): the next record, taken from the input. -/
def takeEdge (s : State) : Option (Edge × State) :=
  match s.edges with
  | [] => none
  | e :: rest => some (e, { s with edges := rest, edgesTaken := s.edgesTaken + 1 })

/-- `BD.NEXT_BIT` (R130); none where it waits for an edge record (R318). -/
def nextBit (s : State) : Option (Res Bool) :=
  match s.bd.nextHistoryReadIndex with
  | .entry i => some (historyBit i s)
  | .sentinel =>
    match takeEdge s with
    | none => none
    | some (e, s1) => some (liveBit e s1)

/-- `BD.RESET_PARITY` (R136). -/
def resetParity (s : State) : State := { s with bd := { s.bd with parityIsOdd := false } }

/-- `BD.DISCARD_HISTORY` (R140). -/
def discardHistory (s : State) : State :=
  match s.bd.nextHistoryReadIndex with
  | .sentinel => histClear s
  | .entry _ => s

/-- `BD.COLLECT_HISTORY enable` (R139). -/
def collectHistory (enable : Bool) (s : State) : State :=
  let s1 := if enable then discardHistory s else s
  { s1 with bd := { s1.bd with collectHistory := enable } }

/-- `BD.MARK` (R141). -/
def mark (s : State) : Mark where
  lastLevel := s.bd.lastLevel
  parityIsOdd := s.bd.parityIsOdd
  currentSample := s.bd.currentSample
  index :=
    match s.bd.nextHistoryReadIndex with
    | .sentinel => s.hb.size
    | .entry i => i
  epoch := s.hb.epoch

/-- The registers of `BD.RESTORE` (R142). -/
def restoreRegs (m : Mark) (s : State) : State :=
  { s with bd := { s.bd with
      lastLevel := m.lastLevel
      parityIsOdd := m.parityIsOdd
      currentSample := m.currentSample
      nextHistoryReadIndex := if m.index ≥ s.hb.size then .sentinel else .entry m.index } }

/-- `BD.RESTORE mark` (R142): STALE_MARK is checked before BAD_MARK (R307 item 2). -/
def restore (m : Mark) (s : State) : Res Unit :=
  if m.epoch ≠ s.hb.epoch then raise .staleMark s
  else if m.index > s.hb.size then raise .badMark s
  else .ok () (restoreRegs m s)

end Sys2Proof.Machine
end

