-- ==== Sys2Proof/Machine/Units.lean ====
section
/-! DEFINITION. The operations of the units that act on an instance: StaticSyncMatcher (41), DynamicSyncGenerator (42),
FrameReader (43) and ControlWord (44), each as a function of the instance. -/

namespace Sys2Proof.Machine

open Sys2Proof

/-! StaticSyncMatcher. -/

/-- The matcher `SM.INIT columns` constructs (R161), for a stride of COLUMN_SET. -/
def matcherNew (columns : Columns) : Matcher := ⟨columns, 0, matcherMask columns, matcherPattern columns⟩

/-- `SM.INIT columns` (R161). -/
def matcherInit (columns : Columns) (s : State) : Res Matcher :=
  if columnSet.contains columns then .ok (matcherNew columns) s else raise .illegalShape s

/-- `SM.PUSH_BIT bit` (R162): the window takes the bit at position 0; the result says whether it matches. -/
def matcherPush (bit : Bool) (m : Matcher) : Matcher × Bool :=
  let m1 := { m with acc := (m.acc <<< 1) ||| (BitVec.ofBool bit).setWidth 128 }
  (m1, matcherFires m1)

/-! DynamicSyncGenerator. -/

/-- next(s) = DSYNC_TABLE[s] (R89, R171). -/
def dsyncNext (g : DSync) : DSync := dsyncTable.getD g.toNat 0

/-! ControlWord. -/

/-- `CW.LOAD value` (R201). -/
def cwLoadWord (value : CtrlWord) : ControlWord := ⟨value, 0⟩

/-- `CW.PUSH_BIT bit` (R202). -/
def cwPush (bit : Bool) (w : ControlWord) : ControlWord :=
  if w.wmask = 0 then w
  else ⟨if bit then w.value ||| w.wmask else w.value &&& ~~~w.wmask, w.wmask >>> 1⟩

/-- `CW.SKIP_BITS n` (R203): 0 when n is 48 or more. -/
def cwSkip (n : BitVec 64) (w : ControlWord) : ControlWord :=
  { w with wmask := if 48 ≤ n.toNat then 0 else w.wmask >>> n.toNat }

/-- `CW.IS_FRAME_SHAPE_CHANGE` (R220). -/
def cwShapeChange (v : CtrlWord) : Bool :=
  cwOpcode v == 3 && (cwRegAddr v == 0x60 || cwRegAddr v == 0x70)

/-- `CW.IS_PING_SAME_AS other` (R221). -/
def cwPingSame (v o : CtrlWord) : Bool :=
  cwPingStat4To11 v == cwPingStat4To11 o && cwPingStat0To3 v == cwPingStat0To3 o &&
    cwPreq v == cwPreq o && cwAck v == cwAck o && cwNak v == cwNak o

/-- ROWS_TABLE[data >> 3] (R87). -/
def rowsOfData (data : BitVec 8) : Rows := rowsTable.getD (data >>> 3).toNat 0

/-- COLS_TABLE[data & 7] (R88). -/
def columnsOfData (data : BitVec 8) : Columns := colsTable.getD (data &&& 7).toNat 0

/-- `CW.GET_NEW_SHAPE` (R222). -/
def cwNewShape (v : CtrlWord) : Rows × Columns :=
  (rowsOfData (cwRegData v), columnsOfData (cwRegData v))

/-! FrameReader. -/

/-- `FR.RESET` (R180). -/
def readerReset (r : FrameReader) : FrameReader :=
  { r with cw := ControlWord.reset, currentRow := 0, currentColumn := 0, state := .frameStart }

/-- The reader `FR.SET_SHAPE` leaves (R181), for a legal shape. -/
def readerShaped (rows : Rows) (columns : Columns) (r : FrameReader) : FrameReader :=
  readerReset { r with rows := rows, columns := columns }

/-- `FR.SET_SHAPE rows, columns` (R181). -/
def readerSetShape (rows : Rows) (columns : Columns) (r : FrameReader) (s : State) : Res FrameReader :=
  if legalShape rows columns then .ok (readerShaped rows columns r) s else raise .illegalShape s

/-- Advance() (R183), exact on the row and column numbers (R8); the result says whether the frame is complete. -/
def readerAdvance (r : FrameReader) : FrameReader × Bool :=
  if r.currentColumn.toNat + 1 = r.columns.toNat then
    if r.currentRow.toNat + 1 = r.rows.toNat then
      ({ r with currentColumn := 0, currentRow := 0, state := .frameComplete }, true)
    else ({ r with currentColumn := 0, currentRow := r.currentRow + 1 }, false)
  else ({ r with currentColumn := r.currentColumn + 1 }, false)

/-- The column-0 bit of rows 0 to 47 goes into the control word (R182). -/
def readerTakeBit (bit : Bool) (r : FrameReader) : FrameReader :=
  if r.currentColumn = 0 ∧ r.currentRow.toNat ≤ 47 then { r with cw := cwPush bit r.cw } else r

/-- What a push reports before the advance (R182): CAPTURE_PARITY at row 44, column 0, else FRAME_START for the
first push of a frame, else NEED_MORE_BITS. -/
def readerReport (r : FrameReader) : ReaderResult :=
  if r.currentColumn = 0 ∧ r.currentRow.toNat = parRow - 1 then .captureParity
  else if r.state = .frameStart then .frameStart
  else .needMoreBits

/-- `FR.PUSH_BIT bit` (R182). -/
def readerPush (bit : Bool) (r : FrameReader) : FrameReader × ReaderResult :=
  if r.state = .frameComplete then (r, .frameComplete)
  else
    let report := readerReport r
    let (r1, complete) := readerAdvance (readerTakeBit bit { r with state := .needMoreBits })
    (r1, if complete then .frameComplete else report)

end Sys2Proof.Machine
end

