-- ==== Sys2Proof/Machine/DriverSteps.lean ====
section
/-! DEFINITION. The parts of the driver's commands (46_frame_emitter.md R270 to R278) that run once their bit is
there. -/

namespace Sys2Proof.Machine

open Sys2Proof

/-- Where a command stands after a decoded bit: it needs another one, or it is done with its result. -/
inductive Progress where
  | more (t : Task)
  | done (v : Value)
deriving DecidableEq, Repr

/-- The rest of `FE.START` after its priming bit (R270). -/
def feStartRest (s : State) : State :=
  let s1 := collectHistory true s
  { s1 with fe := { s1.fe with startMark := mark s1, inSync := false, firstFrame := false, started := true } }

/-- The end of every `FE.STEP` (R271, R278): the progress write, then the poll. -/
def feStepEnd (s : State) : Res Progress :=
  (poll { s with progressSample := s.bd.currentSample }).andThen fun _ s => .ok (.done .none) s

/-- OnFrameStart() (R272). -/
def onFrameStart (s : State) : State := { s with fe := { s.fe with fStart := s.bd.currentSample } }

/-- OnCaptureParity() (R273). -/
def onCaptureParity (s : State) : State :=
  resetParity { s with fe := { s.fe with actualParityIsOdd := s.bd.parityIsOdd } }

/-- ApplyShapeChange(v) (R276). -/
def applyShapeChange (v : CtrlWord) (s : State) : Res Unit :=
  if cwShapeChange v then
    let (rows, columns) := cwNewShape v
    if rows ≠ 0 then
      (readerSetShape rows columns s.fe.reader s).andThen fun r s =>
        .ok () (emit (.shapeChange s.bd.currentSample rows columns) { s with fe := { s.fe with reader := r } })
    else
      let s1 := emit (.invalidShape s.bd.currentSample (cwRegData v)) s
      .ok () { s1 with fe := { s1.fe with reader := readerReset s1.fe.reader } }
  else .ok () { s with fe := { s.fe with reader := readerReset s.fe.reader } }

/-- The record of the frame just completed, with the flags given (R274). -/
def frameRecord (flags : BitVec 2) (s : State) : FrameRecord :=
  ⟨s.fe.fStart, s.bd.currentSample, s.fe.reader.cw.value, flags⟩

/-- The end of OnFrameComplete() for an accepted frame (R274): shape change, discard, new start mark. -/
def acceptFrame (v : CtrlWord) (s : State) : Res Unit :=
  (applyShapeChange v s).andThen fun _ s =>
    let s1 := discardHistory s
    .ok () { s1 with fe := { s1.fe with startMark := mark s1 } }

/-- OnFrameComplete() for the seed frame (R274). -/
def onSeedFrame (s : State) : Res Unit :=
  let v := s.fe.reader.cw.value
  acceptFrame v
    (emit (.frame (frameRecord 0 s)) { s with fe := { s.fe with gen := cwDynamicSync v, firstFrame := false } })

/-- OnFrameComplete() for a later frame (R274): DSG.NEXT is issued only when the static sync matched; a SYNC_LOST
frame is emitted and ends there (decision D20). -/
def onLaterFrame (s : State) : Res Unit :=
  let v := s.fe.reader.cw.value
  let bad := parityBad s.fe.actualParityIsOdd v
  let gen := if cwStaticSync v = staticSync then dsyncNext s.fe.gen else s.fe.gen
  let lost := syncLost gen v
  let s1 := emit (.frame (frameRecord (frameFlags bad lost) s)) { s with fe := { s.fe with gen := gen } }
  if lost then .ok () { s1 with fe := { s1.fe with inSync := false } } else acceptFrame v s1

/-- OnFrameComplete() (R274). -/
def onFrameComplete (s : State) : Res Unit :=
  if s.fe.firstFrame then onSeedFrame s else onLaterFrame s

/-- What the driver does with the reader's result (R271). -/
def onReaderResult (r : ReaderResult) (s : State) : Res Unit :=
  match r with
  | .frameStart => .ok () (onFrameStart s)
  | .needMoreBits => .ok () s
  | .captureParity => .ok () (onCaptureParity s)
  | .frameComplete => onFrameComplete s

/-- An in-sync `FE.STEP` on its decoded bit (R271). -/
def feBitRest (b : Bool) (s : State) : Res Progress :=
  let (rd, r) := readerPush b s.fe.reader
  (onReaderResult r { s with fe := { s.fe with reader := rd } }).andThen fun _ s => feStepEnd s

/-- Resync() after its search found the shape (R275), and the end of its `FE.STEP`. -/
def feResyncRest (rows : Rows) (columns : Columns) (s : State) : Res Progress :=
  let s1 := emit (.shapeChange s.bd.currentSample rows columns) s
  (readerSetShape rows columns s1.fe.reader s1).andThen fun r s =>
    let s2 := discardHistory { s with fe := { s.fe with reader := r } }
    feStepEnd { s2 with fe := { s2.fe with inSync := true, firstFrame := true } }

end Sys2Proof.Machine
end

