-- ==== Sys2Proof/Machine/SyncSearch.lean ====
section
/-! DEFINITION. The sync finder's search (45_sync_finder.md), cut at its decoded bits: each definition runs from one
`SFBit()` (R251) to the next, or to the end of the command. -/

namespace Sys2Proof.Machine

open Sys2Proof

/-! SF.CHECK_SYNC and phase 2, forward parts. -/

/-- The start of `SF.CHECK_SYNC R, C` (R244): a private reader and generator, the initial mark. -/
def startCheck (ask : Asker) (rows : Rows) (columns : Columns) (count : Nat) (s : State) : Res Progress :=
  (readerSetShape rows columns FrameReader.reset s).andThen fun r s =>
    .ok (.more (.check ask ⟨r, 0, mark s, 0, false⟩ count)) s

/-- The alignment skip of phase 2 (R243), then `SF.CHECK_SYNC`. -/
def startAlign (ask : Asker) (rows : Rows) (columns : Columns) (left count : Nat) (s : State) : Res Progress :=
  if left = 0 then startCheck ask rows columns count s else .ok (.more (.align ask rows columns left count)) s

/-- `SF.TEST_IF_SYNC_IS_REAL` (R243). The shape is checked before any state changes (R307 item 1, R352; log entry 11).
The marks are checked where R243 restores them, so that a stale or bad `search_start_mark` faults after the registers
were restored from a usable `match_mark`, and goes unread where the match is nearer than 31*C + 1: R307 item 1 may also
be read as both marks first. DESIGN CHOICE (log entry 23). -/
def startTest (ask : Asker) (rows : Rows) (columns : Columns) (offset : Nat) (start matched : Mark) (count : Nat)
    (s : State) : Res Progress :=
  if legalShape rows columns then
    (restore matched s).andThen fun _ s =>
      let l := lastStaticSyncBitOffset columns
      if l ≤ offset then
        (restore start s).andThen fun _ s => startAlign ask rows columns (offset - l) count s
      else startAlign ask rows columns (totalBitsInFrame rows columns - l) count s
  else raise .illegalShape s

/-! Phase 1 and the windows. -/

/-- A column candidate begins (R241, R242): back to the window's start, a fresh matcher, offset 0. A hint outside
COLUMN_SET, which only a command by hand can give, faults here, at SM.INIT. DESIGN CHOICE (log entry 24). -/
def startColumn (who : Finder) (w : Scan) (columns : Columns) (rest : List Columns) (count : Nat) (s : State) :
    Res Progress :=
  (restore w.startMark s).andThen fun _ s =>
    (matcherInit columns s).andThen fun m s =>
      .ok (.more (.scan who { w with matcher := m, columnsLeft := rest, offset := 0 } count)) s

/-- A search window begins (R241). The candidates are never none (R240). -/
def startWindow (who : Finder) (w : Scan) (count : Nat) (s : State) : Res Progress :=
  match columnCandidates w.columnsHint with
  | [] => .ok (.done .none) s
  | c :: rest => startColumn who { w with startMark := mark s } c rest count s

/-- AdvanceWindow() (R246) from where it stands: replay to the live tail, then discard and begin a new window. -/
def advanceWindow (who : Finder) (w : Scan) (count : Nat) (s : State) : Res Progress :=
  match s.bd.nextHistoryReadIndex with
  | .entry _ => .ok (.more (.advance who w count)) s
  | .sentinel => startWindow who w count (discardHistory s)

/-- The end of a column window (R241): the poll, then the next candidate or the next window. -/
def endColumn (who : Finder) (w : Scan) (count : Nat) (s : State) : Res Progress :=
  (poll s).andThen fun _ s =>
    match w.columnsLeft with
    | [] => advanceWindow who w count s
    | c :: rest => startColumn who w c rest count s

/-- Phase 1 goes on, or its column window is spent (R241). -/
def continueScan (who : Finder) (w : Scan) (count : Nat) (s : State) : Res Progress :=
  if w.offset < searchLimit w.matcher.columns then .ok (.more (.scan who w count)) s else endColumn who w count s

/-- Phase 2 on the row candidates still to try (R241); with none left the scan goes on with the same matcher. A rows
hint outside ROW_SET, which only a command by hand can give, faults here, at the first match, after the bits up to it
were consumed: R240 takes the hints as valid and R310 names no fault of SF.FIND_SYNC's own. DESIGN CHOICE (log
entry 24). -/
def tryRows (who : Finder) (w : Scan) (rows : List Rows) (count : Nat) (s : State) : Res Progress :=
  match rows with
  | [] => continueScan who w count s
  | r :: rest =>
    let w1 := { w with row := r, rowsLeft := rest }
    startTest (.search who w1) r w.matcher.columns w.offset w.startMark w.matchMark count s

/-- Phase 1 on its decoded bit (R241). -/
def scanBit (who : Finder) (w : Scan) (count : Nat) (b : Bool) (s : State) : Res Progress :=
  let (m, fires) := matcherPush b w.matcher
  let w1 := { w with matcher := m, offset := w.offset + 1 }
  if fires then tryRows who { w1 with matchMark := mark s } (rowCandidates w.rowsHint) count s
  else continueScan who w1 count s

/-! The answer of SF.CHECK_SYNC. -/

/-- The commit of R247 and the result of R241. -/
def foundSync (who : Finder) (rows : Rows) (columns : Columns) (s : State) : Res Progress :=
  let s1 := { s with sf := ⟨rows, columns⟩ }
  match who with
  | .command => .ok (.done (.shape rows columns)) s1
  | .driver => feResyncRest rows columns s1

/-- `SF.CHECK_SYNC` ends (R244): back to the initial mark, and the answer `n` goes to who asked (R241, R243). -/
def finishCheck (ask : Asker) (entry : Mark) (n count : Nat) (s : State) : Res Progress :=
  (restore entry s).andThen fun _ s =>
    match ask with
    | .check => .ok (.done (.count n)) s
    | .test => .ok (.done (.u1 (decide (n > 15)))) s
    | .search who w =>
      if n > 15 then foundSync who w.row w.matcher.columns s
      else (restore w.matchMark s).andThen fun _ s => tryRows who w w.rowsLeft count s

/-- The reader for the frame after the one with control word `v` (R244): reshaped by a shape change with rows not 0,
else reset. -/
def nextReader (v : CtrlWord) (r : FrameReader) (s : State) : Res FrameReader :=
  if cwShapeChange v && (cwNewShape v).1 != 0 then readerSetShape (cwNewShape v).1 (cwNewShape v).2 r s
  else .ok (readerReset r) s

/-- `SF.CHECK_SYNC` goes on with the next frame (R244). -/
def nextFrame (ask : Asker) (c : Check) (v : CtrlWord) (count : Nat) (s : State) : Res Progress :=
  (nextReader v c.reader s).andThen fun r s =>
    .ok (.more (.check ask { c with reader := r, cap := false } count)) s

/-- `SF.CHECK_SYNC` on a frame just read and polled (R244): the seed frame while `framesOk` is 0, else a frame to
verify. -/
def frameRead (ask : Asker) (c : Check) (count : Nat) (s : State) : Res Progress :=
  let v := c.reader.cw.value
  if c.framesOk = 0 then
    if cwDynamicSync v = 0 then finishCheck ask c.entryMark 0 count s
    else nextFrame ask { c with gen := cwDynamicSync v, framesOk := 1 } v count s
  else
    let gen := dsyncNext c.gen
    if parityBad c.cap v || syncLost gen v then finishCheck ask c.entryMark c.framesOk count s
    else if c.framesOk + 1 ≥ syncFrames then finishCheck ask c.entryMark (c.framesOk + 1) count s
    else nextFrame ask { c with gen := gen, framesOk := c.framesOk + 1 } v count s

/-- READ_FRAME on its decoded bit (R245), the poll after each frame (R244) included. -/
def checkBit (ask : Asker) (c : Check) (count : Nat) (b : Bool) (s : State) : Res Progress :=
  let (rd, r) := readerPush b c.reader
  match r with
  | .captureParity =>
    .ok (.more (.check ask { c with reader := rd, cap := s.bd.parityIsOdd } count)) (resetParity s)
  | .frameComplete => (poll s).andThen fun _ s => frameRead ask { c with reader := rd } count s
  | .frameStart => .ok (.more (.check ask { c with reader := rd } count)) s
  | .needMoreBits => .ok (.more (.check ask { c with reader := rd } count)) s

/-! The whole search. -/

/-- `SF.FIND_SYNC rows_hint, columns_hint` (R241) at its start: scan_count 0, the first window. The working values
that R241 writes later hold placeholders until then, and no rule reads them before (R331): `match_mark` the zero Mark
and the row candidate 0 with none left, up to the first match, as a search that waits before it shows.
DESIGN CHOICE (log entry 22). -/
def startFind (who : Finder) (rowsHint : Rows) (columnsHint : Columns) (s : State) : Res Progress :=
  startWindow who ⟨rowsHint, columnsHint, Mark.zero, [], Matcher.reset, 0, Mark.zero, 0, []⟩ 0 s

/-- The sync finder's bit counter and poll (R251): the bit just consumed is number `count + 1`. -/
def countBit (count : Nat) (s : State) : Res Nat :=
  if (count + 1) % pollInterval = 0 then (poll s).andThen fun _ s => .ok (count + 1) s else .ok (count + 1) s

/-- Resync() (R275) up to the search's first bit. -/
def startResync (s : State) : Res Progress :=
  (restore s.fe.startMark s).andThen fun _ s => startFind .driver s.cfg.hintRows s.cfg.hintColumns s

end Sys2Proof.Machine
end

