-- ==== Sys2Proof/Machine/Run.lean ====
section
/-! DEFINITION. How a command runs: at once, or bit by bit until it is done, stopped, or waiting for an edge record
(00_scope.md R6 and R10, 60_exceptions.md R307, R309 and R318). -/

namespace Sys2Proof.Machine

open Sys2Proof

/-- A command in progress on the decoded bit it was waiting for. -/
def onBit (t : Task) (b : Bool) (s : State) : Res Progress :=
  match t with
  | .nextBit => .ok (.done (.u1 b)) s
  | .skipBits left => if left ≤ 1 then .ok (.done .none) s else .ok (.more (.skipBits (left - 1))) s
  | .feStart => .ok (.done .none) (feStartRest s)
  | .feBit => feBitRest b s
  | .scan who w count => (countBit count s).andThen fun count s => scanBit who w count b s
  | .advance who w count => (countBit count s).andThen fun count s => advanceWindow who w count s
  | .align ask rows columns left count =>
    (countBit count s).andThen fun count s => startAlign ask rows columns (left - 1) count s
  | .check ask c count => (countBit count s).andThen fun count s => checkBit ask c count b s

/-- A command in progress up to its end, or up to where it waits for an edge record. With `fuel` decoded bits spent
it rests in progress, and the next step goes on with it: the bound cuts no command off. Waiting leaves STATUS as it is,
so that a unit command issued from IDLE (R334) waits IDLE: R47 and R318 call a waiting block RUNNING, and R47 also calls
it IDLE until FE.START has run. DESIGN CHOICE (log entry 21). -/
def runTask (fuel : Nat) (t : Task) (s : State) : State :=
  match fuel with
  | 0 => { s with task := some t }
  | n + 1 =>
    match nextBit s with
    | none => { s with task := some t }
    | some r =>
      match r.andThen (onBit t) with
      | .stop s1 => s1
      | .ok (.done v) s1 => s1.returning v
      | .ok (.more t1) s1 => runTask n t1 s1

/-- More decoded bits than any command can take from the edges and the history at hand. Between two restores a command
takes at most what is at hand, a search window restores fewer than 2^22 times, and each window after the first begins at
the live tail and takes edges of its own (R92, R241, R246). -/
def bitBound (s : State) : Nat := 2 ^ 40 * (s.edges.length + s.hb.size + 2) ^ 2

/-- A command as far as it goes from its start. -/
def settle (r : Res Progress) : State :=
  match r with
  | .stop s => s
  | .ok (.done v) s => s.returning v
  | .ok (.more t) s => runTask (bitBound s) t s

/-- The command in progress resumed (R326). -/
def resume (t : Task) (s : State) : State := runTask (bitBound s) t { s with task := none }

/-- Every command first asks whether the run has ended, and then has no effect at all (R309); no two commands
overlap (R76). -/
def issue (s : State) (body : State → State) : Out :=
  if statusEnded s.status then .next s
  else
    match s.task with
    | some _ => .refused .commandOverlap
    | none => .next (body s)

/-- A command that takes no edge: it completes at once with its result, or stops. -/
def atOnce (r : Res Value) : State :=
  match r with
  | .ok v s => s.returning v
  | .stop s => s

/-- A block waiting at the edge input (R318): its command in progress needs a live edge and there is none. -/
def waiting (s : State) : Bool :=
  match s.task, nextBit s with
  | some _, none => true
  | _, _ => false

end Sys2Proof.Machine
end

