-- ==== Sys2Proof/Machine/BitstreamDecoder.lean ====
section
/-! DEFINITION. The meanings of unit BD (40_bitstream_decoder.md R130 to R142). -/

namespace Sys2Proof.Machine

open Sys2Proof

/-- `BD.NEXT_BIT` (R130). -/
def execBdNextBit (s : State) : Out := issue s fun s => settle (.ok (.more .nextBit) s)

/-- `BD.SKIP_BITS n` (R135): `n` discarded NEXT_BITs; 0 does nothing. -/
def execBdSkipBits (n : BitVec 64) (s : State) : Out :=
  issue s fun s => settle (if n = 0 then .ok (.done .none) s else .ok (.more (.skipBits n.toNat)) s)

/-- `BD.RESET_PARITY` (R136). -/
def execBdResetParity (s : State) : Out := issue s fun s => atOnce (.ok .none (resetParity s))

/-- `BD.IS_PARITY_ODD` (R137). -/
def execBdIsParityOdd (s : State) : Out := issue s fun s => atOnce (.ok (.u1 s.bd.parityIsOdd) s)

/-- `BD.CURRENT_SAMPLE` (R138). -/
def execBdCurrentSample (s : State) : Out := issue s fun s => atOnce (.ok (.u64 s.bd.currentSample) s)

/-- `BD.COLLECT_HISTORY enable` (R139). -/
def execBdCollectHistory (enable : Bool) (s : State) : Out :=
  issue s fun s => atOnce (.ok .none (collectHistory enable s))

/-- `BD.DISCARD_HISTORY` (R140). -/
def execBdDiscardHistory (s : State) : Out := issue s fun s => atOnce (.ok .none (discardHistory s))

/-- `BD.MARK` (R141). -/
def execBdMark (s : State) : Out := issue s fun s => atOnce (.ok (.mark (mark s)) s)

/-- `BD.RESTORE mark` (R142). -/
def execBdRestore (m : Mark) (s : State) : Out :=
  issue s fun s => atOnce ((restore m s).andThen fun _ s => .ok .none s)

end Sys2Proof.Machine
end

