-- ==== Sys2Proof/Machine/ControlWord.lean ====
section
/-! DEFINITION. The meanings of unit CW (44_control_word.md R200 to R222). -/

namespace Sys2Proof.Machine

open Sys2Proof

/-- A command that answers with a function of the named control word's value and changes nothing else
(44_control_word.md section 2). -/
def readWord (w : WordName) (f : CtrlWord → Value) (s : State) : Out :=
  issue s fun s => atOnce (.ok (f (s.word w).value) s)

/-- A command that changes the named control word only. -/
def changeWord (w : WordName) (f : ControlWord → ControlWord) (s : State) : Out :=
  issue s fun s => atOnce (.ok .none (s.setWord w (f (s.word w))))

/-- `CW.RESET` (R200). -/
def execCwReset (w : WordName) (s : State) : Out := changeWord w (fun _ => ControlWord.reset) s

/-- `CW.LOAD value` (R201). -/
def execCwLoad (w : WordName) (value : CtrlWord) (s : State) : Out := changeWord w (fun _ => cwLoadWord value) s

/-- `CW.PUSH_BIT bit` (R202). -/
def execCwPushBit (w : WordName) (bit : Bool) (s : State) : Out := changeWord w (cwPush bit) s

/-- `CW.SKIP_BITS n` (R203). -/
def execCwSkipBits (w : WordName) (n : BitVec 64) (s : State) : Out := changeWord w (cwSkip n) s

/-- `CW.VALUE` (R204). -/
def execCwValue (w : WordName) (s : State) : Out := readWord w .u48 s

/-- `CW.IS_PING_SAME_AS other` (R221). -/
def execCwIsPingSameAs (w : WordName) (other : CtrlWord) (s : State) : Out :=
  readWord w (fun v => .u1 (cwPingSame v other)) s

/-- `CW.IS_FRAME_SHAPE_CHANGE` (R220). -/
def execCwIsFrameShapeChange (w : WordName) (s : State) : Out := readWord w (fun v => .u1 (cwShapeChange v)) s

/-- `CW.GET_NEW_SHAPE` (R222). -/
def execCwGetNewShape (w : WordName) (s : State) : Out :=
  readWord w (fun v => .shape (cwNewShape v).1 (cwNewShape v).2) s

/-- `CW.PREQ` (R205). -/
def execCwPreq (w : WordName) (s : State) : Out := readWord w (fun v => .u1 (cwPreq v)) s

/-- `CW.OPCODE` (R206). -/
def execCwOpcode (w : WordName) (s : State) : Out := readWord w (fun v => .u3 (cwOpcode v)) s

/-- `CW.DEVADDR` (R207). -/
def execCwDevAddr (w : WordName) (s : State) : Out := readWord w (fun v => .u4 (cwDevAddr v)) s

/-- `CW.STATICSYNC` (R208). -/
def execCwStaticSync (w : WordName) (s : State) : Out := readWord w (fun v => .u8 (cwStaticSync v)) s

/-- `CW.PHYSYNC` (R209). -/
def execCwPhySync (w : WordName) (s : State) : Out := readWord w (fun v => .u1 (cwPhySync v)) s

/-- `CW.REGADDR` (R210). -/
def execCwRegAddr (w : WordName) (s : State) : Out := readWord w (fun v => .u16 (cwRegAddr v)) s

/-- `CW.REGDATA` (R211). -/
def execCwRegData (w : WordName) (s : State) : Out := readWord w (fun v => .u8 (cwRegData v)) s

/-- `CW.SSP` (R212). -/
def execCwSsp (w : WordName) (s : State) : Out := readWord w (fun v => .u1 (cwSsp v)) s

/-- `CW.PINGSTAT4_11` (R213). -/
def execCwPingStat4To11 (w : WordName) (s : State) : Out := readWord w (fun v => .u16 (cwPingStat4To11 v)) s

/-- `CW.PINGSTAT0_3` (R214). -/
def execCwPingStat0To3 (w : WordName) (s : State) : Out := readWord w (fun v => .u8 (cwPingStat0To3 v)) s

/-- `CW.DYNAMICSYNC` (R215). -/
def execCwDynamicSync (w : WordName) (s : State) : Out := readWord w (fun v => .u4 (cwDynamicSync v)) s

/-- `CW.PAR` (R216). -/
def execCwPar (w : WordName) (s : State) : Out := readWord w (fun v => .u1 (cwPar v)) s

/-- `CW.NAK` (R217). -/
def execCwNak (w : WordName) (s : State) : Out := readWord w (fun v => .u1 (cwNak v)) s

/-- `CW.ACK` (R218). -/
def execCwAck (w : WordName) (s : State) : Out := readWord w (fun v => .u1 (cwAck v)) s

end Sys2Proof.Machine
end

