-- ==== Sys2Proof/Machine/DynamicSync.lean ====
section
/-! DEFINITION. The meanings of unit DSG (42_dynamic_sync.md R170, R171). -/

namespace Sys2Proof.Machine

open Sys2Proof

/-- `DSG.SEED seed` on the generator named (R170). -/
def execDsgSeed (g : GenName) (seed : DSync) (s : State) : Out :=
  issue s fun s => atOnce (.ok .none (s.setGenerator g seed))

/-- `DSG.NEXT` on the generator named (R171). -/
def execDsgNext (g : GenName) (s : State) : Out :=
  issue s fun s =>
    let v := dsyncNext (s.generator g)
    atOnce (.ok (.u4 v) (s.setGenerator g v))

end Sys2Proof.Machine
end

