-- ==== Sys2Proof/Machine/FrameEmitter.lean ====
section
/-! DEFINITION. The meanings of unit FE (46_frame_emitter.md R270, R271). -/

namespace Sys2Proof.Machine

open Sys2Proof

/-- `FE.START` (R270): from IDLE only (R316). -/
def execFeStart (s : State) : Out :=
  issue s fun s =>
    settle (if s.status = .idle then .ok (.more .feStart) { s with status := .running } else raise .badSequence s)

/-- `FE.STEP` (R271): from RUNNING and started only (R316); one decoded bit in sync, else a whole resync (R275). -/
def execFeStep (s : State) : Out :=
  issue s fun s =>
    settle
      (if s.status ≠ .running ∨ s.fe.started = false then raise .badSequence s
       else if s.fe.inSync then .ok (.more .feBit) s
       else startResync s)

end Sys2Proof.Machine
end

