-- ==== Sys2Proof/Machine/FrameReader.lean ====
section
/-! DEFINITION. The meanings of unit FR (43_frame_reader.md R180 to R183). -/

namespace Sys2Proof.Machine

open Sys2Proof

/-- `FR.RESET` on the reader named (R180). -/
def execFrReset (r : ReaderName) (s : State) : Out :=
  issue s fun s => atOnce (.ok .none (s.setReader r (readerReset (s.reader r))))

/-- `FR.SET_SHAPE rows, columns` on the reader named (R181). -/
def execFrSetShape (r : ReaderName) (rows : Rows) (columns : Columns) (s : State) : Out :=
  issue s fun s =>
    atOnce ((readerSetShape rows columns (s.reader r) s).andThen fun rd s => .ok .none (s.setReader r rd))

/-- `FR.PUSH_BIT bit` on the reader named (R182). -/
def execFrPushBit (r : ReaderName) (bit : Bool) (s : State) : Out :=
  issue s fun s =>
    let (rd, res) := readerPush bit (s.reader r)
    atOnce (.ok (.u2 (readerResultCode res)) (s.setReader r rd))

end Sys2Proof.Machine
end

