-- ==== Sys2Proof/Machine/History.lean ====
section
/-! DEFINITION. The meanings of unit HB (40_bitstream_decoder.md R120 to R122). -/

namespace Sys2Proof.Machine

open Sys2Proof

/-- `HB.APPEND level, delta` (R120). -/
def execHbAppend (level : Bool) (delta : Sample) (s : State) : Out :=
  issue s fun s => atOnce ((hbAppend level delta s).andThen fun _ s => .ok .none s)

/-- `HB.READ_CHAIN index` (R121). -/
def execHbReadChain (index : Nat) (s : State) : Out :=
  issue s fun s => atOnce ((hbReadChain index s).andThen fun (level, delta, next) s => .ok (.chain level delta next) s)

/-- `HB.CLEAR` (R122). -/
def execHbClear (s : State) : Out := issue s fun s => atOnce (.ok .none (histClear s))

end Sys2Proof.Machine
end

