-- ==== Sys2Proof/Machine/StaticSyncMatcher.lean ====
section
/-! DEFINITION. The meanings of unit SM (41_static_sync_matcher.md R161, R162). -/

namespace Sys2Proof.Machine

open Sys2Proof

/-- `SM.INIT columns` on the matcher named (R161). -/
def execSmInit (sm : Nat) (columns : Columns) (s : State) : Out :=
  issue s fun s => atOnce ((matcherInit columns s).andThen fun m s => .ok .none (s.setMatcher sm m))

/-- `SM.PUSH_BIT bit` on the matcher named (R162). -/
def execSmPushBit (sm : Nat) (bit : Bool) (s : State) : Out :=
  issue s fun s =>
    let (m, fires) := matcherPush bit (s.matcher sm)
    atOnce (.ok (.u1 fires) (s.setMatcher sm m))

end Sys2Proof.Machine
end

