-- ==== Sys2Proof/Machine/SyncFinder.lean ====
section
/-! DEFINITION. The meanings of unit SF (45_sync_finder.md R241 to R244). -/

namespace Sys2Proof.Machine

open Sys2Proof

/-- `SF.FIND_SYNC rows_hint, columns_hint` (R241). -/
def execSfFindSync (rowsHint : Rows) (columnsHint : Columns) (s : State) : Out :=
  issue s fun s => settle (startFind .command rowsHint columnsHint s)

/-- `SF.TEST_IF_SYNC_IS_REAL R, C, matched_bit_offset, search_start_mark, match_mark` (R243); scan_count starts at 0
(R251). -/
def execSfTestIfSyncIsReal (rows : Rows) (columns : Columns) (offset : Nat) (start matched : Mark) (s : State) : Out :=
  issue s fun s => settle (startTest .test rows columns offset start matched 0 s)

/-- `SF.CHECK_SYNC R, C` (R244); scan_count starts at 0 (R251). -/
def execSfCheckSync (rows : Rows) (columns : Columns) (s : State) : Out :=
  issue s fun s => settle (startCheck .check rows columns 0 s)

end Sys2Proof.Machine
end

