-- ==== Sys2Proof/Machine/Dispatch.lean ====
section
/-! DEFINITION. The dispatch of the commands to their meanings, one arm per constructor of Instr. -/

namespace Sys2Proof.Machine

open Sys2Proof

def exec (i : Instr) (s : State) : Host.Outcome State Fault Refusal :=
  match i with
  | .hbAppend level delta => Sys2Proof.Machine.execHbAppend level delta s
  | .hbReadChain index => Sys2Proof.Machine.execHbReadChain index s
  | .hbClear => Sys2Proof.Machine.execHbClear s
  | .bdNextBit => Sys2Proof.Machine.execBdNextBit s
  | .bdSkipBits n => Sys2Proof.Machine.execBdSkipBits n s
  | .bdResetParity => Sys2Proof.Machine.execBdResetParity s
  | .bdIsParityOdd => Sys2Proof.Machine.execBdIsParityOdd s
  | .bdCurrentSample => Sys2Proof.Machine.execBdCurrentSample s
  | .bdCollectHistory enable => Sys2Proof.Machine.execBdCollectHistory enable s
  | .bdDiscardHistory => Sys2Proof.Machine.execBdDiscardHistory s
  | .bdMark => Sys2Proof.Machine.execBdMark s
  | .bdRestore mark => Sys2Proof.Machine.execBdRestore mark s
  | .smInit sm columns => Sys2Proof.Machine.execSmInit sm columns s
  | .smPushBit sm bit => Sys2Proof.Machine.execSmPushBit sm bit s
  | .dsgSeed g seed => Sys2Proof.Machine.execDsgSeed g seed s
  | .dsgNext g => Sys2Proof.Machine.execDsgNext g s
  | .frReset r => Sys2Proof.Machine.execFrReset r s
  | .frSetShape r rows columns => Sys2Proof.Machine.execFrSetShape r rows columns s
  | .frPushBit r bit => Sys2Proof.Machine.execFrPushBit r bit s
  | .cwReset w => Sys2Proof.Machine.execCwReset w s
  | .cwLoad w value => Sys2Proof.Machine.execCwLoad w value s
  | .cwPushBit w bit => Sys2Proof.Machine.execCwPushBit w bit s
  | .cwSkipBits w n => Sys2Proof.Machine.execCwSkipBits w n s
  | .cwValue w => Sys2Proof.Machine.execCwValue w s
  | .cwIsPingSameAs w other => Sys2Proof.Machine.execCwIsPingSameAs w other s
  | .cwIsFrameShapeChange w => Sys2Proof.Machine.execCwIsFrameShapeChange w s
  | .cwGetNewShape w => Sys2Proof.Machine.execCwGetNewShape w s
  | .cwPreq w => Sys2Proof.Machine.execCwPreq w s
  | .cwOpcode w => Sys2Proof.Machine.execCwOpcode w s
  | .cwDevAddr w => Sys2Proof.Machine.execCwDevAddr w s
  | .cwStaticSync w => Sys2Proof.Machine.execCwStaticSync w s
  | .cwPhySync w => Sys2Proof.Machine.execCwPhySync w s
  | .cwRegAddr w => Sys2Proof.Machine.execCwRegAddr w s
  | .cwRegData w => Sys2Proof.Machine.execCwRegData w s
  | .cwSsp w => Sys2Proof.Machine.execCwSsp w s
  | .cwPingStat4To11 w => Sys2Proof.Machine.execCwPingStat4To11 w s
  | .cwPingStat0To3 w => Sys2Proof.Machine.execCwPingStat0To3 w s
  | .cwDynamicSync w => Sys2Proof.Machine.execCwDynamicSync w s
  | .cwPar w => Sys2Proof.Machine.execCwPar w s
  | .cwNak w => Sys2Proof.Machine.execCwNak w s
  | .cwAck w => Sys2Proof.Machine.execCwAck w s
  | .sfFindSync rows columns => Sys2Proof.Machine.execSfFindSync rows columns s
  | .sfTestIfSyncIsReal rows columns offset start matched => Sys2Proof.Machine.execSfTestIfSyncIsReal rows columns offset start matched s
  | .sfCheckSync rows columns => Sys2Proof.Machine.execSfCheckSync rows columns s
  | .feStart => Sys2Proof.Machine.execFeStart s
  | .feStep => Sys2Proof.Machine.execFeStep s

end Sys2Proof.Machine
end

