-- ==== Sys2Proof/Decode.lean ====
section
/-! DEFINITION. The decoder of the command map (30_encoding.md R98, R99) and, after it, the encoder. The command word
is CMD8: bits 7:4 UNIT, bits 3:0 OP. The operands stand beside the word, each in its own lane (R98). -/

namespace Sys2Proof

/-- Why a command word has no command: the word is assigned to none (R97: RESERVED_COMMAND). -/
inductive Reserved where
  | reservedCommand (code : BitVec 8)
deriving DecidableEq, Repr

/-- CMD8's UNIT field, bits 7:4 (R98). -/
def cmdUnit (code : BitVec 8) : BitVec 4 := code.extractLsb' 4 4

/-- CMD8's OP field, bits 3:0 (R98). -/
def cmdOp (code : BitVec 8) : BitVec 4 := code.extractLsb' 0 4

/-- The operations of unit 0x1, HB (R99). -/
def decodeHb (op : Nat) (a : Operands) : Option Instr :=
  match op with
  | 0x0 => some (.hbAppend a.level a.delta)
  | 0x1 => some (.hbReadChain a.index)
  | 0x2 => some (.hbClear)
  | _ => none

/-- The operations of unit 0x2, BD (R99). -/
def decodeBd (op : Nat) (a : Operands) : Option Instr :=
  match op with
  | 0x0 => some (.bdNextBit)
  | 0x1 => some (.bdSkipBits a.n)
  | 0x2 => some (.bdResetParity)
  | 0x3 => some (.bdIsParityOdd)
  | 0x4 => some (.bdCurrentSample)
  | 0x5 => some (.bdCollectHistory a.enable)
  | 0x6 => some (.bdDiscardHistory)
  | 0x7 => some (.bdMark)
  | 0x8 => some (.bdRestore a.mark)
  | _ => none

/-- The operations of unit 0x3, SM (R99). -/
def decodeSm (op : Nat) (a : Operands) : Option Instr :=
  match op with
  | 0x0 => some (.smInit a.matcher a.columns)
  | 0x1 => some (.smPushBit a.matcher a.bit)
  | _ => none

/-- The operations of unit 0x4, DSG (R99). -/
def decodeDsg (op : Nat) (a : Operands) : Option Instr :=
  match op with
  | 0x0 => some (.dsgSeed a.generator a.seed)
  | 0x1 => some (.dsgNext a.generator)
  | _ => none

/-- The operations of unit 0x5, FR (R99). -/
def decodeFr (op : Nat) (a : Operands) : Option Instr :=
  match op with
  | 0x0 => some (.frReset a.reader)
  | 0x1 => some (.frSetShape a.reader a.rows a.columns)
  | 0x2 => some (.frPushBit a.reader a.bit)
  | _ => none

/-- The operations of unit 0x6, CW operations (R99). -/
def decodeCw (op : Nat) (a : Operands) : Option Instr :=
  match op with
  | 0x0 => some (.cwReset a.word)
  | 0x1 => some (.cwLoad a.word a.value)
  | 0x2 => some (.cwPushBit a.word a.bit)
  | 0x3 => some (.cwSkipBits a.word a.n)
  | 0x4 => some (.cwValue a.word)
  | 0x5 => some (.cwIsPingSameAs a.word a.other)
  | 0x6 => some (.cwIsFrameShapeChange a.word)
  | 0x7 => some (.cwGetNewShape a.word)
  | _ => none

/-- The operations of unit 0x7, CW field accessors (R99). -/
def decodeCwField (op : Nat) (a : Operands) : Option Instr :=
  match op with
  | 0x0 => some (.cwPreq a.word)
  | 0x1 => some (.cwOpcode a.word)
  | 0x2 => some (.cwDevAddr a.word)
  | 0x3 => some (.cwStaticSync a.word)
  | 0x4 => some (.cwPhySync a.word)
  | 0x5 => some (.cwRegAddr a.word)
  | 0x6 => some (.cwRegData a.word)
  | 0x7 => some (.cwSsp a.word)
  | 0x8 => some (.cwPingStat4To11 a.word)
  | 0x9 => some (.cwPingStat0To3 a.word)
  | 0xA => some (.cwDynamicSync a.word)
  | 0xB => some (.cwPar a.word)
  | 0xC => some (.cwNak a.word)
  | 0xD => some (.cwAck a.word)
  | _ => none

/-- The operations of unit 0x8, SF (R99). -/
def decodeSf (op : Nat) (a : Operands) : Option Instr :=
  match op with
  | 0x0 => some (.sfFindSync a.rowsHint a.columnsHint)
  | 0x1 => some (.sfTestIfSyncIsReal a.rows a.columns a.matchedBitOffset a.searchStartMark a.matchMark)
  | 0x2 => some (.sfCheckSync a.rows a.columns)
  | _ => none

/-- The operations of unit 0x9, FE (R99). -/
def decodeFe (op : Nat) (_a : Operands) : Option Instr :=
  match op with
  | 0x0 => some (.feStart)
  | 0x1 => some (.feStep)
  | _ => none

/-- The command a command word and its operand lanes stand for (R98, R99), or the word itself where it is reserved
(R97, R316). Total on every word. -/
def decode (c : Command) : Except Reserved Instr :=
  let op := (cmdOp c.code).toNat
  let found :=
    match (cmdUnit c.code).toNat with
    | 0x1 => decodeHb op c.args
    | 0x2 => decodeBd op c.args
    | 0x3 => decodeSm op c.args
    | 0x4 => decodeDsg op c.args
    | 0x5 => decodeFr op c.args
    | 0x6 => decodeCw op c.args
    | 0x7 => decodeCwField op c.args
    | 0x8 => decodeSf op c.args
    | 0x9 => decodeFe op c.args
    | _ => none
  match found with
  | some i => .ok i
  | none => .error (.reservedCommand c.code)

/-- The command as it stands on the command port: the code of R99 and its operands in their lanes, every other lane
at rest. -/
def encode : Instr → Command
  | .hbAppend x y => ⟨0x10, { level := x, delta := y }⟩
  | .hbReadChain x => ⟨0x11, { index := x }⟩
  | .hbClear => ⟨0x12, {}⟩
  | .bdNextBit => ⟨0x20, {}⟩
  | .bdSkipBits x => ⟨0x21, { n := x }⟩
  | .bdResetParity => ⟨0x22, {}⟩
  | .bdIsParityOdd => ⟨0x23, {}⟩
  | .bdCurrentSample => ⟨0x24, {}⟩
  | .bdCollectHistory x => ⟨0x25, { enable := x }⟩
  | .bdDiscardHistory => ⟨0x26, {}⟩
  | .bdMark => ⟨0x27, {}⟩
  | .bdRestore x => ⟨0x28, { mark := x }⟩
  | .smInit x y => ⟨0x30, { matcher := x, columns := y }⟩
  | .smPushBit x y => ⟨0x31, { matcher := x, bit := y }⟩
  | .dsgSeed x y => ⟨0x40, { generator := x, seed := y }⟩
  | .dsgNext x => ⟨0x41, { generator := x }⟩
  | .frReset x => ⟨0x50, { reader := x }⟩
  | .frSetShape x y z => ⟨0x51, { reader := x, rows := y, columns := z }⟩
  | .frPushBit x y => ⟨0x52, { reader := x, bit := y }⟩
  | .cwReset x => ⟨0x60, { word := x }⟩
  | .cwLoad x y => ⟨0x61, { word := x, value := y }⟩
  | .cwPushBit x y => ⟨0x62, { word := x, bit := y }⟩
  | .cwSkipBits x y => ⟨0x63, { word := x, n := y }⟩
  | .cwValue x => ⟨0x64, { word := x }⟩
  | .cwIsPingSameAs x y => ⟨0x65, { word := x, other := y }⟩
  | .cwIsFrameShapeChange x => ⟨0x66, { word := x }⟩
  | .cwGetNewShape x => ⟨0x67, { word := x }⟩
  | .cwPreq x => ⟨0x70, { word := x }⟩
  | .cwOpcode x => ⟨0x71, { word := x }⟩
  | .cwDevAddr x => ⟨0x72, { word := x }⟩
  | .cwStaticSync x => ⟨0x73, { word := x }⟩
  | .cwPhySync x => ⟨0x74, { word := x }⟩
  | .cwRegAddr x => ⟨0x75, { word := x }⟩
  | .cwRegData x => ⟨0x76, { word := x }⟩
  | .cwSsp x => ⟨0x77, { word := x }⟩
  | .cwPingStat4To11 x => ⟨0x78, { word := x }⟩
  | .cwPingStat0To3 x => ⟨0x79, { word := x }⟩
  | .cwDynamicSync x => ⟨0x7A, { word := x }⟩
  | .cwPar x => ⟨0x7B, { word := x }⟩
  | .cwNak x => ⟨0x7C, { word := x }⟩
  | .cwAck x => ⟨0x7D, { word := x }⟩
  | .sfFindSync x y => ⟨0x80, { rowsHint := x, columnsHint := y }⟩
  | .sfTestIfSyncIsReal x y z v w => ⟨0x81, { rows := x, columns := y, matchedBitOffset := z, searchStartMark := v, matchMark := w }⟩
  | .sfCheckSync x y => ⟨0x82, { rows := x, columns := y }⟩
  | .feStart => ⟨0x90, {}⟩
  | .feStep => ⟨0x91, {}⟩

/-- The UNIT.OP text of a command (R101), which is the mnemonic of spec/opcode_table.json. -/
def mnemonic : Instr → String
  | .hbAppend _ _ => "HB.APPEND"
  | .hbReadChain _ => "HB.READ_CHAIN"
  | .hbClear => "HB.CLEAR"
  | .bdNextBit => "BD.NEXT_BIT"
  | .bdSkipBits _ => "BD.SKIP_BITS"
  | .bdResetParity => "BD.RESET_PARITY"
  | .bdIsParityOdd => "BD.IS_PARITY_ODD"
  | .bdCurrentSample => "BD.CURRENT_SAMPLE"
  | .bdCollectHistory _ => "BD.COLLECT_HISTORY"
  | .bdDiscardHistory => "BD.DISCARD_HISTORY"
  | .bdMark => "BD.MARK"
  | .bdRestore _ => "BD.RESTORE"
  | .smInit _ _ => "SM.INIT"
  | .smPushBit _ _ => "SM.PUSH_BIT"
  | .dsgSeed _ _ => "DSG.SEED"
  | .dsgNext _ => "DSG.NEXT"
  | .frReset _ => "FR.RESET"
  | .frSetShape _ _ _ => "FR.SET_SHAPE"
  | .frPushBit _ _ => "FR.PUSH_BIT"
  | .cwReset _ => "CW.RESET"
  | .cwLoad _ _ => "CW.LOAD"
  | .cwPushBit _ _ => "CW.PUSH_BIT"
  | .cwSkipBits _ _ => "CW.SKIP_BITS"
  | .cwValue _ => "CW.VALUE"
  | .cwIsPingSameAs _ _ => "CW.IS_PING_SAME_AS"
  | .cwIsFrameShapeChange _ => "CW.IS_FRAME_SHAPE_CHANGE"
  | .cwGetNewShape _ => "CW.GET_NEW_SHAPE"
  | .cwPreq _ => "CW.PREQ"
  | .cwOpcode _ => "CW.OPCODE"
  | .cwDevAddr _ => "CW.DEVADDR"
  | .cwStaticSync _ => "CW.STATICSYNC"
  | .cwPhySync _ => "CW.PHYSYNC"
  | .cwRegAddr _ => "CW.REGADDR"
  | .cwRegData _ => "CW.REGDATA"
  | .cwSsp _ => "CW.SSP"
  | .cwPingStat4To11 _ => "CW.PINGSTAT4_11"
  | .cwPingStat0To3 _ => "CW.PINGSTAT0_3"
  | .cwDynamicSync _ => "CW.DYNAMICSYNC"
  | .cwPar _ => "CW.PAR"
  | .cwNak _ => "CW.NAK"
  | .cwAck _ => "CW.ACK"
  | .sfFindSync _ _ => "SF.FIND_SYNC"
  | .sfTestIfSyncIsReal _ _ _ _ _ => "SF.TEST_IF_SYNC_IS_REAL"
  | .sfCheckSync _ _ => "SF.CHECK_SYNC"
  | .feStart => "FE.START"
  | .feStep => "FE.STEP"

/-- The command port's contents for a bare command word: every operand lane at rest. -/
def bareCommand (w : Nat) : Command := ⟨BitVec.ofNat 8 w, {}⟩

/-- The command the decoder reads from a command word of spec/opcode_table.json with every operand lane at rest. A
number that is not an 8-bit word is no command word (R98). -/
def decodeTableWord (_nbits w : Nat) : Option Instr :=
  if w < 256 then
    match decode (bareCommand w) with
    | .ok i => some i
    | .error _ => none
  else none

end Sys2Proof
end

