-- ==== Sys2Proof/Machine/Fetch.lean ====
section
/-! DEFINITION. Where the next command comes from. The block fetches no instructions (10_state.md R21, R74): the host
issues commands one at a time (95_test_vectors.md section 11), and with none issued the block runs its own sequence,
FE.START and then FE.STEP repeated (46_frame_emitter.md, decision D43). Creation is here too (R311, R330). -/

namespace Sys2Proof.Machine

open Sys2Proof

/-- The next command of the command port, taken from it. -/
def takeCommand (s : State) : Option (Command × State) :=
  match s.commands with
  | [] => none
  | c :: rest => some (c, { s with commands := rest })

/-- The block's autonomous behaviour (R6, R334): FE.START from IDLE, then FE.STEP. DEDUCED (log entry 6). -/
def autonomous (s : State) : Instr :=
  match s.status with
  | .idle => .feStart
  | _ => .feStep

/-- The next command to run, decoded, and the state with it taken from the port. -/
def nextCommand (s : State) : Except Reserved Instr × State :=
  match takeCommand s with
  | none => (.ok (autonomous s), s)
  | some (c, s1) => (decode c, s1)

/-- The state with the command word `w`, every operand lane at rest, first on the command port, and no command in
progress before it. -/
def placeWord (s : State) (w : Nat) : State :=
  { s with commands := bareCommand w :: s.commands, task := none }

/-- The creation of a block (R330): its configuration is checked first, and an illegal one is refused (R311). -/
def create (cfg : Configuration) : Out :=
  if legalConfiguration cfg then .next (State.resetWith cfg) else .refused .illegalConfiguration

end Sys2Proof.Machine
end

