-- ==== Sys2Proof/Machine/Step.lean ====
section
/-! DEFINITION. One step of the block: one command (00_scope.md R6), or the command in progress resumed (R326). -/

namespace Sys2Proof.Machine

open Sys2Proof

/-- One step. A block whose run has ended has none (R309); a block that waits for an edge record has none until the
input holds one (R318); a reserved command word raises RESERVED_COMMAND (R316). -/
def step (s : State) : Host.Outcome State Fault Refusal :=
  if statusEnded s.status then .fault .runEnded
  else
    match s.task with
    | some t => if waiting s then .fault .waitingForEdge else .next (resume t s)
    | none =>
      match nextCommand s with
      | (.ok i, s1) => exec i s1
      | (.error _, s1) => .next (atOnce (raise .reservedCommand s1))

/-- `s` with the command word `w` as the next command that `step` takes. -/
def State.withFetchWord (s : State) (_nbits w : Nat) : State := placeWord s w

end Sys2Proof.Machine
end

