-- ==== Sys2Proof/Safety.lean ====
section
/-! DEFINITION. The words the statements use: what can be observed (00_scope.md R13), when a command can be issued,
what a legal state is, and small programs of one command repeated. -/

namespace Sys2Proof.Machine

open Sys2Proof

/-- What a claim about the block can observe (R13). -/
structure Observation where
  events : List Event
  status : Status
  edgesTaken : Nat
deriving DecidableEq, Repr

/-- The observation of a state (R13). -/
def observe (s : State) : Observation := ⟨s.events, s.status, s.edgesTaken⟩

/-- A block that takes a command: its run has not ended (R309) and no command is in progress (R76). -/
abbrev Ready (s : State) : Prop := statusEnded s.status = false ∧ s.task = none

/-- A state in which a command has completed: nothing is in progress and no fault or cancellation ended the run. -/
abbrev Completed (t : State) : Prop := t.task = none ∧ statusEnded t.status = false

/-- R27's invariant: the read index is SENTINEL or below `HB.size`. -/
abbrev IndexInRange (s : State) : Prop :=
  match s.bd.nextHistoryReadIndex with
  | .sentinel => True
  | .entry i => i < s.hb.size

/-- What is pending in the history is whole chains (R65), so that it can be replayed to its end. -/
abbrev PendingWhole (s : State) : Prop :=
  match s.bd.nextHistoryReadIndex with
  | .sentinel => True
  | .entry i => i < s.hb.size ∧ Memory.wf (s.hb.entries.drop i) = true

/-- A mark that `BD.RESTORE` accepts in `s` (R142) and from which the history can be replayed. -/
abbrev MarkUsable (m : Mark) (s : State) : Prop :=
  m.epoch = s.hb.epoch ∧ m.index ≤ s.hb.size ∧ Memory.wf (s.hb.entries.drop m.index) = true

/-- `n` further edges cannot overflow the history: collection is off, or there is room for `n` chains of MAX_CHAIN
entries (R82, R312). -/
abbrev RoomFor (n : Nat) (s : State) : Prop :=
  s.bd.collectHistory = false ∨ s.hb.size + maxChainEntries * n ≤ s.cfg.historyCapacity

/-! Legal states. -/

/-- A write mask is one-hot or zero (R34). -/
def MaskLegal (w : ControlWord) : Prop := w.wmask = 0 ∨ ∃ k : Nat, k < 48 ∧ w.wmask = (1 : BitVec 48) <<< k

/-- A frame reader as R35 has it: a legal shape, coordinates inside it, at row 0 and column 0 unless it is inside a
frame, and a legal control word. -/
def ReaderLegal (r : FrameReader) : Prop :=
  legalShape r.rows r.columns = true ∧ r.currentRow.toNat < r.rows.toNat ∧
    r.currentColumn.toNat < r.columns.toNat ∧
    (r.state ≠ .needMoreBits → r.currentRow = 0 ∧ r.currentColumn = 0) ∧ MaskLegal r.cw

/-- A matcher as R32 and R161 have it: a stride of COLUMN_SET and the words of that stride. -/
def MatcherLegal (m : Matcher) : Prop :=
  columnSet.contains m.columns = true ∧ m.mask = matcherMask m.columns ∧ m.pattern = matcherPattern m.columns

/-- The numbers of a list of instances rise strictly. -/
def sortedKeys {α : Type} (p : List (Nat × α)) : Prop := (p.map Prod.fst).Pairwise (· < ·)

/-- The working values of a search. -/
def AskerLegal : Asker → Prop
  | .check => True
  | .test => True
  | .search _ w => MatcherLegal w.matcher

/-- The working values of a command in progress (R36). -/
def TaskLegal : Task → Prop
  | .nextBit => True
  | .skipBits left => 1 ≤ left
  | .feStart => True
  | .feBit => True
  | .scan _ w _ => MatcherLegal w.matcher ∧ w.offset < searchLimit w.matcher.columns
  | .advance _ w _ => MatcherLegal w.matcher
  | .align ask rows columns left _ => AskerLegal ask ∧ legalShape rows columns = true ∧ 1 ≤ left
  | .check ask c _ => AskerLegal ask ∧ ReaderLegal c.reader ∧ c.reader.state ≠ .frameComplete ∧ c.framesOk < syncFrames

/-- The invariant of the block: the history is whole chains within its capacity (R29, R63, R65), the toggle count is
at most 4095 (R25), and every matcher, reader and control word is legal (R32, R34, R35), the private ones of a
command in progress among them. -/
structure Legal (s : State) : Prop where
  memory : Memory.wf s.hb.entries = true
  capacity : s.hb.size ≤ s.cfg.historyCapacity
  toggles : s.bd.contiguousToggleCount.toNat ≤ 4095
  driverReader : ReaderLegal s.fe.reader
  readers : sortedKeys s.readers ∧ ∀ e ∈ s.readers, ReaderLegal e.2 ∧ e.2 ≠ FrameReader.reset
  words : sortedKeys s.words ∧ ∀ e ∈ s.words, MaskLegal e.2 ∧ e.2 ≠ ControlWord.reset
  matchers : sortedKeys s.matchers ∧ ∀ e ∈ s.matchers, MatcherLegal e.2 ∧ e.2 ≠ Matcher.reset
  generators : sortedKeys s.generators ∧ ∀ e ∈ s.generators, e.2 ≠ 0
  inProgress : ∀ t, s.task = some t → TaskLegal t

/-- The assigned command words with their mnemonics, as R99 lists them. -/
def commandMap : List (BitVec 8 × String) :=
  [(0x10, "HB.APPEND"), (0x11, "HB.READ_CHAIN"), (0x12, "HB.CLEAR"), (0x20, "BD.NEXT_BIT"),
   (0x21, "BD.SKIP_BITS"), (0x22, "BD.RESET_PARITY"), (0x23, "BD.IS_PARITY_ODD"), (0x24, "BD.CURRENT_SAMPLE"),
   (0x25, "BD.COLLECT_HISTORY"), (0x26, "BD.DISCARD_HISTORY"), (0x27, "BD.MARK"), (0x28, "BD.RESTORE"),
   (0x30, "SM.INIT"), (0x31, "SM.PUSH_BIT"), (0x40, "DSG.SEED"), (0x41, "DSG.NEXT"),
   (0x50, "FR.RESET"), (0x51, "FR.SET_SHAPE"), (0x52, "FR.PUSH_BIT"), (0x60, "CW.RESET"),
   (0x61, "CW.LOAD"), (0x62, "CW.PUSH_BIT"), (0x63, "CW.SKIP_BITS"), (0x64, "CW.VALUE"),
   (0x65, "CW.IS_PING_SAME_AS"), (0x66, "CW.IS_FRAME_SHAPE_CHANGE"), (0x67, "CW.GET_NEW_SHAPE"), (0x70, "CW.PREQ"),
   (0x71, "CW.OPCODE"), (0x72, "CW.DEVADDR"), (0x73, "CW.STATICSYNC"), (0x74, "CW.PHYSYNC"),
   (0x75, "CW.REGADDR"), (0x76, "CW.REGDATA"), (0x77, "CW.SSP"), (0x78, "CW.PINGSTAT4_11"),
   (0x79, "CW.PINGSTAT0_3"), (0x7A, "CW.DYNAMICSYNC"), (0x7B, "CW.PAR"), (0x7C, "CW.NAK"),
   (0x7D, "CW.ACK"), (0x80, "SF.FIND_SYNC"), (0x81, "SF.TEST_IF_SYNC_IS_REAL"), (0x82, "SF.CHECK_SYNC"),
   (0x90, "FE.START"), (0x91, "FE.STEP")]

/-- The matcher's condition (R163) on the bits pushed after an SM.INIT, oldest first: bit `i` of 0xB1 at window
position `i*C`, position 0 being the newest bit, and 0 where nothing was pushed yet. -/
abbrev syncPatternAt (columns : Columns) (bits : List Bool) : Prop :=
  ∀ i, i < 8 → (bits.reverse[i * columns.toNat]?).getD false = (0xB1 : BitVec 8).getLsbD i

/-! Programs of one command repeated. -/

/-- `n` times `BD.NEXT_BIT`: the bits returned, and the state after; none where one does not complete. -/
def readBits (n : Nat) (s : State) : Option (List Bool × State) :=
  match n with
  | 0 => some ([], s)
  | k + 1 =>
    match exec .bdNextBit s with
    | .next t =>
      if t.task = none ∧ statusEnded t.status = false then
        match t.result with
        | .u1 b => (readBits k t).map fun (bs, u) => (b :: bs, u)
        | _ => none
      else none
    | _ => none

/-- `FR.PUSH_BIT` of each bit in turn on the reader named: the results, and the state after. -/
def pushBits (r : ReaderName) (bits : List Bool) (s : State) : Option (List (BitVec 2) × State) :=
  match bits with
  | [] => some ([], s)
  | b :: rest =>
    match exec (.frPushBit r b) s with
    | .next t =>
      match t.result with
      | .u2 v => (pushBits r rest t).map fun (vs, u) => (v :: vs, u)
      | _ => none
    | _ => none

/-- `CW.PUSH_BIT` of each bit in turn on the control word named: the state after. -/
def fillWord (w : WordName) (bits : List Bool) (s : State) : Option State :=
  match bits with
  | [] => some s
  | b :: rest =>
    match exec (.cwPushBit w b) s with
    | .next t => fillWord w rest t
    | _ => none

/-- `n` times `DSG.NEXT` on the generator named: the values returned, and the state after. -/
def nextValues (n : Nat) (g : GenName) (s : State) : Option (List DSync × State) :=
  match n with
  | 0 => some ([], s)
  | k + 1 =>
    match exec (.dsgNext g) s with
    | .next t =>
      match t.result with
      | .u4 v => (nextValues k g t).map fun (vs, u) => (v :: vs, u)
      | _ => none
    | _ => none

/-- `SM.PUSH_BIT` of each bit in turn on the matcher named: the results, and the state after. -/
def matchBits (sm : Nat) (bits : List Bool) (s : State) : Option (List Bool × State) :=
  match bits with
  | [] => some ([], s)
  | b :: rest =>
    match exec (.smPushBit sm b) s with
    | .next t =>
      match t.result with
      | .u1 v => (matchBits sm rest t).map fun (vs, u) => (v :: vs, u)
      | _ => none
    | _ => none

/-! The stream ahead of the decoder, and its frames, said without the block's units. -/

/-- A stretch of the decoder's input as R133 reads it: the level before it, and its levels in order. -/
structure Stream where
  before : Bool
  levels : List Bool
deriving DecidableEq, Repr

/-- The bits the stretch decodes to (R133, R145): a bit is 1 where the level differs from the one before. -/
def Stream.bits (a : Stream) : List Bool := List.zipWith (fun l before => l != before) a.levels (a.before :: a.levels)

/-- The stretch after its first `n` bits. -/
def Stream.drop (n : Nat) (a : Stream) : Stream := ⟨(a.before :: a.levels).getD n a.before, a.levels.drop n⟩

/-- The levels of the chains pending in the history (R81, R131): each chain's is that of its terminal entry. -/
def pendingLevels (s : State) : List Bool :=
  match s.bd.nextHistoryReadIndex with
  | .sentinel => []
  | .entry i => ((s.hb.entries.drop i).filter fun e => !entryMore e).map entryLevel

/-- What lies ahead of the decoder: the history pending (R131), then the edge records (R132). -/
def State.ahead (s : State) : Stream := ⟨s.bd.lastLevel, pendingLevels s ++ s.edges.map Edge.level⟩

/-- A frame of a shape at the start of a stretch. -/
structure FrameAt where
  rows : Rows
  columns : Columns
  stream : Stream
deriving DecidableEq, Repr

/-- The number of its bits (R92). -/
def FrameAt.size (f : FrameAt) : Nat := f.rows.toNat * f.columns.toNat

/-- The stretch holds the whole frame. -/
abbrev FrameAt.held (f : FrameAt) : Prop := f.size ≤ f.stream.levels.length

/-- Its control word (R11, R12): the column-0 bits of rows 0 to 47, row 0 in bit 47. -/
def FrameAt.value (f : FrameAt) : CtrlWord :=
  BitVec.ofNat 48 ((List.range 48).foldl
    (fun n row => 2 * n + ((f.stream.bits[row * f.columns.toNat]?).getD false).toNat) 0)

/-- The frame after it (R244, R349): of the shape it announces, unless its rows are 0, else of its own. -/
def FrameAt.next (f : FrameAt) : FrameAt :=
  let shape := if cwShapeChange f.value = true ∧ (cwNewShape f.value).1 ≠ 0 then cwNewShape f.value
    else (f.rows, f.columns)
  ⟨shape.1, shape.2, f.stream.drop f.size⟩

/-- Frame number `k` of a stretch whose frame 0 has the shape given. -/
def frameNo (a : Stream) (rows : Rows) (columns : Columns) : Nat → FrameAt
  | 0 => ⟨rows, columns, a⟩
  | k + 1 => (frameNo a rows columns k).next

/-- The bits before frame number `k`. -/
def frameOffset (a : Stream) (rows : Rows) (columns : Columns) (k : Nat) : Nat :=
  ((List.range k).map fun j => (frameNo a rows columns j).size).sum

/-- The parity that PAR of the frame `g` after `f` stands for (R244): that of the HIGH levels from the bit after row 44
column 0 of `f` through row 44 column 0 of `g`. -/
def parityBetween (f g : FrameAt) : Bool :=
  decide ((((f.stream.levels.take f.size).drop (44 * f.columns.toNat + 1) ++
    g.stream.levels.take (44 * g.columns.toNat + 1)).count true) % 2 = 1)

/-- What `SF.CHECK_SYNC` asks of frame number `k` (R244): of the seed frame that its DynamicSync is not 0, of a later
one its PAR, its StaticSync, and the DynamicSync that follows that of the frame before it. -/
def frameGood (a : Stream) (rows : Rows) (columns : Columns) : Nat → Bool
  | 0 => (frameNo a rows columns 0).value.toNat / 2 ^ 3 % 16 != 0
  | k + 1 =>
    let f := frameNo a rows columns k
    let g := frameNo a rows columns (k + 1)
    g.value.getLsbD 2 == parityBetween f g && g.value.toNat / 2 ^ 16 % 256 == 0xB1 &&
      g.value.toNat / 2 ^ 3 % 16 == (dsyncNext (BitVec.ofNat 4 (f.value.toNat / 2 ^ 3))).toNat

/-- `n` is the number of frames in a row that pass on the stretch, up to 16 (R244): all 16 do, or the stretch holds
frame `n` and that one is the first to fail. -/
abbrev CheckAnswer (a : Stream) (rows : Rows) (columns : Columns) (n : Nat) : Prop :=
  (∀ k, k < n → (frameNo a rows columns k).held ∧ frameGood a rows columns k = true) ∧
    (n = 16 ∨ n < 16 ∧ (frameNo a rows columns n).held ∧ frameGood a rows columns n = false)

/-! The candidates of a search window, over the stretch that begins at its start. -/

/-- The matcher of stride `columns` fires on bit number `m` of the window (R241, R242). -/
abbrev MatchAt (a : Stream) (columns : Columns) (m : Nat) : Prop :=
  m ≤ 4096 + 256 * columns.toNat ∧ m ≤ a.levels.length ∧ syncPatternAt columns (a.bits.take m)

/-- Where phase 2 puts the decoder for a match at bit `m` (R243): at the start of the match's frame, or, where the window
begins inside that frame, at the start of the next one. -/
def alignedStart (rows : Rows) (columns : Columns) (m : Nat) : Nat :=
  let last := 31 * columns.toNat + 1
  if last ≤ m then m - last else m + rows.toNat * columns.toNat - last

/-- The candidate passes (R241, R243). -/
abbrev Validates (a : Stream) (rows : Rows) (columns : Columns) (m : Nat) : Prop :=
  CheckAnswer (a.drop (alignedStart rows columns m)) rows columns 16

/-- The stretch holds enough of the candidate to turn it down. -/
abbrev Rejected (a : Stream) (rows : Rows) (columns : Columns) (m : Nat) : Prop :=
  ∃ n, n < 16 ∧ CheckAnswer (a.drop (alignedStart rows columns m)) rows columns n

/-- The column window of `columns` is spent without success (R241, R242). -/
abbrev ColumnRejected (a : Stream) (rowsHint : Rows) (columns : Columns) : Prop :=
  4096 + 256 * columns.toNat ≤ a.levels.length ∧
    ∀ m, MatchAt a columns m → ∀ rows ∈ rowCandidates rowsHint, Rejected a rows columns m

/-- The bits that a window without success reads at least (R242, R243, R244): a column window, and the frames of a
candidate up to the one that fails. -/
abbrev ReadTo (a : Stream) (rowsHint : Rows) (columnsHint : Columns) (p : Nat) : Prop :=
  ∃ columns ∈ columnCandidates columnsHint, p = 4096 + 256 * columns.toNat ∨
    ∃ m, MatchAt a columns m ∧ ∃ rows ∈ rowCandidates rowsHint, ∃ n, n < 16 ∧
      let b := a.drop (alignedStart rows columns m)
      CheckAnswer b rows columns n ∧ p = alignedStart rows columns m + frameOffset b rows columns (n + 1)

/-- A block that searches as R345 asks: collection on, whole chains pending, room for every edge at its input, and
hints of R240. -/
abbrev CanSearch (s : State) (rowsHint : Rows) (columnsHint : Columns) : Prop :=
  Ready s ∧ s.bd.collectHistory = true ∧ PendingWhole s ∧ RoomFor s.edges.length s ∧
    legalRowsHint rowsHint = true ∧ legalColumnsHint columnsHint = true

/-- What a search command leaves when a poll stops it after `n` bits (R305, R308): HALTED there, with no command in
progress, nothing emitted but bus resets, and nothing of the driver or the committed shape written. -/
abbrev HaltedAfter (n : Nat) (later : List Bool) (s t : State) : Prop :=
  t.status = .halted ∧ t.task = none ∧ t.cancel = later ∧ t.ahead = s.ahead.drop n ∧ t.fe = s.fe ∧ t.sf = s.sf ∧
    t.result = s.result ∧ t.progressSample = s.progressSample ∧
    ∃ ev, t.events = s.events ++ ev ∧ ∀ e ∈ ev, ∃ a b, e = .busReset a b

/-! A stream on which a search succeeds. -/

/-- The row-major bits of a 48x2 frame (R12): the control word's bits in column 0, zeros in column 1. -/
def frameBits (w : CtrlWord) : List Bool := (List.range 48).flatMap fun r => [w.getLsbD (47 - r), false]

/-- The levels that decode to the bits given (R133), after the level given. -/
def levelsOf (last : Bool) : List Bool → List Bool
  | [] => []
  | b :: rest => (last != b) :: levelsOf (last != b) rest

/-- Edge records that decode to the bits given, after the level LOW. -/
def edgesOf (bits : List Bool) : List Edge := (levelsOf false bits).map fun l => ⟨0, l⟩

/-- DynamicSync and PAR of sixteen frames in a row: the cycle of R89 from 1, each PAR the parity of the HIGH levels
since the one before (R273). -/
def sixteenFrames : List (DSync × Bool) :=
  [(1, true), (2, false), (4, true), (9, true), (3, true), (6, true), (13, false), (10, false), (5, false), (11, true),
   (7, false), (15, false), (14, true), (12, true), (8, false), (1, true)]

/-- Their bits, with StaticSync 0xB1. -/
def sixteenBits : List Bool :=
  sixteenFrames.flatMap fun (d, par) => frameBits (0xB10000 ||| (d.setWidth 48 <<< 3) ||| (if par then 4 else 0))

/-- 63 bits that carry 0xB1 at stride 2 only at their end. -/
def matchBits63 : List Bool :=
  List.replicate 48 false ++ [true, false, false, false, true, false, true, false, false, false, false, false, false,
    false, true]

/-- A block that collects history with the bits given, and then the sixteen frames, at its input. -/
def searchable (lead : List Bool) : State :=
  { State.reset with
    edges := edgesOf (lead ++ sixteenBits), bd := { Decoder.reset with collectHistory := true } }

end Sys2Proof.Machine
end

