-- ==== Sys2Proof/WellFormed.lean ====
section
/-! DEFINITION. Well-formed commands: the ones whose operands lie in the domain their rule gives. An ill-formed
command still decodes and still runs as its rule says (it faults with ILLEGAL_SHAPE, R315, or follows the rules
without aligning, R352); nothing in the machine asks for well-formedness. -/

namespace Sys2Proof

open Sys2Proof.Machine

/-- The operand domains:
`SM.INIT` takes `columns` of COLUMN_SET (R161); `FR.SET_SHAPE` a shape of ROW_SET × COLUMN_SET (R181);
`SF.FIND_SYNC` legal hints (R240); `SF.TEST_IF_SYNC_IS_REAL` a legal shape and an offset of at least 1 (R243);
`SF.CHECK_SYNC` a legal shape (R244). Every other operand takes every value of its width. -/
def Instr.wellFormed : Instr → Bool
  | .smInit _ columns => columnSet.contains columns
  | .frSetShape _ rows columns => legalShape rows columns
  | .sfFindSync rows columns => legalRowsHint rows && legalColumnsHint columns
  | .sfTestIfSyncIsReal rows columns offset _ _ => legalShape rows columns && decide (1 ≤ offset)
  | .sfCheckSync rows columns => legalShape rows columns
  | .hbAppend _ _ | .hbReadChain _ | .hbClear => true
  | .bdNextBit | .bdSkipBits _ | .bdResetParity | .bdIsParityOdd | .bdCurrentSample => true
  | .bdCollectHistory _ | .bdDiscardHistory | .bdMark | .bdRestore _ => true
  | .smPushBit _ _ | .dsgSeed _ _ | .dsgNext _ | .frReset _ | .frPushBit _ _ => true
  | .cwReset _ | .cwLoad _ _ | .cwPushBit _ _ | .cwSkipBits _ _ | .cwValue _ => true
  | .cwIsPingSameAs _ _ | .cwIsFrameShapeChange _ | .cwGetNewShape _ => true
  | .cwPreq _ | .cwOpcode _ | .cwDevAddr _ | .cwStaticSync _ | .cwPhySync _ => true
  | .cwRegAddr _ | .cwRegData _ | .cwSsp _ | .cwPingStat4To11 _ | .cwPingStat0To3 _ => true
  | .cwDynamicSync _ | .cwPar _ | .cwNak _ | .cwAck _ => true
  | .feStart | .feStep => true

end Sys2Proof
end

