-- ==== Sys2Proof/Certificates/Slice0/Obligations.lean ====
section
/-! DEFINITION. The statements for the provers. Each docstring says which rule of spec/ a statement formalises and, where it rests on
one, which log entry. `Ready s` says that a command can be issued in `s`: the run has not ended (R309) and no command
is in progress (R76). -/

open Sys2Proof Sys2Proof.Machine

/-! ## The command map, the step and creation -/

/-- Decoding and encoding agree in both directions, and exactly the words of R99 decode (R98, R99, R97). -/
def Obligations.EncodeDecodeAgree : Prop :=
  (∀ i : Instr, decode (encode i) = .ok i) ∧
  (∀ (c : Command) (i : Instr), decode c = .ok i → (encode i).code = c.code) ∧
  (∀ c : Command, (∃ i, decode c = .ok i) ↔ c.code ∈ commandMap.map Prod.fst) ∧
  (∀ c : Command, c.code ∉ commandMap.map Prod.fst → decode c = .error (.reservedCommand c.code))

/-- A few command words of R99, with every operand lane at rest. -/
def Obligations.TableWordsDecode : Prop :=
  decodeTableWord 8 0x10 = some (.hbAppend false 0) ∧ decodeTableWord 8 0x20 = some .bdNextBit ∧
  decodeTableWord 8 0x31 = some (.smPushBit 0 false) ∧ decodeTableWord 8 0x41 = some (.dsgNext .driver) ∧
  decodeTableWord 8 0x50 = some (.frReset .driver) ∧ decodeTableWord 8 0x61 = some (.cwLoad (.ofReader .driver) 0) ∧
  decodeTableWord 8 0x7D = some (.cwAck (.ofReader .driver)) ∧ decodeTableWord 8 0x82 = some (.sfCheckSync 0 0) ∧
  decodeTableWord 8 0x91 = some .feStep ∧ decodeTableWord 8 0x13 = none ∧ decodeTableWord 8 0xA0 = none

/-- A step runs the decoded command: with a command at the head of the port, a step is `exec` of what it decodes to,
at the state with that command taken from the port. With no command issued the block runs its own sequence: FE.START
from IDLE, then FE.STEP (R6, R334); that reading of "autonomous" is the model's choice, log entry 6. -/
def Obligations.StepRunsDecodedCommand : Prop :=
  (∀ (s : State) (c : Command) (rest : List Command) (i : Instr),
    Ready s → s.commands = c :: rest → decode c = .ok i → step s = exec i { s with commands := rest }) ∧
  (∀ s : State, Ready s → s.commands = [] →
    step s = exec (if s.status = .idle then .feStart else .feStep) s)

/-- R316: a reserved command word (a code not in R99) faults with RESERVED_COMMAND and has no other effect; FE.START
when RUNNING and FE.STEP when IDLE fault with BAD_SEQUENCE and change nothing else. -/
def Obligations.ReservedWordAndBadSequenceFault : Prop :=
  ∀ s : State, Ready s →
    (∀ (c : Command) (rest : List Command), s.commands = c :: rest → c.code ∉ commandMap.map Prod.fst →
      step s = .next { s with commands := rest, status := .faulted .reservedCommand }) ∧
    (s.status = .running → exec .feStart s = .next { s with status := .faulted .badSequence }) ∧
    (s.status = .idle → exec .feStep s = .next { s with status := .faulted .badSequence })

/-- R309: in a block that is HALTED or FAULTED every command has no effect at all, and there is no further step. -/
def Obligations.EndedBlockDoesNothing : Prop :=
  ∀ s : State, (s.status = .halted ∨ ∃ c, s.status = .faulted c) →
    (∀ i : Instr, exec i s = .next s) ∧ step s = .fault .runEnded

/-- R318: a command that needs an edge record and finds none waits: there is no step for it, and the state in which it
waits is the state before it but for the command in progress (log entry 5). STATUS is as before with it: where the block
is IDLE, that is the model's choice (log entry 21), for R318 and R47 say of a waiting block that it is RUNNING. -/
def Obligations.NextBitWaitsForEdge : Prop :=
  ∀ s : State, Ready s → s.bd.nextHistoryReadIndex = .sentinel → s.edges = [] →
    exec .bdNextBit s = .next { s with task := some .nextBit } ∧
      (∀ t : Task, step { s with task := some t } = .fault .waitingForEdge)

/-- R318 and R326: the next edge record resumes a waiting command, whichever it is, as if it had been there when the
command was issued. -/
def Obligations.WaitingCommandResumes : Prop :=
  ∀ (i : Instr) (s t : State) (e : Edge) (more : List Edge),
    Ready s → exec i s = .next t → t.task ≠ none →
      step { t with edges := t.edges ++ (e :: more) } = exec i { s with edges := s.edges ++ (e :: more) }

/-- R311: a configuration is refused exactly when a hint is outside its listed values; else the block is created at
its reset values (R330). -/
def Obligations.IllegalConfigurationRefused : Prop :=
  ∀ c : Configuration,
    let rowsOk := c.hintRows.toNat ∈ ([0, 48, 50, 60, 64, 72, 75, 80, 90, 96, 100, 120, 125, 128, 144, 147, 150, 169,
      180, 192, 200, 240, 250, 256] : List Nat)
    let columnsOk := c.hintColumns.toNat ∈ ([0, 2, 4, 6, 8, 10, 12, 14, 16] : List Nat)
    (rowsOk ∧ columnsOk → create c = .next (State.resetWith c)) ∧
      (¬(rowsOk ∧ columnsOk) → create c = .refused .illegalConfiguration)

/-- The reset values that R55 and R330 give. -/
def Obligations.ResetValues : Prop :=
  ∀ c : Configuration,
    let s := State.resetWith c
    s.status = .idle ∧ s.hb.entries = [] ∧ s.hb.epoch = 0 ∧
    s.bd.nextHistoryReadIndex = .sentinel ∧ s.bd.lastLevel = false ∧ s.bd.parityIsOdd = false ∧
    s.bd.currentSample = 0 ∧ s.bd.contiguousToggleCount = 0 ∧ s.bd.runStartSample = 0 ∧
    s.bd.collectHistory = false ∧ s.sf.rows = 0 ∧ s.sf.columns = 0 ∧
    s.fe.started = false ∧ s.fe.inSync = false ∧ s.fe.firstFrame = false ∧ s.fe.gen = 0 ∧
    s.fe.fStart = 0 ∧ s.fe.actualParityIsOdd = false ∧
    s.fe.reader.rows = 48 ∧ s.fe.reader.columns = 2 ∧ s.fe.reader.currentRow = 0 ∧ s.fe.reader.currentColumn = 0 ∧
    s.fe.reader.state = .frameStart ∧ s.fe.reader.cw.value = 0 ∧ s.fe.reader.cw.wmask = (1 : BitVec 48) <<< 47 ∧
    s.progressSample = 0 ∧ s.events = [] ∧ s.edgesTaken = 0 ∧ s.cfg = c

/-! ## Invariants and whole-machine rules -/

/-- A block just created is in a legal state. -/
def Obligations.ResetIsLegal : Prop := Legal State.reset ∧ ∀ c : Configuration, Legal (State.resetWith c)

/-- Every step keeps a legal state legal: whole chains within the capacity (R29, R63, R65), the toggle count at most
4095 (R25), and legal matchers, readers and control words (R32, R34, R35), those a waiting command holds among
them. -/
def Obligations.StepKeepsLegal : Prop := ∀ s t : State, Legal s → step s = .next t → Legal t

/-- R27: between commands the read index is SENTINEL or strictly below HB.size. Every step keeps it but HB.CLEAR
issued by hand, which R98 calls internal to the decoder. -/
def Obligations.StepKeepsIndexInRange : Prop :=
  ∀ s t : State, IndexInRange s → (∀ c ∈ s.commands.head?, decode c ≠ .ok .hbClear) →
    step s = .next t → IndexInRange t

/-- What every step leaves of the past. R42: the configuration is fixed for the whole run. R52: the event log is appended
to and never rewritten. R50: the edge records are taken in order, each one once, and counted (R13). R63 and R64: the
epoch never falls, and while it is unchanged the history is append-only. -/
def Obligations.StepOnlyAppends : Prop :=
  ∀ s t : State, step s = .next t →
    t.cfg = s.cfg ∧ s.events <+: t.events ∧
    (∃ k, k ≤ s.edges.length ∧ t.edges = s.edges.drop k ∧ t.edgesTaken = s.edgesTaken + k) ∧
    s.hb.epoch ≤ t.hb.epoch ∧ (t.hb.epoch = s.hb.epoch → s.hb.entries <+: t.hb.entries)

/-- R41: the block reads `suppress_duplicate_pings` nowhere: two runs that differ in it only go on differing in it
only. -/
def Obligations.SuppressionFlagIsNotRead : Prop :=
  ∀ (s : State) (b : Bool),
    step { s with cfg := { s.cfg with suppressDuplicatePings := b } } =
      match step s with
      | .next t => .next { t with cfg := { t.cfg with suppressDuplicatePings := b } }
      | .fault f => .fault f
      | .refused r => .refused r

/-- A run of the block's own sequence (R334) from creation, whatever the legal configuration, the edges and the
cancel input: the only model fault it can meet is HISTORY_OVERFLOW. The driver never restores a stale or bad mark
(R279, R313, R314), never reads a corrupt chain (R317) and never sets an illegal shape (R315). The sequence is log
entry 6. -/
def Obligations.AutonomousRunFaultsOnlyOnOverflow : Prop :=
  ∀ (c : Configuration) (edges : List Edge) (cancel : List Bool) (k : Nat) (t : State) (f : FaultCode),
    legalConfiguration c = true →
    Host.Core.run core k { State.resetWith c with edges := edges, cancel := cancel } = .next t →
      t.status = .faulted f → f = .historyOverflow

/-! ## The history buffer -/

/-- R143: HB.APPEND of any level and any 64-bit delta on a buffer of size `n` with room for its chain, followed by
HB.READ_CHAIN n, returns the level, the delta and the new size. -/
def Obligations.ChainRoundTrip : Prop :=
  ∀ (s : State) (level : Bool) (delta : Sample),
    Ready s → s.hb.size + (encodeChain level delta).length ≤ s.cfg.historyCapacity →
      ∃ t, exec (.hbAppend level delta) s = .next t ∧ Ready t ∧
        exec (.hbReadChain s.hb.size) t = .next { t with result := .chain level delta t.hb.size }

/-- R120 and R122: HB.APPEND appends the whole chain or, where it does not fit, nothing, with HISTORY_OVERFLOW;
HB.CLEAR empties the buffer, an empty one too, and counts the clear. -/
def Obligations.AppendAndClear : Prop :=
  ∀ s : State, Ready s →
    (∀ (level : Bool) (delta : Sample),
      (s.hb.size + (encodeChain level delta).length ≤ s.cfg.historyCapacity →
        exec (.hbAppend level delta) s =
          .next { s with hb := { s.hb with entries := s.hb.entries ++ encodeChain level delta }, result := .none }) ∧
      (s.hb.size + (encodeChain level delta).length > s.cfg.historyCapacity →
        exec (.hbAppend level delta) s = .next { s with status := .faulted .historyOverflow })) ∧
    exec .hbClear s = .next { s with hb := ⟨[], s.hb.epoch + 1⟩, result := .none }

/-- R80 and R82: entry `k` of a chain carries the level in bit 15, in bit 14 whether another follows, and fragment
`k` of the delta in bits 13:0; the chain has as many entries as the delta's bits need, at least one. -/
def Obligations.ChainEncoding : Prop :=
  ∀ (level : Bool) (delta : Sample),
    (∀ n, n ∈ [1, 2, 3, 4] → ((encodeChain level delta).length ≤ n ↔ delta.toNat < 2 ^ (14 * n))) ∧
    1 ≤ (encodeChain level delta).length ∧ (encodeChain level delta).length ≤ 5 ∧
    ∀ (k : Nat) (e : Entry), (encodeChain level delta)[k]? = some e →
      e.getLsbD 15 = level ∧ e.getLsbD 14 = decide (k + 1 < (encodeChain level delta).length) ∧
        e.toNat % 2 ^ 14 = delta.toNat / 2 ^ (14 * k) % 2 ^ 14

/-- R317: HB.READ_CHAIN faults with HISTORY_CORRUPT at an index past the buffer, for a chain that runs past the buffer,
for one that mixes levels and for one of more than five entries; else it completes with a chain inside the buffer. -/
def Obligations.CorruptChainFaults : Prop :=
  ∀ (s : State) (index : Nat), Ready s →
    let more : Nat → Prop := fun k => ∃ e, s.hb.entries[index + k]? = some e ∧ e.getLsbD 14 = true
    let corrupt : Prop :=
      s.hb.size ≤ index ∨
      (∀ e ∈ s.hb.entries.drop index, e.getLsbD 14 = true) ∨
      (∃ k a b, (∀ j, j ≤ k → more j) ∧ s.hb.entries[index + k]? = some a ∧ s.hb.entries[index + k + 1]? = some b ∧
        a.getLsbD 15 ≠ b.getLsbD 15) ∨
      (∀ k, k < 5 → more k)
    (corrupt → exec (.hbReadChain index) s = .next { s with status := .faulted .historyCorrupt }) ∧
    (¬corrupt → ∃ level delta next,
      exec (.hbReadChain index) s = .next { s with result := .chain level delta next } ∧
        index < next ∧ next ≤ s.hb.size)

/-! ## The BitstreamDecoder -/

/-- R132, R133, R134: BD.NEXT_BIT on the live path. The next record is taken; the edge's chain is appended while
collection is on; the decoded bit says whether the level changed; parity counts HIGH levels; the 4096th one in a row
emits BUS_RESET with the run's first and last samples. -/
def Obligations.NextBitLive : Prop :=
  ∀ (s : State) (e : Edge) (rest : List Edge),
    Ready s → s.bd.nextHistoryReadIndex = .sentinel → s.edges = e :: rest →
    (s.bd.collectHistory = false ∨
      s.hb.size + (encodeChain e.level (e.sample - s.bd.currentSample)).length ≤ s.cfg.historyCapacity) →
      let bit : Bool := e.level != s.bd.lastLevel
      let first : Sample :=
        if bit = true ∧ s.bd.contiguousToggleCount = 0 then e.sample else s.bd.runStartSample
      let full : Bool := bit && decide (s.bd.contiguousToggleCount.toNat = 4095)
      exec .bdNextBit s = .next
        { s with
          edges := rest
          edgesTaken := s.edgesTaken + 1
          hb := { s.hb with
            entries := s.hb.entries ++
              (if s.bd.collectHistory then encodeChain e.level (e.sample - s.bd.currentSample) else []) }
          bd := { s.bd with
            lastLevel := e.level
            parityIsOdd := s.bd.parityIsOdd != e.level
            currentSample := e.sample
            contiguousToggleCount := if bit = true ∧ full = false then s.bd.contiguousToggleCount + 1 else 0
            runStartSample := first }
          events := s.events ++ (if full then [.busReset first e.sample] else [])
          result := .u1 bit }

/-- R131 and R133: BD.NEXT_BIT on the history path. The next chain's delta and level are replayed; no edge is taken,
nothing is appended, and the toggle count and run start are untouched. -/
def Obligations.NextBitReplay : Prop :=
  ∀ (s : State) (i n : Nat) (level : Bool) (delta : Sample),
    Ready s → s.bd.nextHistoryReadIndex = .entry i → decodeChain (s.hb.entries.drop i) = some (level, delta, n) →
      exec .bdNextBit s = .next
        { s with
          bd := { s.bd with
            lastLevel := level
            parityIsOdd := s.bd.parityIsOdd != level
            currentSample := s.bd.currentSample + delta
            nextHistoryReadIndex := if i + n = s.hb.size then .sentinel else .entry (i + n) }
          result := .u1 (level != s.bd.lastLevel) }

/-- R312: HISTORY_OVERFLOW on the live path. The record has been taken; the buffer and the decoder's registers are as
they were. -/
def Obligations.NextBitOverflow : Prop :=
  ∀ (s : State) (e : Edge) (rest : List Edge),
    Ready s → s.bd.nextHistoryReadIndex = .sentinel → s.edges = e :: rest → s.bd.collectHistory = true →
    s.hb.size + (encodeChain e.level (e.sample - s.bd.currentSample)).length > s.cfg.historyCapacity →
      exec .bdNextBit s = .next
        { s with edges := rest, edgesTaken := s.edgesTaken + 1, status := .faulted .historyOverflow }

/-- R145: whichever path delivers the edge, the bit returned is 1 exactly when the level differs from the one before,
and the parity has toggled exactly when the level is HIGH (R133). -/
def Obligations.BitIsNrziOfLevels : Prop :=
  ∀ s t : State, Ready s → exec .bdNextBit s = .next t → Completed t →
    t.result = .u1 (t.bd.lastLevel != s.bd.lastLevel) ∧
      t.bd.parityIsOdd = (s.bd.parityIsOdd != t.bd.lastLevel)

/-- R135: BD.SKIP_BITS 0 does nothing, and BD.SKIP_BITS n+1 is a discarded BD.NEXT_BIT followed by BD.SKIP_BITS n; where
that NEXT_BIT is stopped by a fault, the skip is stopped there. -/
def Obligations.SkipIsDiscardedNextBits : Prop :=
  ∀ (s : State) (n : Nat), Ready s → n + 1 < 2 ^ 64 →
    exec (.bdSkipBits 0) s = .next { s with result := .none } ∧
    ∀ t, exec .bdNextBit s = .next t →
      (Completed t →
        exec (.bdSkipBits (BitVec.ofNat 64 (n + 1))) s =
          exec (.bdSkipBits (BitVec.ofNat 64 n)) { t with result := s.result }) ∧
      (statusEnded t.status = true → exec (.bdSkipBits (BitVec.ofNat 64 (n + 1))) s = .next t)

/-- BD.SKIP_BITS completes when the edges are there (R135, R361): it takes `n` records, leaves the last one's level
and sample, and toggles the parity once per HIGH level. -/
def Obligations.SkipCompletes : Prop :=
  ∀ (s : State) (n : BitVec 64),
    Ready s → s.bd.nextHistoryReadIndex = .sentinel → n.toNat ≤ s.edges.length → RoomFor n.toNat s →
      ∃ t, exec (.bdSkipBits n) s = .next t ∧ Completed t ∧ t.result = .none ∧
        t.edges = s.edges.drop n.toNat ∧ t.edgesTaken = s.edgesTaken + n.toNat ∧
        t.bd.nextHistoryReadIndex = .sentinel ∧
        (∀ e, (s.edges.take n.toNat).getLast? = some e →
          t.bd.lastLevel = e.level ∧ t.bd.currentSample = e.sample) ∧
        t.bd.parityIsOdd = (s.edges.take n.toNat).foldl (fun p e => p != e.level) s.bd.parityIsOdd ∧
        (s.bd.collectHistory = false → t.hb = s.hb) ∧ t.fe = s.fe ∧ t.sf = s.sf ∧ t.status = s.status

/-- R134 and R303: from a toggle count of 0, `n` live edges that each change the level leave a count of `n` and emit
nothing for `n` up to 4095, and for `n` = 4096 emit exactly one BUS_RESET with the samples of the first and the last
of them and leave a count of 0. -/
def Obligations.BusResetAfterRun : Prop :=
  ∀ (s : State) (run rest : List Edge) (first last : Edge),
    Ready s → s.bd.nextHistoryReadIndex = .sentinel → s.bd.contiguousToggleCount = 0 →
    s.edges = run ++ rest → run.head? = some first → run.getLast? = some last → run.length ≤ 4096 →
    first.level ≠ s.bd.lastLevel → run.IsChain (fun a b => b.level ≠ a.level) → RoomFor run.length s →
      ∃ t, exec (.bdSkipBits (BitVec.ofNat 64 run.length)) s = .next t ∧ Completed t ∧ t.edges = rest ∧
        (run.length < 4096 → t.events = s.events ∧ t.bd.contiguousToggleCount.toNat = run.length) ∧
        (run.length = 4096 →
          t.events = s.events ++ [.busReset first.sample last.sample] ∧ t.bd.contiguousToggleCount = 0)

/-- R136, R137 and R138: BD.RESET_PARITY, BD.IS_PARITY_ODD, BD.CURRENT_SAMPLE. -/
def Obligations.ParityAndSampleCommands : Prop :=
  ∀ s : State, Ready s →
    exec .bdResetParity s = .next { s with bd := { s.bd with parityIsOdd := false }, result := .none } ∧
    exec .bdIsParityOdd s = .next { s with result := .u1 s.bd.parityIsOdd } ∧
    exec .bdCurrentSample s = .next { s with result := .u64 s.bd.currentSample }

/-- R139 and R140: the history is cleared only when nothing is pending; BD.COLLECT_HISTORY 1 discards first, and
BD.COLLECT_HISTORY 0 changes only the flag. -/
def Obligations.CollectAndDiscard : Prop :=
  ∀ s : State, Ready s →
    let hb' : History := if s.bd.nextHistoryReadIndex = .sentinel then ⟨[], s.hb.epoch + 1⟩ else s.hb
    exec .bdDiscardHistory s = .next { s with hb := hb', result := .none } ∧
    exec (.bdCollectHistory true) s =
      .next { s with hb := hb', bd := { s.bd with collectHistory := true }, result := .none } ∧
    exec (.bdCollectHistory false) s = .next { s with bd := { s.bd with collectHistory := false }, result := .none }

/-- R141: BD.MARK, with the read index clamped to HB.size at the live tail. R142: BD.RESTORE. STALE_MARK is checked
before BAD_MARK (R307); the toggle count, the run start and the collection flag are not restored. -/
def Obligations.MarkAndRestore : Prop :=
  ∀ (s : State) (m : Mark), Ready s →
    (s.bd.nextHistoryReadIndex = .sentinel →
      exec .bdMark s = .next { s with result := (.mark
        ⟨s.bd.lastLevel, s.bd.parityIsOdd, s.bd.currentSample, s.hb.entries.length, s.hb.epoch⟩) }) ∧
    (∀ i, s.bd.nextHistoryReadIndex = .entry i →
      exec .bdMark s = .next { s with result := (.mark
        ⟨s.bd.lastLevel, s.bd.parityIsOdd, s.bd.currentSample, i, s.hb.epoch⟩) }) ∧
    (m.epoch ≠ s.hb.epoch → exec (.bdRestore m) s = .next { s with status := .faulted .staleMark }) ∧
    (m.epoch = s.hb.epoch → s.hb.size < m.index →
      exec (.bdRestore m) s = .next { s with status := .faulted .badMark }) ∧
    (m.epoch = s.hb.epoch → m.index ≤ s.hb.size →
      exec (.bdRestore m) s = .next
        { s with
          bd := { s.bd with
            lastLevel := m.lastLevel
            parityIsOdd := m.parityIsOdd
            currentSample := m.currentSample
            nextHistoryReadIndex := if m.index = s.hb.size then .sentinel else .entry m.index }
          result := .none })

/-- R144 and R72: with collection on, `n` bits read after a mark are read again, the same bits in the same order, after
the mark is restored, and the decoder ends where it ended the first time. -/
def Obligations.MarkRestoreReplaysBits : Prop :=
  ∀ (s u : State) (n : Nat) (bits : List Bool),
    Ready s → s.bd.collectHistory = true → PendingWhole s → readBits n s = some (bits, u) →
      ∃ t w, exec (.bdRestore (mark s)) u = .next t ∧ Completed t ∧
        t.bd.lastLevel = s.bd.lastLevel ∧ t.bd.parityIsOdd = s.bd.parityIsOdd ∧
        t.bd.currentSample = s.bd.currentSample ∧
        readBits n t = some (bits, w) ∧ w.bd = u.bd ∧ w.hb = u.hb ∧ w.edges = u.edges ∧ w.events = u.events

/-! ## StaticSyncMatcher and DynamicSyncGenerator -/

/-- R161 with the words of R91: SM.INIT for each stride of COLUMN_SET, and ILLEGAL_SHAPE for any other. -/
def Obligations.MatcherInit : Prop :=
  ∀ (s : State) (sm : Nat), Ready s →
    (∀ e ∈ ([(2, 0x5555, 0x4501), (4, 0x11111111, 0x10110001), (6, 0x41041041041, 0x40041000001),
        (8, 0x101010101010101, 0x100010100000001), (10, 0x401004010040100401, 0x400004010000000001),
        (12, 0x1001001001001001001001, 0x1000001001000000000001),
        (14, 0x4001000400100040010004001, 0x4000000400100000000000001),
        (16, 0x10001000100010001000100010001, 0x10000000100010000000000000001)] :
          List (Columns × Window × Window)),
      exec (.smInit sm e.1) s = .next ((s.setMatcher sm ⟨e.1, 0, e.2.1, e.2.2⟩).returning .none)) ∧
    (∀ c : Columns, c.toNat ∉ [2, 4, 6, 8, 10, 12, 14, 16] →
      exec (.smInit sm c) s = .next { s with status := .faulted .illegalShape })

/-- R162 and R163: on a matcher of stride C, SM.PUSH_BIT shifts the bit into the window and returns 1 exactly when
window bit i*C is bit i of 0xB1 for every i of 0..7; no other bit of the window matters. -/
def Obligations.MatcherPush : Prop :=
  ∀ (s : State) (sm : Nat) (bit : Bool), Ready s → MatcherLegal (s.matcher sm) →
    ∃ hit : Bool,
      exec (.smPushBit sm bit) s = .next
        ((s.setMatcher sm { s.matcher sm with
          acc := BitVec.ofNat 128 (2 * (s.matcher sm).acc.toNat + bit.toNat) }).returning (.u1 hit)) ∧
      (hit = true ↔ ∀ i, i < 8 →
        (BitVec.ofNat 128 (2 * (s.matcher sm).acc.toNat + bit.toNat)).getLsbD (i * (s.matcher sm).columns.toNat) =
          (0xB1 : BitVec 8).getLsbD i)

/-- R160, R162 and R164: after SM.INIT C, the push of each bit in turn returns 1 exactly when the bits pushed so far
carry 0xB1 at stride C, newest bit last. -/
def Obligations.MatcherFiresOnPattern : Prop :=
  ∀ (s s1 : State) (sm : Nat) (c : Columns) (bits : List Bool),
    Ready s → c ∈ columnSet → exec (.smInit sm c) s = .next s1 →
      ∃ hits t, matchBits sm bits s1 = some (hits, t) ∧ hits.length = bits.length ∧
        ∀ k, k < bits.length → (hits[k]? = some true ↔ syncPatternAt c (bits.take (k + 1)))

/-- R170 and R171 with the table of R89: DSG.SEED and DSG.NEXT. -/
def Obligations.GeneratorCommands : Prop :=
  ∀ (s : State) (g : GenName), Ready s →
    (∀ seed, exec (.dsgSeed g seed) s = .next ((s.setGenerator g seed).returning .none)) ∧
    (∀ v : DSync, ([0, 2, 4, 6, 9, 11, 13, 15, 1, 3, 5, 7, 8, 10, 12, 14] : List DSync)[(s.generator g).toNat]? = some v →
      exec (.dsgNext g) s = .next ((s.setGenerator g v).returning (.u4 v)))

/-- R172: from any non-zero seed the fifteenth DSG.NEXT returns the seed again, and the fifteen values are the fifteen
non-zero values, each once. -/
def Obligations.GeneratorCycle : Prop :=
  ∀ (s s1 : State) (g : GenName) (seed : DSync), Ready s → seed ≠ 0 → exec (.dsgSeed g seed) s = .next s1 →
    ∃ vs t, nextValues 15 g s1 = some (vs, t) ∧ vs.getLast? = some seed ∧ vs.Nodup ∧
      (∀ v : DSync, v ∈ vs ↔ v ≠ 0) ∧ t.generator g = seed

/-! ## FrameReader and ControlWord -/

/-- R180 and R181: FR.RESET and FR.SET_SHAPE on the reader named, ILLEGAL_SHAPE for a shape outside ROW_SET ×
COLUMN_SET (R315). -/
def Obligations.ReaderResetAndShape : Prop :=
  ∀ (s : State) (r : ReaderName) (rows : Rows) (columns : Columns), Ready s →
    exec (.frReset r) s = .next ((s.setReader r
      ⟨(s.reader r).rows, (s.reader r).columns, 0, 0, ⟨0, (1 : BitVec 48) <<< 47⟩, .frameStart⟩).returning .none) ∧
    (rows ∈ rowSet ∧ columns ∈ columnSet →
      exec (.frSetShape r rows columns) s = .next ((s.setReader r
        ⟨rows, columns, 0, 0, ⟨0, (1 : BitVec 48) <<< 47⟩, .frameStart⟩).returning .none)) ∧
    (¬(rows ∈ rowSet ∧ columns ∈ columnSet) →
      exec (.frSetShape r rows columns) s = .next { s with status := .faulted .illegalShape })

/-- R182: FR.PUSH_BIT completes on every reader and changes that reader only; after FRAME_COMPLETE it changes nothing
and returns FRAME_COMPLETE again (R346). -/
def Obligations.ReaderPushFrame : Prop :=
  ∀ (s : State) (r : ReaderName) (bit : Bool), Ready s →
    (∃ rd v, exec (.frPushBit r bit) s = .next ((s.setReader r rd).returning (.u2 v)) ∧
      rd.rows = (s.reader r).rows ∧ rd.columns = (s.reader r).columns) ∧
    ((s.reader r).state = .frameComplete →
      exec (.frPushBit r bit) s = .next ((s.setReader r (s.reader r)).returning (.u2 3)))

/-- R184: for a reader of shape (R, C) just reset, by FR.SET_SHAPE or by FR.RESET in that shape, push number k returns FRAME_START for k = 0, CAPTURE_PARITY for
k = 44*C, FRAME_COMPLETE for k = R*C - 1 and NEED_MORE_BITS otherwise; after the frame the control word is the column-0
bits of rows 0 to 47 with row 0 in bit 47. -/
def Obligations.ReaderSchedule : Prop :=
  ∀ (s s1 : State) (r : ReaderName) (rows : Rows) (columns : Columns) (bits : List Bool),
    Ready s → rows ∈ rowSet → columns ∈ columnSet →
    (exec (.frSetShape r rows columns) s = .next s1 ∨
      exec (.frReset r) s = .next s1 ∧ (s.reader r).rows = rows ∧ (s.reader r).columns = columns) →
    bits.length = rows.toNat * columns.toNat →
      ∃ vs t, pushBits r bits s1 = some (vs, t) ∧
        (∀ k, k < bits.length → vs[k]? = some
          (if k = 0 then 0 else if k = 44 * columns.toNat then 2 else if k + 1 = bits.length then 3 else 1)) ∧
        (t.reader r).state = .frameComplete ∧
        (∀ row, row < 48 → (t.reader r).cw.value.getLsbD (47 - row) = (bits[row * columns.toNat]?).getD false)

/-- R200 to R203: CW.RESET, CW.LOAD, CW.PUSH_BIT and CW.SKIP_BITS on the control word named. -/
def Obligations.WordOperations : Prop :=
  ∀ (s : State) (w : WordName), Ready s →
    let v := (s.word w).value
    let m := (s.word w).wmask
    exec (.cwReset w) s = .next ((s.setWord w ⟨0, (1 : BitVec 48) <<< 47⟩).returning .none) ∧
    (∀ x, exec (.cwLoad w x) s = .next ((s.setWord w ⟨x, 0⟩).returning .none)) ∧
    (∀ bit, exec (.cwPushBit w bit) s = .next ((s.setWord w
      (if m = 0 then ⟨v, m⟩ else ⟨if bit then v ||| m else v &&& ~~~m, m >>> 1⟩)).returning .none)) ∧
    (∀ n : BitVec 64, exec (.cwSkipBits w n) s = .next ((s.setWord w
      ⟨v, BitVec.ofNat 48 (m.toNat / 2 ^ n.toNat)⟩).returning .none))

/-- R223: after CW.RESET, CW.PUSH_BIT of 48 bits yields the sum of bit i times 2^(47-i), and a further push changes
nothing (R202). -/
def Obligations.WordFill : Prop :=
  ∀ (s s1 : State) (w : WordName) (bits : List Bool), Ready s → exec (.cwReset w) s = .next s1 → bits.length = 48 →
    ∃ t, fillWord w bits s1 = some t ∧
      (t.word w).value.toNat = bits.foldl (fun acc b => 2 * acc + b.toNat) 0 ∧
      ∀ b u, exec (.cwPushBit w b) t = .next u → u.word w = t.word w

/-- R204 to R212: the accessors VALUE, PREQ, OPCODE, DEVADDR, STATICSYNC, PHYSYNC, REGADDR, REGDATA and SSP return their
bits of CW.value and change nothing else. -/
def Obligations.WordAccessors : Prop :=
  ∀ (s : State) (w : WordName), Ready s →
    let v := (s.word w).value.toNat
    exec (.cwValue w) s = .next { s with result := .u48 (s.word w).value } ∧
    exec (.cwPreq w) s = .next { s with result := .u1 (decide (v / 2 ^ 47 % 2 = 1)) } ∧
    exec (.cwOpcode w) s = .next { s with result := .u3 (BitVec.ofNat 3 (v / 2 ^ 44)) } ∧
    exec (.cwDevAddr w) s = .next { s with result := .u4 (BitVec.ofNat 4 (v / 2 ^ 40)) } ∧
    exec (.cwStaticSync w) s = .next { s with result := .u8 (BitVec.ofNat 8 (v / 2 ^ 16)) } ∧
    exec (.cwPhySync w) s = .next { s with result := .u1 (decide (v / 2 ^ 15 % 2 = 1)) } ∧
    exec (.cwRegAddr w) s = .next { s with result := .u16 (BitVec.ofNat 16 (v / 2 ^ 24)) } ∧
    exec (.cwRegData w) s = .next { s with result := .u8 (BitVec.ofNat 8 (v / 2 ^ 7)) } ∧
    exec (.cwSsp w) s = .next { s with result := .u1 (decide (v / 2 ^ 42 % 2 = 1)) }

/-- R213 to R218: the accessors PINGSTAT4_11, PINGSTAT0_3, DYNAMICSYNC, PAR, NAK and ACK return their bits of CW.value
and change nothing else. -/
def Obligations.WordStatusAccessors : Prop :=
  ∀ (s : State) (w : WordName), Ready s →
    let v := (s.word w).value.toNat
    exec (.cwPingStat4To11 w) s = .next { s with result := .u16 (BitVec.ofNat 16 (v / 2 ^ 24)) } ∧
    exec (.cwPingStat0To3 w) s = .next { s with result := .u8 (BitVec.ofNat 8 (v / 2 ^ 7)) } ∧
    exec (.cwDynamicSync w) s = .next { s with result := .u4 (BitVec.ofNat 4 (v / 2 ^ 3)) } ∧
    exec (.cwPar w) s = .next { s with result := .u1 (decide (v / 2 ^ 2 % 2 = 1)) } ∧
    exec (.cwNak w) s = .next { s with result := .u1 (decide (v / 2 % 2 = 1)) } ∧
    exec (.cwAck w) s = .next { s with result := .u1 (decide (v % 2 = 1)) }

/-- R220 and R221: the predicates. A shape change is a WRITE (OpCode 3) to RegAddr 0x60 or 0x70; two words are the same
PING when they agree on PREQ, rows 8 to 23, rows 33 to 40, NAK and ACK, and on no other bit is it asked. -/
def Obligations.WordPredicates : Prop :=
  ∀ (s : State) (w : WordName) (other : CtrlWord), Ready s →
    let v := (s.word w).value
    (∃ b : Bool, exec (.cwIsFrameShapeChange w) s = .next { s with result := .u1 b } ∧
      (b = true ↔ v.toNat / 2 ^ 44 % 8 = 3 ∧
        (v.toNat / 2 ^ 24 % 2 ^ 16 = 0x60 ∨ v.toNat / 2 ^ 24 % 2 ^ 16 = 0x70))) ∧
    (∃ b : Bool, exec (.cwIsPingSameAs w other) s = .next { s with result := .u1 b } ∧
      (b = true ↔ v &&& 0x80FFFF007F83 = other &&& 0x80FFFF007F83))

/-- R222 with the tables of R87 and R88: CW.GET_NEW_SHAPE, rows 0 exactly for the reserved slots 15 and 24 to 31, and
every other answer a legal shape. -/
def Obligations.NewShapeTables : Prop :=
  ∀ (s : State) (w : WordName), Ready s →
    let data := (s.word w).value.toNat / 2 ^ 7 % 256
    ∃ (rows : Rows) (columns : Columns), exec (.cwGetNewShape w) s = .next { s with result := .shape rows columns } ∧
      columns.toNat = 2 * (data % 8) + 2 ∧
      ([48, 50, 60, 64, 75, 80, 125, 147, 96, 100, 120, 128, 150, 169, 250, 0, 192, 200, 240, 256, 72, 144, 90, 180,
        0, 0, 0, 0, 0, 0, 0, 0] : List Nat)[data / 8]? = some rows.toNat ∧
      (rows ≠ 0 → legalShape rows columns = true)

/-! ## SyncFinder -/

/-- R248: SF.CHECK_SYNC leaves sample, level and parity as it found them, and the read index too, but for the live tail,
where it becomes the index of the same next bit (90_conflicts.md C7); with collection on, which R345 asks for, the next
BD.NEXT_BIT returns the bit and the sample it would have returned. The history is only appended to, nothing but bus
resets is emitted, and the units listed are untouched. -/
def Obligations.CheckSyncKeepsPosition : Prop :=
  ∀ (s t : State) (rows : Rows) (columns : Columns),
    Ready s → IndexInRange s → exec (.sfCheckSync rows columns) s = .next t → Completed t →
      t.bd.currentSample = s.bd.currentSample ∧ t.bd.lastLevel = s.bd.lastLevel ∧
      t.bd.parityIsOdd = s.bd.parityIsOdd ∧
      t.bd.nextHistoryReadIndex =
        (match s.bd.nextHistoryReadIndex with
        | .entry i => .entry i
        | .sentinel => if t.hb.size = s.hb.size then .sentinel else .entry s.hb.size) ∧
      t.bd.collectHistory = s.bd.collectHistory ∧ t.hb.epoch = s.hb.epoch ∧ s.hb.entries <+: t.hb.entries ∧
      t.fe = s.fe ∧ t.sf = s.sf ∧ t.readers = s.readers ∧ t.words = s.words ∧ t.matchers = s.matchers ∧
      t.generators = s.generators ∧ t.progressSample = s.progressSample ∧
      (∃ ev, t.events = s.events ++ ev ∧ ∀ e ∈ ev, ∃ a b, e = .busReset a b) ∧
      (s.bd.collectHistory = true → ∀ u, exec .bdNextBit s = .next u → Completed u →
        ∃ v, exec .bdNextBit t = .next v ∧ Completed v ∧ v.result = u.result ∧
          v.bd.currentSample = u.bd.currentSample)

/-- SF.CHECK_SYNC completes with an answer of 0 to 16 once enough edges are there (R361), 16 frames of the largest shape;
and its answer is that of R244 on what lies ahead: 0 where the seed frame's DynamicSync is 0, `k` where frame `k` is the
first to fail PAR, StaticSync or DynamicSync, 16 where all pass, each frame read in the shape the one before it
announced. With the cancel input at 0. -/
def Obligations.CheckSyncCompletes : Prop :=
  (∀ (s : State) (rows : Rows) (columns : Columns),
    Ready s → legalShape rows columns = true → s.cancel = [] → PendingWhole s →
    16 * 4096 ≤ s.edges.length → RoomFor (16 * 4096) s →
      ∃ t n, exec (.sfCheckSync rows columns) s = .next t ∧ Completed t ∧ t.result = .count n ∧ n ≤ 16 ∧
        t.status = s.status) ∧
  (∀ (s : State) (rows : Rows) (columns : Columns) (n : Nat),
    Ready s → legalShape rows columns = true → s.cancel = [] → PendingWhole s → RoomFor s.edges.length s →
    CheckAnswer s.ahead rows columns n →
      ∃ t, exec (.sfCheckSync rows columns) s = .next t ∧ Completed t ∧ t.result = .count n ∧ t.status = s.status)

/-- R315: SF.CHECK_SYNC and SF.TEST_IF_SYNC_IS_REAL with an illegal shape fault with ILLEGAL_SHAPE and change nothing else
(R307 item 1). -/
def Obligations.SyncCommandsRefuseIllegalShape : Prop :=
  ∀ (s : State) (rows : Rows) (columns : Columns) (offset : Nat) (start matched : Mark),
    Ready s → ¬(rows ∈ rowSet ∧ columns ∈ columnSet) →
      exec (.sfCheckSync rows columns) s = .next { s with status := .faulted .illegalShape } ∧
      exec (.sfTestIfSyncIsReal rows columns offset start matched) s =
        .next { s with status := .faulted .illegalShape }

/-- R243: SF.TEST_IF_SYNC_IS_REAL is BD.RESTORE of the match mark; then, with the match at least 31*C + 1 bits after
the start mark, BD.RESTORE of the start mark and a skip to the start of the match's frame, else a skip to the next
frame's start; then SF.CHECK_SYNC; and its answer is whether all 16 frames passed. With the cancel input at 0. -/
def Obligations.TestAlignsThenChecks : Prop :=
  ∀ (s v a c : State) (rows : Rows) (columns : Columns) (offset n : Nat) (start matched : Mark) (bits : List Bool),
    let last := 31 * columns.toNat + 1
    Ready s → s.cancel = [] → legalShape rows columns = true →
    exec (.bdRestore matched) s = .next v → Completed v →
    (if last ≤ offset then
      ∃ v1, exec (.bdRestore start) v = .next v1 ∧ Completed v1 ∧ readBits (offset - last) v1 = some (bits, a)
     else readBits (rows.toNat * columns.toNat - last) v = some (bits, a)) →
    exec (.sfCheckSync rows columns) a = .next c → Completed c → c.result = .count n →
      exec (.sfTestIfSyncIsReal rows columns offset start matched) s = .next { c with result := .u1 (decide (15 < n)) }

/-- SF.TEST_IF_SYNC_IS_REAL completes with an answer once its marks are usable and enough edges are there (R243,
R361). -/
def Obligations.TestSyncCompletes : Prop :=
  ∀ (s : State) (rows : Rows) (columns : Columns) (offset : Nat) (start matched : Mark),
    Ready s → legalShape rows columns = true → s.cancel = [] → MarkUsable start s → MarkUsable matched s →
    offset + 17 * 4096 ≤ s.edges.length → RoomFor (offset + 17 * 4096) s →
      ∃ t b, exec (.sfTestIfSyncIsReal rows columns offset start matched) s = .next t ∧ Completed t ∧
        t.result = .u1 b ∧ t.status = s.status

/-- R241, R242, R243 and R247 for one case: with the shape hinted, the very first match of the matcher at least 31*C + 1
bits after the start mark, and that match validating, SF.FIND_SYNC aligns to the match's frame start, commits the shape
and returns it with the decoder there. `n` is the number of bits up to the match. With the cancel input at 0. The other
cases are those of FindSyncCompletes. -/
def Obligations.FindSyncCommitsValidShape : Prop :=
  ∀ (s u v a c : State) (rows : Rows) (columns : Columns) (n : Nat) (bits skipped : List Bool),
    let last := 31 * columns.toNat + 1
    Ready s → s.cancel = [] → legalShape rows columns = true →
    last ≤ n → n ≤ 4096 + 256 * columns.toNat →
    readBits n s = some (bits, u) → syncPatternAt columns bits →
    (∀ k, k < n → ¬syncPatternAt columns (bits.take k)) →
    exec (.bdRestore (mark s)) u = .next v → Completed v → readBits (n - last) v = some (skipped, a) →
    exec (.sfCheckSync rows columns) a = .next c → Completed c → c.result = .count 16 →
      exec (.sfFindSync rows columns) s = .next { c with sf := ⟨rows, columns⟩, result := .shape rows columns }

/-- SF.FIND_SYNC completes. First clause: with collection on, where some candidate of the first window validates and the
stream turns down all before it, in the order of R240 and R241 (columns, then matches, then rows), the search returns that
shape, commits it, and leaves the decoder at the aligned frame start, whether that is before the match or after it (R243);
hints may be 0. Second clause: where every candidate of the window is turned down, the search goes on as if the bits it read,
`w` of them, had been read once, the history discarded, and SF.FIND_SYNC issued there (R246): it completes where that
one does, and waits where that one waits. With the cancel input at 0. -/
def Obligations.FindSyncCompletes : Prop :=
  (∀ (s : State) (rowsHint rows : Rows) (columnsHint columns : Columns) (before after : List Columns)
      (rowsBefore rowsAfter : List Rows) (m : Nat),
    CanSearch s rowsHint columnsHint → s.cancel = [] →
    columnCandidates columnsHint = before ++ columns :: after →
    rowCandidates rowsHint = rowsBefore ++ rows :: rowsAfter →
    MatchAt s.ahead columns m → Validates s.ahead rows columns m →
    (∀ c ∈ before, ColumnRejected s.ahead rowsHint c) →
    (∀ k, k < m → MatchAt s.ahead columns k → ∀ r ∈ rowCandidates rowsHint, Rejected s.ahead r columns k) →
    (∀ r ∈ rowsBefore, Rejected s.ahead r columns m) →
      ∃ t, exec (.sfFindSync rowsHint columnsHint) s = .next t ∧ Completed t ∧ t.result = .shape rows columns ∧
        t.sf = ⟨rows, columns⟩ ∧ t.ahead = s.ahead.drop (alignedStart rows columns m) ∧ t.status = s.status ∧
        t.fe = s.fe ∧ t.readers = s.readers ∧ t.words = s.words ∧ t.matchers = s.matchers ∧
        t.generators = s.generators ∧ t.hb.epoch = s.hb.epoch ∧ t.progressSample = s.progressSample ∧
        ∃ ev, t.events = s.events ++ ev ∧ ∀ e ∈ ev, ∃ a b, e = .busReset a b) ∧
  (∀ (s u v t : State) (rowsHint : Rows) (columnsHint : Columns) (w : Nat) (bits : List Bool),
    CanSearch s rowsHint columnsHint → s.cancel = [] →
    (∀ c ∈ columnCandidates columnsHint, ColumnRejected s.ahead rowsHint c) →
    (pendingLevels s).length ≤ w → (∀ p, ReadTo s.ahead rowsHint columnsHint p → p ≤ w) →
    (w = (pendingLevels s).length ∨ ReadTo s.ahead rowsHint columnsHint w) →
    readBits w s = some (bits, u) → exec .bdDiscardHistory u = .next v →
    exec (.sfFindSync rowsHint columnsHint) v = .next t →
      ∃ t', exec (.sfFindSync rowsHint columnsHint) s = .next t' ∧ (t'.task = none ↔ t.task = none) ∧
        (t.task = none → t'.result = t.result) ∧
        { t' with task := none, result := .none } = { t with task := none, result := .none })

/-! ## FrameEmitter -/

/-- R270: FE.START from IDLE. The priming bit is consumed as BD.NEXT_BIT consumes it, and is discarded; then history
collection is turned on, the start mark is taken and the driver is started. -/
def Obligations.StartPrimesAndCollects : Prop :=
  ∀ (s u : State),
    Ready s → s.status = .idle → exec .bdNextBit { s with status := .running } = .next u → Completed u →
      let hb' : History := if u.bd.nextHistoryReadIndex = .sentinel then ⟨[], u.hb.epoch + 1⟩ else u.hb
      let u1 : State := { u with hb := hb', bd := { u.bd with collectHistory := true } }
      exec .feStart s = .next
        { u1 with
          fe := { s.fe with startMark := mark u1, inSync := false, firstFrame := false, started := true }
          result := .none }

/-- R271, R272 and R273: an in-sync FE.STEP on a bit that does not complete a frame consumes exactly one decoded bit and
pushes it into the driver's reader; FRAME_START records the sample, CAPTURE_PARITY captures the parity accumulator and
resets it, NEED_MORE_BITS does nothing more; progress is written. -/
def Obligations.InSyncStepWithinFrame : Prop :=
  ∀ (s u p : State) (bit : Bool) (code : BitVec 2),
    Ready s → s.status = .running → s.fe.started = true → s.fe.inSync = true → s.cancel = [] →
    exec .bdNextBit s = .next u → Completed u → u.result = .u1 bit →
    exec (.frPushBit .driver bit) u = .next p → p.result = .u2 code → code ≠ 3 →
      exec .feStep s = .next
        { p with
          fe := { p.fe with
            fStart := if code = 0 then u.bd.currentSample else s.fe.fStart
            actualParityIsOdd := if code = 2 then u.bd.parityIsOdd else s.fe.actualParityIsOdd }
          bd := { u.bd with parityIsOdd := if code = 2 then false else u.bd.parityIsOdd }
          progressSample := u.bd.currentSample
          result := .none }

/-- FE.START and an in-sync FE.STEP complete as soon as one edge record is there (R270, R271, R361): each takes exactly
that record, and FE.STEP reports its sample as progress. -/
def Obligations.DriverCommandsComplete : Prop :=
  ∀ (s : State) (e : Edge) (rest : List Edge),
    Ready s → s.bd.nextHistoryReadIndex = .sentinel → s.edges = e :: rest → RoomFor 1 s →
    (s.status = .idle →
      ∃ t, exec .feStart s = .next t ∧ Completed t ∧ t.status = .running ∧ t.fe.started = true ∧
        t.bd.collectHistory = true ∧ t.hb.entries = [] ∧ t.edges = rest ∧ t.edgesTaken = s.edgesTaken + 1 ∧
        t.fe.startMark = ⟨e.level, s.bd.parityIsOdd != e.level, e.sample, 0, s.hb.epoch + 1⟩) ∧
    (s.status = .running → s.fe.started = true → s.fe.inSync = true → s.cancel = [] →
      ∃ t, exec .feStep s = .next t ∧ Completed t ∧ t.status = .running ∧ t.edges = rest ∧
        t.edgesTaken = s.edgesTaken + 1 ∧ t.bd.currentSample = e.sample ∧ t.progressSample = e.sample)

/-- R274 for the seed frame: it is emitted without flags whatever its control word says, it seeds the generator, and
the driver is in the frames after it; history with nothing pending is discarded and the start mark retaken. Stated for a
frame that announces no shape change, which resets the reader. -/
def Obligations.SeedFrameEmittedUnchecked : Prop :=
  ∀ (s u p : State) (bit : Bool),
    Ready s → s.status = .running → s.fe.started = true → s.fe.inSync = true → s.fe.firstFrame = true → s.cancel = [] →
    exec .bdNextBit s = .next u → Completed u → u.result = .u1 bit →
    exec (.frPushBit .driver bit) u = .next p → p.result = .u2 3 → cwShapeChange p.fe.reader.cw.value = false →
      let hb' : History := if u.bd.nextHistoryReadIndex = .sentinel then ⟨[], u.hb.epoch + 1⟩ else u.hb
      exec .feStep s = .next
        { p with
          hb := hb'
          events := u.events ++ [.frame ⟨s.fe.fStart, u.bd.currentSample, p.fe.reader.cw.value, 0⟩]
          fe := { p.fe with
            reader := ⟨p.fe.reader.rows, p.fe.reader.columns, 0, 0, ⟨0, (1 : BitVec 48) <<< 47⟩, .frameStart⟩
            gen := BitVec.ofNat 4 (p.fe.reader.cw.value.toNat / 2 ^ 3)
            firstFrame := false
            startMark := mark { u with hb := hb' } }
          progressSample := u.bd.currentSample
          result := .none }

/-- R301 and R274: a later frame whose StaticSync is not 0xB1, or whose DynamicSync is not the generator's next value,
is emitted with SYNC_LOST, with PARITY_BAD too where the captured parity is not PAR (R302), and puts the driver out
of sync: no shape change, no discard, no new start mark. DSG.NEXT is issued only where StaticSync matched. -/
def Obligations.SyncLostFrame : Prop :=
  ∀ (s u p : State) (bit : Bool),
    Ready s → s.status = .running → s.fe.started = true → s.fe.inSync = true → s.fe.firstFrame = false →
    s.cancel = [] → exec .bdNextBit s = .next u → Completed u → u.result = .u1 bit →
    exec (.frPushBit .driver bit) u = .next p → p.result = .u2 3 →
      let v := p.fe.reader.cw.value.toNat
      (v / 2 ^ 16 % 256 ≠ 0xB1 ∨ v / 2 ^ 3 % 16 ≠ (dsyncNext s.fe.gen).toNat) →
      exec .feStep s = .next
        { p with
          events := u.events ++ [.frame ⟨s.fe.fStart, u.bd.currentSample, p.fe.reader.cw.value,
            if s.fe.actualParityIsOdd = decide (v / 2 ^ 2 % 2 = 1) then 2 else 3⟩]
          fe := { p.fe with
            gen := if v / 2 ^ 16 % 256 = 0xB1 then dsyncNext s.fe.gen else s.fe.gen
            inSync := false }
          progressSample := u.bd.currentSample
          result := .none }

/-- R302 and R274: a later frame in sync is emitted with PARITY_BAD exactly where the captured parity is not PAR, and
sync is kept. Stated for a frame that announces no shape change. -/
def Obligations.ParityBadFrameKeepsSync : Prop :=
  ∀ (s u p : State) (bit : Bool),
    Ready s → s.status = .running → s.fe.started = true → s.fe.inSync = true → s.fe.firstFrame = false →
    s.cancel = [] → exec .bdNextBit s = .next u → Completed u → u.result = .u1 bit →
    exec (.frPushBit .driver bit) u = .next p → p.result = .u2 3 → cwShapeChange p.fe.reader.cw.value = false →
      let v := p.fe.reader.cw.value.toNat
      let hb' : History := if u.bd.nextHistoryReadIndex = .sentinel then ⟨[], u.hb.epoch + 1⟩ else u.hb
      (v / 2 ^ 16 % 256 = 0xB1 ∧ v / 2 ^ 3 % 16 = (dsyncNext s.fe.gen).toNat) →
      exec .feStep s = .next
        { p with
          hb := hb'
          events := u.events ++ [.frame ⟨s.fe.fStart, u.bd.currentSample, p.fe.reader.cw.value,
            if s.fe.actualParityIsOdd = decide (v / 2 ^ 2 % 2 = 1) then 0 else 1⟩]
          fe := { p.fe with
            reader := ⟨p.fe.reader.rows, p.fe.reader.columns, 0, 0, ⟨0, (1 : BitVec 48) <<< 47⟩, .frameStart⟩
            gen := dsyncNext s.fe.gen
            startMark := mark { u with hb := hb' } }
          progressSample := u.bd.currentSample
          result := .none }

/-- R276 and R304: an accepted frame that announces a shape change with legal rows reshapes the driver's reader and
announces the shape after the frame; with rows 0 it emits INVALID_SHAPE after the frame and the reader keeps its
shape. Stated for the seed frame and for a later frame in sync, which carries PARITY_BAD where the captured parity is
not PAR (R274); either way the generator is left at the frame's own DynamicSync. -/
def Obligations.ShapeChangeAppliedAfterFrame : Prop :=
  ∀ (s u p : State) (bit : Bool),
    Ready s → s.status = .running → s.fe.started = true → s.fe.inSync = true → s.cancel = [] →
    exec .bdNextBit s = .next u → Completed u → u.result = .u1 bit →
    exec (.frPushBit .driver bit) u = .next p → p.result = .u2 3 → cwShapeChange p.fe.reader.cw.value = true →
      let v := p.fe.reader.cw.value.toNat
      (s.fe.firstFrame = true ∨ v / 2 ^ 16 % 256 = 0xB1 ∧ v / 2 ^ 3 % 16 = (dsyncNext s.fe.gen).toNat) →
      let flags : BitVec 2 :=
        if s.fe.firstFrame = true ∨ s.fe.actualParityIsOdd = decide (v / 2 ^ 2 % 2 = 1) then 0 else 1
      let frame : FrameRecord := ⟨s.fe.fStart, u.bd.currentSample, p.fe.reader.cw.value, flags⟩
      let rows := (cwNewShape p.fe.reader.cw.value).1
      let columns := (cwNewShape p.fe.reader.cw.value).2
      let hb' : History := if u.bd.nextHistoryReadIndex = .sentinel then ⟨[], u.hb.epoch + 1⟩ else u.hb
      let word0 : ControlWord := ⟨0, (1 : BitVec 48) <<< 47⟩
      exec .feStep s = .next
        { p with
          hb := hb'
          events := u.events ++
            (if rows = 0 then [.frame frame, .invalidShape u.bd.currentSample (cwRegData p.fe.reader.cw.value)]
             else [.frame frame, .shapeChange u.bd.currentSample rows columns])
          fe := { p.fe with
            reader :=
              if rows = 0 then ⟨p.fe.reader.rows, p.fe.reader.columns, 0, 0, word0, .frameStart⟩
              else ⟨rows, columns, 0, 0, word0, .frameStart⟩
            gen := BitVec.ofNat 4 (v / 2 ^ 3)
            firstFrame := false
            startMark := mark { u with hb := hb' } }
          progressSample := u.bd.currentSample
          result := .none }

/-- R275: an out-of-sync FE.STEP restores the start mark, finds sync with the configured hints as SF.FIND_SYNC does,
announces the shape, reshapes the driver's reader, discards obsolete history and goes in sync with a seed frame
next. With the cancel input at 0. -/
def Obligations.ResyncFindsAndAnnounces : Prop :=
  ∀ (s v c : State) (rows : Rows) (columns : Columns),
    Ready s → s.status = .running → s.fe.started = true → s.fe.inSync = false → s.cancel = [] →
    exec (.bdRestore s.fe.startMark) s = .next v → Completed v →
    exec (.sfFindSync s.cfg.hintRows s.cfg.hintColumns) v = .next c → Completed c →
    c.result = .shape rows columns → legalShape rows columns = true →
      exec .feStep s = .next
        { c with
          events := c.events ++ [.shapeChange c.bd.currentSample rows columns]
          hb := if c.bd.nextHistoryReadIndex = .sentinel then ⟨[], c.hb.epoch + 1⟩ else c.hb
          fe := { s.fe with
            reader := ⟨rows, columns, 0, 0, ⟨0, (1 : BitVec 48) <<< 47⟩, .frameStart⟩
            inSync := true
            firstFrame := true }
          progressSample := c.bd.currentSample
          result := .none }

/-- R305, R308 and R307 item 6: a cancel input of 1 at a poll point halts the block there. First two clauses: at the poll
that ends an FE.STEP, in sync or after a resync, the step leaves what it leaves with the cancel input at 0, but for STATUS
and the result; at an earlier poll of a resync, nothing but what the search had emitted. Third clause: in phase 1, where
no matcher fires, at every 4096th bit of the search and at the end of each column window. Fourth: in SF.CHECK_SYNC, at
every 4096th bit and after each frame. -/
def Obligations.CancelHaltsAtPollPoints : Prop :=
  (∀ (s t : State) (later : List Bool),
    Ready s → s.status = .running → s.fe.started = true → s.fe.inSync = true →
    exec .feStep { s with cancel := [] } = .next t → Completed t →
      exec .feStep { s with cancel := true :: later } =
        .next { t with status := .halted, cancel := later, result := s.result }) ∧
  (∀ (s t : State) (later : List Bool),
    Ready s → s.status = .running → s.fe.started = true → s.fe.inSync = false →
    exec .feStep { s with cancel := [] } = .next t → Completed t →
      ∃ q, exec .feStep { s with cancel := List.replicate q false ++ true :: later } =
          .next { t with status := .halted, cancel := later, result := s.result } ∧
        ∀ j, j < q → ∃ h, exec .feStep { s with cancel := List.replicate j false ++ true :: later } = .next h ∧
          h.status = .halted ∧ h.task = none ∧ h.cancel = later ∧ h.fe = s.fe ∧ h.sf = s.sf ∧
          h.progressSample = s.progressSample ∧ s.events <+: h.events ∧ h.events <+: t.events) ∧
  (∀ (s : State) (rowsHint : Rows) (columnsHint columns : Columns) (before after : List Columns) (m : Nat)
      (later : List Bool),
    CanSearch s rowsHint columnsHint → columnCandidates columnsHint = before ++ columns :: after →
    (∀ c ∈ before, 4096 + 256 * c.toNat ≤ s.ahead.levels.length ∧ ∀ k, ¬MatchAt s.ahead c k) →
    1 ≤ m → m ≤ 4096 + 256 * columns.toNat → m ≤ s.ahead.levels.length → (∀ k, k ≤ m → ¬MatchAt s.ahead columns k) →
      let read := (before.map fun c => 4096 + 256 * c.toNat).sum + m
      (read % 4096 = 0 → s.cancel = List.replicate (before.length + read / 4096 - 1) false ++ true :: later →
        ∃ t, exec (.sfFindSync rowsHint columnsHint) s = .next t ∧ HaltedAfter m later s t) ∧
      (m = 4096 + 256 * columns.toNat →
        s.cancel = List.replicate (before.length + read / 4096) false ++ true :: later →
        ∃ t, exec (.sfFindSync rowsHint columnsHint) s = .next t ∧ HaltedAfter m later s t)) ∧
  (∀ (s : State) (rows : Rows) (columns : Columns) (k : Nat) (later : List Bool),
    Ready s → legalShape rows columns = true → PendingWhole s → RoomFor s.edges.length s → k < 16 →
    (∀ j, j < k → frameGood s.ahead rows columns j = true) → (∀ j, j ≤ k → (frameNo s.ahead rows columns j).held) →
      let start := frameOffset s.ahead rows columns k
      let stop := frameOffset s.ahead rows columns (k + 1)
      (∀ j, start < 4096 * j → 4096 * j ≤ stop → s.cancel = List.replicate (k + j - 1) false ++ true :: later →
        ∃ t, exec (.sfCheckSync rows columns) s = .next t ∧ HaltedAfter (4096 * j) later s t) ∧
      (s.cancel = List.replicate (k + stop / 4096) false ++ true :: later →
        ∃ t, exec (.sfCheckSync rows columns) s = .next t ∧ HaltedAfter stop later s t))
end

