-- ==== Sys2Proof/Laws/State.lean ====
section
/-! SUPPORT. What each update of the state leaves in each field, one lemma per field per update, and the laws of the
lists of instances: an update is read back, and leaves every other instance alone. -/

namespace Sys2Proof.Machine

open Sys2Proof

/-! The result port. -/

@[simp] theorem State.returning_bd (s : State) (v : Value) : (s.returning v).bd = s.bd := rfl
@[simp] theorem State.returning_hb (s : State) (v : Value) : (s.returning v).hb = s.hb := rfl
@[simp] theorem State.returning_matchers (s : State) (v : Value) : (s.returning v).matchers = s.matchers := rfl
@[simp] theorem State.returning_generators (s : State) (v : Value) : (s.returning v).generators = s.generators := rfl
@[simp] theorem State.returning_readers (s : State) (v : Value) : (s.returning v).readers = s.readers := rfl
@[simp] theorem State.returning_words (s : State) (v : Value) : (s.returning v).words = s.words := rfl
@[simp] theorem State.returning_sf (s : State) (v : Value) : (s.returning v).sf = s.sf := rfl
@[simp] theorem State.returning_fe (s : State) (v : Value) : (s.returning v).fe = s.fe := rfl
@[simp] theorem State.returning_cfg (s : State) (v : Value) : (s.returning v).cfg = s.cfg := rfl
@[simp] theorem State.returning_status (s : State) (v : Value) : (s.returning v).status = s.status := rfl
@[simp] theorem State.returning_edges (s : State) (v : Value) : (s.returning v).edges = s.edges := rfl
@[simp] theorem State.returning_edgesTaken (s : State) (v : Value) : (s.returning v).edgesTaken = s.edgesTaken := rfl
@[simp] theorem State.returning_cancel (s : State) (v : Value) : (s.returning v).cancel = s.cancel := rfl
@[simp] theorem State.returning_events (s : State) (v : Value) : (s.returning v).events = s.events := rfl
@[simp] theorem State.returning_progressSample (s : State) (v : Value) :
    (s.returning v).progressSample = s.progressSample := rfl
@[simp] theorem State.returning_commands (s : State) (v : Value) : (s.returning v).commands = s.commands := rfl
@[simp] theorem State.returning_result (s : State) (v : Value) : (s.returning v).result = v := rfl
@[simp] theorem State.returning_task (s : State) (v : Value) : (s.returning v).task = s.task := rfl

/-! The event log. -/

@[simp] theorem emit_bd (e : Event) (s : State) : (emit e s).bd = s.bd := rfl
@[simp] theorem emit_hb (e : Event) (s : State) : (emit e s).hb = s.hb := rfl
@[simp] theorem emit_matchers (e : Event) (s : State) : (emit e s).matchers = s.matchers := rfl
@[simp] theorem emit_generators (e : Event) (s : State) : (emit e s).generators = s.generators := rfl
@[simp] theorem emit_readers (e : Event) (s : State) : (emit e s).readers = s.readers := rfl
@[simp] theorem emit_words (e : Event) (s : State) : (emit e s).words = s.words := rfl
@[simp] theorem emit_sf (e : Event) (s : State) : (emit e s).sf = s.sf := rfl
@[simp] theorem emit_fe (e : Event) (s : State) : (emit e s).fe = s.fe := rfl
@[simp] theorem emit_cfg (e : Event) (s : State) : (emit e s).cfg = s.cfg := rfl
@[simp] theorem emit_status (e : Event) (s : State) : (emit e s).status = s.status := rfl
@[simp] theorem emit_edges (e : Event) (s : State) : (emit e s).edges = s.edges := rfl
@[simp] theorem emit_edgesTaken (e : Event) (s : State) : (emit e s).edgesTaken = s.edgesTaken := rfl
@[simp] theorem emit_cancel (e : Event) (s : State) : (emit e s).cancel = s.cancel := rfl
@[simp] theorem emit_events (e : Event) (s : State) : (emit e s).events = s.events ++ [e] := rfl
@[simp] theorem emit_progressSample (e : Event) (s : State) : (emit e s).progressSample = s.progressSample := rfl
@[simp] theorem emit_commands (e : Event) (s : State) : (emit e s).commands = s.commands := rfl
@[simp] theorem emit_result (e : Event) (s : State) : (emit e s).result = s.result := rfl
@[simp] theorem emit_task (e : Event) (s : State) : (emit e s).task = s.task := rfl

/-! The instances commands name. -/

@[simp] theorem State.setMatcher_bd (s : State) (k : Nat) (m : Matcher) : (s.setMatcher k m).bd = s.bd := rfl
@[simp] theorem State.setMatcher_hb (s : State) (k : Nat) (m : Matcher) : (s.setMatcher k m).hb = s.hb := rfl
@[simp] theorem State.setMatcher_matchers (s : State) (k : Nat) (m : Matcher) :
    (s.setMatcher k m).matchers = poolSet Matcher.reset k m s.matchers := rfl
@[simp] theorem State.setMatcher_generators (s : State) (k : Nat) (m : Matcher) :
    (s.setMatcher k m).generators = s.generators := rfl
@[simp] theorem State.setMatcher_readers (s : State) (k : Nat) (m : Matcher) :
    (s.setMatcher k m).readers = s.readers := rfl
@[simp] theorem State.setMatcher_words (s : State) (k : Nat) (m : Matcher) : (s.setMatcher k m).words = s.words := rfl
@[simp] theorem State.setMatcher_sf (s : State) (k : Nat) (m : Matcher) : (s.setMatcher k m).sf = s.sf := rfl
@[simp] theorem State.setMatcher_fe (s : State) (k : Nat) (m : Matcher) : (s.setMatcher k m).fe = s.fe := rfl
@[simp] theorem State.setMatcher_cfg (s : State) (k : Nat) (m : Matcher) : (s.setMatcher k m).cfg = s.cfg := rfl
@[simp] theorem State.setMatcher_status (s : State) (k : Nat) (m : Matcher) :
    (s.setMatcher k m).status = s.status := rfl
@[simp] theorem State.setMatcher_edges (s : State) (k : Nat) (m : Matcher) : (s.setMatcher k m).edges = s.edges := rfl
@[simp] theorem State.setMatcher_edgesTaken (s : State) (k : Nat) (m : Matcher) :
    (s.setMatcher k m).edgesTaken = s.edgesTaken := rfl
@[simp] theorem State.setMatcher_cancel (s : State) (k : Nat) (m : Matcher) :
    (s.setMatcher k m).cancel = s.cancel := rfl
@[simp] theorem State.setMatcher_events (s : State) (k : Nat) (m : Matcher) :
    (s.setMatcher k m).events = s.events := rfl
@[simp] theorem State.setMatcher_progressSample (s : State) (k : Nat) (m : Matcher) :
    (s.setMatcher k m).progressSample = s.progressSample := rfl
@[simp] theorem State.setMatcher_commands (s : State) (k : Nat) (m : Matcher) :
    (s.setMatcher k m).commands = s.commands := rfl
@[simp] theorem State.setMatcher_result (s : State) (k : Nat) (m : Matcher) :
    (s.setMatcher k m).result = s.result := rfl
@[simp] theorem State.setMatcher_task (s : State) (k : Nat) (m : Matcher) : (s.setMatcher k m).task = s.task := rfl

/-! A generator is the driver's or a named one. -/

@[simp] theorem State.setGenerator_bd (s : State) (g : GenName) (v : DSync) :
    (s.setGenerator g v).bd = s.bd := by cases g <;> rfl
@[simp] theorem State.setGenerator_hb (s : State) (g : GenName) (v : DSync) :
    (s.setGenerator g v).hb = s.hb := by cases g <;> rfl
@[simp] theorem State.setGenerator_matchers (s : State) (g : GenName) (v : DSync) :
    (s.setGenerator g v).matchers = s.matchers := by cases g <;> rfl
@[simp] theorem State.setGenerator_readers (s : State) (g : GenName) (v : DSync) :
    (s.setGenerator g v).readers = s.readers := by cases g <;> rfl
@[simp] theorem State.setGenerator_words (s : State) (g : GenName) (v : DSync) :
    (s.setGenerator g v).words = s.words := by cases g <;> rfl
@[simp] theorem State.setGenerator_sf (s : State) (g : GenName) (v : DSync) :
    (s.setGenerator g v).sf = s.sf := by cases g <;> rfl
@[simp] theorem State.setGenerator_cfg (s : State) (g : GenName) (v : DSync) :
    (s.setGenerator g v).cfg = s.cfg := by cases g <;> rfl
@[simp] theorem State.setGenerator_status (s : State) (g : GenName) (v : DSync) :
    (s.setGenerator g v).status = s.status := by cases g <;> rfl
@[simp] theorem State.setGenerator_edges (s : State) (g : GenName) (v : DSync) :
    (s.setGenerator g v).edges = s.edges := by cases g <;> rfl
@[simp] theorem State.setGenerator_edgesTaken (s : State) (g : GenName) (v : DSync) :
    (s.setGenerator g v).edgesTaken = s.edgesTaken := by cases g <;> rfl
@[simp] theorem State.setGenerator_cancel (s : State) (g : GenName) (v : DSync) :
    (s.setGenerator g v).cancel = s.cancel := by cases g <;> rfl
@[simp] theorem State.setGenerator_events (s : State) (g : GenName) (v : DSync) :
    (s.setGenerator g v).events = s.events := by cases g <;> rfl
@[simp] theorem State.setGenerator_progressSample (s : State) (g : GenName) (v : DSync) :
    (s.setGenerator g v).progressSample = s.progressSample := by cases g <;> rfl
@[simp] theorem State.setGenerator_commands (s : State) (g : GenName) (v : DSync) :
    (s.setGenerator g v).commands = s.commands := by cases g <;> rfl
@[simp] theorem State.setGenerator_result (s : State) (g : GenName) (v : DSync) :
    (s.setGenerator g v).result = s.result := by cases g <;> rfl
@[simp] theorem State.setGenerator_task (s : State) (g : GenName) (v : DSync) :
    (s.setGenerator g v).task = s.task := by cases g <;> rfl

/-! A reader is the driver's or a named one. -/

@[simp] theorem State.setReader_bd (s : State) (n : ReaderName) (r : FrameReader) :
    (s.setReader n r).bd = s.bd := by cases n <;> rfl
@[simp] theorem State.setReader_hb (s : State) (n : ReaderName) (r : FrameReader) :
    (s.setReader n r).hb = s.hb := by cases n <;> rfl
@[simp] theorem State.setReader_matchers (s : State) (n : ReaderName) (r : FrameReader) :
    (s.setReader n r).matchers = s.matchers := by cases n <;> rfl
@[simp] theorem State.setReader_generators (s : State) (n : ReaderName) (r : FrameReader) :
    (s.setReader n r).generators = s.generators := by cases n <;> rfl
@[simp] theorem State.setReader_words (s : State) (n : ReaderName) (r : FrameReader) :
    (s.setReader n r).words = s.words := by cases n <;> rfl
@[simp] theorem State.setReader_sf (s : State) (n : ReaderName) (r : FrameReader) :
    (s.setReader n r).sf = s.sf := by cases n <;> rfl
@[simp] theorem State.setReader_cfg (s : State) (n : ReaderName) (r : FrameReader) :
    (s.setReader n r).cfg = s.cfg := by cases n <;> rfl
@[simp] theorem State.setReader_status (s : State) (n : ReaderName) (r : FrameReader) :
    (s.setReader n r).status = s.status := by cases n <;> rfl
@[simp] theorem State.setReader_edges (s : State) (n : ReaderName) (r : FrameReader) :
    (s.setReader n r).edges = s.edges := by cases n <;> rfl
@[simp] theorem State.setReader_edgesTaken (s : State) (n : ReaderName) (r : FrameReader) :
    (s.setReader n r).edgesTaken = s.edgesTaken := by cases n <;> rfl
@[simp] theorem State.setReader_cancel (s : State) (n : ReaderName) (r : FrameReader) :
    (s.setReader n r).cancel = s.cancel := by cases n <;> rfl
@[simp] theorem State.setReader_events (s : State) (n : ReaderName) (r : FrameReader) :
    (s.setReader n r).events = s.events := by cases n <;> rfl
@[simp] theorem State.setReader_progressSample (s : State) (n : ReaderName) (r : FrameReader) :
    (s.setReader n r).progressSample = s.progressSample := by cases n <;> rfl
@[simp] theorem State.setReader_commands (s : State) (n : ReaderName) (r : FrameReader) :
    (s.setReader n r).commands = s.commands := by cases n <;> rfl
@[simp] theorem State.setReader_result (s : State) (n : ReaderName) (r : FrameReader) :
    (s.setReader n r).result = s.result := by cases n <;> rfl
@[simp] theorem State.setReader_task (s : State) (n : ReaderName) (r : FrameReader) :
    (s.setReader n r).task = s.task := by cases n <;> rfl

/-! A control word is a reader's or an ephemeral one. -/

@[simp] theorem State.setWord_bd (s : State) (n : WordName) (w : ControlWord) :
    (s.setWord n w).bd = s.bd := by cases n <;> simp [State.setWord]
@[simp] theorem State.setWord_hb (s : State) (n : WordName) (w : ControlWord) :
    (s.setWord n w).hb = s.hb := by cases n <;> simp [State.setWord]
@[simp] theorem State.setWord_matchers (s : State) (n : WordName) (w : ControlWord) :
    (s.setWord n w).matchers = s.matchers := by cases n <;> simp [State.setWord]
@[simp] theorem State.setWord_generators (s : State) (n : WordName) (w : ControlWord) :
    (s.setWord n w).generators = s.generators := by cases n <;> simp [State.setWord]
@[simp] theorem State.setWord_sf (s : State) (n : WordName) (w : ControlWord) :
    (s.setWord n w).sf = s.sf := by cases n <;> simp [State.setWord]
@[simp] theorem State.setWord_cfg (s : State) (n : WordName) (w : ControlWord) :
    (s.setWord n w).cfg = s.cfg := by cases n <;> simp [State.setWord]
@[simp] theorem State.setWord_status (s : State) (n : WordName) (w : ControlWord) :
    (s.setWord n w).status = s.status := by cases n <;> simp [State.setWord]
@[simp] theorem State.setWord_edges (s : State) (n : WordName) (w : ControlWord) :
    (s.setWord n w).edges = s.edges := by cases n <;> simp [State.setWord]
@[simp] theorem State.setWord_edgesTaken (s : State) (n : WordName) (w : ControlWord) :
    (s.setWord n w).edgesTaken = s.edgesTaken := by cases n <;> simp [State.setWord]
@[simp] theorem State.setWord_cancel (s : State) (n : WordName) (w : ControlWord) :
    (s.setWord n w).cancel = s.cancel := by cases n <;> simp [State.setWord]
@[simp] theorem State.setWord_events (s : State) (n : WordName) (w : ControlWord) :
    (s.setWord n w).events = s.events := by cases n <;> simp [State.setWord]
@[simp] theorem State.setWord_progressSample (s : State) (n : WordName) (w : ControlWord) :
    (s.setWord n w).progressSample = s.progressSample := by cases n <;> simp [State.setWord]
@[simp] theorem State.setWord_commands (s : State) (n : WordName) (w : ControlWord) :
    (s.setWord n w).commands = s.commands := by cases n <;> simp [State.setWord]
@[simp] theorem State.setWord_result (s : State) (n : WordName) (w : ControlWord) :
    (s.setWord n w).result = s.result := by cases n <;> simp [State.setWord]
@[simp] theorem State.setWord_task (s : State) (n : WordName) (w : ControlWord) :
    (s.setWord n w).task = s.task := by cases n <;> simp [State.setWord]

/-! The history clear. -/

@[simp] theorem histClear_bd (s : State) : (histClear s).bd = s.bd := rfl
@[simp] theorem histClear_hb (s : State) : (histClear s).hb = ⟨[], s.hb.epoch + 1⟩ := rfl
@[simp] theorem histClear_matchers (s : State) : (histClear s).matchers = s.matchers := rfl
@[simp] theorem histClear_generators (s : State) : (histClear s).generators = s.generators := rfl
@[simp] theorem histClear_readers (s : State) : (histClear s).readers = s.readers := rfl
@[simp] theorem histClear_words (s : State) : (histClear s).words = s.words := rfl
@[simp] theorem histClear_sf (s : State) : (histClear s).sf = s.sf := rfl
@[simp] theorem histClear_fe (s : State) : (histClear s).fe = s.fe := rfl
@[simp] theorem histClear_cfg (s : State) : (histClear s).cfg = s.cfg := rfl
@[simp] theorem histClear_status (s : State) : (histClear s).status = s.status := rfl
@[simp] theorem histClear_edges (s : State) : (histClear s).edges = s.edges := rfl
@[simp] theorem histClear_edgesTaken (s : State) : (histClear s).edgesTaken = s.edgesTaken := rfl
@[simp] theorem histClear_cancel (s : State) : (histClear s).cancel = s.cancel := rfl
@[simp] theorem histClear_events (s : State) : (histClear s).events = s.events := rfl
@[simp] theorem histClear_progressSample (s : State) : (histClear s).progressSample = s.progressSample := rfl
@[simp] theorem histClear_commands (s : State) : (histClear s).commands = s.commands := rfl
@[simp] theorem histClear_result (s : State) : (histClear s).result = s.result := rfl
@[simp] theorem histClear_task (s : State) : (histClear s).task = s.task := rfl

/-! The parity reset. -/

@[simp] theorem resetParity_bd (s : State) : (resetParity s).bd = { s.bd with parityIsOdd := false } := rfl
@[simp] theorem resetParity_hb (s : State) : (resetParity s).hb = s.hb := rfl
@[simp] theorem resetParity_matchers (s : State) : (resetParity s).matchers = s.matchers := rfl
@[simp] theorem resetParity_generators (s : State) : (resetParity s).generators = s.generators := rfl
@[simp] theorem resetParity_readers (s : State) : (resetParity s).readers = s.readers := rfl
@[simp] theorem resetParity_words (s : State) : (resetParity s).words = s.words := rfl
@[simp] theorem resetParity_sf (s : State) : (resetParity s).sf = s.sf := rfl
@[simp] theorem resetParity_fe (s : State) : (resetParity s).fe = s.fe := rfl
@[simp] theorem resetParity_cfg (s : State) : (resetParity s).cfg = s.cfg := rfl
@[simp] theorem resetParity_status (s : State) : (resetParity s).status = s.status := rfl
@[simp] theorem resetParity_edges (s : State) : (resetParity s).edges = s.edges := rfl
@[simp] theorem resetParity_edgesTaken (s : State) : (resetParity s).edgesTaken = s.edgesTaken := rfl
@[simp] theorem resetParity_cancel (s : State) : (resetParity s).cancel = s.cancel := rfl
@[simp] theorem resetParity_events (s : State) : (resetParity s).events = s.events := rfl
@[simp] theorem resetParity_progressSample (s : State) : (resetParity s).progressSample = s.progressSample := rfl
@[simp] theorem resetParity_commands (s : State) : (resetParity s).commands = s.commands := rfl
@[simp] theorem resetParity_result (s : State) : (resetParity s).result = s.result := rfl
@[simp] theorem resetParity_task (s : State) : (resetParity s).task = s.task := rfl

/-! The discard. -/

@[simp] theorem discardHistory_bd (s : State) :
    (discardHistory s).bd = s.bd := by unfold discardHistory; split <;> rfl
@[simp] theorem discardHistory_hb (s : State) :
    (discardHistory s).hb = if s.bd.nextHistoryReadIndex = .sentinel then ⟨[], s.hb.epoch + 1⟩ else s.hb := by
  unfold discardHistory; split <;> simp_all
@[simp] theorem discardHistory_matchers (s : State) :
    (discardHistory s).matchers = s.matchers := by unfold discardHistory; split <;> rfl
@[simp] theorem discardHistory_generators (s : State) :
    (discardHistory s).generators = s.generators := by unfold discardHistory; split <;> rfl
@[simp] theorem discardHistory_readers (s : State) :
    (discardHistory s).readers = s.readers := by unfold discardHistory; split <;> rfl
@[simp] theorem discardHistory_words (s : State) :
    (discardHistory s).words = s.words := by unfold discardHistory; split <;> rfl
@[simp] theorem discardHistory_sf (s : State) :
    (discardHistory s).sf = s.sf := by unfold discardHistory; split <;> rfl
@[simp] theorem discardHistory_fe (s : State) :
    (discardHistory s).fe = s.fe := by unfold discardHistory; split <;> rfl
@[simp] theorem discardHistory_cfg (s : State) :
    (discardHistory s).cfg = s.cfg := by unfold discardHistory; split <;> rfl
@[simp] theorem discardHistory_status (s : State) :
    (discardHistory s).status = s.status := by unfold discardHistory; split <;> rfl
@[simp] theorem discardHistory_edges (s : State) :
    (discardHistory s).edges = s.edges := by unfold discardHistory; split <;> rfl
@[simp] theorem discardHistory_edgesTaken (s : State) :
    (discardHistory s).edgesTaken = s.edgesTaken := by unfold discardHistory; split <;> rfl
@[simp] theorem discardHistory_cancel (s : State) :
    (discardHistory s).cancel = s.cancel := by unfold discardHistory; split <;> rfl
@[simp] theorem discardHistory_events (s : State) :
    (discardHistory s).events = s.events := by unfold discardHistory; split <;> rfl
@[simp] theorem discardHistory_progressSample (s : State) :
    (discardHistory s).progressSample = s.progressSample := by unfold discardHistory; split <;> rfl
@[simp] theorem discardHistory_commands (s : State) :
    (discardHistory s).commands = s.commands := by unfold discardHistory; split <;> rfl
@[simp] theorem discardHistory_result (s : State) :
    (discardHistory s).result = s.result := by unfold discardHistory; split <;> rfl
@[simp] theorem discardHistory_task (s : State) :
    (discardHistory s).task = s.task := by unfold discardHistory; split <;> rfl

/-! The collection flag. -/

@[simp] theorem collectHistory_bd (b : Bool) (s : State) :
    (collectHistory b s).bd = { s.bd with collectHistory := b } := by cases b <;> simp [collectHistory]
@[simp] theorem collectHistory_hb (b : Bool) (s : State) :
    (collectHistory b s).hb = if b = true ∧ s.bd.nextHistoryReadIndex = .sentinel then ⟨[], s.hb.epoch + 1⟩ else s.hb := by
  cases b <;> simp [collectHistory]
@[simp] theorem collectHistory_matchers (b : Bool) (s : State) :
    (collectHistory b s).matchers = s.matchers := by cases b <;> simp [collectHistory]
@[simp] theorem collectHistory_generators (b : Bool) (s : State) :
    (collectHistory b s).generators = s.generators := by cases b <;> simp [collectHistory]
@[simp] theorem collectHistory_readers (b : Bool) (s : State) :
    (collectHistory b s).readers = s.readers := by cases b <;> simp [collectHistory]
@[simp] theorem collectHistory_words (b : Bool) (s : State) :
    (collectHistory b s).words = s.words := by cases b <;> simp [collectHistory]
@[simp] theorem collectHistory_sf (b : Bool) (s : State) :
    (collectHistory b s).sf = s.sf := by cases b <;> simp [collectHistory]
@[simp] theorem collectHistory_fe (b : Bool) (s : State) :
    (collectHistory b s).fe = s.fe := by cases b <;> simp [collectHistory]
@[simp] theorem collectHistory_cfg (b : Bool) (s : State) :
    (collectHistory b s).cfg = s.cfg := by cases b <;> simp [collectHistory]
@[simp] theorem collectHistory_status (b : Bool) (s : State) :
    (collectHistory b s).status = s.status := by cases b <;> simp [collectHistory]
@[simp] theorem collectHistory_edges (b : Bool) (s : State) :
    (collectHistory b s).edges = s.edges := by cases b <;> simp [collectHistory]
@[simp] theorem collectHistory_edgesTaken (b : Bool) (s : State) :
    (collectHistory b s).edgesTaken = s.edgesTaken := by cases b <;> simp [collectHistory]
@[simp] theorem collectHistory_cancel (b : Bool) (s : State) :
    (collectHistory b s).cancel = s.cancel := by cases b <;> simp [collectHistory]
@[simp] theorem collectHistory_events (b : Bool) (s : State) :
    (collectHistory b s).events = s.events := by cases b <;> simp [collectHistory]
@[simp] theorem collectHistory_progressSample (b : Bool) (s : State) :
    (collectHistory b s).progressSample = s.progressSample := by cases b <;> simp [collectHistory]
@[simp] theorem collectHistory_commands (b : Bool) (s : State) :
    (collectHistory b s).commands = s.commands := by cases b <;> simp [collectHistory]
@[simp] theorem collectHistory_result (b : Bool) (s : State) :
    (collectHistory b s).result = s.result := by cases b <;> simp [collectHistory]
@[simp] theorem collectHistory_task (b : Bool) (s : State) :
    (collectHistory b s).task = s.task := by cases b <;> simp [collectHistory]

/-! The registers a restore writes. -/

@[simp] theorem restoreRegs_hb (m : Mark) (s : State) : (restoreRegs m s).hb = s.hb := rfl
@[simp] theorem restoreRegs_matchers (m : Mark) (s : State) : (restoreRegs m s).matchers = s.matchers := rfl
@[simp] theorem restoreRegs_generators (m : Mark) (s : State) : (restoreRegs m s).generators = s.generators := rfl
@[simp] theorem restoreRegs_readers (m : Mark) (s : State) : (restoreRegs m s).readers = s.readers := rfl
@[simp] theorem restoreRegs_words (m : Mark) (s : State) : (restoreRegs m s).words = s.words := rfl
@[simp] theorem restoreRegs_sf (m : Mark) (s : State) : (restoreRegs m s).sf = s.sf := rfl
@[simp] theorem restoreRegs_fe (m : Mark) (s : State) : (restoreRegs m s).fe = s.fe := rfl
@[simp] theorem restoreRegs_cfg (m : Mark) (s : State) : (restoreRegs m s).cfg = s.cfg := rfl
@[simp] theorem restoreRegs_status (m : Mark) (s : State) : (restoreRegs m s).status = s.status := rfl
@[simp] theorem restoreRegs_edges (m : Mark) (s : State) : (restoreRegs m s).edges = s.edges := rfl
@[simp] theorem restoreRegs_edgesTaken (m : Mark) (s : State) : (restoreRegs m s).edgesTaken = s.edgesTaken := rfl
@[simp] theorem restoreRegs_cancel (m : Mark) (s : State) : (restoreRegs m s).cancel = s.cancel := rfl
@[simp] theorem restoreRegs_events (m : Mark) (s : State) : (restoreRegs m s).events = s.events := rfl
@[simp] theorem restoreRegs_progressSample (m : Mark) (s : State) :
    (restoreRegs m s).progressSample = s.progressSample := rfl
@[simp] theorem restoreRegs_commands (m : Mark) (s : State) : (restoreRegs m s).commands = s.commands := rfl
@[simp] theorem restoreRegs_result (m : Mark) (s : State) : (restoreRegs m s).result = s.result := rfl
@[simp] theorem restoreRegs_task (m : Mark) (s : State) : (restoreRegs m s).task = s.task := rfl

/-! The part of a decoded bit that both paths share. -/

@[simp] theorem commonBit_bd (level : Bool) (s : State) :
    ((commonBit level s).2).bd = { s.bd with parityIsOdd := parityAfter s.bd.parityIsOdd level, lastLevel := level } :=
  rfl
@[simp] theorem commonBit_hb (level : Bool) (s : State) : ((commonBit level s).2).hb = s.hb := rfl
@[simp] theorem commonBit_matchers (level : Bool) (s : State) : ((commonBit level s).2).matchers = s.matchers := rfl
@[simp] theorem commonBit_generators (level : Bool) (s : State) :
    ((commonBit level s).2).generators = s.generators := rfl
@[simp] theorem commonBit_readers (level : Bool) (s : State) : ((commonBit level s).2).readers = s.readers := rfl
@[simp] theorem commonBit_words (level : Bool) (s : State) : ((commonBit level s).2).words = s.words := rfl
@[simp] theorem commonBit_sf (level : Bool) (s : State) : ((commonBit level s).2).sf = s.sf := rfl
@[simp] theorem commonBit_fe (level : Bool) (s : State) : ((commonBit level s).2).fe = s.fe := rfl
@[simp] theorem commonBit_cfg (level : Bool) (s : State) : ((commonBit level s).2).cfg = s.cfg := rfl
@[simp] theorem commonBit_status (level : Bool) (s : State) : ((commonBit level s).2).status = s.status := rfl
@[simp] theorem commonBit_edges (level : Bool) (s : State) : ((commonBit level s).2).edges = s.edges := rfl
@[simp] theorem commonBit_edgesTaken (level : Bool) (s : State) :
    ((commonBit level s).2).edgesTaken = s.edgesTaken := rfl
@[simp] theorem commonBit_cancel (level : Bool) (s : State) : ((commonBit level s).2).cancel = s.cancel := rfl
@[simp] theorem commonBit_events (level : Bool) (s : State) : ((commonBit level s).2).events = s.events := rfl
@[simp] theorem commonBit_progressSample (level : Bool) (s : State) :
    ((commonBit level s).2).progressSample = s.progressSample := rfl
@[simp] theorem commonBit_commands (level : Bool) (s : State) : ((commonBit level s).2).commands = s.commands := rfl
@[simp] theorem commonBit_result (level : Bool) (s : State) : ((commonBit level s).2).result = s.result := rfl
@[simp] theorem commonBit_task (level : Bool) (s : State) : ((commonBit level s).2).task = s.task := rfl

/-! The toggle count. -/

@[simp] theorem busResetCount_hb (b : Bool) (s : State) :
    (busResetCount b s).hb = s.hb := by unfold busResetCount; split <;> [skip; rfl]; dsimp only; split <;> rfl
@[simp] theorem busResetCount_matchers (b : Bool) (s : State) :
    (busResetCount b s).matchers = s.matchers :=
  by unfold busResetCount; split <;> [skip; rfl]; dsimp only; split <;> rfl
@[simp] theorem busResetCount_generators (b : Bool) (s : State) :
    (busResetCount b s).generators = s.generators :=
  by unfold busResetCount; split <;> [skip; rfl]; dsimp only; split <;> rfl
@[simp] theorem busResetCount_readers (b : Bool) (s : State) :
    (busResetCount b s).readers = s.readers :=
  by unfold busResetCount; split <;> [skip; rfl]; dsimp only; split <;> rfl
@[simp] theorem busResetCount_words (b : Bool) (s : State) :
    (busResetCount b s).words = s.words := by unfold busResetCount; split <;> [skip; rfl]; dsimp only; split <;> rfl
@[simp] theorem busResetCount_sf (b : Bool) (s : State) :
    (busResetCount b s).sf = s.sf := by unfold busResetCount; split <;> [skip; rfl]; dsimp only; split <;> rfl
@[simp] theorem busResetCount_fe (b : Bool) (s : State) :
    (busResetCount b s).fe = s.fe := by unfold busResetCount; split <;> [skip; rfl]; dsimp only; split <;> rfl
@[simp] theorem busResetCount_cfg (b : Bool) (s : State) :
    (busResetCount b s).cfg = s.cfg := by unfold busResetCount; split <;> [skip; rfl]; dsimp only; split <;> rfl
@[simp] theorem busResetCount_status (b : Bool) (s : State) :
    (busResetCount b s).status = s.status := by unfold busResetCount; split <;> [skip; rfl]; dsimp only; split <;> rfl
@[simp] theorem busResetCount_edges (b : Bool) (s : State) :
    (busResetCount b s).edges = s.edges := by unfold busResetCount; split <;> [skip; rfl]; dsimp only; split <;> rfl
@[simp] theorem busResetCount_edgesTaken (b : Bool) (s : State) :
    (busResetCount b s).edgesTaken = s.edgesTaken :=
  by unfold busResetCount; split <;> [skip; rfl]; dsimp only; split <;> rfl
@[simp] theorem busResetCount_cancel (b : Bool) (s : State) :
    (busResetCount b s).cancel = s.cancel := by unfold busResetCount; split <;> [skip; rfl]; dsimp only; split <;> rfl
@[simp] theorem busResetCount_progressSample (b : Bool) (s : State) :
    (busResetCount b s).progressSample = s.progressSample :=
  by unfold busResetCount; split <;> [skip; rfl]; dsimp only; split <;> rfl
@[simp] theorem busResetCount_commands (b : Bool) (s : State) :
    (busResetCount b s).commands = s.commands :=
  by unfold busResetCount; split <;> [skip; rfl]; dsimp only; split <;> rfl
@[simp] theorem busResetCount_result (b : Bool) (s : State) :
    (busResetCount b s).result = s.result := by unfold busResetCount; split <;> [skip; rfl]; dsimp only; split <;> rfl
@[simp] theorem busResetCount_task (b : Bool) (s : State) :
    (busResetCount b s).task = s.task := by unfold busResetCount; split <;> [skip; rfl]; dsimp only; split <;> rfl

/-! The fields of the updates that reach inside the driver. -/

@[simp] theorem State.setReader_driver_fe (s : State) (r : FrameReader) :
    (s.setReader .driver r).fe = { s.fe with reader := r } := rfl
@[simp] theorem State.setReader_named_fe (s : State) (k : Nat) (r : FrameReader) :
    (s.setReader (.named k) r).fe = s.fe := rfl
@[simp] theorem State.setReader_driver_readers (s : State) (r : FrameReader) :
    (s.setReader .driver r).readers = s.readers := rfl
@[simp] theorem State.setReader_named_readers (s : State) (k : Nat) (r : FrameReader) :
    (s.setReader (.named k) r).readers = poolSet FrameReader.reset k r s.readers := rfl
@[simp] theorem State.setGenerator_driver_fe (s : State) (v : DSync) :
    (s.setGenerator .driver v).fe = { s.fe with gen := v } := rfl
@[simp] theorem State.setGenerator_named_fe (s : State) (k : Nat) (v : DSync) :
    (s.setGenerator (.named k) v).fe = s.fe := rfl
@[simp] theorem State.setGenerator_driver_generators (s : State) (v : DSync) :
    (s.setGenerator .driver v).generators = s.generators := rfl
@[simp] theorem State.setGenerator_named_generators (s : State) (k : Nat) (v : DSync) :
    (s.setGenerator (.named k) v).generators = poolSet 0 k v s.generators := rfl

/-! The lists of instances. -/

/-- Removing number `k` leaves nothing there. -/
theorem poolGet_filter_same {α : Type} (d : α) (k : Nat) (p : List (Nat × α)) :
    poolGet d k (p.filter (fun e => e.1 != k)) = d := by
  induction p with
  | nil => rfl
  | cons e p ih =>
    by_cases h : e.1 = k
    · simpa [h] using ih
    · simp [h, poolGet, ih]

/-- Removing number `k` leaves every other number alone. -/
theorem poolGet_filter_other {α : Type} (d : α) {j k : Nat} (h : j ≠ k) (p : List (Nat × α)) :
    poolGet d j (p.filter (fun e => e.1 != k)) = poolGet d j p := by
  induction p with
  | nil => rfl
  | cons e p ih =>
    by_cases hk : e.1 = k
    · have : e.1 ≠ j := by omega
      simp [hk, poolGet, ih, h.symm]
    · rw [List.filter_cons_of_pos (by simpa using hk)]
      simp [poolGet, ih]

/-- An inserted instance is found, where its number was not listed. -/
theorem poolGet_poolInsert_same {α : Type} (d : α) (k : Nat) (v : α) (p : List (Nat × α))
    (h : ∀ e ∈ p, e.1 ≠ k) : poolGet d k (poolInsert k v p) = v := by
  induction p with
  | nil => simp [poolInsert, poolGet]
  | cons e p ih =>
    have he : e.1 ≠ k := h e (by simp)
    unfold poolInsert
    split
    · simp [poolGet]
    · simp [poolGet, he, ih fun x hx => h x (by simp [hx])]

/-- Inserting number `k` leaves every other number alone. -/
theorem poolGet_poolInsert_other {α : Type} (d : α) {j k : Nat} (h : j ≠ k) (v : α) (p : List (Nat × α)) :
    poolGet d j (poolInsert k v p) = poolGet d j p := by
  induction p with
  | nil => simp [poolInsert, poolGet, h.symm]
  | cons e p ih =>
    unfold poolInsert
    split
    · simp [poolGet, h.symm]
    · simp [poolGet, ih]

/-- Read after a write to the same instance. -/
@[simp] theorem poolGet_poolSet_same {α : Type} [DecidableEq α] (d : α) (k : Nat) (v : α) (p : List (Nat × α)) :
    poolGet d k (poolSet d k v p) = v := by
  unfold poolSet
  dsimp only
  split
  · rename_i h; rw [poolGet_filter_same, h]
  · exact poolGet_poolInsert_same d k v _ (by simp)

/-- Read after a write to another instance. -/
theorem poolGet_poolSet_other {α : Type} [DecidableEq α] (d : α) {j k : Nat} (h : j ≠ k) (v : α)
    (p : List (Nat × α)) : poolGet d j (poolSet d k v p) = poolGet d j p := by
  unfold poolSet
  dsimp only
  split
  · exact poolGet_filter_other d h p
  · rw [poolGet_poolInsert_other d h, poolGet_filter_other d h]

/-- What an inserted list holds: the new instance and the old ones. -/
theorem mem_poolInsert {α : Type} (k : Nat) (v : α) (p : List (Nat × α)) (e : Nat × α) :
    e ∈ poolInsert k v p ↔ e = (k, v) ∨ e ∈ p := by
  induction p with
  | nil => simp [poolInsert]
  | cons x p ih =>
    unfold poolInsert
    split <;> simp [ih]
    tauto

/-- What an updated list holds: the new instance, unless it is at the unlisted value, or an old one. -/
theorem mem_poolSet {α : Type} [DecidableEq α] {d : α} {k : Nat} {v : α} {p : List (Nat × α)} {e : Nat × α}
    (h : e ∈ poolSet d k v p) : (e = (k, v) ∧ v ≠ d) ∨ e ∈ p := by
  unfold poolSet at h
  dsimp only at h
  split at h
  · exact .inr (List.mem_of_mem_filter h)
  · rename_i hv
    exact ((mem_poolInsert k v _ e).1 h).imp (fun he => ⟨he, hv⟩) List.mem_of_mem_filter

/-- An insertion keeps the numbers rising, where the number was not listed. -/
theorem poolInsert_sorted {α : Type} (k : Nat) (v : α) (p : List (Nat × α)) (hk : ∀ e ∈ p, e.1 ≠ k)
    (hp : (p.map Prod.fst).Pairwise (· < ·)) : ((poolInsert k v p).map Prod.fst).Pairwise (· < ·) := by
  induction p with
  | nil => simp [poolInsert]
  | cons x p ih =>
    have hx : x.1 ≠ k := hk x (by simp)
    simp only [List.map_cons, List.pairwise_cons] at hp
    unfold poolInsert
    split
    · rename_i hlt
      simp only [List.map_cons, List.pairwise_cons]
      refine ⟨fun a ha => ?_, hp⟩
      rcases List.mem_cons.1 ha with rfl | ha
      · exact hlt
      · exact hlt.trans (hp.1 a ha)
    · rename_i hlt
      simp only [List.map_cons, List.pairwise_cons]
      refine ⟨fun a ha => ?_, ih (fun e he => hk e (by simp [he])) hp.2⟩
      obtain ⟨e, he, rfl⟩ := List.mem_map.1 ha
      rcases (mem_poolInsert k v p e).1 he with rfl | he
      · exact lt_of_le_of_ne (by omega) hx
      · exact hp.1 _ (List.mem_map_of_mem he)

/-- An update keeps the numbers rising. -/
theorem poolSet_sorted {α : Type} [DecidableEq α] (d : α) (k : Nat) (v : α) (p : List (Nat × α))
    (hp : (p.map Prod.fst).Pairwise (· < ·)) : ((poolSet d k v p).map Prod.fst).Pairwise (· < ·) := by
  have hf : ((p.filter (fun e => e.1 != k)).map Prod.fst).Pairwise (· < ·) :=
    hp.sublist (List.filter_sublist.map _)
  unfold poolSet
  dsimp only
  split
  · exact hf
  · exact poolInsert_sorted k v _ (by simp) hf

/-! Read after write, for each kind of instance. -/

@[simp] theorem State.matcher_setMatcher (s : State) (k : Nat) (m : Matcher) : (s.setMatcher k m).matcher k = m := by
  simp [State.matcher]
theorem State.matcher_setMatcher_other (s : State) {j k : Nat} (h : j ≠ k) (m : Matcher) :
    (s.setMatcher k m).matcher j = s.matcher j := by simp [State.matcher, poolGet_poolSet_other _ h]
@[simp] theorem State.generator_setGenerator (s : State) (g : GenName) (v : DSync) :
    (s.setGenerator g v).generator g = v := by cases g <;> simp [State.generator]
theorem State.generator_setGenerator_other (s : State) {g h : GenName} (hg : h ≠ g) (v : DSync) :
    (s.setGenerator g v).generator h = s.generator h := by
  cases g <;> cases h <;> simp_all [State.generator, poolGet_poolSet_other]
@[simp] theorem State.reader_setReader (s : State) (n : ReaderName) (r : FrameReader) :
    (s.setReader n r).reader n = r := by cases n <;> simp [State.reader]
theorem State.reader_setReader_other (s : State) {m n : ReaderName} (h : m ≠ n) (r : FrameReader) :
    (s.setReader n r).reader m = s.reader m := by
  cases m <;> cases n <;> simp_all [State.reader, poolGet_poolSet_other]
@[simp] theorem State.word_setWord (s : State) (n : WordName) (w : ControlWord) : (s.setWord n w).word n = w := by
  cases n <;> simp [State.word, State.setWord]
theorem State.word_setWord_other (s : State) {m n : WordName} (h : m ≠ n) (w : ControlWord) :
    (s.setWord n w).word m = s.word m := by
  cases m <;> cases n <;> simp_all [State.word, State.setWord, State.reader_setReader_other, poolGet_poolSet_other]
  rename_i k r; cases r <;> rfl

end Sys2Proof.Machine
end

