-- ==== Sys2Proof/Laws/Ops.lean ====
section
/-! SUPPORT. What each shared operation can do, said once: a proof cites these and does not unfold the operation. -/

namespace Sys2Proof.Machine

open Sys2Proof

/-! Sequencing, faults and polls. -/

@[simp] theorem Res.andThen_ok {α β : Type} (a : α) (s : State) (k : α → State → Res β) :
    (Res.ok a s).andThen k = k a s := rfl
@[simp] theorem Res.andThen_stop {α β : Type} (s : State) (k : α → State → Res β) :
    (Res.stop s : Res α).andThen k = .stop s := rfl

/-- A sequence completes when both parts do. -/
theorem Res.andThen_eq_ok {α β : Type} {r : Res α} {k : α → State → Res β} {b : β} {t : State} :
    r.andThen k = .ok b t ↔ ∃ a u, r = .ok a u ∧ k a u = .ok b t := by
  cases r <;> simp [Res.andThen]

/-- A sequence stops where its first part stops, or where its second does. -/
theorem Res.andThen_eq_stop {α β : Type} {r : Res α} {k : α → State → Res β} {t : State} :
    r.andThen k = .stop t ↔ r = .stop t ∨ ∃ a u, r = .ok a u ∧ k a u = .stop t := by
  cases r <;> simp [Res.andThen]

theorem Res.andThen_assoc {α β γ : Type} (r : Res α) (f : α → State → Res β) (g : β → State → Res γ) :
    (r.andThen f).andThen g = r.andThen fun a s => (f a s).andThen g := by
  cases r <;> rfl

/-- A fault writes STATUS and nothing else (R310). -/
theorem raise_eq {α : Type} (c : FaultCode) (s : State) :
    (raise c s : Res α) = .stop { s with status := .faulted c } := rfl

@[simp] theorem raise_ne_ok {α : Type} (c : FaultCode) (s : State) (a : α) (t : State) :
    (raise c s : Res α) ≠ .ok a t := by simp [raise]

/-- A poll that reads 0 takes the reading and nothing else. -/
theorem poll_eq_ok {s t : State} {u : Unit} :
    poll s = .ok u t ↔ s.cancel.head?.getD false = false ∧ t = { s with cancel := s.cancel.tail } := by
  unfold poll
  rcases h : s.cancel with _ | ⟨c, rest⟩
  · have hs : { s with cancel := s.cancel.tail } = s := by obtain ⟨⟩ := s; simp_all
    rw [← h, hs]
    simp [h, eq_comm]
  · cases c <;> simp
    exact eq_comm

/-- A poll that reads 1 halts the block. -/
theorem poll_eq_stop {s t : State} :
    poll s = .stop t ↔
      s.cancel.head? = some true ∧ t = { s with cancel := s.cancel.tail, status := .halted } := by
  unfold poll
  rcases h : s.cancel with _ | ⟨c, rest⟩
  · simp
  · cases c <;> simp
    exact eq_comm

@[simp] theorem poll_nil {s : State} (h : s.cancel = []) : poll s = .ok () s := by simp [poll, h]

/-! The history buffer. -/

/-- The append of a chain that fits. -/
theorem histAppendChain_eq_ok {c : List Entry} {s t : State} {u : Unit} :
    histAppendChain c s = .ok u t ↔
      s.hb.size + c.length ≤ s.cfg.historyCapacity ∧
        t = { s with hb := { s.hb with entries := s.hb.entries ++ c } } := by
  unfold histAppendChain
  split
  · constructor
    · intro h; simp at h
    · rintro ⟨h, -⟩; omega
  · constructor
    · rintro ⟨⟩; exact ⟨by omega, rfl⟩
    · rintro ⟨-, rfl⟩; rfl

/-- The append of a chain that does not fit. -/
theorem histAppendChain_eq_stop {c : List Entry} {s t : State} :
    histAppendChain c s = .stop t ↔
      s.hb.size + c.length > s.cfg.historyCapacity ∧ t = { s with status := .faulted .historyOverflow } := by
  unfold histAppendChain
  split
  · simp only [raise_eq, Res.stop.injEq]
    constructor
    · rintro rfl; exact ⟨by assumption, rfl⟩
    · rintro ⟨-, rfl⟩; rfl
  · constructor
    · rintro ⟨⟩
    · rintro ⟨h, -⟩; contradiction

/-- A chain read completes where a chain can be decoded, and changes nothing. -/
theorem hbReadChain_eq_ok {index : Nat} {s t : State} {r : Bool × Sample × Nat} :
    hbReadChain index s = .ok r t ↔
      t = s ∧ ∃ n, decodeChain (s.hb.entries.drop index) = some (r.1, r.2.1, n) ∧ r.2.2 = index + n := by
  unfold hbReadChain
  split
  · rename_i h; simp [h]
  · rename_i l d n h
    obtain ⟨a, b, c⟩ := r
    simp only [Res.ok.injEq, Prod.mk.injEq, h, Option.some.injEq]
    constructor
    · rintro ⟨⟨rfl, rfl, rfl⟩, rfl⟩; exact ⟨rfl, n, ⟨rfl, rfl, rfl⟩, rfl⟩
    · rintro ⟨rfl, m, ⟨rfl, rfl, rfl⟩, rfl⟩; exact ⟨⟨rfl, rfl, rfl⟩, rfl⟩

/-- A chain read stops with HISTORY_CORRUPT where no chain can be decoded. -/
theorem hbReadChain_eq_stop {index : Nat} {s t : State} :
    hbReadChain index s = .stop t ↔
      decodeChain (s.hb.entries.drop index) = none ∧ t = { s with status := .faulted .historyCorrupt } := by
  unfold hbReadChain
  split
  · rename_i h; simp [h, raise_eq, eq_comm]
  · rename_i h; simp [h]

/-- A decoded chain has at least one entry, and they are all there. -/
theorem takeChain_length {fuel : Nat} {es c : List Entry} (h : takeChain fuel es = some c) :
    1 ≤ c.length ∧ c.length ≤ fuel ∧ c <+: es := by
  induction fuel generalizing es c with
  | zero => simp [takeChain] at h
  | succ n ih =>
    cases es with
    | nil => simp [takeChain] at h
    | cons e rest =>
      simp only [takeChain] at h
      split at h
      · obtain ⟨c', hc, rfl⟩ := Option.map_eq_some_iff.1 h
        obtain ⟨-, h2, h3⟩ := ih hc
        exact ⟨by simp, by simp; omega, by simpa using h3⟩
      · simp only [Option.some.injEq] at h
        subst h
        exact ⟨by simp, by simp, by simp⟩

/-- Decoding takes at least one entry and at most MAX_CHAIN. -/
theorem decodeChain_length {es : List Entry} {l : Bool} {d : Sample} {n : Nat}
    (h : decodeChain es = some (l, d, n)) : 1 ≤ n ∧ n ≤ maxChainEntries ∧ n ≤ es.length := by
  unfold decodeChain at h
  split at h
  · simp at h
  · rename_i c hc
    split at h
    · simp at h
    · obtain ⟨h1, h2, h3⟩ := takeChain_length hc
      simp only [Option.some.injEq, Prod.mk.injEq] at h
      obtain ⟨-, -, rfl⟩ := h
      exact ⟨h1, h2, h3.length_le⟩

/-! Marks. -/

/-- A restore completes on a mark of the current epoch inside the buffer, and writes only the decoder. -/
theorem restore_eq_ok {m : Mark} {s t : State} {u : Unit} :
    restore m s = .ok u t ↔ m.epoch = s.hb.epoch ∧ m.index ≤ s.hb.size ∧ t = restoreRegs m s := by
  unfold restore
  split
  · simp_all
  · split
    · constructor
      · intro h; simp at h
      · rintro ⟨-, h, -⟩; omega
    · constructor
      · rintro ⟨⟩; exact ⟨by simp_all, by omega, rfl⟩
      · rintro ⟨-, -, rfl⟩; rfl

/-- A restore stops on a stale mark, and then on a bad one. -/
theorem restore_eq_stop {m : Mark} {s t : State} :
    restore m s = .stop t ↔
      (m.epoch ≠ s.hb.epoch ∧ t = { s with status := .faulted .staleMark }) ∨
      (m.epoch = s.hb.epoch ∧ s.hb.size < m.index ∧ t = { s with status := .faulted .badMark }) := by
  unfold restore
  split
  · simp_all [raise_eq, eq_comm]
  · split
    · simp_all [raise_eq, eq_comm]
    · constructor
      · rintro ⟨⟩
      · rintro (⟨h, -⟩ | ⟨-, h, -⟩)
        · simp_all
        · omega

/-- The mark of the current position. -/
@[simp] theorem mark_epoch (s : State) : (mark s).epoch = s.hb.epoch := rfl
@[simp] theorem mark_lastLevel (s : State) : (mark s).lastLevel = s.bd.lastLevel := rfl
@[simp] theorem mark_parityIsOdd (s : State) : (mark s).parityIsOdd = s.bd.parityIsOdd := rfl
@[simp] theorem mark_currentSample (s : State) : (mark s).currentSample = s.bd.currentSample := rfl

/-- A mark just taken lies inside the buffer (R27). -/
theorem mark_index_le {s : State} (h : ∀ i, s.bd.nextHistoryReadIndex = .entry i → i < s.hb.size) :
    (mark s).index ≤ s.hb.size := by
  unfold mark
  dsimp only
  split
  · exact le_rfl
  · rename_i i hi; exact (h i hi).le

/-! The decoded bits. -/

/-- The decoder waits exactly at the live tail with no edge record left (R318). -/
theorem nextBit_eq_none {s : State} : nextBit s = none ↔ s.bd.nextHistoryReadIndex = .sentinel ∧ s.edges = [] := by
  unfold nextBit takeEdge
  cases h : s.bd.nextHistoryReadIndex with
  | entry i => simp
  | sentinel => cases he : s.edges <;> simp

/-- A replayed bit (R131, R133). -/
theorem historyBit_eq_ok {i : Nat} {s t : State} {b : Bool} :
    historyBit i s = .ok b t ↔
      ∃ level delta n, decodeChain (s.hb.entries.drop i) = some (level, delta, n) ∧
        b = (level != s.bd.lastLevel) ∧
        t = { s with bd := { s.bd with
          lastLevel := level
          parityIsOdd := parityAfter s.bd.parityIsOdd level
          currentSample := s.bd.currentSample + delta
          nextHistoryReadIndex := if i + n = s.hb.size then .sentinel else .entry (i + n) } } := by
  unfold historyBit
  rw [Res.andThen_eq_ok]
  constructor
  · rintro ⟨⟨level, delta, next⟩, u, hr, hk⟩
    obtain ⟨rfl, n, hd, hn⟩ := hbReadChain_eq_ok.1 hr
    simp only at hd hn
    subst hn
    simp only [commonBit, Res.ok.injEq] at hk
    exact ⟨level, delta, n, hd, hk.1.symm, hk.2.symm⟩
  · rintro ⟨level, delta, n, hd, rfl, rfl⟩
    exact ⟨(level, delta, i + n), s, hbReadChain_eq_ok.2 ⟨rfl, n, hd, rfl⟩, rfl⟩

/-- A live bit (R132, R133, R134). -/
theorem liveBit_eq_ok {e : Edge} {s t : State} {b : Bool} :
    liveBit e s = .ok b t ↔
      ∃ u, collectEdge e s = .ok () u ∧ b = (e.level != u.bd.lastLevel) ∧
        t = busResetCount b { u with bd := { u.bd with
          currentSample := e.sample
          parityIsOdd := parityAfter u.bd.parityIsOdd e.level
          lastLevel := e.level } } := by
  unfold liveBit
  rw [Res.andThen_eq_ok]
  constructor
  · rintro ⟨⟨⟩, u, hu, hk⟩
    simp only [commonBit, Res.ok.injEq] at hk
    obtain ⟨rfl, rfl⟩ := hk
    exact ⟨u, hu, rfl, rfl⟩
  · rintro ⟨u, hu, rfl, rfl⟩
    exact ⟨(), u, hu, rfl⟩

/-- What the live path appends: a whole chain while collection is on, else nothing. -/
theorem collectEdge_eq_ok {e : Edge} {s t : State} {u : Unit} :
    collectEdge e s = .ok u t ↔
      (s.bd.collectHistory = true ∧
        s.hb.size + (encodeChain e.level (e.sample - s.bd.currentSample)).length ≤ s.cfg.historyCapacity ∧
        t = { s with hb := { s.hb with
          entries := s.hb.entries ++ encodeChain e.level (e.sample - s.bd.currentSample) } }) ∨
      (s.bd.collectHistory = false ∧ t = s) := by
  unfold collectEdge
  split
  · rename_i h; simp [hbAppend, histAppendChain_eq_ok, h]
  · rename_i h; simp [h, eq_comm]

/-- The ways BD.NEXT_BIT completes (R130): a replayed bit, or a live one that takes the next record. -/
theorem nextBit_eq_some_ok {s t : State} {b : Bool} :
    nextBit s = some (.ok b t) ↔
      (∃ i, s.bd.nextHistoryReadIndex = .entry i ∧ historyBit i s = .ok b t) ∨
      (s.bd.nextHistoryReadIndex = .sentinel ∧ ∃ e rest, s.edges = e :: rest ∧
        liveBit e { s with edges := rest, edgesTaken := s.edgesTaken + 1 } = .ok b t) := by
  unfold nextBit takeEdge
  cases h : s.bd.nextHistoryReadIndex with
  | entry i => simp
  | sentinel => cases he : s.edges <;> simp

/-- The ways BD.NEXT_BIT is stopped. -/
theorem nextBit_eq_some_stop {s t : State} :
    nextBit s = some (.stop t) ↔
      (∃ i, s.bd.nextHistoryReadIndex = .entry i ∧ historyBit i s = .stop t) ∨
      (s.bd.nextHistoryReadIndex = .sentinel ∧ ∃ e rest, s.edges = e :: rest ∧
        liveBit e { s with edges := rest, edgesTaken := s.edgesTaken + 1 } = .stop t) := by
  unfold nextBit takeEdge
  cases h : s.bd.nextHistoryReadIndex with
  | entry i => simp
  | sentinel => cases he : s.edges <;> simp

/-! How a command runs. -/

/-- A command of a block that takes commands is its body (R76, R309). -/
theorem issue_ready {s : State} (h1 : statusEnded s.status = false) (h2 : s.task = none) (body : State → State) :
    issue s body = .next (body s) := by simp [issue, h1, h2]

/-- All that issuing a command can do. -/
theorem issue_cases (s : State) (body : State → State) :
    (statusEnded s.status = true ∧ issue s body = .next s) ∨
    (statusEnded s.status = false ∧ s.task ≠ none ∧ issue s body = .refused .commandOverlap) ∨
    (statusEnded s.status = false ∧ s.task = none ∧ issue s body = .next (body s)) := by
  unfold issue
  cases h1 : statusEnded s.status <;> cases h2 : s.task <;> simp

@[simp] theorem atOnce_ok (v : Value) (s : State) : atOnce (.ok v s) = s.returning v := rfl
@[simp] theorem atOnce_stop (s : State) : atOnce (.stop s) = s := rfl
@[simp] theorem settle_stop (s : State) : settle (.stop s) = s := rfl
@[simp] theorem settle_done (v : Value) (s : State) : settle (.ok (.done v) s) = s.returning v := rfl
@[simp] theorem settle_more (t : Task) (s : State) : settle (.ok (.more t) s) = runTask (bitBound s) t s := rfl

/-- One bit of a command in progress. -/
theorem runTask_succ (n : Nat) (t : Task) (s : State) :
    runTask (n + 1) t s =
      match nextBit s with
      | none => { s with task := some t }
      | some r =>
        match r.andThen (onBit t) with
        | .stop s1 => s1
        | .ok (.done v) s1 => s1.returning v
        | .ok (.more t1) s1 => runTask n t1 s1 := rfl

/-- The bound on the bits of one resumption is never 0. -/
theorem bitBound_pos (s : State) : 0 < bitBound s := by unfold bitBound; positivity

/-- A property that every bit of a command in progress keeps holds wherever the command gets to. -/
theorem runTask_induction {P : Task → State → Prop} {Q : State → Prop}
    (hwait : ∀ t s, P t s → Q { s with task := some t })
    (hstop : ∀ t s r s1, P t s → nextBit s = some r → r.andThen (onBit t) = .stop s1 → Q s1)
    (hdone : ∀ t s r v s1, P t s → nextBit s = some r → r.andThen (onBit t) = .ok (.done v) s1 →
      Q (s1.returning v))
    (hmore : ∀ t s r t1 s1, P t s → nextBit s = some r → r.andThen (onBit t) = .ok (.more t1) s1 → P t1 s1)
    (n : Nat) (t : Task) (s : State) (h : P t s) : Q (runTask n t s) := by
  induction n generalizing t s with
  | zero => exact hwait t s h
  | succ n ih =>
    rw [runTask_succ]
    cases hb : nextBit s with
    | none => exact hwait t s h
    | some r =>
      dsimp only
      split
      · rename_i s1 hk; exact hstop t s r s1 h hb hk
      · rename_i v s1 hk; exact hdone t s r v s1 h hb hk
      · rename_i t1 s1 hk; exact ih t1 s1 (hmore t s r t1 s1 h hb hk)

/-- A search always has a column candidate (R240). -/
theorem columnCandidates_ne_nil (hint : Columns) : columnCandidates hint ≠ [] := by
  unfold columnCandidates colsTable; split <;> simp

/-- A search always has a row candidate (R240). -/
theorem rowCandidates_ne_nil (hint : Rows) : rowCandidates hint ≠ [] := by
  unfold rowCandidates
  split
  · decide
  · simp

end Sys2Proof.Machine
end

