-- ==== Sys2Proof/Laws/Memory.lean ====
section
/-! SUPPORT. The form of the history buffer (R65): every memory operation keeps it, and the reset memory has it. -/

namespace Sys2Proof.Machine

open Sys2Proof

@[simp] theorem entryLevel_mkEntry (l m : Bool) (f : BitVec 14) : entryLevel (mkEntry l m f) = l := by
  unfold entryLevel mkEntry; rw [BitVec.getLsbD_append]; simp
@[simp] theorem entryMore_mkEntry (l m : Bool) (f : BitVec 14) : entryMore (mkEntry l m f) = m := by
  unfold entryMore mkEntry; rw [BitVec.getLsbD_append, BitVec.getLsbD_append]; simp

/-- Whole chains followed by whole chains are whole chains. -/
theorem wholeChains_append (a b : List Entry) (begun : Option (Bool × Nat)) (ha : wholeChains begun a = true)
    (hb : wholeChains none b = true) : wholeChains begun (a ++ b) = true := by
  induction a generalizing begun with
  | nil =>
    cases begun with
    | none => simpa using hb
    | some x => simp [wholeChains] at ha
  | cons e a ih =>
    rcases begun with _ | ⟨level, n⟩
    · simp only [List.cons_append, wholeChains] at ha ⊢
      split at ha <;> simp_all
    · simp only [List.cons_append, wholeChains, Bool.and_eq_true] at ha ⊢
      refine ⟨ha.1, ?_⟩
      have h2 := ha.2
      split at h2 <;> simp_all

/-- What is left of whole chains after whole chains are taken off is whole chains. -/
theorem Memory.wf_of_append {a b : List Entry} (hab : Memory.wf (a ++ b) = true) (ha : Memory.wf a = true) :
    Memory.wf b = true := by
  unfold Memory.wf at *
  suffices ∀ begun, wholeChains begun a = true → wholeChains begun (a ++ b) = true → wholeChains none b = true from
    this none ha hab
  clear ha hab
  induction a with
  | nil =>
    rintro (_ | x) ha hab
    · simpa using hab
    · simp [wholeChains] at ha
  | cons e a ih =>
    rintro (_ | ⟨level, n⟩) ha hab
    · simp only [List.cons_append, wholeChains] at ha hab
      split at ha
      · exact ih _ ha (by simp_all)
      · exact ih _ ha (by simp_all)
    · simp only [List.cons_append, wholeChains, Bool.and_eq_true] at ha hab
      obtain ⟨-, ha⟩ := ha
      obtain ⟨-, hab⟩ := hab
      split at ha
      · exact ih _ ha (by simp_all)
      · exact ih _ ha (by simp_all)

/-- A chain begun with `k` entries goes on to a whole chain, where the entries left hold the delta. -/
theorem wholeChains_encodeChainFrom (fuel k : Nat) (level : Bool) (delta : Sample) (hf : 1 ≤ fuel)
    (hk : k + fuel ≤ maxChainEntries) (hd : delta.toNat < 2 ^ (14 * fuel)) :
    wholeChains (some (level, k)) (encodeChainFrom fuel level delta) = true := by
  induction fuel generalizing k delta with
  | zero => omega
  | succ n ih =>
    unfold encodeChainFrom
    split
    · simp [wholeChains]; omega
    · rename_i hne
      rcases Nat.eq_zero_or_pos n with rfl | hn
      · exfalso
        apply hne
        apply BitVec.eq_of_toNat_eq
        simp only [BitVec.toNat_ushiftRight, Nat.shiftRight_eq_div_pow, BitVec.ofNat_eq_ofNat, BitVec.toNat_ofNat,
          Nat.zero_mod]
        exact Nat.div_eq_of_lt (by simpa using hd)
      · simp only [wholeChains, entryLevel_mkEntry, entryMore_mkEntry, BEq.rfl, Bool.true_and, if_true,
          Bool.and_eq_true, decide_eq_true_eq]
        refine ⟨by omega, ih (k + 1) _ hn (by omega) ?_⟩
        rw [BitVec.toNat_ushiftRight, Nat.shiftRight_eq_div_pow]
        refine Nat.div_lt_of_lt_mul ?_
        calc delta.toNat < 2 ^ (14 * (n + 1)) := hd
          _ = 2 ^ 14 * 2 ^ (14 * n) := by rw [← pow_add]; congr 1; omega

/-- EncodeChain writes one whole chain (R82). -/
theorem encodeChain_wf (level : Bool) (delta : Sample) : Memory.wf (encodeChain level delta) = true := by
  unfold encodeChain maxChainEntries encodeChainFrom Memory.wf
  split
  · simp [wholeChains]
  · simp only [wholeChains, entryLevel_mkEntry, entryMore_mkEntry, if_true]
    refine wholeChains_encodeChainFrom 4 1 level _ (by omega) (by decide) ?_
    rw [BitVec.toNat_ushiftRight, Nat.shiftRight_eq_div_pow]
    have := delta.isLt
    omega

/-- Appending a whole chain keeps the form. -/
theorem Memory.wf_append {es c : List Entry} (h1 : Memory.wf es = true) (h2 : Memory.wf c = true) :
    Memory.wf (es ++ c) = true := wholeChains_append es c none h1 h2

/-- `HB.APPEND` keeps the form (R120). -/
theorem hbAppend_wf {level : Bool} {delta : Sample} {s t : State} {u : Unit}
    (h : hbAppend level delta s = .ok u t) (hs : Memory.wf s.hb.entries = true) :
    Memory.wf t.hb.entries = true := by
  obtain ⟨-, rfl⟩ := histAppendChain_eq_ok.1 h
  exact Memory.wf_append hs (encodeChain_wf level delta)

/-- An `HB.APPEND` that does not fit leaves the memory as it was. -/
theorem hbAppend_stop_hb {level : Bool} {delta : Sample} {s t : State} (h : hbAppend level delta s = .stop t) :
    t.hb = s.hb := by
  obtain ⟨-, rfl⟩ := histAppendChain_eq_stop.1 h
  rfl

/-- `HB.CLEAR` leaves the form (R122). -/
theorem histClear_wf (s : State) : Memory.wf (histClear s).hb.entries = true := rfl

/-- A chain read leaves the memory as it was (R121). -/
theorem hbReadChain_hb {index : Nat} {s t : State} {r : Bool × Sample × Nat}
    (h : hbReadChain index s = .ok r t) : t.hb = s.hb := by
  rw [(hbReadChain_eq_ok.1 h).1]

/-- The append of the live path keeps the form (R132). -/
theorem collectEdge_wf {e : Edge} {s t : State} {u : Unit} (h : collectEdge e s = .ok u t)
    (hs : Memory.wf s.hb.entries = true) : Memory.wf t.hb.entries = true := by
  rcases collectEdge_eq_ok.1 h with ⟨-, -, rfl⟩ | ⟨-, rfl⟩
  · exact Memory.wf_append hs (encodeChain_wf _ _)
  · exact hs

/-- The memory of the reset block has the form (R55). -/
theorem reset_wf : Memory.wf State.reset.hb.entries = true := rfl

/-- Whole chains that are not empty begin with a chain that decodes, and end with whole chains. -/
theorem decodeChain_of_wf {es : List Entry} (hwf : Memory.wf es = true) (hne : es ≠ []) :
    ∃ level delta n, decodeChain es = some (level, delta, n) ∧ Memory.wf (es.drop n) = true := by
  suffices aux : ∀ (fuel k : Nat) (level : Bool) (es : List Entry), k + fuel = maxChainEntries → 1 ≤ k →
      wholeChains (some (level, k)) es = true →
      ∃ c, takeChain fuel es = some c ∧ (∀ e ∈ c, entryLevel e = level) ∧
        wholeChains none (es.drop c.length) = true by
    cases es with
    | nil => contradiction
    | cons e rest =>
      simp only [Memory.wf, wholeChains] at hwf
      split at hwf
      · rename_i hm
        obtain ⟨c, hc, hl, hd⟩ := aux 4 1 (entryLevel e) rest (by decide) le_rfl hwf
        refine ⟨entryLevel e, chainDelta (e :: c), (e :: c).length, ?_, by simpa [Memory.wf] using hd⟩
        have ht : takeChain maxChainEntries (e :: rest) = some (e :: c) := by
          show takeChain (4 + 1) (e :: rest) = _
          simp [takeChain, hm, hc]
        have hcl : chainLevel (e :: c) = some (entryLevel e) := by
          have : c.all (fun x => entryLevel x == entryLevel e) = true := by
            rw [List.all_eq_true]; intro x hx; simp [hl x hx]
          simp only [chainLevel, this, if_true]
        simp only [decodeChain, ht, hcl]
      · rename_i hm
        refine ⟨entryLevel e, chainDelta [e], 1, ?_, by simpa [Memory.wf] using hwf⟩
        have ht : takeChain maxChainEntries (e :: rest) = some [e] := by
          show takeChain (4 + 1) (e :: rest) = _
          simp [takeChain, hm]
        simp [decodeChain, ht, chainLevel]
  intro fuel
  induction fuel with
  | zero =>
    intro k level es hk _ h
    cases es with
    | nil => simp [wholeChains] at h
    | cons e rest =>
      simp only [wholeChains, Bool.and_eq_true, decide_eq_true_eq] at h
      omega
  | succ n ih =>
    intro k level es hk h1 h
    cases es with
    | nil => simp [wholeChains] at h
    | cons e rest =>
      simp only [wholeChains, Bool.and_eq_true, beq_iff_eq, decide_eq_true_eq] at h
      obtain ⟨⟨hl, -⟩, h⟩ := h
      split at h
      · rename_i hm
        obtain ⟨c, hc, hcl, hd⟩ := ih (k + 1) level rest (by omega) (by omega) h
        refine ⟨e :: c, by simp [takeChain, hm, hc], ?_, by simpa using hd⟩
        intro x hx
        rcases List.mem_cons.1 hx with rfl | hx
        · exact hl
        · exact hcl x hx
      · rename_i hm
        exact ⟨[e], by simp [takeChain, hm], by simpa using hl, by simpa using h⟩

end Sys2Proof.Machine
end

