-- ==== Sys2Proof/Laws/Units.lean ====
section
/-! SUPPORT. What the operations of the units, the driver and the search can do, said once. -/

namespace Sys2Proof.Machine

open Sys2Proof

/-! The toggle count. -/

/-- A 0 resets the toggle count and touches nothing else (R134). -/
theorem busResetCount_false (s : State) :
    busResetCount false s = { s with bd := { s.bd with contiguousToggleCount := 0 } } := rfl

/-- A 1 before the 4096th counts, and the first of a run records its sample (R134). -/
theorem busResetCount_true_of_ne {s : State} (h : (s.bd.contiguousToggleCount + 1).toNat ≠ 4096) :
    busResetCount true s = { s with bd := { s.bd with
      runStartSample := if s.bd.contiguousToggleCount = 0 then s.bd.currentSample else s.bd.runStartSample
      contiguousToggleCount := s.bd.contiguousToggleCount + 1 } } := if_neg h

/-- The 4096th 1 in a row emits BUS_RESET and starts the count again (R134). -/
theorem busResetCount_true_of_eq {s : State} (h : (s.bd.contiguousToggleCount + 1).toNat = 4096) :
    busResetCount true s =
      emit (.busReset (if s.bd.contiguousToggleCount = 0 then s.bd.currentSample else s.bd.runStartSample)
        s.bd.currentSample)
        { s with bd := { s.bd with
          runStartSample := if s.bd.contiguousToggleCount = 0 then s.bd.currentSample else s.bd.runStartSample
          contiguousToggleCount := 0 } } := if_pos h

/-- The toggle count stays in 0 to 4095 (R25). -/
theorem busResetCount_le {s : State} (b : Bool) (h : s.bd.contiguousToggleCount.toNat ≤ 4095) :
    (busResetCount b s).bd.contiguousToggleCount.toNat ≤ 4095 := by
  cases b with
  | false => simp [busResetCount_false]
  | true =>
    by_cases he : (s.bd.contiguousToggleCount + 1).toNat = 4096
    · simp [busResetCount_true_of_eq he]
    · rw [busResetCount_true_of_ne he]
      have : (s.bd.contiguousToggleCount + 1).toNat = s.bd.contiguousToggleCount.toNat + 1 := by
        rw [BitVec.toNat_add]; simp; omega
      show (s.bd.contiguousToggleCount + 1).toNat ≤ 4095
      omega

/-- All that the toggle count can do to the event log: nothing, or one BUS_RESET at its end. -/
theorem busResetCount_events (b : Bool) (s : State) :
    (busResetCount b s).events = s.events ∨
      ∃ first, (busResetCount b s).events = s.events ++ [.busReset first s.bd.currentSample] := by
  cases b with
  | false => exact .inl rfl
  | true =>
    by_cases he : (s.bd.contiguousToggleCount + 1).toNat = 4096
    · exact .inr ⟨_, by rw [busResetCount_true_of_eq he]; rfl⟩
    · exact .inl (by rw [busResetCount_true_of_ne he])

/-! Matcher, reader and control word. -/

/-- SM.INIT completes exactly on a stride of COLUMN_SET (R161). -/
theorem matcherInit_eq_ok {c : Columns} {s t : State} {m : Matcher} :
    matcherInit c s = .ok m t ↔ columnSet.contains c = true ∧ m = matcherNew c ∧ t = s := by
  unfold matcherInit
  split <;> simp_all [eq_comm]

theorem matcherInit_eq_stop {c : Columns} {s t : State} :
    matcherInit c s = .stop t ↔
      columnSet.contains c = false ∧ t = { s with status := .faulted .illegalShape } := by
  unfold matcherInit
  split <;> simp_all [raise_eq, eq_comm]

/-- FR.SET_SHAPE completes exactly on a legal shape (R181). -/
theorem readerSetShape_eq_ok {rows : Rows} {columns : Columns} {r rd : FrameReader} {s t : State} :
    readerSetShape rows columns r s = .ok rd t ↔
      legalShape rows columns = true ∧ rd = readerShaped rows columns r ∧ t = s := by
  unfold readerSetShape
  split
  · rename_i h
    simp only [Res.ok.injEq, h, true_and]
    constructor <;> rintro ⟨rfl, rfl⟩ <;> exact ⟨rfl, rfl⟩
  · rename_i h; simp [h]

theorem readerSetShape_eq_stop {rows : Rows} {columns : Columns} {r : FrameReader} {s t : State} :
    readerSetShape rows columns r s = .stop t ↔
      legalShape rows columns = false ∧ t = { s with status := .faulted .illegalShape } := by
  unfold readerSetShape
  split
  · rename_i h; simp [h]
  · rename_i h
    simp only [raise_eq, Res.stop.injEq, Bool.eq_false_iff.2 h, true_and]
    exact eq_comm

/-- A reader just shaped. -/
theorem readerShaped_eq (rows : Rows) (columns : Columns) (r : FrameReader) :
    readerShaped rows columns r = ⟨rows, columns, 0, 0, ControlWord.reset, .frameStart⟩ := rfl

/-- A push after FRAME_COMPLETE changes nothing (R182). -/
theorem readerPush_complete {r : FrameReader} (h : r.state = .frameComplete) (b : Bool) :
    readerPush b r = (r, .frameComplete) := by simp [readerPush, h]

/-- A push never changes the shape (R182). -/
theorem readerPush_shape (b : Bool) (r : FrameReader) :
    (readerPush b r).1.rows = r.rows ∧ (readerPush b r).1.columns = r.columns := by
  unfold readerPush
  split
  · exact ⟨rfl, rfl⟩
  · unfold readerAdvance readerTakeBit
    dsimp only
    repeat' split
    all_goals exact ⟨rfl, rfl⟩

/-! The driver and the search. -/

/-- The end of an FE.STEP: progress, then the poll (R271, R278). -/
theorem feStepEnd_eq_ok {s t : State} {p : Progress} :
    feStepEnd s = .ok p t ↔ s.cancel.head?.getD false = false ∧ p = .done .none ∧
      t = { s with progressSample := s.bd.currentSample, cancel := s.cancel.tail } := by
  unfold feStepEnd
  rw [Res.andThen_eq_ok]
  constructor
  · rintro ⟨a, u, hp, hk⟩
    obtain ⟨hc, rfl⟩ := poll_eq_ok.1 hp
    simp only [Res.ok.injEq] at hk
    exact ⟨hc, hk.1.symm, hk.2.symm⟩
  · rintro ⟨hc, rfl, rfl⟩
    exact ⟨(), _, poll_eq_ok.2 ⟨hc, rfl⟩, rfl⟩

/-- The sync finder's bit counter (R251): the poll of every 4096th bit reads the cancel input, the others do not. -/
theorem countBit_eq_ok {count n : Nat} {s t : State} :
    countBit count s = .ok n t ↔ n = count + 1 ∧
      ((count + 1) % pollInterval = 0 ∧ s.cancel.head?.getD false = false ∧ t = { s with cancel := s.cancel.tail } ∨
       (count + 1) % pollInterval ≠ 0 ∧ t = s) := by
  unfold countBit
  split
  · rename_i h
    rw [Res.andThen_eq_ok]
    constructor
    · rintro ⟨a, u, hp, hk⟩
      obtain ⟨hc, rfl⟩ := poll_eq_ok.1 hp
      simp only [Res.ok.injEq] at hk
      exact ⟨hk.1.symm, .inl ⟨h, hc, hk.2.symm⟩⟩
    · rintro ⟨rfl, ⟨-, hc, rfl⟩ | ⟨h', -⟩⟩
      · exact ⟨(), _, poll_eq_ok.2 ⟨hc, rfl⟩, rfl⟩
      · contradiction
  · rename_i h
    simp only [Res.ok.injEq]
    constructor
    · rintro ⟨rfl, rfl⟩; exact ⟨rfl, .inr ⟨h, rfl⟩⟩
    · rintro ⟨rfl, ⟨h', -⟩ | ⟨-, rfl⟩⟩
      · contradiction
      · exact ⟨rfl, rfl⟩

/-- SF.CHECK_SYNC's start on a legal shape (R244). -/
theorem startCheck_legal {ask : Asker} {rows : Rows} {columns : Columns} {count : Nat} {s : State}
    (h : legalShape rows columns = true) :
    startCheck ask rows columns count s =
      .ok (.more (.check ask ⟨readerShaped rows columns FrameReader.reset, 0, mark s, 0, false⟩ count)) s := by
  simp [startCheck, readerSetShape, h]

/-- An illegal shape stops SF.CHECK_SYNC (R315). -/
theorem startCheck_illegal {ask : Asker} {rows : Rows} {columns : Columns} {count : Nat} {s : State}
    (h : legalShape rows columns = false) :
    startCheck ask rows columns count s = .stop { s with status := .faulted .illegalShape } := by
  simp [startCheck, readerSetShape, h, raise_eq]

/-- An illegal shape stops SF.TEST_IF_SYNC_IS_REAL before anything changes (R307 item 1, R352). -/
theorem startTest_illegal {ask : Asker} {rows : Rows} {columns : Columns} {offset count : Nat} {start matched : Mark}
    {s : State} (h : legalShape rows columns = false) :
    startTest ask rows columns offset start matched count s = .stop { s with status := .faulted .illegalShape } := by
  simp [startTest, h, raise_eq]

end Sys2Proof.Machine
end

