-- ==== Sys2Proof/Laws/Frame.lean ====
section
/-! SUPPORT. What a command in progress leaves alone: the instances callers name, the configuration, the ports of the
model and the field `task`. One lemma per part of a command. -/

namespace Sys2Proof.Machine

open Sys2Proof

/-- `t` is `s` but for the decoder, the history, the driver, the committed shape, STATUS, the edge and cancel inputs, the
event log and the progress output. -/
structure Untouched (s t : State) : Prop where
  matchers : t.matchers = s.matchers
  generators : t.generators = s.generators
  readers : t.readers = s.readers
  words : t.words = s.words
  cfg : t.cfg = s.cfg
  commands : t.commands = s.commands
  result : t.result = s.result
  task : t.task = s.task

theorem Untouched.refl (s : State) : Untouched s s := ⟨rfl, rfl, rfl, rfl, rfl, rfl, rfl, rfl⟩

theorem Untouched.trans {s t u : State} (h : Untouched s t) (g : Untouched t u) : Untouched s u :=
  ⟨g.1.trans h.1, g.2.trans h.2, g.3.trans h.3, g.4.trans h.4, g.5.trans h.5, g.6.trans h.6, g.7.trans h.7,
    g.8.trans h.8⟩

/-- A part of a command leaves the rest alone, whether it completes or is stopped. -/
def Keeps {α : Type} (s : State) (r : Res α) : Prop :=
  match r with
  | .ok _ t => Untouched s t
  | .stop t => Untouched s t

theorem Keeps.andThen {α β : Type} {s : State} {r : Res α} {k : α → State → Res β} (h : Keeps s r)
    (hk : ∀ a u, r = .ok a u → Keeps u (k a u)) : Keeps s (r.andThen k) := by
  cases r with
  | stop t => exact h
  | ok a t =>
    have g := hk a t rfl
    show Keeps s (k a t)
    revert g
    cases k a t with
    | ok b u => exact fun g => h.trans g
    | stop u => exact fun g => h.trans g

/-- The state before may be any it was untouched from. -/
theorem Keeps.of_untouched {α : Type} {s t : State} {r : Res α} (h : Untouched s t) (g : Keeps t r) : Keeps s r := by
  cases r with
  | ok a u => exact h.trans g
  | stop u => exact h.trans g

theorem keeps_raise {α : Type} (c : FaultCode) (s : State) : Keeps s (raise c s : Res α) :=
  ⟨rfl, rfl, rfl, rfl, rfl, rfl, rfl, rfl⟩

theorem keeps_poll (s : State) : Keeps s (poll s) := by
  unfold poll
  repeat' split
  all_goals exact ⟨rfl, rfl, rfl, rfl, rfl, rfl, rfl, rfl⟩

theorem untouched_emit (e : Event) (s : State) : Untouched s (emit e s) := ⟨rfl, rfl, rfl, rfl, rfl, rfl, rfl, rfl⟩

theorem keeps_histAppendChain (c : List Entry) (s : State) : Keeps s (histAppendChain c s) := by
  unfold histAppendChain
  split <;> exact ⟨rfl, rfl, rfl, rfl, rfl, rfl, rfl, rfl⟩

theorem keeps_hbReadChain (i : Nat) (s : State) : Keeps s (hbReadChain i s) := by
  unfold hbReadChain
  split
  · exact keeps_raise _ s
  · exact .refl s

theorem keeps_restore (m : Mark) (s : State) : Keeps s (restore m s) := by
  unfold restore
  repeat' split
  all_goals exact ⟨rfl, rfl, rfl, rfl, rfl, rfl, rfl, rfl⟩

theorem untouched_busResetCount (b : Bool) (s : State) : Untouched s (busResetCount b s) := by
  unfold busResetCount
  split
  · dsimp only; split <;> exact ⟨rfl, rfl, rfl, rfl, rfl, rfl, rfl, rfl⟩
  · exact ⟨rfl, rfl, rfl, rfl, rfl, rfl, rfl, rfl⟩

theorem keeps_historyBit (i : Nat) (s : State) : Keeps s (historyBit i s) :=
  (keeps_hbReadChain i s).andThen fun _ _ _ => ⟨rfl, rfl, rfl, rfl, rfl, rfl, rfl, rfl⟩

theorem keeps_collectEdge (e : Edge) (s : State) : Keeps s (collectEdge e s) := by
  unfold collectEdge
  split
  · exact keeps_histAppendChain _ s
  · exact .refl s

theorem keeps_liveBit (e : Edge) (s : State) : Keeps s (liveBit e s) :=
  (keeps_collectEdge e s).andThen fun _ u _ =>
    Untouched.trans (t := { u with bd := { u.bd with
      currentSample := e.sample
      parityIsOdd := parityAfter u.bd.parityIsOdd e.level
      lastLevel := e.level } }) ⟨rfl, rfl, rfl, rfl, rfl, rfl, rfl, rfl⟩ (untouched_busResetCount _ _)

/-- `BD.NEXT_BIT` (R130). -/
theorem keeps_nextBit {s : State} {r : Res Bool} (h : nextBit s = some r) : Keeps s r := by
  unfold nextBit takeEdge at h
  split at h
  · obtain rfl := Option.some.inj h
    exact keeps_historyBit _ s
  · split at h
    · simp at h
    · rename_i e t he
      obtain rfl := Option.some.inj h
      split at he
      · simp at he
      · simp only [Option.some.injEq, Prod.mk.injEq] at he
        obtain ⟨-, rfl⟩ := he
        refine Keeps.of_untouched ?_ (keeps_liveBit _ _)
        exact ⟨rfl, rfl, rfl, rfl, rfl, rfl, rfl, rfl⟩

theorem untouched_resetParity (s : State) : Untouched s (resetParity s) := ⟨rfl, rfl, rfl, rfl, rfl, rfl, rfl, rfl⟩

theorem untouched_discardHistory (s : State) : Untouched s (discardHistory s) := by
  unfold discardHistory
  split <;> exact ⟨rfl, rfl, rfl, rfl, rfl, rfl, rfl, rfl⟩

theorem keeps_matcherInit (c : Columns) (s : State) : Keeps s (matcherInit c s) := by
  unfold matcherInit
  split <;> exact ⟨rfl, rfl, rfl, rfl, rfl, rfl, rfl, rfl⟩

theorem keeps_readerSetShape (rows : Rows) (columns : Columns) (r : FrameReader) (s : State) :
    Keeps s (readerSetShape rows columns r s) := by
  unfold readerSetShape
  split <;> exact ⟨rfl, rfl, rfl, rfl, rfl, rfl, rfl, rfl⟩

/-! The driver. -/

theorem untouched_feStartRest (s : State) : Untouched s (feStartRest s) := by
  refine (untouched_discardHistory s).trans ?_
  exact ⟨rfl, rfl, rfl, rfl, rfl, rfl, rfl, rfl⟩

theorem keeps_feStepEnd (s : State) : Keeps s (feStepEnd s) := by
  refine Keeps.andThen (Keeps.of_untouched ?_ (keeps_poll _)) fun _ u _ => .refl u
  exact ⟨rfl, rfl, rfl, rfl, rfl, rfl, rfl, rfl⟩

theorem keeps_applyShapeChange (v : CtrlWord) (s : State) : Keeps s (applyShapeChange v s) := by
  unfold applyShapeChange
  repeat' split
  · exact (keeps_readerSetShape _ _ _ s).andThen fun _ _ _ => ⟨rfl, rfl, rfl, rfl, rfl, rfl, rfl, rfl⟩
  all_goals exact ⟨rfl, rfl, rfl, rfl, rfl, rfl, rfl, rfl⟩

theorem keeps_acceptFrame (v : CtrlWord) (s : State) : Keeps s (acceptFrame v s) :=
  (keeps_applyShapeChange v s).andThen fun _ u _ =>
    (untouched_discardHistory u).trans ⟨rfl, rfl, rfl, rfl, rfl, rfl, rfl, rfl⟩

theorem keeps_onFrameComplete (s : State) : Keeps s (onFrameComplete s) := by
  unfold onFrameComplete
  split
  · refine Keeps.of_untouched ?_ (keeps_acceptFrame _ _)
    exact ⟨rfl, rfl, rfl, rfl, rfl, rfl, rfl, rfl⟩
  · unfold onLaterFrame
    dsimp only
    generalize syncLost _ _ = lost
    cases lost
    · refine Keeps.of_untouched ?_ (keeps_acceptFrame _ _)
      exact ⟨rfl, rfl, rfl, rfl, rfl, rfl, rfl, rfl⟩
    · exact ⟨rfl, rfl, rfl, rfl, rfl, rfl, rfl, rfl⟩

theorem keeps_onReaderResult (r : ReaderResult) (s : State) : Keeps s (onReaderResult r s) := by
  cases r with
  | frameComplete => exact keeps_onFrameComplete s
  | _ => exact ⟨rfl, rfl, rfl, rfl, rfl, rfl, rfl, rfl⟩

theorem keeps_feBitRest (b : Bool) (s : State) : Keeps s (feBitRest b s) := by
  refine Keeps.andThen (Keeps.of_untouched ?_ (keeps_onReaderResult _ _)) fun _ u _ => keeps_feStepEnd u
  exact ⟨rfl, rfl, rfl, rfl, rfl, rfl, rfl, rfl⟩

theorem keeps_feResyncRest (rows : Rows) (columns : Columns) (s : State) : Keeps s (feResyncRest rows columns s) := by
  refine Keeps.andThen (Keeps.of_untouched (untouched_emit _ s) (keeps_readerSetShape _ _ _ _)) fun r u _ => ?_
  refine Keeps.of_untouched (Untouched.trans (t := { u with fe := { u.fe with reader := r } })
    ⟨rfl, rfl, rfl, rfl, rfl, rfl, rfl, rfl⟩ (untouched_discardHistory _)) ?_
  refine Keeps.of_untouched ?_ (keeps_feStepEnd _)
  exact ⟨rfl, rfl, rfl, rfl, rfl, rfl, rfl, rfl⟩

/-! The search. -/

theorem keeps_countBit (n : Nat) (s : State) : Keeps s (countBit n s) := by
  unfold countBit
  split
  · exact (keeps_poll s).andThen fun _ u _ => .refl u
  · exact .refl s

theorem keeps_startCheck (ask : Asker) (rows : Rows) (columns : Columns) (n : Nat) (s : State) :
    Keeps s (startCheck ask rows columns n s) :=
  (keeps_readerSetShape _ _ _ s).andThen fun _ u _ => .refl u

theorem keeps_startAlign (ask : Asker) (rows : Rows) (columns : Columns) (left n : Nat) (s : State) :
    Keeps s (startAlign ask rows columns left n s) := by
  unfold startAlign
  split
  · exact keeps_startCheck ask rows columns n s
  · exact .refl s

theorem keeps_startTest (ask : Asker) (rows : Rows) (columns : Columns) (offset : Nat) (start matched : Mark) (n : Nat)
    (s : State) : Keeps s (startTest ask rows columns offset start matched n s) := by
  unfold startTest
  split
  · refine (keeps_restore matched s).andThen fun _ u _ => ?_
    dsimp only
    split
    · exact (keeps_restore start u).andThen fun _ v _ => keeps_startAlign ..
    · exact keeps_startAlign ..
  · exact keeps_raise _ s

theorem keeps_startColumn (who : Finder) (w : Scan) (c : Columns) (rest : List Columns) (n : Nat) (s : State) :
    Keeps s (startColumn who w c rest n s) :=
  (keeps_restore _ s).andThen fun _ u _ => (keeps_matcherInit c u).andThen fun _ v _ => .refl v

theorem keeps_startWindow (who : Finder) (w : Scan) (n : Nat) (s : State) : Keeps s (startWindow who w n s) := by
  unfold startWindow
  split
  · exact .refl s
  · exact keeps_startColumn ..

theorem keeps_advanceWindow (who : Finder) (w : Scan) (n : Nat) (s : State) : Keeps s (advanceWindow who w n s) := by
  unfold advanceWindow
  split
  · exact .refl s
  · exact Keeps.of_untouched (untouched_discardHistory s) (keeps_startWindow ..)

theorem keeps_endColumn (who : Finder) (w : Scan) (n : Nat) (s : State) : Keeps s (endColumn who w n s) := by
  refine (keeps_poll s).andThen fun _ u _ => ?_
  split
  · exact keeps_advanceWindow ..
  · exact keeps_startColumn ..

theorem keeps_continueScan (who : Finder) (w : Scan) (n : Nat) (s : State) : Keeps s (continueScan who w n s) := by
  unfold continueScan
  split
  · exact .refl s
  · exact keeps_endColumn ..

theorem keeps_tryRows (who : Finder) (w : Scan) (rows : List Rows) (n : Nat) (s : State) :
    Keeps s (tryRows who w rows n s) := by
  cases rows with
  | nil => exact keeps_continueScan ..
  | cons r rest => exact keeps_startTest ..

theorem keeps_scanBit (who : Finder) (w : Scan) (n : Nat) (b : Bool) (s : State) : Keeps s (scanBit who w n b s) := by
  unfold scanBit
  dsimp only
  split
  · exact keeps_tryRows ..
  · exact keeps_continueScan ..

theorem keeps_foundSync (who : Finder) (rows : Rows) (columns : Columns) (s : State) :
    Keeps s (foundSync who rows columns s) := by
  cases who with
  | command => exact ⟨rfl, rfl, rfl, rfl, rfl, rfl, rfl, rfl⟩
  | driver =>
    refine Keeps.of_untouched ?_ (keeps_feResyncRest rows columns _)
    exact ⟨rfl, rfl, rfl, rfl, rfl, rfl, rfl, rfl⟩

theorem keeps_finishCheck (ask : Asker) (entry : Mark) (n count : Nat) (s : State) :
    Keeps s (finishCheck ask entry n count s) := by
  refine (keeps_restore entry s).andThen fun _ u _ => ?_
  cases ask with
  | check => exact .refl u
  | test => exact .refl u
  | search who w =>
    dsimp only
    split
    · exact keeps_foundSync ..
    · exact (keeps_restore _ u).andThen fun _ v _ => keeps_tryRows ..

theorem keeps_nextFrame (ask : Asker) (c : Check) (v : CtrlWord) (n : Nat) (s : State) :
    Keeps s (nextFrame ask c v n s) := by
  refine Keeps.andThen ?_ fun _ u _ => .refl u
  unfold nextReader
  split
  · exact keeps_readerSetShape ..
  · exact .refl s

theorem keeps_frameRead (ask : Asker) (c : Check) (n : Nat) (s : State) : Keeps s (frameRead ask c n s) := by
  unfold frameRead
  dsimp only
  repeat' split
  all_goals first
    | exact keeps_finishCheck ..
    | exact keeps_nextFrame ..

theorem keeps_checkBit (ask : Asker) (c : Check) (n : Nat) (b : Bool) (s : State) :
    Keeps s (checkBit ask c n b s) := by
  unfold checkBit
  dsimp only
  split
  · exact untouched_resetParity s
  · exact (keeps_poll s).andThen fun _ u _ => keeps_frameRead ..
  all_goals exact .refl s

/-- A command in progress on its bit. -/
theorem keeps_onBit (t : Task) (b : Bool) (s : State) : Keeps s (onBit t b s) := by
  cases t with
  | nextBit => exact .refl s
  | skipBits left =>
    show Keeps s (if left ≤ 1 then _ else _)
    split <;> exact .refl s
  | feStart => exact untouched_feStartRest s
  | feBit => exact keeps_feBitRest b s
  | scan who w n => exact (keeps_countBit n s).andThen fun _ _ _ => keeps_scanBit ..
  | advance who w n => exact (keeps_countBit n s).andThen fun _ _ _ => keeps_advanceWindow ..
  | align ask rows columns left n => exact (keeps_countBit n s).andThen fun _ _ _ => keeps_startAlign ..
  | check ask c n => exact (keeps_countBit n s).andThen fun _ _ _ => keeps_checkBit ..

/-- A whole run leaves the rest alone too, but for the result where it completes and `task` where it waits. -/
theorem runTask_untouched (n : Nat) (t : Task) (s : State) :
    ∃ r k, Untouched { s with result := r, task := k } (runTask n t s) ∧ (r = s.result ∨ k = s.task) := by
  induction n generalizing t s with
  | zero => exact ⟨_, some t, ⟨rfl, rfl, rfl, rfl, rfl, rfl, rfl, rfl⟩, .inl rfl⟩
  | succ n ih =>
    have lift : ∀ {u v : State}, Untouched s u → (∃ r k, Untouched { u with result := r, task := k } v ∧
        (r = u.result ∨ k = u.task)) → ∃ r k, Untouched { s with result := r, task := k } v ∧
        (r = s.result ∨ k = s.task) := by
      rintro u v h ⟨r, k, g, hk⟩
      exact ⟨r, k, ⟨g.1.trans h.1, g.2.trans h.2, g.3.trans h.3, g.4.trans h.4, g.5.trans h.5, g.6.trans h.6, g.7,
        g.8⟩, hk.imp (·.trans h.7) (·.trans h.8)⟩
    rw [runTask_succ]
    cases hb : nextBit s with
    | none => exact ⟨_, some t, ⟨rfl, rfl, rfl, rfl, rfl, rfl, rfl, rfl⟩, .inl rfl⟩
    | some r =>
      have hk : Keeps s (r.andThen (onBit t)) := (keeps_nextBit hb).andThen fun b u _ => keeps_onBit t b u
      dsimp only
      revert hk
      cases r.andThen (onBit t) with
      | stop u => exact fun hk => ⟨_, _, hk, .inl rfl⟩
      | ok p u =>
        intro hk
        cases p with
        | done v => exact lift hk ⟨_, u.task, ⟨rfl, rfl, rfl, rfl, rfl, rfl, rfl, rfl⟩, .inr rfl⟩
        | more t1 => exact lift hk (ih t1 u)

end Sys2Proof.Machine
end

