-- ==== Sys2Proof/Laws/PerInstr.lean ====
section
/-! SUPPORT. The per-instruction family: the code and the mnemonic of every command are a row of the command map (R99). -/

namespace Sys2Proof.Laws.CodeAssigned

open Sys2Proof Sys2Proof.Machine

/-- The code that encodes a command, with the command's mnemonic, is a row of R99's command map. -/
def Statement (i : Instr) : Prop := ((encode i).code, mnemonic i) ∈ commandMap

/-- Row `n` of the command map is the command's. -/
theorem row {i : Instr} (n : Nat) (h : commandMap[n]? = some ((encode i).code, mnemonic i)) : Statement i :=
  List.mem_of_getElem? h

theorem hbAppend (level : Bool) (delta : Sample) : Statement (.hbAppend level delta) := row 0 rfl
theorem hbReadChain (index : Nat) : Statement (.hbReadChain index) := row 1 rfl
theorem hbClear : Statement (.hbClear) := row 2 rfl
theorem bdNextBit : Statement (.bdNextBit) := row 3 rfl
theorem bdSkipBits (n : BitVec 64) : Statement (.bdSkipBits n) := row 4 rfl
theorem bdResetParity : Statement (.bdResetParity) := row 5 rfl
theorem bdIsParityOdd : Statement (.bdIsParityOdd) := row 6 rfl
theorem bdCurrentSample : Statement (.bdCurrentSample) := row 7 rfl
theorem bdCollectHistory (enable : Bool) : Statement (.bdCollectHistory enable) := row 8 rfl
theorem bdDiscardHistory : Statement (.bdDiscardHistory) := row 9 rfl
theorem bdMark : Statement (.bdMark) := row 10 rfl
theorem bdRestore (mark : Mark) : Statement (.bdRestore mark) := row 11 rfl
theorem smInit (sm : Nat) (columns : Columns) : Statement (.smInit sm columns) := row 12 rfl
theorem smPushBit (sm : Nat) (bit : Bool) : Statement (.smPushBit sm bit) := row 13 rfl
theorem dsgSeed (g : GenName) (seed : DSync) : Statement (.dsgSeed g seed) := row 14 rfl
theorem dsgNext (g : GenName) : Statement (.dsgNext g) := row 15 rfl
theorem frReset (r : ReaderName) : Statement (.frReset r) := row 16 rfl
theorem frSetShape (r : ReaderName) (rows : Rows) (columns : Columns) : Statement (.frSetShape r rows columns) := row 17 rfl
theorem frPushBit (r : ReaderName) (bit : Bool) : Statement (.frPushBit r bit) := row 18 rfl
theorem cwReset (w : WordName) : Statement (.cwReset w) := row 19 rfl
theorem cwLoad (w : WordName) (value : CtrlWord) : Statement (.cwLoad w value) := row 20 rfl
theorem cwPushBit (w : WordName) (bit : Bool) : Statement (.cwPushBit w bit) := row 21 rfl
theorem cwSkipBits (w : WordName) (n : BitVec 64) : Statement (.cwSkipBits w n) := row 22 rfl
theorem cwValue (w : WordName) : Statement (.cwValue w) := row 23 rfl
theorem cwIsPingSameAs (w : WordName) (other : CtrlWord) : Statement (.cwIsPingSameAs w other) := row 24 rfl
theorem cwIsFrameShapeChange (w : WordName) : Statement (.cwIsFrameShapeChange w) := row 25 rfl
theorem cwGetNewShape (w : WordName) : Statement (.cwGetNewShape w) := row 26 rfl
theorem cwPreq (w : WordName) : Statement (.cwPreq w) := row 27 rfl
theorem cwOpcode (w : WordName) : Statement (.cwOpcode w) := row 28 rfl
theorem cwDevAddr (w : WordName) : Statement (.cwDevAddr w) := row 29 rfl
theorem cwStaticSync (w : WordName) : Statement (.cwStaticSync w) := row 30 rfl
theorem cwPhySync (w : WordName) : Statement (.cwPhySync w) := row 31 rfl
theorem cwRegAddr (w : WordName) : Statement (.cwRegAddr w) := row 32 rfl
theorem cwRegData (w : WordName) : Statement (.cwRegData w) := row 33 rfl
theorem cwSsp (w : WordName) : Statement (.cwSsp w) := row 34 rfl
theorem cwPingStat4To11 (w : WordName) : Statement (.cwPingStat4To11 w) := row 35 rfl
theorem cwPingStat0To3 (w : WordName) : Statement (.cwPingStat0To3 w) := row 36 rfl
theorem cwDynamicSync (w : WordName) : Statement (.cwDynamicSync w) := row 37 rfl
theorem cwPar (w : WordName) : Statement (.cwPar w) := row 38 rfl
theorem cwNak (w : WordName) : Statement (.cwNak w) := row 39 rfl
theorem cwAck (w : WordName) : Statement (.cwAck w) := row 40 rfl
theorem sfFindSync (rowsHint : Rows) (columnsHint : Columns) : Statement (.sfFindSync rowsHint columnsHint) := row 41 rfl
theorem sfTestIfSyncIsReal (rows : Rows) (columns : Columns) (offset : Nat) (start : Mark) (matched : Mark) : Statement (.sfTestIfSyncIsReal rows columns offset start matched) := row 42 rfl
theorem sfCheckSync (rows : Rows) (columns : Columns) : Statement (.sfCheckSync rows columns) := row 43 rfl
theorem feStart : Statement (.feStart) := row 44 rfl
theorem feStep : Statement (.feStep) := row 45 rfl

end Sys2Proof.Laws.CodeAssigned
end

