-- ==== Sys2Proof/Laws/Run.lean ====
section
/-! SUPPORT. How far a command in progress runs: the bound on the bits of one resumption is never reached (log entry 5),
so that a run can be unfolded bit by bit, and proved about by induction, without it. -/

namespace Sys2Proof.Machine

open Sys2Proof

/-! What a command can still read. -/

/-- The bits that can be read without a restore: the history pending, at least one entry a bit, and the edges. -/
def readable (s : State) : Nat :=
  s.edges.length +
    match s.bd.nextHistoryReadIndex with
    | .sentinel => 0
    | .entry i => s.hb.size - i

/-- No fewer than can be read after any restore, now or later: an edge adds at most one chain to the history. -/
def reach (s : State) : Nat := 6 * s.edges.length + s.hb.size

theorem readable_le_reach (s : State) : readable s ≤ reach s := by
  unfold readable reach
  split <;> omega

theorem readable_sentinel {s : State} (h : s.bd.nextHistoryReadIndex = .sentinel) : readable s = s.edges.length := by
  simp [readable, h]

theorem encodeChain_length_le (level : Bool) (delta : Sample) : (encodeChain level delta).length ≤ 5 := by
  have aux : ∀ fuel d, (encodeChainFrom fuel level d).length ≤ fuel := by
    intro fuel
    induction fuel with
    | zero => intro d; simp [encodeChainFrom]
    | succ n ih => intro d; unfold encodeChainFrom; split <;> simp [ih]
  exact aux _ _

/-- The toggle count touches neither edges, history nor read index (R134). -/
theorem busResetCount_frame (b : Bool) (s : State) :
    (busResetCount b s).edges = s.edges ∧ (busResetCount b s).hb = s.hb ∧
      (busResetCount b s).bd.nextHistoryReadIndex = s.bd.nextHistoryReadIndex := by
  unfold busResetCount
  split
  · dsimp only; split <;> exact ⟨rfl, rfl, rfl⟩
  · exact ⟨rfl, rfl, rfl⟩

/-- A bit takes an edge at the live tail, and none before it; it leaves less to read. -/
theorem nextBit_ok_readable {s t : State} {b : Bool} (h : nextBit s = some (.ok b t)) :
    readable t < readable s ∧ reach t ≤ reach s ∧
      (s.bd.nextHistoryReadIndex = .sentinel ∧ t.edges.length + 1 = s.edges.length ∨
        s.bd.nextHistoryReadIndex ≠ .sentinel ∧ t.edges = s.edges) := by
  rcases nextBit_eq_some_ok.1 h with ⟨i, hi, hb⟩ | ⟨hi, e, rest, he, hb⟩
  · obtain ⟨level, delta, n, hd, -, rfl⟩ := historyBit_eq_ok.1 hb
    obtain ⟨h1, -, h3⟩ := decodeChain_length hd
    rw [List.length_drop] at h3
    refine ⟨?_, le_rfl, .inr ⟨by simp [hi], rfl⟩⟩
    have hlt : i < s.hb.size := by unfold History.size; omega
    by_cases he : i + n = s.hb.size
    · simp only [readable, hi, he, if_true]; omega
    · simp only [readable, hi, he, if_false]; omega
  · obtain ⟨u, hu, -, rfl⟩ := liveBit_eq_ok.1 hb
    have hu3 : u.edges = rest ∧ u.hb.size ≤ s.hb.size + 5 ∧ u.bd.nextHistoryReadIndex = .sentinel := by
      rcases collectEdge_eq_ok.1 hu with ⟨-, -, rfl⟩ | ⟨-, rfl⟩
      · refine ⟨rfl, ?_, hi⟩
        have := encodeChain_length_le e.level (e.sample - s.bd.currentSample)
        simp only [History.size, List.length_append]
        omega
      · exact ⟨rfl, by simp, hi⟩
    obtain ⟨h1, h2, h3⟩ := hu3
    obtain ⟨g1, g2, g3⟩ := busResetCount_frame b { u with bd := { u.bd with
      currentSample := e.sample
      parityIsOdd := parityAfter u.bd.parityIsOdd e.level
      lastLevel := e.level } }
    have hlen : s.edges.length = rest.length + 1 := by rw [he]; rfl
    refine ⟨?_, ?_, .inl ⟨hi, by rw [g1]; simp [h1, hlen]⟩⟩
    · rw [readable_sentinel hi, readable_sentinel (g3.trans h3), g1]
      simp [h1, hlen]
    · unfold reach
      rw [g1, g2]
      simp only [h1, hlen]
      omega

/-! How many restores are still to come in a search window. -/

/-- Of phase 1 from where it stands: a match for every bit left, each with every row candidate, and the columns after. -/
def scanLeft (w : Scan) : Nat :=
  25 * (searchLimit w.matcher.columns - w.offset) + 400000 * w.columnsLeft.length + 1

/-- Of SF.CHECK_SYNC, and of who asked for it. -/
def askLeft : Asker → Nat
  | .check => 0
  | .test => 0
  | .search _ w => 1 + w.rowsLeft.length + scanLeft w

/-- Of a command in progress. -/
def restoresLeft : Task → Nat
  | .nextBit => 0
  | .skipBits _ => 0
  | .feStart => 0
  | .feBit => 0
  | .scan _ w _ => scanLeft w
  | .advance _ _ _ => 0
  | .align ask _ _ _ _ => askLeft ask
  | .check ask _ _ => askLeft ask

/-- More than a window has. -/
def windowRestores : Nat := 4000000

theorem windowRestores_pos : 0 < windowRestores := by decide

/-- A command in progress as one stands: fewer restores left than a window has, and phase 1 inside its column window. -/
def TaskOk (t : Task) : Prop :=
  restoresLeft t < windowRestores ∧
    match t with
    | .scan _ w _ => w.offset < searchLimit w.matcher.columns
    | _ => True

theorem searchLimit_le (c : Columns) : searchLimit c ≤ 12032 := by
  have := c.isLt
  simp only [searchLimit, searchWindowBits, totalBitsInFrame]
  have h : (256 : Rows).toNat = 256 := rfl
  rw [h]; omega

theorem rowCandidates_length_le (hint : Rows) : (rowCandidates hint).length ≤ 23 := by
  unfold rowCandidates
  split
  · decide
  · simp

theorem columnCandidates_length_le (hint : Columns) : (columnCandidates hint).length ≤ 8 := by
  unfold columnCandidates
  split
  · decide
  · simp

/-- Where a command goes on after a restore, from the state `s` at that point: with fewer than `k` restores left, or in
a new window at the live tail. -/
def Below (k : Nat) (s : State) (r : Res Progress) : Prop :=
  ∀ t u, r = .ok (.more t) u → TaskOk t ∧ u.edges = s.edges ∧ reach u ≤ reach s ∧
    (restoresLeft t < k ∨ u.bd.nextHistoryReadIndex = .sentinel)

theorem Below.mono {k l : Nat} {s : State} {r : Res Progress} (h : Below k s r) (hkl : k ≤ l) : Below l s r := by
  intro t u hr
  obtain ⟨h1, h2, h3, h4⟩ := h t u hr
  exact ⟨h1, h2, h3, h4.imp_left (lt_of_lt_of_le · hkl)⟩

/-- A part that does not write the edges and adds nothing to reach may come first. -/
theorem Below.andThen {α : Type} {k : Nat} {s : State} {p : Res α} {f : α → State → Res Progress}
    (h : ∀ a u, p = .ok a u → u.edges = s.edges ∧ reach u ≤ reach s ∧ Below k u (f a u)) :
    Below k s (p.andThen f) := by
  intro t v hr
  obtain ⟨a, u, hp, hf⟩ := Res.andThen_eq_ok.1 hr
  obtain ⟨h1, h2, h3⟩ := h a u hp
  obtain ⟨g1, g2, g3, g4⟩ := h3 t v hf
  exact ⟨g1, g2.trans h1, g3.trans h2, g4⟩

theorem poll_readable {s t : State} {u : Unit} (h : poll s = .ok u t) :
    t.edges = s.edges ∧ reach t ≤ reach s ∧ readable t ≤ readable s := by
  obtain ⟨-, rfl⟩ := poll_eq_ok.1 h
  exact ⟨rfl, le_rfl, le_rfl⟩

theorem countBit_readable {s t : State} {n count : Nat} (h : countBit count s = .ok n t) :
    t.edges = s.edges ∧ reach t ≤ reach s ∧ readable t ≤ readable s := by
  obtain ⟨-, ⟨-, -, rfl⟩ | ⟨-, rfl⟩⟩ := countBit_eq_ok.1 h <;> exact ⟨rfl, le_rfl, le_rfl⟩

theorem Below.restore {k : Nat} {s : State} {m : Mark} {f : Unit → State → Res Progress}
    (h : ∀ u, Below k u (f () u)) : Below k s ((restore m s).andThen f) := by
  refine Below.andThen fun a u hp => ?_
  obtain ⟨-, -, rfl⟩ := restore_eq_ok.1 hp
  exact ⟨rfl, le_rfl, h _⟩

/-! Each part of a search. -/

theorem startCheck_more {ask : Asker} {rows : Rows} {columns : Columns} {count : Nat} {s u : State} {t : Task}
    (h : startCheck ask rows columns count s = .ok (.more t) u) : u = s ∧ ∃ c, t = .check ask c count := by
  unfold startCheck at h
  obtain ⟨r, v, hr, hk⟩ := Res.andThen_eq_ok.1 h
  obtain ⟨-, -, rfl⟩ := readerSetShape_eq_ok.1 hr
  simp only [Res.ok.injEq, Progress.more.injEq] at hk
  exact ⟨hk.2.symm, _, hk.1.symm⟩

theorem startAlign_more {ask : Asker} {rows : Rows} {columns : Columns} {left count : Nat} {s u : State} {t : Task}
    (h : startAlign ask rows columns left count s = .ok (.more t) u) :
    u = s ∧ restoresLeft t = askLeft ask ∧ (TaskOk t ↔ askLeft ask < windowRestores) := by
  unfold startAlign at h
  split at h
  · obtain ⟨rfl, c, rfl⟩ := startCheck_more h
    exact ⟨rfl, rfl, by simp [TaskOk, restoresLeft]⟩
  · simp only [Res.ok.injEq, Progress.more.injEq] at h
    obtain ⟨rfl, rfl⟩ := h
    exact ⟨rfl, rfl, by simp [TaskOk, restoresLeft]⟩

theorem startTest_below {ask : Asker} {rows : Rows} {columns : Columns} {offset count k : Nat} {start matched : Mark}
    {s : State} (h1 : askLeft ask < k) (h2 : askLeft ask < windowRestores) :
    Below k s (startTest ask rows columns offset start matched count s) := by
  have key : ∀ left (u : State), Below k u (startAlign ask rows columns left count u) := by
    intro left u t v hr
    obtain ⟨rfl, h3, h4⟩ := startAlign_more hr
    exact ⟨h4.2 h2, rfl, le_rfl, .inl (h3 ▸ h1)⟩
  unfold startTest
  split
  · refine Below.restore fun u => ?_
    dsimp only
    split
    · exact Below.restore fun v => key _ v
    · exact key _ u
  · intro t u hr; simp at hr

theorem startColumn_below {who : Finder} {w : Scan} {c : Columns} {rest : List Columns} {count k : Nat} {s : State}
    (hk : 25 * 12032 + 400000 * rest.length + 1 < k) (hw : k ≤ windowRestores) :
    Below k s (startColumn who w c rest count s) := by
  unfold startColumn
  refine Below.restore fun u => ?_
  intro t v hr
  obtain ⟨m, x, hm, hf⟩ := Res.andThen_eq_ok.1 hr
  obtain ⟨-, rfl, rfl⟩ := matcherInit_eq_ok.1 hm
  simp only [Res.ok.injEq, Progress.more.injEq] at hf
  obtain ⟨rfl, rfl⟩ := hf
  have hl := searchLimit_le c
  have hs : scanLeft { w with matcher := matcherNew c, columnsLeft := rest, offset := 0 } < k := by
    simp only [scanLeft, matcherNew]; omega
  refine ⟨⟨lt_of_lt_of_le hs hw, ?_⟩, rfl, le_rfl, .inl hs⟩
  show 0 < searchLimit c
  simp [searchLimit, searchWindowBits]

/-- A window begins with fewer restores left than any window has. -/
theorem startWindow_below {who : Finder} {w : Scan} {count : Nat} {s : State} :
    Below windowRestores s (startWindow who w count s) := by
  unfold startWindow
  have hlen := columnCandidates_length_le w.columnsHint
  split
  · intro t u hr; simp at hr
  · rename_i c rest hc
    rw [hc, List.length_cons] at hlen
    exact startColumn_below (by unfold windowRestores; omega) le_rfl

/-- A window begins where its mark was taken: at the live tail, if the search was there. -/
theorem startWindow_sentinel {who : Finder} {w : Scan} {count : Nat} {s u : State} {t : Task}
    (hs : s.bd.nextHistoryReadIndex = .sentinel) (h : startWindow who w count s = .ok (.more t) u) :
    u.bd.nextHistoryReadIndex = .sentinel := by
  unfold startWindow startColumn at h
  split at h
  · simp at h
  · obtain ⟨⟨⟩, x, hx, hf⟩ := Res.andThen_eq_ok.1 h
    obtain ⟨-, -, rfl⟩ := restore_eq_ok.1 hx
    obtain ⟨m, y, hm, hf⟩ := Res.andThen_eq_ok.1 hf
    obtain ⟨-, -, rfl⟩ := matcherInit_eq_ok.1 hm
    simp only [Res.ok.injEq, Progress.more.injEq] at hf
    obtain ⟨-, rfl⟩ := hf
    simp [restoreRegs, mark, hs]

/-- AdvanceWindow() goes on replaying, which no restore interrupts, or it begins a new window at the live tail. -/
theorem advanceWindow_more {who : Finder} {w : Scan} {count : Nat} {s u : State} {t : Task}
    (h : advanceWindow who w count s = .ok (.more t) u) :
    TaskOk t ∧ u.edges = s.edges ∧ reach u ≤ reach s ∧
      (t = .advance who w count ∧ u = s ∨ u.bd.nextHistoryReadIndex = .sentinel) := by
  unfold advanceWindow at h
  split at h
  · simp only [Res.ok.injEq, Progress.more.injEq] at h
    obtain ⟨rfl, rfl⟩ := h
    exact ⟨⟨windowRestores_pos, trivial⟩, rfl, le_rfl, .inl ⟨rfl, rfl⟩⟩
  · rename_i hi
    have hd : discardHistory s = histClear s := by simp [discardHistory, hi]
    rw [hd] at h
    obtain ⟨g1, g2, g3, -⟩ := startWindow_below t u h
    refine ⟨g1, g2, g3.trans ?_, .inr (startWindow_sentinel (s := histClear s) hi h)⟩
    simp [reach, histClear, History.size]

theorem advanceWindow_below {who : Finder} {w : Scan} {count k : Nat} {s : State} (hk : 0 < k) :
    Below k s (advanceWindow who w count s) := by
  intro t u hr
  obtain ⟨h1, h2, h3, ⟨rfl, -⟩ | h4⟩ := advanceWindow_more hr
  · exact ⟨h1, h2, h3, .inl hk⟩
  · exact ⟨h1, h2, h3, .inr h4⟩

theorem endColumn_below {who : Finder} {w : Scan} {count k : Nat} {s : State}
    (hk : 400000 * w.columnsLeft.length < k) (hw : k ≤ windowRestores) : Below k s (endColumn who w count s) := by
  unfold endColumn
  refine Below.andThen fun a u hp => ⟨(poll_readable hp).1, (poll_readable hp).2.1, ?_⟩
  split
  · exact advanceWindow_below (by omega)
  · rename_i c rest hc
    rw [hc, List.length_cons] at hk
    exact startColumn_below (by omega) hw

theorem continueScan_below {who : Finder} {w : Scan} {count k : Nat} {s : State}
    (hk : scanLeft w < k) (hw : k ≤ windowRestores) : Below k s (continueScan who w count s) := by
  unfold continueScan
  split
  · rename_i ho
    intro t u hr
    simp only [Res.ok.injEq, Progress.more.injEq] at hr
    obtain ⟨rfl, rfl⟩ := hr
    exact ⟨⟨lt_of_lt_of_le hk hw, ho⟩, rfl, le_rfl, .inl hk⟩
  · exact endColumn_below (by unfold scanLeft at hk; omega) hw

theorem tryRows_below {who : Finder} {w : Scan} {rows : List Rows} {count k : Nat} {s : State}
    (hk : rows.length + scanLeft w < k) (hw : k ≤ windowRestores) : Below k s (tryRows who w rows count s) := by
  unfold tryRows
  split
  · exact continueScan_below (by omega) hw
  · rename_i r rest
    have : askLeft (.search who { w with row := r, rowsLeft := rest }) = 1 + rest.length + scanLeft w := rfl
    rw [List.length_cons] at hk
    exact startTest_below (by omega) (by omega)

theorem scanBit_below {who : Finder} {w : Scan} {count : Nat} {b : Bool} {s : State}
    (h : TaskOk (.scan who w count)) (n : Nat) : Below (scanLeft w) s (scanBit who w n b s) := by
  obtain ⟨h1, h2⟩ := h
  have h1 : scanLeft w < windowRestores := h1
  have h2 : w.offset < searchLimit w.matcher.columns := h2
  have hm : ∀ m, scanLeft { w with
      matcher := (matcherPush b w.matcher).1, offset := w.offset + 1, matchMark := m } + 25 = scanLeft w := by
    intro m
    have : (matcherPush b w.matcher).1.columns = w.matcher.columns := rfl
    simp only [scanLeft, this]
    omega
  unfold scanBit
  dsimp only
  split
  · have := rowCandidates_length_le w.rowsHint
    have := hm (mark s)
    exact tryRows_below (by omega) h1.le
  · have := hm w.matchMark
    exact continueScan_below (by omega) h1.le

theorem feStepEnd_ne_more {s u : State} {t : Task} : feStepEnd s ≠ .ok (.more t) u := by
  intro h
  obtain ⟨-, h, -⟩ := feStepEnd_eq_ok.1 h
  simp at h

theorem foundSync_ne_more {who : Finder} {rows : Rows} {columns : Columns} {s u : State} {t : Task} :
    foundSync who rows columns s ≠ .ok (.more t) u := by
  unfold foundSync
  cases who with
  | command => simp
  | driver =>
    intro h
    obtain ⟨r, x, -, hf⟩ := Res.andThen_eq_ok.1 h
    exact feStepEnd_ne_more hf

theorem feBitRest_ne_more {b : Bool} {s u : State} {t : Task} : feBitRest b s ≠ .ok (.more t) u := by
  intro h
  obtain ⟨r, x, -, hf⟩ := Res.andThen_eq_ok.1 h
  exact feStepEnd_ne_more hf

theorem finishCheck_below {ask : Asker} {entry : Mark} {n count : Nat} {s : State}
    (h : askLeft ask < windowRestores) : Below (askLeft ask) s (finishCheck ask entry n count s) := by
  unfold finishCheck
  refine Below.restore fun u => ?_
  cases ask with
  | check => intro t v hr; simp at hr
  | test => intro t v hr; simp at hr
  | search who w =>
    dsimp only
    split
    · exact fun t v hr => absurd hr foundSync_ne_more
    · exact Below.restore fun v => tryRows_below (by simp only [askLeft]; omega) h.le

/-! One bit of a command. -/

/-- Where a bit may lead a command with `k` restores left, from the state `s` right after the bit: to one that reads on,
to one with fewer restores left, or to a new window at the live tail. -/
def Leads (k : Nat) (s : State) (r : Res Progress) : Prop :=
  ∀ t u, r = .ok (.more t) u → TaskOk t ∧ u.edges = s.edges ∧ reach u ≤ reach s ∧
    (readable u ≤ readable s ∧ restoresLeft t ≤ k ∨ restoresLeft t < k ∨ u.bd.nextHistoryReadIndex = .sentinel)

theorem Below.leads {k : Nat} {s : State} {r : Res Progress} (h : Below k s r) : Leads k s r := by
  intro t u hr
  obtain ⟨h1, h2, h3, h4⟩ := h t u hr
  exact ⟨h1, h2, h3, .inr h4⟩

/-- The counting of a bit may come first. -/
theorem Leads.andThen {α : Type} {k : Nat} {s : State} {p : Res α} {f : α → State → Res Progress}
    (h : ∀ a u, p = .ok a u → u.edges = s.edges ∧ reach u ≤ reach s ∧ readable u ≤ readable s ∧ Leads k u (f a u)) :
    Leads k s (p.andThen f) := by
  intro t v hr
  obtain ⟨a, u, hp, hf⟩ := Res.andThen_eq_ok.1 hr
  obtain ⟨h1, h2, h3, h4⟩ := h a u hp
  obtain ⟨g1, g2, g3, g4⟩ := h4 t v hf
  exact ⟨g1, g2.trans h1, g3.trans h2, g4.imp_left fun g => ⟨g.1.trans h3, g.2⟩⟩

/-- A task that reads on where the state is as it was. -/
theorem Leads.of_same {k : Nat} {s : State} {r : Res Progress}
    (h : ∀ t u, r = .ok (.more t) u → TaskOk t ∧ u.edges = s.edges ∧ reach u ≤ reach s ∧ readable u ≤ readable s ∧
      restoresLeft t ≤ k) : Leads k s r := by
  intro t u hr
  obtain ⟨h1, h2, h3, h4, h5⟩ := h t u hr
  exact ⟨h1, h2, h3, .inl ⟨h4, h5⟩⟩

theorem frameRead_leads {ask : Asker} {c : Check} {count : Nat} {s : State} (h : askLeft ask < windowRestores) :
    Leads (askLeft ask) s (frameRead ask c count s) := by
  have hn : ∀ c v, Leads (askLeft ask) s (nextFrame ask c v count s) := by
    intro c v
    refine Leads.of_same fun t u hr => ?_
    obtain ⟨r, x, hx, hf⟩ := Res.andThen_eq_ok.1 hr
    have hxs : x = s := by
      unfold nextReader at hx
      split at hx
      · exact (readerSetShape_eq_ok.1 hx).2.2
      · simp only [Res.ok.injEq] at hx; exact hx.2.symm
    simp only [Res.ok.injEq, Progress.more.injEq] at hf
    obtain ⟨rfl, rfl⟩ := hf
    subst hxs
    exact ⟨⟨h, trivial⟩, rfl, le_rfl, le_rfl, le_rfl⟩
  unfold frameRead
  dsimp only
  repeat' split
  all_goals first
    | exact (finishCheck_below h).leads
    | exact hn _ _

theorem checkBit_leads {ask : Asker} {c : Check} {count : Nat} {b : Bool} {s : State}
    (h : askLeft ask < windowRestores) : Leads (askLeft ask) s (checkBit ask c count b s) := by
  unfold checkBit
  dsimp only
  split
  · refine Leads.of_same fun t u hr => ?_
    simp only [Res.ok.injEq, Progress.more.injEq] at hr
    obtain ⟨rfl, rfl⟩ := hr
    exact ⟨⟨h, trivial⟩, rfl, le_rfl, le_rfl, le_rfl⟩
  · refine Leads.andThen fun a u hp => ?_
    obtain ⟨h1, h2, h3⟩ := poll_readable hp
    exact ⟨h1, h2, h3, frameRead_leads h⟩
  all_goals
    refine Leads.of_same fun t u hr => ?_
    simp only [Res.ok.injEq, Progress.more.injEq] at hr
    obtain ⟨rfl, rfl⟩ := hr
    exact ⟨⟨h, trivial⟩, rfl, le_rfl, le_rfl, le_rfl⟩

/-- What a bit can lead to. -/
theorem onBit_leads {t : Task} (h : TaskOk t) (b : Bool) (s : State) : Leads (restoresLeft t) s (onBit t b s) := by
  have hok : restoresLeft t < windowRestores := h.1
  cases t with
  | nextBit => intro t u hr; simp [onBit] at hr
  | skipBits left =>
    refine Leads.of_same fun t u hr => ?_
    have hr : (if left ≤ 1 then Res.ok (Progress.done .none) s else .ok (Progress.more (.skipBits (left - 1))) s) =
        .ok (Progress.more t) u := hr
    split at hr
    · simp at hr
    · simp only [Res.ok.injEq, Progress.more.injEq] at hr
      obtain ⟨rfl, rfl⟩ := hr
      exact ⟨⟨hok, trivial⟩, rfl, le_rfl, le_rfl, le_rfl⟩
  | feStart => intro t u hr; simp [onBit] at hr
  | feBit => exact fun t u hr => absurd hr feBitRest_ne_more
  | scan who w count =>
    refine Leads.andThen fun n u hp => ?_
    obtain ⟨h1, h2, h3⟩ := countBit_readable hp
    exact ⟨h1, h2, h3, (scanBit_below h n).leads⟩
  | advance who w count =>
    refine Leads.andThen fun n u hp => ?_
    obtain ⟨h1, h2, h3⟩ := countBit_readable hp
    refine ⟨h1, h2, h3, fun t v hr => ?_⟩
    obtain ⟨g1, g2, g3, ⟨rfl, rfl⟩ | g4⟩ := advanceWindow_more hr
    · exact ⟨g1, g2, g3, .inl ⟨le_rfl, le_rfl⟩⟩
    · exact ⟨g1, g2, g3, .inr (.inr g4)⟩
  | align ask rows columns left count =>
    refine Leads.andThen fun n u hp => ?_
    obtain ⟨h1, h2, h3⟩ := countBit_readable hp
    refine ⟨h1, h2, h3, Leads.of_same fun t v hr => ?_⟩
    obtain ⟨rfl, g1, g2⟩ := startAlign_more hr
    exact ⟨g2.2 hok, rfl, le_rfl, le_rfl, g1.le⟩
  | check ask c count =>
    refine Leads.andThen fun n u hp => ?_
    obtain ⟨h1, h2, h3⟩ := countBit_readable hp
    exact ⟨h1, h2, h3, checkBit_leads hok⟩

/-! The run. -/

/-- More than the bits a command in progress can still take. -/
def bitsLeft (t : Task) (s : State) : Nat :=
  ((if s.bd.nextHistoryReadIndex = .sentinel then 0 else restoresLeft t) + windowRestores * s.edges.length) *
    (reach s + 1) + readable s

/-- Every bit leaves fewer. -/
theorem bitsLeft_lt {t t1 : Task} {s s1 : State} {r : Res Bool} (h : TaskOk t) (hb : nextBit s = some r)
    (hk : r.andThen (onBit t) = .ok (.more t1) s1) : TaskOk t1 ∧ bitsLeft t1 s1 < bitsLeft t s := by
  obtain ⟨b, u, rfl, hk⟩ := Res.andThen_eq_ok.1 hk
  obtain ⟨h1, h2, h3⟩ := nextBit_ok_readable hb
  obtain ⟨g1, g2, g3, g4⟩ := onBit_leads h b u t1 s1 hk
  refine ⟨g1, ?_⟩
  have hw : restoresLeft t1 < windowRestores := g1.1
  have hsent : s1.bd.nextHistoryReadIndex = .sentinel → readable s1 ≤ readable u := by
    intro hs
    rw [readable_sentinel hs, g2]
    exact Nat.le_add_right _ _
  have hr1 := readable_le_reach s1
  have hr := g3.trans h2
  -- the restores still to come, of this window and of those to come
  have key : ∀ a b : Nat, a < b ∨ a ≤ b ∧ readable s1 < readable s →
      a * (reach s1 + 1) + readable s1 < b * (reach s + 1) + readable s := by
    intro a b hab
    have hmul : a * (reach s1 + 1) ≤ a * (reach s + 1) := Nat.mul_le_mul_left a (by omega)
    rcases hab with hab | ⟨hab, hlt⟩
    · have : (a + 1) * (reach s + 1) ≤ b * (reach s + 1) := Nat.mul_le_mul_right _ hab
      rw [Nat.add_mul, Nat.one_mul] at this
      omega
    · have : a * (reach s + 1) ≤ b * (reach s + 1) := Nat.mul_le_mul_right _ hab
      omega
  unfold bitsLeft
  refine key _ _ ?_
  rcases h3 with ⟨hs, he⟩ | ⟨hs, he⟩
  · rw [if_pos hs, ← he, ← g2, Nat.mul_add]
    rcases g4 with ⟨g5, g6⟩ | g4
    · right; refine ⟨?_, by omega⟩
      split <;> omega
    · left
      split <;> omega
  · rw [if_neg hs, ← he, ← g2]
    rcases g4 with ⟨g5, g6⟩ | g4 | g4
    · right; refine ⟨?_, by omega⟩
      split <;> omega
    · left
      have : (if s1.bd.nextHistoryReadIndex = .sentinel then 0 else restoresLeft t1) ≤ restoresLeft t1 := by
        split <;> omega
      omega
    · right
      rw [if_pos g4]
      exact ⟨by omega, lt_of_le_of_lt (hsent g4) h1⟩

/-- The bound is past them. -/
theorem bitsLeft_lt_bitBound {t : Task} (h : TaskOk t) (s : State) : bitsLeft t s < bitBound s := by
  obtain ⟨N, hN⟩ : ∃ N, N = s.edges.length + s.hb.size + 2 := ⟨_, rfl⟩
  have h1 : (if s.bd.nextHistoryReadIndex = .sentinel then 0 else restoresLeft t) + windowRestores * s.edges.length ≤
      windowRestores * N := by
    have : restoresLeft t < windowRestores := h.1
    rw [hN]
    unfold windowRestores at *
    split <;> omega
  have h2 : reach s + 1 ≤ 6 * N := by unfold reach; omega
  have h3 := (readable_le_reach s)
  have h4 := Nat.mul_le_mul h1 h2
  unfold bitsLeft bitBound
  rw [← hN]
  have h5 : windowRestores * N * (6 * N) = 24000000 * N ^ 2 := by unfold windowRestores; ring
  have h6 : N ≤ N ^ 2 := by nlinarith
  have h7 : (2 : Nat) ^ 40 * N ^ 2 = 1099511627776 * N ^ 2 := by norm_num
  omega

/-- A run is the same whatever bound past the bits left it is given. -/
theorem runTask_congr {t : Task} {s : State} (h : TaskOk t) {m n : Nat} (hm : bitsLeft t s < m) (hn : bitsLeft t s < n) :
    runTask m t s = runTask n t s := by
  induction m generalizing n t s with
  | zero => omega
  | succ m ih =>
    obtain ⟨n, rfl⟩ : ∃ k, n = k + 1 := ⟨n - 1, by omega⟩
    rw [runTask_succ, runTask_succ]
    cases hb : nextBit s with
    | none => rfl
    | some r =>
      dsimp only
      cases hk : r.andThen (onBit t) with
      | stop s1 => rfl
      | ok p s1 =>
        cases p with
        | done v => rfl
        | more t1 =>
          obtain ⟨h1, h2⟩ := bitsLeft_lt h hb hk
          exact ih h1 (by omega) (by omega)

/-- A command in progress, unfolded by one bit, with no bound in sight. -/
theorem runTask_unfold {t : Task} (h : TaskOk t) (s : State) :
    runTask (bitBound s) t s =
      match nextBit s with
      | none => { s with task := some t }
      | some r =>
        match r.andThen (onBit t) with
        | .stop s1 => s1
        | .ok (.done v) s1 => s1.returning v
        | .ok (.more t1) s1 => runTask (bitBound s1) t1 s1 := by
  obtain ⟨n, hn⟩ : ∃ n, bitBound s = n + 1 := ⟨bitBound s - 1, by have := bitBound_pos s; omega⟩
  have hlt := bitsLeft_lt_bitBound h s
  rw [hn, runTask_succ]
  cases hb : nextBit s with
  | none => rfl
  | some r =>
    dsimp only
    cases hk : r.andThen (onBit t) with
    | stop s1 => rfl
    | ok p s1 =>
      cases p with
      | done v => rfl
      | more t1 =>
        obtain ⟨h1, h2⟩ := bitsLeft_lt h hb hk
        exact runTask_congr h1 (by omega) (bitsLeft_lt_bitBound h1 s1)

/-- Induction along a run: what holds of a command in progress if it holds of where its next bit leads. -/
theorem task_induction {P : Task → State → Prop}
    (step : ∀ t s, TaskOk t →
      (∀ r t1 s1, nextBit s = some r → r.andThen (onBit t) = .ok (.more t1) s1 → P t1 s1) → P t s)
    {t : Task} (h : TaskOk t) (s : State) : P t s := by
  obtain ⟨n, hn⟩ : ∃ n, bitsLeft t s < n := ⟨_, Nat.lt_succ_self _⟩
  induction n generalizing t s with
  | zero => omega
  | succ n ih =>
    refine step t s h fun r t1 s1 hb hk => ?_
    obtain ⟨h1, h2⟩ := bitsLeft_lt h hb hk
    exact ih h1 s1 (by omega)

/-- Where a command stands that waits: at the live tail with no edge record left (R318). -/
def WaitsAtTail (u : State) : Prop :=
  ∀ t, u.task = some t → TaskOk t ∧ u.bd.nextHistoryReadIndex = .sentinel ∧ u.edges = []

/-- A run that ends in progress waits. -/
theorem runTask_waits {t : Task} {s : State} (h : TaskOk t) (hs : s.task = none) :
    WaitsAtTail (runTask (bitBound s) t s) := by
  revert hs
  refine task_induction (P := fun t s => s.task = none → WaitsAtTail (runTask (bitBound s) t s)) ?_ h s
  intro t s h ih hs
  have none_waits : ∀ u : State, u.task = none → WaitsAtTail u := fun u hu t ht => by rw [hu] at ht; cases ht
  have hrun := runTask_unfold h s
  revert hrun
  generalize runTask (bitBound s) t s = v
  cases hb : nextBit s with
  | none =>
    rintro rfl t1 ht
    obtain rfl : t = t1 := Option.some.inj ht
    have hw := nextBit_eq_none.1 hb
    exact ⟨h, hw.1, hw.2⟩
  | some r =>
    have hk : Keeps s (r.andThen (onBit t)) := (keeps_nextBit hb).andThen fun b u _ => keeps_onBit t b u
    dsimp only
    cases hr : r.andThen (onBit t) with
    | stop u =>
      rw [hr] at hk
      rintro rfl
      exact none_waits _ (hk.task.trans hs)
    | ok p u =>
      rw [hr] at hk
      have hu : u.task = none := hk.task.trans hs
      cases p with
      | done v =>
        rintro rfl
        exact none_waits _ hu
      | more t2 =>
        have hi := ih r t2 u hb hr hu
        dsimp only
        intro hv
        rw [hv]
        exact hi

/-! Every command begins so. -/

theorem taskOk_nextBit : TaskOk .nextBit := ⟨windowRestores_pos, trivial⟩
theorem taskOk_skipBits (n : Nat) : TaskOk (.skipBits n) := ⟨windowRestores_pos, trivial⟩
theorem taskOk_feStart : TaskOk .feStart := ⟨windowRestores_pos, trivial⟩
theorem taskOk_feBit : TaskOk .feBit := ⟨windowRestores_pos, trivial⟩

theorem taskOk_startCheck {rows : Rows} {columns : Columns} {count : Nat} {s u : State} {t : Task}
    (h : startCheck .check rows columns count s = .ok (.more t) u) : TaskOk t := by
  obtain ⟨-, c, rfl⟩ := startCheck_more h
  exact ⟨windowRestores_pos, trivial⟩

theorem taskOk_startTest {rows : Rows} {columns : Columns} {offset count : Nat} {start matched : Mark} {s u : State}
    {t : Task} (h : startTest .test rows columns offset start matched count s = .ok (.more t) u) : TaskOk t :=
  (startTest_below (ask := .test) (k := 1) Nat.zero_lt_one windowRestores_pos t u h).1

theorem taskOk_startFind {who : Finder} {rowsHint : Rows} {columnsHint : Columns} {s u : State} {t : Task}
    (h : startFind who rowsHint columnsHint s = .ok (.more t) u) : TaskOk t :=
  (startWindow_below t u h).1

theorem taskOk_startResync {s u : State} {t : Task} (h : startResync s = .ok (.more t) u) : TaskOk t := by
  obtain ⟨⟨⟩, v, -, hf⟩ := Res.andThen_eq_ok.1 h
  exact taskOk_startFind hf

end Sys2Proof.Machine
end

