-- ==== Sys2Proof/Tests/Slice0.lean ====
section
/-! SUPPORT. The model's own tests: ill-formed terms that WellFormed refuses, the decoding of every command, one or two
steps per command, and for every statement with hypotheses a state and operands that meet them. Expected values come from
spec/: the rule or the section of 95_test_vectors.md is named in each docstring. -/

namespace Sys2Proof.Tests

open Sys2Proof Sys2Proof.Machine

/-! ## Helpers -/

/-- A block just created, with the edge records given at its input. -/
def fresh (edges : List Edge) : State := { State.reset with edges := edges }

/-- A block just created, with the history entries given, and the read index at the first of them. -/
def replaying (entries : List Entry) : State :=
  { State.reset with hb := ⟨entries, 0⟩, bd := { Decoder.reset with nextHistoryReadIndex := .entry 0 } }

/-- A condition on the next state of an outcome; false where there is none. -/
def nextIs (o : Out) (p : State → Bool) : Bool :=
  match o with
  | .next t => p t
  | _ => false

/-- The next state of an outcome. -/
def nextOf (o : Out) : State :=
  match o with
  | .next t => t
  | _ => State.reset

/-- An outcome with a next state is that next state. -/
theorem eq_next {o : Out} (h : nextIs o (fun _ => true) = true) : o = .next (nextOf o) := by
  cases o <;> simp_all [nextIs, nextOf]

/-- A condition that holds of the next state. -/
theorem exists_next {o : Out} {p : State → Bool} (h : nextIs o p = true) : ∃ t, o = .next t ∧ p t = true := by
  cases o <;> simp_all [nextIs]

/-- The bits and the state of a sequence of commands that completes. -/
def someOf (r : Option (List Bool × State)) : List Bool × State := r.getD ([], State.reset)

theorem eq_some {r : Option (List Bool × State)} (h : r.isSome = true) : r = some ((someOf r).1, (someOf r).2) := by
  cases r <;> simp_all [someOf]

/-! ## Well-formed commands: an ill-formed term for each check -/

/-- R161: 3 is no stride of COLUMN_SET; 16 is. -/
theorem test_wellFormed_smInit :
    (Instr.smInit 0 3).wellFormed = false ∧ (Instr.smInit 0 16).wellFormed = true := by decide
/-- R181: 49 rows, 0 rows and 3 columns. -/
theorem test_wellFormed_frSetShape :
    (Instr.frSetShape .driver 49 2).wellFormed = false ∧ (Instr.frSetShape .driver 0 16).wellFormed = false ∧
    (Instr.frSetShape .driver 48 3).wellFormed = false ∧ (Instr.frSetShape .driver 256 16).wellFormed = true := by
  decide
/-- R240: hints outside the listed values; 0 is "auto". -/
theorem test_wellFormed_sfFindSync :
    (Instr.sfFindSync 49 0).wellFormed = false ∧ (Instr.sfFindSync 0 1).wellFormed = false ∧
    (Instr.sfFindSync 0 0).wellFormed = true := by decide
/-- R243: a shape outside the sets, and an offset of 0. -/
theorem test_wellFormed_sfTest :
    (Instr.sfTestIfSyncIsReal 48 3 1 Mark.zero Mark.zero).wellFormed = false ∧
    (Instr.sfTestIfSyncIsReal 48 2 0 Mark.zero Mark.zero).wellFormed = false ∧
    (Instr.sfTestIfSyncIsReal 48 2 1 Mark.zero Mark.zero).wellFormed = true := by decide
/-- R244: a shape outside the sets. -/
theorem test_wellFormed_sfCheckSync :
    (Instr.sfCheckSync 47 2).wellFormed = false ∧ (Instr.sfCheckSync 250 14).wellFormed = true := by decide

/-! ## Decoding: every command word of R99, written out as UNIT and OP -/

/-- Unit 0x1. -/
theorem test_decode_hb :
    decode ⟨0b00010000, { level := true, delta := 0x4000 }⟩ = .ok (.hbAppend true 0x4000) ∧
    decode ⟨0b00010001, { index := 7 }⟩ = .ok (.hbReadChain 7) ∧ decode ⟨0b00010010, {}⟩ = .ok .hbClear :=
  ⟨rfl, rfl, rfl⟩
/-- Unit 0x2. -/
theorem test_decode_bd :
    decode ⟨0b00100000, {}⟩ = .ok .bdNextBit ∧ decode ⟨0b00100001, { n := 2 }⟩ = .ok (.bdSkipBits 2) ∧
    decode ⟨0b00100010, {}⟩ = .ok .bdResetParity ∧ decode ⟨0b00100011, {}⟩ = .ok .bdIsParityOdd ∧
    decode ⟨0b00100100, {}⟩ = .ok .bdCurrentSample ∧
    decode ⟨0b00100101, { enable := true }⟩ = .ok (.bdCollectHistory true) ∧
    decode ⟨0b00100110, {}⟩ = .ok .bdDiscardHistory ∧ decode ⟨0b00100111, {}⟩ = .ok .bdMark ∧
    decode ⟨0b00101000, { mark := ⟨true, false, 104, 3, 1⟩ }⟩ = .ok (.bdRestore ⟨true, false, 104, 3, 1⟩) :=
  ⟨rfl, rfl, rfl, rfl, rfl, rfl, rfl, rfl, rfl⟩
/-- Units 0x3 and 0x4. -/
theorem test_decode_sm_dsg :
    decode ⟨0b00110000, { matcher := 3, columns := 4 }⟩ = .ok (.smInit 3 4) ∧
    decode ⟨0b00110001, { matcher := 3, bit := true }⟩ = .ok (.smPushBit 3 true) ∧
    decode ⟨0b01000000, { generator := .named 1, seed := 5 }⟩ = .ok (.dsgSeed (.named 1) 5) ∧
    decode ⟨0b01000001, { generator := .named 1 }⟩ = .ok (.dsgNext (.named 1)) := ⟨rfl, rfl, rfl, rfl⟩
/-- Unit 0x5. -/
theorem test_decode_fr :
    decode ⟨0b01010000, { reader := .named 2 }⟩ = .ok (.frReset (.named 2)) ∧
    decode ⟨0b01010001, { reader := .named 2, rows := 50, columns := 2 }⟩ = .ok (.frSetShape (.named 2) 50 2) ∧
    decode ⟨0b01010010, { reader := .named 2, bit := true }⟩ = .ok (.frPushBit (.named 2) true) := ⟨rfl, rfl, rfl⟩
/-- Unit 0x6. -/
theorem test_decode_cw :
    decode ⟨0b01100000, { word := .ephemeral 1 }⟩ = .ok (.cwReset (.ephemeral 1)) ∧
    decode ⟨0b01100001, { word := .ephemeral 1, value := 7 }⟩ = .ok (.cwLoad (.ephemeral 1) 7) ∧
    decode ⟨0b01100010, { word := .ephemeral 1, bit := true }⟩ = .ok (.cwPushBit (.ephemeral 1) true) ∧
    decode ⟨0b01100011, { word := .ephemeral 1, n := 8 }⟩ = .ok (.cwSkipBits (.ephemeral 1) 8) ∧
    decode ⟨0b01100100, { word := .ephemeral 1 }⟩ = .ok (.cwValue (.ephemeral 1)) ∧
    decode ⟨0b01100101, { word := .ephemeral 1, other := 9 }⟩ = .ok (.cwIsPingSameAs (.ephemeral 1) 9) ∧
    decode ⟨0b01100110, { word := .ephemeral 1 }⟩ = .ok (.cwIsFrameShapeChange (.ephemeral 1)) ∧
    decode ⟨0b01100111, { word := .ephemeral 1 }⟩ = .ok (.cwGetNewShape (.ephemeral 1)) :=
  ⟨rfl, rfl, rfl, rfl, rfl, rfl, rfl, rfl⟩
/-- Unit 0x7. -/
theorem test_decode_cw_fields :
    decode ⟨0b01110000, {}⟩ = .ok (.cwPreq (.ofReader .driver)) ∧
    decode ⟨0b01110001, {}⟩ = .ok (.cwOpcode (.ofReader .driver)) ∧
    decode ⟨0b01110010, {}⟩ = .ok (.cwDevAddr (.ofReader .driver)) ∧
    decode ⟨0b01110011, {}⟩ = .ok (.cwStaticSync (.ofReader .driver)) ∧
    decode ⟨0b01110100, {}⟩ = .ok (.cwPhySync (.ofReader .driver)) ∧
    decode ⟨0b01110101, {}⟩ = .ok (.cwRegAddr (.ofReader .driver)) ∧
    decode ⟨0b01110110, {}⟩ = .ok (.cwRegData (.ofReader .driver)) ∧
    decode ⟨0b01110111, {}⟩ = .ok (.cwSsp (.ofReader .driver)) ∧
    decode ⟨0b01111000, {}⟩ = .ok (.cwPingStat4To11 (.ofReader .driver)) ∧
    decode ⟨0b01111001, {}⟩ = .ok (.cwPingStat0To3 (.ofReader .driver)) ∧
    decode ⟨0b01111010, {}⟩ = .ok (.cwDynamicSync (.ofReader .driver)) ∧
    decode ⟨0b01111011, {}⟩ = .ok (.cwPar (.ofReader .driver)) ∧
    decode ⟨0b01111100, {}⟩ = .ok (.cwNak (.ofReader .driver)) ∧
    decode ⟨0b01111101, { word := .ofReader (.named 4) }⟩ = .ok (.cwAck (.ofReader (.named 4))) :=
  ⟨rfl, rfl, rfl, rfl, rfl, rfl, rfl, rfl, rfl, rfl, rfl, rfl, rfl, rfl⟩
/-- Units 0x8 and 0x9. -/
theorem test_decode_sf_fe :
    decode ⟨0b10000000, { rowsHint := 48, columnsHint := 2 }⟩ = .ok (.sfFindSync 48 2) ∧
    decode ⟨0b10000001, { rows := 48, columns := 2, matchedBitOffset := 100, matchMark := ⟨true, true, 1200, 100, 1⟩ }⟩ =
      .ok (.sfTestIfSyncIsReal 48 2 100 Mark.zero ⟨true, true, 1200, 100, 1⟩) ∧
    decode ⟨0b10000010, { rows := 48, columns := 2 }⟩ = .ok (.sfCheckSync 48 2) ∧
    decode ⟨0b10010000, {}⟩ = .ok .feStart ∧ decode ⟨0b10010001, {}⟩ = .ok .feStep := ⟨rfl, rfl, rfl, rfl, rfl⟩
/-- R316's own list of reserved words (section 10). -/
theorem test_decode_reserved :
    [0x13, 0x29, 0x32, 0x42, 0x53, 0x68, 0x7E, 0x83, 0x92, 0x00, 0xA0, 0xFF].all
      (fun w => decodeTableWord 8 w == none) = true := by decide

/-! ## Steps -/

/-- Section 3: a chain is appended whole, and not at all where it does not fit (capacity 1000, size 996). -/
theorem test_hbAppend :
    nextIs (exec (.hbAppend true 0xFFFFFFFFFFFFFFFF) (fresh [])) (fun t =>
      t.hb.entries == [0xFFFF, 0xFFFF, 0xFFFF, 0xFFFF, 0x80FF]) = true ∧
    nextIs (exec (.hbAppend true 19890) (replaying [0x0064])) (fun t =>
      t.hb.entries == [0x0064, 0xCDB2, 0x8001]) = true := by decide
/-- Section 3: the two chains that fault, and R121's example. -/
theorem test_hbReadChain :
    nextIs (exec (.hbReadChain 0) (replaying [0xC000, 0x8001])) (fun t => t.result == .chain true 0x4000 2) = true ∧
    nextIs (exec (.hbReadChain 0) (replaying [0xC000, 0x0001])) (fun t =>
      t.status == .faulted .historyCorrupt) = true := by decide
/-- R122's corner case: an empty buffer's epoch counts too. -/
theorem test_hbClear : nextIs (exec .hbClear (fresh [])) (fun t => t.hb.epoch == 1 && t.hb.entries == []) = true := by
  decide
/-- Section 1.1: the fourth edge, at HIGH; and line 6 of program P2, a replayed entry. -/
theorem test_bdNextBit :
    nextIs (exec .bdNextBit (fresh [⟨106, true⟩])) (fun t => t.result == .u1 true && t.bd.parityIsOdd &&
      t.bd.currentSample == 106 && t.bd.contiguousToggleCount == 1 && t.bd.runStartSample == 106) = true ∧
    nextIs (exec .bdNextBit (replaying [0x8002, 0x8002])) (fun t => t.result == .u1 true &&
      t.bd.currentSample == 2 && t.bd.nextHistoryReadIndex == .entry 1 && t.bd.contiguousToggleCount == 0) = true := by
  decide
/-- R135's example, from the state it names. -/
theorem test_bdSkipBits :
    nextIs (exec (.bdSkipBits 2) (fresh [⟨108, false⟩, ⟨110, true⟩])) (fun t =>
      t.bd.currentSample == 110 && t.bd.lastLevel && t.edgesTaken == 2) = true ∧
    nextIs (exec (.bdSkipBits 0) (fresh [⟨108, false⟩])) (fun t => t.edgesTaken == 0) = true := by decide
/-- R136, R137 and R138 on a decoder with odd parity at sample 106. -/
theorem test_bdParity_and_sample :
    let s := { fresh [] with bd := { Decoder.reset with parityIsOdd := true, currentSample := 106, lastLevel := true } }
    nextIs (exec .bdResetParity s) (fun t => !t.bd.parityIsOdd && t.bd.lastLevel) = true ∧
    nextIs (exec .bdIsParityOdd s) (fun t => t.result == .u1 true) = true ∧
    nextIs (exec .bdCurrentSample s) (fun t => t.result == .u64 106) = true := by decide
/-- R139: the enable clears even when nothing is there (P2 line 1), and keeps a pending history. -/
theorem test_bdCollectHistory :
    nextIs (exec (.bdCollectHistory true) (fresh [])) (fun t => t.hb.epoch == 1 && t.bd.collectHistory) = true ∧
    nextIs (exec (.bdCollectHistory true) (replaying [0x0064])) (fun t =>
      t.hb.epoch == 0 && t.hb.entries == [0x0064] && t.bd.collectHistory) = true := by decide
/-- P2 lines 8 and 10. -/
theorem test_bdDiscardHistory :
    nextIs (exec .bdDiscardHistory (replaying [0x0064])) (fun t => t.hb.entries == [0x0064]) = true ∧
    nextIs (exec .bdDiscardHistory { fresh [] with hb := ⟨[0x0064], 1⟩ }) (fun t =>
      t.hb.entries == [] && t.hb.epoch == 2) = true := by decide
/-- R141's example: size 7, epoch 2, sample 300. -/
theorem test_bdMark :
    nextIs (exec .bdMark { fresh [] with
      hb := ⟨List.replicate 7 0x0064, 2⟩, bd := { Decoder.reset with currentSample := 300 } })
      (fun t => t.result == .mark ⟨false, false, 300, 7, 2⟩) = true := by decide
/-- R142's example, and the corner cases of section 4.2. -/
theorem test_bdRestore :
    nextIs (exec (.bdRestore ⟨false, false, 300, 7, 2⟩) { fresh [] with hb := ⟨List.replicate 10 0x0064, 2⟩ })
      (fun t => t.bd.nextHistoryReadIndex == .entry 7 && t.bd.currentSample == 300) = true ∧
    nextIs (exec (.bdRestore ⟨false, false, 0, 5, 0⟩) { fresh [] with hb := ⟨List.replicate 3 0x0064, 0⟩ })
      (fun t => t.status == .faulted .badMark) = true := by decide
/-- Section 5: the words of C = 4, and SM.INIT 3 (section 10). -/
theorem test_smInit :
    nextIs (exec (.smInit 1 4) (fresh [])) (fun t => t.matcher 1 == ⟨4, 0, 0x11111111, 0x10110001⟩) = true ∧
    nextIs (exec (.smInit 1 3) (fresh [])) (fun t => t.status == .faulted .illegalShape) = true := by decide
/-- Section 1.3: the last push of the document's list reversed fires, that of the list as written does not. -/
theorem test_smPushBit :
    nextIs (exec (.smPushBit 1 true) ((fresh []).setMatcher 1 ⟨4, 0x08088000, 0x11111111, 0x10110001⟩))
      (fun t => t.result == .u1 true) = true ∧
    nextIs (exec (.smPushBit 1 false) ((fresh []).setMatcher 1 ⟨4, 0x40004404, 0x11111111, 0x10110001⟩))
      (fun t => t.result == .u1 false) = true := by decide
/-- Section 6. -/
theorem test_dsgSeed : nextIs (exec (.dsgSeed (.named 1) 5) (fresh [])) (fun t =>
    t.generator (.named 1) == 5 && t.generator .driver == 0) = true := by decide
/-- Section 6: 5 is followed by 11, and an unseeded generator stays at 0. -/
theorem test_dsgNext :
    nextIs (exec (.dsgNext (.named 1)) ((fresh []).setGenerator (.named 1) 5)) (fun t =>
      t.result == .u4 11 && t.generator (.named 1) == 11) = true ∧
    nextIs (exec (.dsgNext .driver) (fresh [])) (fun t => t.result == .u4 0) = true := by decide
/-- R180: the shape stays, everything else is cleared. -/
theorem test_frReset : nextIs (exec (.frReset .driver)
    ((fresh []).setReader .driver ⟨50, 4, 3, 2, cwLoadWord 9, .needMoreBits⟩))
    (fun t => t.fe.reader == ⟨50, 4, 0, 0, ControlWord.reset, .frameStart⟩) = true := by decide
/-- Section 11.6: the reader fr1 with 49 rows; R181 on a legal shape. -/
theorem test_frSetShape :
    nextIs (exec (.frSetShape (.named 1) 49 2) (fresh [])) (fun t => t.status == .faulted .illegalShape) = true ∧
    nextIs (exec (.frSetShape (.named 1) 50 2) (fresh [])) (fun t => (t.reader (.named 1)).rows == 50) = true := by
  decide
/-- Section 7.1: push 89 of a 48x2 frame captures parity, push 96 completes it. -/
theorem test_frPushBit :
    nextIs (exec (.frPushBit .driver true)
      ((fresh []).setReader .driver ⟨48, 2, 44, 0, ⟨0, 8⟩, .needMoreBits⟩)) (fun t =>
      t.result == .u2 2 && t.fe.reader.currentColumn == 1 && t.fe.reader.cw == ⟨8, 4⟩) = true ∧
    nextIs (exec (.frPushBit .driver true)
      ((fresh []).setReader .driver ⟨48, 2, 47, 1, ⟨8, 0⟩, .needMoreBits⟩)) (fun t =>
      t.result == .u2 3 && t.fe.reader.state == .frameComplete && t.fe.reader.cw.value == 8) = true := by decide
/-- Section 7.2: the push and skip vectors. -/
theorem test_cw_operations :
    let w := (fresh []).setWord (.ephemeral 1) ⟨0x800000000000, 0x200000000000⟩
    nextIs (exec (.cwPushBit (.ephemeral 1) true) w) (fun t =>
      t.word (.ephemeral 1) == ⟨0xA00000000000, 0x100000000000⟩) = true ∧
    nextIs (exec (.cwReset (.ephemeral 1)) w) (fun t => t.word (.ephemeral 1) == ⟨0, 0x800000000000⟩) = true ∧
    nextIs (exec (.cwLoad (.ephemeral 1) 7) w) (fun t => t.word (.ephemeral 1) == ⟨7, 0⟩) = true ∧
    nextIs (exec (.cwSkipBits (.ephemeral 1) 48) w) (fun t =>
      t.word (.ephemeral 1) == ⟨0x800000000000, 0⟩) = true ∧
    nextIs (exec (.cwValue (.ephemeral 1)) w) (fun t => t.result == .u48 0x800000000000) = true := by decide
/-- Section 7.2: the accessors on 0x300600B11A26. -/
theorem test_cw_accessors :
    let s := (fresh []).setWord (.ephemeral 1) ⟨0x300600B11A26, 0⟩
    let reads := fun (i : Instr) (v : Value) => nextIs (exec i s) (fun t => t.result == v)
    (reads (.cwPreq (.ephemeral 1)) (.u1 false) && reads (.cwOpcode (.ephemeral 1)) (.u3 3) &&
      reads (.cwDevAddr (.ephemeral 1)) (.u4 0) && reads (.cwSsp (.ephemeral 1)) (.u1 false) &&
      reads (.cwRegAddr (.ephemeral 1)) (.u16 0x0600) && reads (.cwStaticSync (.ephemeral 1)) (.u8 0xB1) &&
      reads (.cwPhySync (.ephemeral 1)) (.u1 false) && reads (.cwRegData (.ephemeral 1)) (.u8 0x34) &&
      reads (.cwPingStat4To11 (.ephemeral 1)) (.u16 0x0600) && reads (.cwPingStat0To3 (.ephemeral 1)) (.u8 0x34) &&
      reads (.cwDynamicSync (.ephemeral 1)) (.u4 4) && reads (.cwPar (.ephemeral 1)) (.u1 true) &&
      reads (.cwNak (.ephemeral 1)) (.u1 true) && reads (.cwAck (.ephemeral 1)) (.u1 false)) = true := by decide
/-- Section 7.2: IS_FRAME_SHAPE_CHANGE and GET_NEW_SHAPE. -/
theorem test_cw_shape_change :
    let reads := fun (v : CtrlWord) (i : Instr) (r : Value) =>
      nextIs (exec i ((fresh []).setWord (.ephemeral 1) ⟨v, 0⟩)) (fun t => t.result == r)
    (reads 0x300060B10449 (.cwIsFrameShapeChange (.ephemeral 1)) (.u1 true) &&
      reads 0x300060B10449 (.cwGetNewShape (.ephemeral 1)) (.shape 50 2) &&
      reads 0x300070B17FFC (.cwIsFrameShapeChange (.ephemeral 1)) (.u1 true) &&
      reads 0x300070B17FFC (.cwGetNewShape (.ephemeral 1)) (.shape 0 16) &&
      reads 0x200060B10449 (.cwIsFrameShapeChange (.ephemeral 1)) (.u1 false)) = true := by decide
/-- Section 7.2: the ping-same vectors. -/
theorem test_cwIsPingSameAs :
    let same := fun (o : CtrlWord) =>
      nextIs (exec (.cwIsPingSameAs (.ephemeral 1) o) ((fresh []).setWord (.ephemeral 1) ⟨0x041234B12B19, 0⟩))
        (fun t => t.result == .u1 true)
    same 0x001234B12B49 = true ∧ same 0x001235B12B49 = false ∧ same 0x841234B12B19 = false ∧
      same 0x041234B12B1B = false := by decide
/-- R249: with too few edges the search takes them all and waits, RUNNING or IDLE as it was. -/
theorem test_sfFindSync_waits :
    nextIs (exec (.sfFindSync 0 0) (fresh (List.replicate 3 ⟨7, false⟩))) (fun t =>
      t.edgesTaken == 3 && t.task.isSome && t.status == .idle && t.events == []) = true := by decide
/-- R270's example. -/
theorem test_feStart :
    nextIs (exec .feStart (fresh [⟨1000, false⟩, ⟨1002, true⟩])) (fun t =>
      t.bd.currentSample == 1000 && !t.bd.lastLevel && t.hb.entries == [] && t.bd.collectHistory &&
      t.fe.startMark == ⟨false, false, 1000, 0, 1⟩ && t.status == .running && t.edgesTaken == 1) = true := by decide

/-- A block in sync at the live tail with the driver's reader at `r`, the edge records given at its input. -/
def inSync (r : FrameReader) (firstFrame : Bool) (edges : List Edge) : State :=
  { fresh edges with
    status := .running
    bd := { Decoder.reset with collectHistory := true }
    fe := { Driver.reset with started := true, inSync := true, firstFrame := firstFrame, reader := r, gen := 1 } }

/-- A block out of sync that is told the shape 48x2, the edge records given at its input. -/
def outOfSync (edges : List Edge) : State :=
  { fresh edges with
    status := .running
    cfg := ⟨48, 2, false, minHistoryCapacity⟩
    bd := { Decoder.reset with collectHistory := true }
    fe := { Driver.reset with started := true } }

/-- R271's example: row 0, column 1 of a 48x2 frame, and BAD_SEQUENCE from reset (section 10). -/
theorem test_feStep :
    nextIs (exec .feStep (inSync ⟨48, 2, 0, 1, ⟨0, 0x400000000000⟩, .needMoreBits⟩ true [⟨5, true⟩])) (fun t =>
      t.events == [] && t.fe.reader == ⟨48, 2, 1, 0, ⟨0, 0x400000000000⟩, .needMoreBits⟩ &&
      t.progressSample == 5) = true ∧
    nextIs (exec .feStep (fresh [])) (fun t => t == { fresh [] with status := .faulted .badSequence }) = true := by
  decide
/-- A word placed where `step` fetches is the command that runs; a reserved one faults (section 10). -/
theorem test_step_placed_word :
    nextIs (step ((fresh [⟨106, true⟩]).withFetchWord 8 0x20)) (fun t => t.result == .u1 true && t.commands == []) = true ∧
    nextIs (step ((fresh []).withFetchWord 8 0x13)) (fun t =>
      t == { fresh [] with status := .faulted .reservedCommand }) = true := by decide

/-! ## Witnesses: for each statement, a state and operands that meet its hypotheses, clause by clause -/

/-- EncodeDecodeAgree: a word that decodes and one that does not. -/
theorem witness_EncodeDecodeAgree :
    decode ⟨0x91, {}⟩ = .ok .feStep ∧ (⟨0x92, {}⟩ : Command).code ∉ commandMap.map Prod.fst := ⟨rfl, by decide⟩
/-- StepRunsDecodedCommand: a command at the head of the port, and an empty port. -/
theorem witness_StepRunsDecodedCommand :
    (∃ s c rest i, Ready s ∧ s.commands = c :: rest ∧ decode c = .ok i) ∧ ∃ s, Ready s ∧ s.commands = [] :=
  ⟨⟨{ fresh [] with commands := [⟨0x20, {}⟩] }, ⟨0x20, {}⟩, [], .bdNextBit, by decide, rfl, rfl⟩,
    fresh [], by decide, rfl⟩
/-- ReservedWordAndBadSequenceFault: each of its three clauses. -/
theorem witness_ReservedWordAndBadSequenceFault :
    (∃ s c rest, Ready s ∧ s.commands = c :: rest ∧ c.code ∉ commandMap.map Prod.fst) ∧
    (∃ s, Ready s ∧ s.status = .running) ∧ ∃ s, Ready s ∧ s.status = .idle :=
  ⟨⟨{ fresh [] with commands := [⟨0x9F, {}⟩] }, ⟨0x9F, {}⟩, [], by decide, rfl, by decide⟩,
    ⟨{ fresh [] with status := .running }, by decide, rfl⟩, fresh [], by decide, rfl⟩
/-- EndedBlockDoesNothing: HALTED and FAULTED. -/
theorem witness_EndedBlockDoesNothing :
    (∃ s : State, s.status = .halted) ∧ ∃ (s : State) (c : FaultCode), s.status = .faulted c :=
  ⟨⟨{ fresh [] with status := .halted }, rfl⟩, { fresh [] with status := .faulted .badMark }, .badMark, rfl⟩
/-- NextBitWaitsForEdge. -/
theorem witness_NextBitWaitsForEdge :
    ∃ s, Ready s ∧ s.bd.nextHistoryReadIndex = .sentinel ∧ s.edges = [] := ⟨fresh [], by decide, rfl, rfl⟩
/-- WaitingCommandResumes: every command that takes edges, with none there or too few. -/
theorem witness_WaitingCommandResumes :
    (∃ s t, Ready s ∧ exec .bdNextBit s = .next t ∧ t.task ≠ none) ∧
    (∃ s n t, Ready s ∧ exec (.bdSkipBits n) s = .next t ∧ t.task ≠ none) ∧
    (∃ s t, Ready s ∧ exec .feStart s = .next t ∧ t.task ≠ none) ∧
    (∃ s t, Ready s ∧ exec (.sfCheckSync 48 2) s = .next t ∧ t.task ≠ none) ∧
    (∃ s t, Ready s ∧ exec (.sfTestIfSyncIsReal 48 2 1 Mark.zero Mark.zero) s = .next t ∧ t.task ≠ none) ∧
    (∃ s t, Ready s ∧ exec (.sfFindSync 0 0) s = .next t ∧ t.task ≠ none) ∧
    (∃ s t, Ready s ∧ s.fe.inSync = true ∧ exec .feStep s = .next t ∧ t.task ≠ none) ∧
    ∃ s t, Ready s ∧ s.fe.inSync = false ∧ exec .feStep s = .next t ∧ t.task ≠ none := by
  refine ⟨⟨fresh [], nextOf (exec .bdNextBit (fresh [])), by decide, eq_next (by decide), by decide⟩,
    ⟨fresh [⟨5, true⟩], 3, nextOf (exec (.bdSkipBits 3) (fresh [⟨5, true⟩])), by decide, eq_next (by decide),
      by decide⟩,
    ⟨fresh [], nextOf (exec .feStart (fresh [])), by decide, eq_next (by decide), by decide⟩,
    ⟨fresh [], nextOf (exec (.sfCheckSync 48 2) (fresh [])), by decide, eq_next (by decide), by decide⟩,
    ⟨fresh [⟨5, true⟩], nextOf (exec (.sfTestIfSyncIsReal 48 2 1 Mark.zero Mark.zero) (fresh [⟨5, true⟩])), by decide,
      eq_next (by decide), by decide⟩,
    ⟨fresh [⟨5, true⟩], nextOf (exec (.sfFindSync 0 0) (fresh [⟨5, true⟩])), by decide, eq_next (by decide), by decide⟩,
    ⟨inSync FrameReader.reset true [], nextOf (exec .feStep (inSync FrameReader.reset true [])), by decide, rfl,
      eq_next (by decide), by decide⟩,
    ⟨outOfSync [], nextOf (exec .feStep (outOfSync [])), by decide, rfl, eq_next (by decide), by decide⟩⟩
/-- IllegalConfigurationRefused: the largest legal hints, and a hint just past a legal one. -/
theorem witness_IllegalConfigurationRefused :
    let rows : List Nat := [0, 48, 50, 60, 64, 72, 75, 80, 90, 96, 100, 120, 125, 128, 144, 147, 150, 169, 180, 192,
      200, 240, 250, 256]
    let columns : List Nat := [0, 2, 4, 6, 8, 10, 12, 14, 16]
    ((256 : Rows).toNat ∈ rows ∧ (16 : Columns).toNat ∈ columns) ∧
    ¬((49 : Rows).toNat ∈ rows ∧ (2 : Columns).toNat ∈ columns) ∧
    ¬((0 : Rows).toNat ∈ rows ∧ (17 : Columns).toNat ∈ columns) := by decide
/-- The word 0 with its mask at bit 47 is legal. -/
theorem maskLegal_reset : MaskLegal ControlWord.reset := .inr ⟨47, by decide, by decide⟩
/-- StepKeepsLegal: a legal state with something in its history and a named reader. -/
theorem witness_StepKeepsLegal : ∃ s t, Legal s ∧ step s = .next t := by
  refine ⟨{ fresh [] with
    hb := ⟨[0x8001], 1⟩, readers := [(3, readerShaped 50 4 FrameReader.reset)], commands := [⟨0x22, {}⟩] },
    nextOf (step _), ⟨by decide, by decide, by decide, ?_, ⟨by simp [sortedKeys], ?_⟩,
    ⟨by simp [sortedKeys, fresh, State.reset, State.resetWith], by simp [fresh, State.reset, State.resetWith]⟩,
    ⟨by simp [sortedKeys, fresh, State.reset, State.resetWith], by simp [fresh, State.reset, State.resetWith]⟩,
    ⟨by simp [sortedKeys, fresh, State.reset, State.resetWith], by simp [fresh, State.reset, State.resetWith]⟩,
    by simp [fresh, State.reset, State.resetWith]⟩, eq_next (by decide)⟩
  · exact ⟨by decide, by decide, by decide, fun _ => by decide, maskLegal_reset⟩
  · intro e he
    obtain rfl := List.mem_singleton.1 he
    exact ⟨⟨by decide, by decide, by decide, fun _ => by decide, maskLegal_reset⟩, by decide⟩
/-- StepKeepsIndexInRange: pending history, and a command that is not HB.CLEAR. -/
theorem witness_StepKeepsIndexInRange :
    ∃ s t, IndexInRange s ∧ s.bd.nextHistoryReadIndex = .entry 0 ∧ (∀ c ∈ s.commands.head?, decode c ≠ .ok .hbClear) ∧
      step s = .next t := by
  refine ⟨{ replaying [0x8001] with commands := [⟨0x20, {}⟩] }, nextOf (step _), ?_, rfl, ?_, eq_next (by decide)⟩
  · show 0 < 1; decide
  · intro c hc
    simp only [List.head?_cons, Option.mem_def, Option.some.injEq] at hc
    subst hc
    simp [decode, cmdOp, cmdUnit, decodeBd]
/-- StepOnlyAppends: a step that takes an edge and appends it. -/
theorem witness_StepOnlyAppends : ∃ s t, step s = .next t ∧ t.edgesTaken = 1 ∧ t.hb.entries = [0x8005] :=
  ⟨{ fresh [⟨5, true⟩] with bd := { Decoder.reset with collectHistory := true }, commands := [⟨0x20, {}⟩] },
    nextOf (step _), eq_next (by decide), by decide, by decide⟩
/-- AutonomousRunFaultsOnlyOnOverflow: two steps with no room for an edge reach a fault. -/
theorem witness_AutonomousRunFaultsOnlyOnOverflow :
    ∃ (c : Configuration) (edges : List Edge) (k : Nat) (t : State) (f : FaultCode), legalConfiguration c = true ∧
      Host.Core.run core k { State.resetWith c with edges := edges, cancel := [] } = .next t ∧ t.status = .faulted f :=
  ⟨⟨0, 0, false, 0⟩, [⟨1, true⟩, ⟨2, false⟩], 2, nextOf (Host.Core.run core 2 _), .historyOverflow, by decide,
    eq_next (by decide), by decide⟩
/-- ChainRoundTrip: a five-entry chain that just fits. -/
theorem witness_ChainRoundTrip :
    ∃ (s : State) (level : Bool) (delta : Sample), Ready s ∧
      s.hb.size + (encodeChain level delta).length = s.cfg.historyCapacity :=
  ⟨{ replaying [0x8001] with cfg := ⟨0, 0, false, 6⟩ }, true, 0xFFFFFFFFFFFFFFFF, by decide, by decide⟩
/-- AppendAndClear: room for exactly the chain, and for one entry less. -/
theorem witness_AppendAndClear :
    let s := fun n => { replaying [0x8001] with cfg := ⟨0, 0, false, n⟩ }
    (Ready (s 3) ∧ (s 3).hb.size + (encodeChain true 0x4000).length ≤ (s 3).cfg.historyCapacity) ∧
    (Ready (s 2) ∧ (s 2).hb.size + (encodeChain true 0x4000).length > (s 2).cfg.historyCapacity) := by decide
/-- CorruptChainFaults: its four ways in turn, the third with the mixed levels at the end of a chain of three, and a
chain that is none of them. -/
theorem witness_CorruptChainFaults :
    (∃ s, Ready s ∧ s.hb.size ≤ 0) ∧
    (∃ s, Ready s ∧ 0 < s.hb.size ∧ ∀ e ∈ s.hb.entries.drop 0, e.getLsbD 14 = true) ∧
    (∃ (s : State) (k : Nat) (a b : Entry), Ready s ∧ s.hb.entries = [0xC000, 0xC000, 0x0001] ∧
      (∀ j, j ≤ k → ∃ e, s.hb.entries[0 + j]? = some e ∧ e.getLsbD 14 = true) ∧ s.hb.entries[0 + k]? = some a ∧
      s.hb.entries[0 + k + 1]? = some b ∧ a.getLsbD 15 ≠ b.getLsbD 15) ∧
    (∃ s, Ready s ∧ ∀ k, k < 5 → ∃ e, s.hb.entries[0 + k]? = some e ∧ e.getLsbD 14 = true) ∧
    ∃ s, Ready s ∧ s.hb.entries = [0x8001] ∧ ¬s.hb.size ≤ 0 ∧ ¬(∀ e ∈ s.hb.entries.drop 0, e.getLsbD 14 = true) ∧
      ∀ k, ¬∃ e, s.hb.entries[0 + k]? = some e ∧ e.getLsbD 14 = true :=
  ⟨⟨fresh [], by decide, by decide⟩, ⟨replaying [0xC000], by decide, by decide, fun e he => by
      obtain rfl := List.mem_singleton.1 he; decide⟩,
    ⟨replaying [0xC000, 0xC000, 0x0001], 1, 0xC000, 0x0001, by decide, rfl, fun j hj => by
      interval_cases j <;> exact ⟨0xC000, by decide, by decide⟩, rfl, rfl, by decide⟩,
    ⟨replaying [0xC000, 0xC000, 0xC000, 0xC000, 0xC000, 0x8001], by decide, fun k hk => by
      interval_cases k <;> exact ⟨0xC000, by decide, by decide⟩⟩,
    replaying [0x8001], by decide, rfl, by decide, fun h => absurd (h 0x8001 (List.mem_singleton.2 rfl)) (by decide),
    fun k => by
      rintro ⟨e, he, h⟩
      have hk : k = 0 := by
        have := (List.getElem?_eq_some_iff.1 he).1
        simp [replaying] at this
        exact this
      subst hk
      obtain rfl : (0x8001 : Entry) = e := by simpa [replaying] using he
      revert h; decide⟩
/-- A block at the live tail, with one toggle short of a bus reset, collecting as said. -/
def nearlyReset (collect : Bool) (capacity : Nat) : State :=
  { fresh [⟨7, true⟩] with
    bd := { Decoder.reset with contiguousToggleCount := 4095, collectHistory := collect }
    cfg := ⟨0, 0, false, capacity⟩ }
/-- NextBitLive: collection off, and on with room for exactly the chain, at the 4096th toggle. -/
theorem witness_NextBitLive :
    (∃ s e rest, Ready s ∧ s.bd.nextHistoryReadIndex = .sentinel ∧ s.edges = e :: rest ∧
      s.bd.collectHistory = false ∧ (e.level != s.bd.lastLevel) = true ∧ s.bd.contiguousToggleCount.toNat = 4095) ∧
    ∃ s e rest, Ready s ∧ s.bd.nextHistoryReadIndex = .sentinel ∧ s.edges = e :: rest ∧
      s.hb.size + (encodeChain e.level (e.sample - s.bd.currentSample)).length = s.cfg.historyCapacity :=
  ⟨⟨nearlyReset false 0, ⟨7, true⟩, [], by decide, rfl, rfl, rfl, by decide, by decide⟩,
    nearlyReset true 1, ⟨7, true⟩, [], by decide, rfl, rfl, by decide⟩
/-- NextBitReplay: the last chain of the buffer. -/
theorem witness_NextBitReplay :
    ∃ s i n level delta, Ready s ∧ s.bd.nextHistoryReadIndex = .entry i ∧
      decodeChain (s.hb.entries.drop i) = some (level, delta, n) ∧ i + n = s.hb.size :=
  ⟨replaying [0xC000, 0x8001], 0, 2, true, 0x4000, by decide, rfl, by decide, by decide⟩
/-- NextBitOverflow: no room for one entry. -/
theorem witness_NextBitOverflow :
    ∃ s e rest, Ready s ∧ s.bd.nextHistoryReadIndex = .sentinel ∧ s.edges = e :: rest ∧ s.bd.collectHistory = true ∧
      s.hb.size + (encodeChain e.level (e.sample - s.bd.currentSample)).length > s.cfg.historyCapacity :=
  ⟨nearlyReset true 0, ⟨7, true⟩, [], by decide, rfl, rfl, rfl, by decide⟩
/-- BitIsNrziOfLevels: a live bit and a replayed one. -/
theorem witness_BitIsNrziOfLevels :
    (∃ s t, Ready s ∧ s.bd.nextHistoryReadIndex = .sentinel ∧ exec .bdNextBit s = .next t ∧ Completed t) ∧
    ∃ s t, Ready s ∧ s.bd.nextHistoryReadIndex = .entry 0 ∧ exec .bdNextBit s = .next t ∧ Completed t :=
  ⟨⟨fresh [⟨5, true⟩], nextOf (exec .bdNextBit _), by decide, rfl, eq_next (by decide), by decide⟩,
    replaying [0x8001], nextOf (exec .bdNextBit _), by decide, rfl, eq_next (by decide), by decide⟩
/-- SkipIsDiscardedNextBits: a bit that completes, and one that a fault stops. -/
theorem witness_SkipIsDiscardedNextBits :
    (∃ (s : State) (n : Nat) (t : State), Ready s ∧ n + 1 < 2 ^ 64 ∧ exec .bdNextBit s = .next t ∧ Completed t) ∧
    ∃ (s : State) (n : Nat) (t : State), Ready s ∧ n + 1 < 2 ^ 64 ∧ exec .bdNextBit s = .next t ∧
      statusEnded t.status = true :=
  ⟨⟨fresh [⟨5, true⟩], 2, nextOf (exec .bdNextBit _), by decide, by decide, eq_next (by decide), by decide⟩,
    nearlyReset true 0, 0, nextOf (exec .bdNextBit _), by decide, by decide, eq_next (by decide), by decide⟩
/-- SkipCompletes: no bit, and all the bits there are, in a buffer with room for exactly their longest chains. -/
theorem witness_SkipCompletes :
    (∃ (s : State) (n : BitVec 64), Ready s ∧ s.bd.nextHistoryReadIndex = .sentinel ∧ n.toNat ≤ s.edges.length ∧
      RoomFor n.toNat s ∧ n = 0) ∧
    ∃ (s : State) (n : BitVec 64), Ready s ∧ s.bd.nextHistoryReadIndex = .sentinel ∧ n.toNat = s.edges.length ∧
      s.bd.collectHistory = true ∧ s.hb.size + maxChainEntries * n.toNat = s.cfg.historyCapacity :=
  ⟨⟨fresh [], 0, by decide, rfl, by decide, by decide, rfl⟩,
    nearlyReset true 5, 1, by decide, rfl, by decide, rfl, by decide⟩
/-- `n` edges that toggle, the first at HIGH. -/
def toggling (n : Nat) : List Edge := (List.range n).map fun k => ⟨BitVec.ofNat 64 k, k % 2 == 0⟩
/-- Consecutive edges of `toggling` differ in level. -/
theorem toggling_chain (n : Nat) : (toggling n).IsChain (fun a b => b.level ≠ a.level) := by
  rw [List.isChain_iff_getElem]
  intro i hi
  simp only [toggling, List.getElem_map, List.getElem_range, ne_eq, beq_eq_beq]
  omega
/-- BusResetAfterRun: runs of 1, 4095 and 4096 edges. -/
theorem witness_BusResetAfterRun : ∀ n, n = 1 ∨ n = 4095 ∨ n = 4096 →
    ∃ (s : State) (run rest : List Edge) (first last : Edge),
      Ready s ∧ s.bd.nextHistoryReadIndex = .sentinel ∧ s.bd.contiguousToggleCount = 0 ∧ s.edges = run ++ rest ∧
      run.head? = some first ∧ run.getLast? = some last ∧ run.length = n ∧ n ≤ 4096 ∧
      first.level ≠ s.bd.lastLevel ∧ run.IsChain (fun a b => b.level ≠ a.level) ∧ RoomFor run.length s := by
  intro n hn
  have hpos : 0 < n := by omega
  refine ⟨fresh (toggling n), toggling n, [], ⟨0, true⟩, ⟨BitVec.ofNat 64 (n - 1), (n - 1) % 2 == 0⟩,
    ⟨rfl, rfl⟩, rfl, rfl, by simp [fresh], ?_, ?_, by simp [toggling], by omega, Bool.noConfusion, toggling_chain n, .inl rfl⟩
  · obtain ⟨m, rfl⟩ := Nat.exists_eq_succ_of_ne_zero hpos.ne'
    simp [toggling, List.range_succ_eq_map]
  · obtain ⟨m, rfl⟩ := Nat.exists_eq_succ_of_ne_zero hpos.ne'
    simp [toggling, List.range_succ]
/-- MarkAndRestore: the live tail, a position inside the history, a stale mark, an index one past the buffer, and the
buffer's end. -/
theorem witness_MarkAndRestore :
    (∃ s, Ready s ∧ s.bd.nextHistoryReadIndex = .sentinel) ∧ (∃ s, Ready s ∧ s.bd.nextHistoryReadIndex = .entry 0) ∧
    (∃ (s : State) (m : Mark), Ready s ∧ m.epoch ≠ s.hb.epoch) ∧
    (∃ (s : State) (m : Mark), Ready s ∧ m.epoch = s.hb.epoch ∧ m.index = s.hb.size + 1) ∧
    ∃ (s : State) (m : Mark), Ready s ∧ m.epoch = s.hb.epoch ∧ m.index = s.hb.size :=
  ⟨⟨fresh [], by decide, rfl⟩, ⟨replaying [0x8001], by decide, rfl⟩,
    ⟨replaying [0x8001], ⟨false, false, 0, 0, 1⟩, by decide, by decide⟩,
    ⟨replaying [0x8001], ⟨false, false, 0, 2, 0⟩, by decide, rfl, rfl⟩,
    replaying [0x8001], ⟨false, false, 0, 1, 0⟩, by decide, rfl, rfl⟩
/-- MarkRestoreReplaysBits: one pending bit and one live one. -/
theorem witness_MarkRestoreReplaysBits :
    ∃ (s u : State) (n : Nat) (bits : List Bool), Ready s ∧ s.bd.collectHistory = true ∧ PendingWhole s ∧
      readBits n s = some (bits, u) ∧ n = 2 := by
  let s := { replaying [0x8001] with
    bd := { Decoder.reset with collectHistory := true, nextHistoryReadIndex := .entry 0 }, edges := [⟨9, false⟩] }
  exact ⟨s, (someOf (readBits 2 s)).2, 2, (someOf (readBits 2 s)).1, by decide, rfl,
    by show 0 < 1 ∧ _; decide, eq_some (by decide), rfl⟩
/-- MatcherInit: a stride outside COLUMN_SET, next to one inside. -/
theorem witness_MatcherInit : ∃ (s : State) (c : Columns), Ready s ∧ c.toNat ∉ [2, 4, 6, 8, 10, 12, 14, 16] :=
  ⟨fresh [], 17, by decide, by decide⟩
/-- MatcherPush: the widest stride. -/
theorem witness_MatcherPush : ∃ (s : State) (sm : Nat), Ready s ∧ MatcherLegal (s.matcher sm) ∧ (s.matcher sm).columns = 16 :=
  ⟨(fresh []).setMatcher 1 (matcherNew 16), 1, by decide, ⟨by decide, by decide, by decide⟩, by decide⟩
/-- MatcherFiresOnPattern. -/
theorem witness_MatcherFiresOnPattern :
    ∃ (s s1 : State) (sm : Nat) (c : Columns), Ready s ∧ c ∈ columnSet ∧ exec (.smInit sm c) s = .next s1 :=
  ⟨fresh [], nextOf (exec (.smInit 1 16) (fresh [])), 1, 16, by decide, by decide, eq_next (by decide)⟩
/-- GeneratorCommands: the table's last entry. -/
theorem witness_GeneratorCommands :
    ∃ (s : State) (g : GenName) (v : DSync), Ready s ∧
      ([0, 2, 4, 6, 9, 11, 13, 15, 1, 3, 5, 7, 8, 10, 12, 14] : List DSync)[(s.generator g).toNat]? = some v ∧ v = 14 :=
  ⟨(fresh []).setGenerator (.named 1) 15, .named 1, 14, by decide, by decide, rfl⟩
/-- GeneratorCycle. -/
theorem witness_GeneratorCycle :
    ∃ (s s1 : State) (g : GenName) (seed : DSync), Ready s ∧ seed ≠ 0 ∧ exec (.dsgSeed g seed) s = .next s1 :=
  ⟨fresh [], nextOf (exec (.dsgSeed .driver 15) (fresh [])), .driver, 15, by decide, by decide, eq_next (by decide)⟩
/-- ReaderResetAndShape: the largest legal shape, and one outside the sets. -/
theorem witness_ReaderResetAndShape :
    (∃ (s : State) (rows : Rows) (columns : Columns), Ready s ∧ (rows ∈ rowSet ∧ columns ∈ columnSet) ∧ rows = 256 ∧
      columns = 16) ∧
    ∃ (s : State) (rows : Rows) (columns : Columns), Ready s ∧ ¬(rows ∈ rowSet ∧ columns ∈ columnSet) :=
  ⟨⟨fresh [], 256, 16, by decide, by decide, rfl, rfl⟩, fresh [], 257, 16, by decide, by decide⟩
/-- ReaderPushFrame: a completed reader. -/
theorem witness_ReaderPushFrame : ∃ (s : State) (r : ReaderName), Ready s ∧ (s.reader r).state = .frameComplete :=
  ⟨(fresh []).setReader (.named 1) ⟨48, 2, 0, 0, ControlWord.reset, .frameComplete⟩, .named 1, by decide, by decide⟩
/-- ReaderSchedule: a whole frame of the largest shape, after FR.SET_SHAPE and after FR.RESET. -/
theorem witness_ReaderSchedule :
    (∃ (s s1 : State) (r : ReaderName) (rows : Rows) (columns : Columns) (bits : List Bool),
      Ready s ∧ rows ∈ rowSet ∧ columns ∈ columnSet ∧ exec (.frSetShape r rows columns) s = .next s1 ∧
      bits.length = rows.toNat * columns.toNat) ∧
    ∃ (s s1 : State) (r : ReaderName) (rows : Rows) (columns : Columns) (bits : List Bool),
      Ready s ∧ rows ∈ rowSet ∧ columns ∈ columnSet ∧
      (exec (.frReset r) s = .next s1 ∧ (s.reader r).rows = rows ∧ (s.reader r).columns = columns) ∧
      bits.length = rows.toNat * columns.toNat :=
  ⟨⟨fresh [], nextOf (exec (.frSetShape .driver 256 16) (fresh [])), .driver, 256, 16, List.replicate 4096 true,
    by decide, by decide, by decide, eq_next (by decide), List.length_replicate⟩,
    fresh [], nextOf (exec (.frReset .driver) (fresh [])), .driver, 48, 2, List.replicate 96 true,
    by decide, by decide, by decide, ⟨eq_next (by decide), rfl, rfl⟩, List.length_replicate⟩
/-- WordFill: 48 bits. -/
theorem witness_WordFill :
    ∃ (s s1 : State) (w : WordName) (bits : List Bool),
      Ready s ∧ exec (.cwReset w) s = .next s1 ∧ bits.length = 48 :=
  ⟨fresh [], nextOf (exec (.cwReset (.ephemeral 1)) (fresh [])), .ephemeral 1, List.replicate 48 true, by decide,
    eq_next (by decide), rfl⟩
/-- A block that collects history, with 96 edges at LOW: the seed frame of a 48x2 check has DynamicSync 0. -/
def lowEdges (collect : Bool) (n : Nat) : State :=
  { fresh (List.replicate n ⟨0, false⟩) with bd := { Decoder.reset with collectHistory := collect } }
/-- The same with `k` more edges read at LOW and pending again. -/
def lowPending (k n : Nat) : State :=
  { lowEdges true n with
    hb := ⟨List.replicate k 0, 0⟩
    bd := { Decoder.reset with collectHistory := true, nextHistoryReadIndex := .entry 0 } }
/-- CheckSyncKeepsPosition: from the live tail, and from an index of the history, each with a next bit to compare. -/
theorem witness_CheckSyncKeepsPosition :
    (∃ (s t u : State) (rows : Rows) (columns : Columns),
      Ready s ∧ IndexInRange s ∧ exec (.sfCheckSync rows columns) s = .next t ∧ Completed t ∧
      s.bd.nextHistoryReadIndex = .sentinel ∧ t.hb.size = 96 ∧
      s.bd.collectHistory = true ∧ exec .bdNextBit s = .next u ∧ Completed u) ∧
    ∃ (s t u : State) (rows : Rows) (columns : Columns),
      Ready s ∧ IndexInRange s ∧ exec (.sfCheckSync rows columns) s = .next t ∧ Completed t ∧
      s.bd.nextHistoryReadIndex = .entry 0 ∧
      s.bd.collectHistory = true ∧ exec .bdNextBit s = .next u ∧ Completed u := by
  constructor
  · obtain ⟨t, ht, hp⟩ := exists_next (o := exec (.sfCheckSync 48 2) (lowEdges true 96))
      (p := fun t => decide (Completed t ∧ t.hb.size = 96)) (by decide +kernel)
    have hp := of_decide_eq_true hp
    exact ⟨lowEdges true 96, t, nextOf (exec .bdNextBit (lowEdges true 96)), 48, 2, by decide, trivial, ht, hp.1, rfl,
      hp.2, rfl, eq_next (by decide), by decide⟩
  · obtain ⟨t, ht, hp⟩ := exists_next (o := exec (.sfCheckSync 48 2) (lowPending 1 95))
      (p := fun t => decide (Completed t)) (by decide +kernel)
    exact ⟨lowPending 1 95, t, nextOf (exec .bdNextBit (lowPending 1 95)), 48, 2, by decide, Nat.zero_lt_one, ht,
      of_decide_eq_true hp, rfl, rfl, eq_next (by decide), by decide⟩
/-- CheckSyncCompletes: exactly the edges its first clause asks for, with collection off and with exactly the room it asks
for; and a seed frame with DynamicSync 0, some of it pending in the history. -/
theorem witness_CheckSyncCompletes :
    (∃ (s : State) (rows : Rows) (columns : Columns), Ready s ∧ legalShape rows columns = true ∧ s.cancel = [] ∧
      PendingWhole s ∧ 16 * 4096 = s.edges.length ∧ s.bd.collectHistory = false) ∧
    (∃ (s : State) (rows : Rows) (columns : Columns), Ready s ∧ legalShape rows columns = true ∧ s.cancel = [] ∧
      PendingWhole s ∧ 16 * 4096 = s.edges.length ∧ s.hb.size + maxChainEntries * (16 * 4096) = s.cfg.historyCapacity) ∧
    ∃ (s : State) (rows : Rows) (columns : Columns), Ready s ∧ legalShape rows columns = true ∧ s.cancel = [] ∧
      PendingWhole s ∧ RoomFor s.edges.length s ∧ CheckAnswer s.ahead rows columns 0 :=
  ⟨⟨lowEdges false (16 * 4096), 256, 16, ⟨rfl, rfl⟩, by decide, rfl, trivial, List.length_replicate.symm, rfl⟩,
    ⟨{ lowEdges true (16 * 4096) with cfg := ⟨0, 0, false, 327680⟩ }, 48, 2, ⟨rfl, rfl⟩, by decide, rfl, trivial,
      List.length_replicate.symm, by decide⟩,
    lowPending 1 95, 48, 2, ⟨rfl, rfl⟩, by decide, rfl, ⟨Nat.zero_lt_one, rfl⟩, by decide, by decide +kernel⟩
/-- SyncCommandsRefuseIllegalShape: one row too many, one column too few. -/
theorem witness_SyncCommandsRefuseIllegalShape :
    (∃ s : State, Ready s ∧ ¬((257 : Rows) ∈ rowSet ∧ (16 : Columns) ∈ columnSet)) ∧
    ∃ s : State, Ready s ∧ ¬((48 : Rows) ∈ rowSet ∧ (1 : Columns) ∈ columnSet) :=
  ⟨⟨fresh [], by decide, by decide⟩, fresh [], by decide, by decide⟩
/-- TestSyncCompletes: exactly the edges it asks for, with an offset of 1. -/
theorem witness_TestSyncCompletes :
    ∃ (s : State) (rows : Rows) (columns : Columns) (offset : Nat) (start matched : Mark),
      Ready s ∧ legalShape rows columns = true ∧ s.cancel = [] ∧ MarkUsable start s ∧ MarkUsable matched s ∧
      offset + 17 * 4096 = s.edges.length ∧ RoomFor (offset + 17 * 4096) s :=
  ⟨lowEdges false (1 + 17 * 4096), 256, 16, 1, Mark.zero, Mark.zero, ⟨rfl, rfl⟩, by decide, rfl,
    ⟨rfl, Nat.le_refl _, rfl⟩, ⟨rfl, Nat.le_refl _, rfl⟩, List.length_replicate.symm, .inl rfl⟩
/-- Statements whose one hypothesis is that a command can be issued: a block just created, and one that runs. -/
theorem witness_Ready : Ready (fresh []) ∧ Ready (inSync FrameReader.reset false []) := by decide
/-- DriverCommandsComplete: IDLE and in sync, with collection off, and on with exactly the room for one chain. -/
theorem witness_DriverCommandsComplete :
    (∃ s e rest, Ready s ∧ s.bd.nextHistoryReadIndex = .sentinel ∧ s.edges = e :: rest ∧ RoomFor 1 s ∧
      s.status = .idle ∧ s.bd.collectHistory = true ∧ s.hb.size + maxChainEntries * 1 = s.cfg.historyCapacity) ∧
    ∃ s e rest, Ready s ∧ s.bd.nextHistoryReadIndex = .sentinel ∧ s.edges = e :: rest ∧ RoomFor 1 s ∧
      s.status = .running ∧ s.fe.started = true ∧ s.fe.inSync = true ∧ s.cancel = [] :=
  ⟨⟨nearlyReset true 5, ⟨7, true⟩, [], by decide, rfl, rfl, by decide, rfl, rfl, by decide⟩,
    inSync FrameReader.reset true [⟨5, true⟩], ⟨5, true⟩, [], by decide, rfl, rfl, by decide, rfl, rfl, rfl, rfl⟩
/-- StartPrimesAndCollects: a live priming bit, and a replayed one. -/
theorem witness_StartPrimesAndCollects :
    (∃ s u, Ready s ∧ s.status = .idle ∧ exec .bdNextBit { s with status := .running } = .next u ∧ Completed u) ∧
    ∃ s u, Ready s ∧ s.status = .idle ∧ exec .bdNextBit { s with status := .running } = .next u ∧ Completed u ∧
      u.bd.nextHistoryReadIndex = .entry 1 :=
  ⟨⟨fresh [⟨5, true⟩], nextOf (exec .bdNextBit _), by decide, rfl, eq_next (by decide), by decide⟩,
    replaying [0x8001, 0x8001], nextOf (exec .bdNextBit _), by decide, rfl, eq_next (by decide), by decide, by decide⟩

/-- The hypotheses that the statements about an in-sync FE.STEP share. -/
def Drives (s u p : State) (bit : Bool) (code : BitVec 2) : Prop :=
  Ready s ∧ s.status = .running ∧ s.fe.started = true ∧ s.fe.inSync = true ∧ s.cancel = [] ∧
    exec .bdNextBit s = .next u ∧ Completed u ∧ u.result = .u1 bit ∧
    exec (.frPushBit .driver bit) u = .next p ∧ p.result = .u2 code

/-- How the witnesses below meet them. -/
theorem drives_inSync {r : FrameReader} {first : Bool} {e : Edge} {bit : Bool} {code : BitVec 2} {q : State → Bool}
    (h : nextIs (exec .bdNextBit (inSync r first [e])) (fun u => decide (Completed u ∧ u.result = .u1 bit) &&
      nextIs (exec (.frPushBit .driver bit) u) (fun p => decide (p.result = .u2 code) && q p)) = true) :
    ∃ u p, Drives (inSync r first [e]) u p bit code ∧ q p = true := by
  obtain ⟨u, hu, hp⟩ := exists_next h
  rw [Bool.and_eq_true, decide_eq_true_eq] at hp
  obtain ⟨p, hp1, hp2⟩ := exists_next hp.2
  rw [Bool.and_eq_true, decide_eq_true_eq] at hp2
  exact ⟨u, p, ⟨⟨rfl, rfl⟩, rfl, rfl, rfl, rfl, hu, hp.1.1, hp.1.2, hp1, hp2.1⟩, hp2.2⟩

/-- A 48x2 reader at the last bit of a frame with control word `v`. -/
def lastBit (v : CtrlWord) : FrameReader := ⟨48, 2, 47, 1, ⟨v, 0⟩, .needMoreBits⟩

/-- InSyncStepWithinFrame: FRAME_START, NEED_MORE_BITS and CAPTURE_PARITY. -/
theorem witness_InSyncStepWithinFrame : ∀ code : BitVec 2, code ≠ 3 → ∃ s u p bit, Drives s u p bit code := by
  intro code hc
  have : code = 0 ∨ code = 1 ∨ code = 2 := by revert code; decide
  rcases this with rfl | rfl | rfl
  · obtain ⟨u, p, h, -⟩ := drives_inSync (r := FrameReader.reset) (first := true) (e := ⟨5, true⟩) (bit := true)
      (code := 0) (q := fun _ => true) (by decide)
    exact ⟨_, u, p, true, h⟩
  · obtain ⟨u, p, h, -⟩ := drives_inSync (r := ⟨48, 2, 0, 1, ⟨0, 1⟩, .needMoreBits⟩) (first := true) (e := ⟨5, true⟩)
      (bit := true) (code := 1) (q := fun _ => true) (by decide)
    exact ⟨_, u, p, true, h⟩
  · obtain ⟨u, p, h, -⟩ := drives_inSync (r := ⟨48, 2, 44, 0, ⟨0, 8⟩, .needMoreBits⟩) (first := true)
      (e := ⟨5, true⟩) (bit := true) (code := 2) (q := fun _ => true) (by decide)
    exact ⟨_, u, p, true, h⟩
/-- SeedFrameEmittedUnchecked: a seed frame whose StaticSync is wrong. -/
theorem witness_SeedFrameEmittedUnchecked :
    ∃ s u p bit, Drives s u p bit 3 ∧ s.fe.firstFrame = true ∧ cwShapeChange p.fe.reader.cw.value = false := by
  obtain ⟨u, p, h, hq⟩ := drives_inSync (r := lastBit 0xB00018) (first := true) (e := ⟨5, true⟩) (bit := true)
    (code := 3) (q := fun p => decide (cwShapeChange p.fe.reader.cw.value = false)) (by decide)
  exact ⟨_, u, p, true, h, rfl, of_decide_eq_true hq⟩
/-- SyncLostFrame: a wrong StaticSync alone, and a wrong DynamicSync alone. -/
theorem witness_SyncLostFrame :
    (∃ s u p bit, Drives s u p bit 3 ∧ s.fe.firstFrame = false ∧ p.fe.reader.cw.value.toNat / 2 ^ 16 % 256 ≠ 0xB1 ∧
      p.fe.reader.cw.value.toNat / 2 ^ 3 % 16 = (dsyncNext s.fe.gen).toNat) ∧
    ∃ s u p bit, Drives s u p bit 3 ∧ s.fe.firstFrame = false ∧ p.fe.reader.cw.value.toNat / 2 ^ 16 % 256 = 0xB1 ∧
      p.fe.reader.cw.value.toNat / 2 ^ 3 % 16 ≠ (dsyncNext s.fe.gen).toNat := by
  obtain ⟨u, p, h, hq⟩ := drives_inSync (r := lastBit 0xB00010) (first := false) (e := ⟨5, true⟩) (bit := true)
    (code := 3) (q := fun p => decide (p.fe.reader.cw.value = 0xB00010)) (by decide)
  obtain ⟨u', p', h', hq'⟩ := drives_inSync (r := lastBit 0xB10018) (first := false) (e := ⟨5, true⟩) (bit := true)
    (code := 3) (q := fun p => decide (p.fe.reader.cw.value = 0xB10018)) (by decide)
  refine ⟨⟨_, u, p, true, h, rfl, ?_, ?_⟩, _, u', p', true, h', rfl, ?_, ?_⟩
  · rw [of_decide_eq_true hq]; decide
  · rw [of_decide_eq_true hq]; decide
  · rw [of_decide_eq_true hq']; decide
  · rw [of_decide_eq_true hq']; decide
/-- ParityBadFrameKeepsSync: a frame in sync with PAR as captured, and one with PAR inverted. -/
theorem witness_ParityBadFrameKeepsSync : ∀ v : CtrlWord, v = 0xB10010 ∨ v = 0xB10014 →
    ∃ s u p bit, Drives s u p bit 3 ∧ s.fe.firstFrame = false ∧ p.fe.reader.cw.value = v ∧
      cwShapeChange v = false ∧ v.toNat / 2 ^ 16 % 256 = 0xB1 ∧ v.toNat / 2 ^ 3 % 16 = (dsyncNext s.fe.gen).toNat := by
  rintro v (rfl | rfl)
  · obtain ⟨u, p, h, hq⟩ := drives_inSync (r := lastBit 0xB10010) (first := false) (e := ⟨5, true⟩) (bit := true)
      (code := 3) (q := fun p => decide (p.fe.reader.cw.value = 0xB10010)) (by decide)
    exact ⟨_, u, p, true, h, rfl, of_decide_eq_true hq, by decide, by decide, by decide⟩
  · obtain ⟨u, p, h, hq⟩ := drives_inSync (r := lastBit 0xB10014) (first := false) (e := ⟨5, true⟩) (bit := true)
      (code := 3) (q := fun p => decide (p.fe.reader.cw.value = 0xB10014)) (by decide)
    exact ⟨_, u, p, true, h, rfl, of_decide_eq_true hq, by decide, by decide, by decide⟩
/-- ShapeChangeAppliedAfterFrame: scenario 5's reserved rows, and rows 50, of a seed frame; rows 50 of a later frame in
sync. -/
theorem witness_ShapeChangeAppliedAfterFrame :
    (∀ v : CtrlWord, v = 0x300070B17FFC ∨ v = 0x300060B10410 →
      ∃ s u p bit, Drives s u p bit 3 ∧ s.fe.firstFrame = true ∧ p.fe.reader.cw.value = v ∧ cwShapeChange v = true ∧
        ((cwNewShape v).1 = 0 ↔ v = 0x300070B17FFC)) ∧
    ∃ s u p bit, Drives s u p bit 3 ∧ s.fe.firstFrame = false ∧
      cwShapeChange p.fe.reader.cw.value = true ∧ p.fe.reader.cw.value.toNat / 2 ^ 16 % 256 = 0xB1 ∧
      p.fe.reader.cw.value.toNat / 2 ^ 3 % 16 = (dsyncNext s.fe.gen).toNat := by
  constructor
  · rintro v (rfl | rfl)
    · obtain ⟨u, p, h, hq⟩ := drives_inSync (r := lastBit 0x300070B17FFC) (first := true) (e := ⟨5, true⟩)
        (bit := true) (code := 3) (q := fun p => decide (p.fe.reader.cw.value = 0x300070B17FFC)) (by decide)
      exact ⟨_, u, p, true, h, rfl, of_decide_eq_true hq, by decide, by decide⟩
    · obtain ⟨u, p, h, hq⟩ := drives_inSync (r := lastBit 0x300060B10410) (first := true) (e := ⟨5, true⟩)
        (bit := true) (code := 3) (q := fun p => decide (p.fe.reader.cw.value = 0x300060B10410)) (by decide)
      exact ⟨_, u, p, true, h, rfl, of_decide_eq_true hq, by decide, by decide⟩
  · obtain ⟨u, p, h, hq⟩ := drives_inSync (r := lastBit 0x300060B10410) (first := false) (e := ⟨5, true⟩)
      (bit := true) (code := 3) (q := fun p => decide (p.fe.reader.cw.value = 0x300060B10410)) (by decide)
    refine ⟨_, u, p, true, h, rfl, ?_, ?_, ?_⟩ <;> rw [of_decide_eq_true hq] <;> decide
/-- No matcher fires while every bit since the window's start is 0: bit 0 of 0xB1 is 1. -/
theorem no_match_low (c : Columns) (n m : Nat) (rest : List Bool) (h : m ≤ n) :
    ¬syncPatternAt c ((Stream.bits ⟨false, List.replicate n false ++ rest⟩).take m) := by
  intro hm
  have h0 := hm 0 (by decide)
  have hb : (Stream.bits ⟨false, List.replicate n false ++ rest⟩).take m = List.replicate m false := by
    apply List.ext_getElem
    · simp [Stream.bits]; omega
    · intro i h1 h2
      have hi : i < m := by simpa using h2
      rcases i with _ | i
      · simp [Stream.bits, show 0 < n by omega]
      · simp [Stream.bits, show i < n by omega, show i + 1 < n by omega]
  rw [hb] at h0
  rcases m with _ | m <;> simp at h0

/-- What lies ahead of such a block, whatever its cancel input. -/
theorem lowEdges_ahead (n : Nat) (cancel : List Bool) :
    { lowEdges true n with cancel := cancel }.ahead = ⟨false, List.replicate n false ++ []⟩ := by
  simp [State.ahead, pendingLevels, lowEdges, fresh, State.reset, State.resetWith, Decoder.reset]

/-- Its edges fit. -/
theorem lowEdges_room (n : Nat) (cancel : List Bool) (h : 5 * n ≤ minHistoryCapacity) :
    RoomFor { lowEdges true n with cancel := cancel }.edges.length { lowEdges true n with cancel := cancel } := by
  refine .inr ?_
  show 0 + 5 * (List.replicate n (⟨0, false⟩ : Edge)).length ≤ minHistoryCapacity
  rw [List.length_replicate]; omega

/-- CancelHaltsAtPollPoints: the step that emits a frame; the 4096th bit of a search and the end of its first column window;
the 4096th bit of a check, which ends the seed frame of the largest shape. -/
theorem witness_CancelHaltsAtPollPoints :
    (∃ s t, Ready s ∧ s.status = .running ∧ s.fe.started = true ∧ s.fe.inSync = true ∧
      exec .feStep { s with cancel := [] } = .next t ∧ Completed t ∧ t.events.length = 1) ∧
    (∀ q m, q = 0 ∧ m = 4096 ∨ q = 1 ∧ m = 4608 → ∃ s : State,
      s.cancel = List.replicate q false ++ true :: [] ∧ CanSearch s 0 2 ∧ columnCandidates 2 = [] ++ 2 :: [] ∧
      m ≤ 4096 + 256 * (2 : Columns).toNat ∧ m ≤ s.ahead.levels.length ∧ ∀ k, k ≤ m → ¬MatchAt s.ahead 2 k) ∧
    (∀ q, q = 0 ∨ q = 1 → ∃ s : State,
      s.cancel = List.replicate q false ++ true :: [] ∧ Ready s ∧ legalShape 256 16 = true ∧ PendingWhole s ∧
      RoomFor s.edges.length s ∧ (frameNo s.ahead 256 16 0).held ∧ frameOffset s.ahead 256 16 0 < 4096 * 1 ∧
      4096 * 1 = frameOffset s.ahead 256 16 1) := by
  refine ⟨⟨inSync (lastBit 0xB10010) true [⟨5, true⟩], nextOf (exec .feStep _), by decide, rfl, rfl, rfl,
    eq_next (by decide), by decide, by decide⟩, ?_, ?_⟩
  · intro q m hq
    have hm : m ≤ 4608 := by omega
    refine ⟨{ lowEdges true 4608 with cancel := List.replicate q false ++ [true] }, rfl,
      ⟨⟨rfl, rfl⟩, rfl, trivial, lowEdges_room _ _ (by decide), by decide, by decide⟩, rfl, hm, ?_, ?_⟩
    · rw [lowEdges_ahead, List.append_nil, List.length_replicate]; exact hm
    · rintro k hk ⟨-, -, h⟩
      rw [lowEdges_ahead] at h
      exact no_match_low 2 4608 k [] (by omega) h
  · intro q _
    refine ⟨{ lowEdges true 4096 with cancel := List.replicate q false ++ [true] }, rfl, ⟨rfl, rfl⟩, by decide, trivial,
      lowEdges_room _ _ (by decide), ?_, Nat.zero_lt_succ _, rfl⟩
    rw [lowEdges_ahead]
    show 256 * 16 ≤ (List.replicate 4096 false ++ []).length
    rw [List.append_nil, List.length_replicate]
/-- TestAlignsThenChecks: an offset of exactly 31*C + 1, and one less. -/
theorem witness_TestAlignsThenChecks : ∀ offset, offset = 63 ∨ offset = 62 →
    ∃ (s v a c : State) (n : Nat) (start matched : Mark) (bits : List Bool),
      Ready s ∧ s.cancel = [] ∧ exec (.bdRestore matched) s = .next v ∧ Completed v ∧
      (if 31 * (2 : Columns).toNat + 1 ≤ offset then
        ∃ v1, exec (.bdRestore start) v = .next v1 ∧ Completed v1 ∧
          readBits (offset - (31 * (2 : Columns).toNat + 1)) v1 = some (bits, a)
       else readBits ((48 : Rows).toNat * (2 : Columns).toNat - (31 * (2 : Columns).toNat + 1)) v = some (bits, a)) ∧
      exec (.sfCheckSync 48 2) a = .next c ∧ Completed c ∧ c.result = .count n := by
  intro offset ho
  obtain ⟨v, hv, hvp⟩ := exists_next (o := exec (.bdRestore Mark.zero) (lowEdges false 129))
    (p := fun v => decide (Completed v) && nextIs (exec (.bdRestore Mark.zero) v) (fun v1 => decide (Completed v1) &&
      nextIs (exec (.sfCheckSync 48 2) v1) (fun c => decide (Completed c ∧ c.result = .count 0))) &&
      (match readBits 33 v with
       | some (_, a) => nextIs (exec (.sfCheckSync 48 2) a) (fun c => decide (Completed c ∧ c.result = .count 0))
       | none => false)) (by decide +kernel)
  simp only [Bool.and_eq_true, decide_eq_true_eq] at hvp
  obtain ⟨⟨hvc, h1⟩, h2⟩ := hvp
  rcases ho with rfl | rfl
  · obtain ⟨v1, hv1, hv1p⟩ := exists_next h1
    rw [Bool.and_eq_true, decide_eq_true_eq] at hv1p
    obtain ⟨c, hc, hcp⟩ := exists_next hv1p.2
    have hcp := of_decide_eq_true hcp
    exact ⟨_, v, v1, c, 0, Mark.zero, Mark.zero, [], ⟨rfl, rfl⟩, rfl, hv, hvc, by
      rw [if_pos (by decide)]; exact ⟨v1, hv1, hv1p.1, rfl⟩, hc, hcp.1, hcp.2⟩
  · split at h2
    · rename_i bits a hr
      obtain ⟨c, hc, hcp⟩ := exists_next h2
      have hcp := of_decide_eq_true hcp
      exact ⟨_, v, a, c, 0, Mark.zero, Mark.zero, bits, ⟨rfl, rfl⟩, rfl, hv, hvc, by
        rw [if_neg (by decide)]; exact hr, hc, hcp.1, hcp.2⟩
    · simp at h2

/-! ### The statements that need a whole search -/

/-- A block at the live tail with 63 bits that carry 0xB1 at stride 2 only at their end, and then sixteen frames, at its
input, and collection off: what a restore to the start does not replay is lost (R342), so that the frames follow the match at
once. (With collection on the kernel would have to evaluate the history of the whole search.) -/
def lossy : State := { State.reset with edges := edgesOf matchBits63 ++ edgesOf sixteenBits }

/-- Such a block with the driver out of sync and told the shape. -/
def lossyResync : State :=
  { lossy with status := .running, fe := { Driver.reset with started := true }, cfg := ⟨48, 2, false, 0⟩ }

set_option Elab.async false in
/-- FindSyncCommitsValidShape: a match at offset 63 = 31*C + 1. -/
theorem witness_FindSyncCommitsValidShape :
    ∃ (s u v a c : State) (n : Nat) (bits skipped : List Bool),
      let last := 31 * (2 : Columns).toNat + 1
      Ready s ∧ s.cancel = [] ∧ last ≤ n ∧ n ≤ 4096 + 256 * (2 : Columns).toNat ∧ readBits n s = some (bits, u) ∧
      syncPatternAt 2 bits ∧ (∀ k, k < n → ¬syncPatternAt 2 (bits.take k)) ∧
      exec (.bdRestore (mark s)) u = .next v ∧ Completed v ∧ readBits (n - last) v = some (skipped, a) ∧
      exec (.sfCheckSync 48 2) a = .next c ∧ Completed c ∧ c.result = .count 16 := by
  have key : (match readBits 63 lossy with
      | some (bits, u) => decide (bits = matchBits63) && nextIs (exec (.bdRestore (mark lossy)) u) (fun v =>
          decide (Completed v) && nextIs (exec (.sfCheckSync 48 2) v) (fun c =>
            decide (Completed c ∧ c.result = .count 16)))
      | none => false) = true := by decide +kernel
  split at key
  · rename_i bits u hr
    rw [Bool.and_eq_true, decide_eq_true_eq] at key
    obtain ⟨rfl, key⟩ := key
    obtain ⟨v, hv, hvp⟩ := exists_next key
    rw [Bool.and_eq_true, decide_eq_true_eq] at hvp
    obtain ⟨c, hc, hcp⟩ := exists_next hvp.2
    have hcp := of_decide_eq_true hcp
    have h1 : syncPatternAt 2 matchBits63 := by decide
    have h2 : ∀ k, k < 63 → ¬syncPatternAt 2 (matchBits63.take k) := by decide +kernel
    exact ⟨lossy, u, v, v, c, 63, _, [], ⟨rfl, rfl⟩, rfl, by decide, by decide, hr, h1, h2, hv, hvp.1, rfl, hc,
      hcp.1, hcp.2⟩
  · simp at key

set_option Elab.async false in
/-- FindSyncCompletes, its first clause: a match that fails at bit 63, whose frame would begin at the window's start, and
the one that validates at bit 126. -/
theorem witness_FindSyncCompletes_candidate :
    let a := (searchable matchBits63).ahead
    CanSearch (searchable matchBits63) 48 2 ∧ (searchable matchBits63).cancel = [] ∧
    columnCandidates 2 = [] ++ 2 :: [] ∧ rowCandidates 48 = [] ++ 48 :: [] ∧
    MatchAt a 2 126 ∧ Validates a 48 2 126 ∧ MatchAt a 2 63 ∧
    ∀ k, k < 126 → MatchAt a 2 k → ∀ r ∈ rowCandidates 48, Rejected a r 2 k := by
  refine ⟨⟨⟨rfl, rfl⟩, rfl, trivial, .inr (by decide +kernel), by decide, by decide⟩, rfl, rfl, rfl, by decide +kernel,
    by decide +kernel, by decide +kernel, ?_⟩
  intro k hk hm r hr
  have h1 : ∀ k, k < 126 → MatchAt (searchable matchBits63).ahead 2 k → k = 63 := by decide +kernel
  have h2 : CheckAnswer ((searchable matchBits63).ahead.drop (alignedStart 48 2 63)) 48 2 0 := by decide +kernel
  obtain rfl := h1 k hk hm
  obtain rfl : r = 48 := by simpa [rowCandidates] using hr
  exact ⟨0, by decide, h2⟩

/-- A block that collects history and has read `k` bits of 0, with `n` more at its input. -/
def low (k n : Nat) : State :=
  { lowEdges true n with hb := ⟨List.replicate k 0, 0⟩, edgesTaken := k, result := .u1 false }

/-- It reads one. -/
theorem nextBit_low (k n : Nat) (h : k < minHistoryCapacity) :
    nextBit (low k (n + 1)) = some (.ok false (low (k + 1) n)) := by
  have hc : encodeChain false (0 - 0) = List.replicate 1 0 := by decide
  refine nextBit_eq_some_ok.2 (.inr ⟨rfl, ⟨0, false⟩, List.replicate n ⟨0, false⟩, rfl, liveBit_eq_ok.2
    ⟨{ low (k + 1) n with hb := ⟨List.replicate k 0 ++ encodeChain false (0 - 0), 0⟩ },
      collectEdge_eq_ok.2 (.inl ⟨rfl, ?_, rfl⟩), rfl, ?_⟩⟩)
  · show (List.replicate k (0 : Entry)).length + (encodeChain false (0 - 0)).length ≤ minHistoryCapacity
    rw [hc, List.length_replicate, List.length_replicate]
    exact h
  · show low (k + 1) n = { low (k + 1) n with hb := ⟨List.replicate k 0 ++ encodeChain false (0 - 0), 0⟩ }
    rw [hc, List.replicate_append_replicate]
    rfl

/-- It reads them. -/
theorem readBits_low (n k : Nat) (h : k + n ≤ minHistoryCapacity) :
    readBits n (low k n) = some (List.replicate n false, low (k + n) 0) := by
  induction n generalizing k with
  | zero => rfl
  | succ n ih =>
    have he : exec .bdNextBit (low k (n + 1)) = .next (low (k + 1) n) := by
      show Host.Outcome.next (runTask (bitBound (low k (n + 1))) .nextBit (low k (n + 1))) = _
      obtain ⟨b, hb⟩ := Nat.exists_eq_succ_of_ne_zero (bitBound_pos (low k (n + 1))).ne'
      rw [hb, Nat.succ_eq_add_one, runTask_succ, nextBit_low k n (by omega)]
      rfl
    rw [readBits, he]
    show (readBits n (low (k + 1) n)).map _ = _
    rw [ih (k + 1) (by omega), Nat.add_right_comm k 1 n]
    rfl

/-- FindSyncCompletes, its second clause: a column window of zeros, with nothing pending and nothing after it. -/
theorem witness_FindSyncCompletes_window :
    ∃ (s u v t : State) (bits : List Bool),
      CanSearch s 48 2 ∧ s.cancel = [] ∧ (∀ c ∈ columnCandidates 2, ColumnRejected s.ahead 48 c) ∧
      (pendingLevels s).length ≤ 4608 ∧ (∀ p, ReadTo s.ahead 48 2 p → p ≤ 4608) ∧ ReadTo s.ahead 48 2 4608 ∧
      readBits 4608 s = some (bits, u) ∧ exec .bdDiscardHistory u = .next v ∧
      exec (.sfFindSync 48 2) v = .next t := by
  obtain ⟨n, hn⟩ : ∃ n, n = 4608 := ⟨_, rfl⟩
  have ha : (low 0 n).ahead = ⟨false, List.replicate n false ++ []⟩ := lowEdges_ahead n []
  have hc : ∀ c ∈ columnCandidates 2, c = (2 : Columns) := by simp [columnCandidates]
  have hno : ∀ m, ¬MatchAt (low 0 n).ahead 2 m := by
    rintro m ⟨hm, -, h⟩
    rw [ha] at h
    exact no_match_low 2 n m [] (hn ▸ hm) h
  have hv : exec .bdDiscardHistory (low (0 + n) 0) =
      .next (atOnce (.ok .none (discardHistory (low (0 + n) 0)))) := rfl
  have ht := issue_ready (s := atOnce (.ok .none (discardHistory (low (0 + n) 0)))) rfl rfl
    fun s => settle (startFind .command 48 2 s)
  refine ⟨low 0 n, low (0 + n) 0, _, _, List.replicate n false,
    ⟨⟨rfl, rfl⟩, rfl, trivial, lowEdges_room n [] (by subst hn; decide), by decide, by decide⟩, rfl, ?_,
    Nat.zero_le _, ?_, ⟨2, by simp [columnCandidates], .inl rfl⟩,
    hn ▸ readBits_low n 0 (by subst hn; decide), hv, ht⟩
  · rintro c h
    obtain rfl := hc c h
    refine ⟨?_, fun m hm => absurd hm (hno m)⟩
    rw [ha, List.append_nil, List.length_replicate, hn]; rfl
  · rintro p ⟨c, h, rfl | ⟨m, hm, -⟩⟩
    · obtain rfl := hc c h; exact le_rfl
    · obtain rfl := hc c h; exact absurd hm (hno m)

set_option Elab.async false in
/-- ResyncFindsAndAnnounces: a search from an out-of-sync driver. -/
theorem witness_ResyncFindsAndAnnounces :
    ∃ (s v c : State) (rows : Rows) (columns : Columns),
      Ready s ∧ s.status = .running ∧ s.fe.started = true ∧ s.fe.inSync = false ∧ s.cancel = [] ∧
      exec (.bdRestore s.fe.startMark) s = .next v ∧ Completed v ∧
      exec (.sfFindSync s.cfg.hintRows s.cfg.hintColumns) v = .next c ∧ Completed c ∧
      c.result = .shape rows columns ∧ legalShape rows columns = true := by
  obtain ⟨v, hv, hvp⟩ := exists_next (o := exec (.bdRestore Mark.zero) lossyResync)
    (p := fun v => decide (Completed v) && nextIs (exec (.sfFindSync 48 2) v) (fun c =>
      decide (Completed c ∧ c.result = .shape 48 2))) (by decide +kernel)
  rw [Bool.and_eq_true, decide_eq_true_eq] at hvp
  obtain ⟨c, hc, hcp⟩ := exists_next hvp.2
  have hcp := of_decide_eq_true hcp
  exact ⟨lossyResync, v, c, 48, 2, ⟨rfl, rfl⟩, rfl, rfl, rfl, rfl, hv, hvp.1, hc, hcp.1, hcp.2, by decide⟩

set_option Elab.async false in
/-- CancelHaltsAtPollPoints: a resync that finds sync. -/
theorem witness_CancelHaltsAtPollPoints_resync :
    ∃ s t, Ready s ∧ s.status = .running ∧ s.fe.started = true ∧ s.fe.inSync = false ∧
      exec .feStep { s with cancel := [] } = .next t ∧ Completed t := by
  obtain ⟨t, ht, hp⟩ := exists_next (o := exec .feStep lossyResync) (p := fun t => decide (Completed t))
    (by decide +kernel)
  exact ⟨lossyResync, t, ⟨rfl, rfl⟩, rfl, rfl, rfl, ht, of_decide_eq_true hp⟩

end Sys2Proof.Tests
end

section
/-! PROOFS. What a step is made of: every step is a chain of changes of five kinds, and what all five keep, every step
keeps. With it, what a step runs. -/

namespace Sys2Proof.Machine

open Sys2Proof

/-! ## What a step runs -/

/-- The block's own sequence (R334): FE.START from IDLE, else FE.STEP. -/
theorem autonomous_eq (s : State) : autonomous s = if s.status = .idle then .feStart else .feStep := by
  unfold autonomous
  cases s.status <;> simp

theorem nextCommand_nil {s : State} (h : s.commands = []) : nextCommand s = (.ok (autonomous s), s) := by
  simp [nextCommand, takeCommand, h]

theorem nextCommand_cons {s : State} {c : Command} {rest : List Command} (h : s.commands = c :: rest) :
    nextCommand s = (decode c, { s with commands := rest }) := by
  simp [nextCommand, takeCommand, h]

/-- A block that takes commands runs the next one where it decodes. -/
theorem step_of_nextCommand {s u : State} {i : Instr} (hr : Ready s) (h : nextCommand s = (.ok i, u)) :
    step s = exec i u := by
  obtain ⟨hrun, htask⟩ := hr
  simp [step, hrun, htask, h]

/-- Settles O3: the next command is the one at the head of the port, or the autonomous one where the port is empty. -/
theorem stepRunsDecodedCommand : Obligations.StepRunsDecodedCommand := by
  refine ⟨fun s c rest i hr hc hd => ?_, fun s hr hc => ?_⟩
  · exact step_of_nextCommand hr (by rw [nextCommand_cons hc, hd])
  · rw [← autonomous_eq]
    exact step_of_nextCommand hr (nextCommand_nil hc)

/-- All that a step that exists can be: a resumption, a command, or the fault of a reserved word. -/
theorem step_eq_next {s t : State} (h : step s = .next t) :
    (∃ k, s.task = some k ∧ t = resume k s) ∨
    (∃ i u, nextCommand s = (.ok i, u) ∧ exec i u = .next t) ∨
    (∃ e u, nextCommand s = (.error e, u) ∧ t = { u with status := .faulted .reservedCommand }) := by
  unfold step at h
  split at h
  · cases h
  · split at h
    · rename_i k hk
      split at h
      · cases h
      · cases h; exact .inl ⟨k, hk, rfl⟩
    · split at h
      · rename_i i u hn; exact .inr (.inl ⟨i, u, hn, h⟩)
      · rename_i e u hn; cases h; exact .inr (.inr ⟨e, u, hn, rfl⟩)

/-! ## The kinds of change -/

/-- `t` has the configuration, the history, the event log and the edge input of `s`. -/
structure SamePast (s t : State) : Prop where
  cfg : t.cfg = s.cfg
  hb : t.hb = s.hb
  events : t.events = s.events
  edges : t.edges = s.edges
  edgesTaken : t.edgesTaken = s.edgesTaken

/-- `t` comes from `s` by changes of five kinds, one after the other. Of the configuration there is none (R42). -/
inductive Changes : State → State → Prop
  /-- Registers, the ports of the model and the cancel input. -/
  | registers {s t : State} (h : SamePast s t := by exact ⟨rfl, rfl, rfl, rfl, rfl⟩) : Changes s t
  /-- The next edge record is taken (R50). -/
  | takeEdge {s t : State} {e : Edge} (h : takeEdge s = some (e, t)) : Changes s t
  /-- An event goes to the end of the log (R52); registers may change with it. -/
  | emit {s t : State} (e : Event) (h : SamePast (emit e s) t := by exact ⟨rfl, rfl, rfl, rfl, rfl⟩) : Changes s t
  /-- A chain that fits is appended to the history (R63). -/
  | append {s t : State} {level : Bool} {delta : Sample} (h : hbAppend level delta s = .ok () t) : Changes s t
  /-- The history is cleared (R64). -/
  | clear (s : State) : Changes s (histClear s)
  | trans {s t u : State} (h : Changes s t) (g : Changes t u) : Changes s u

theorem Changes.refl (s : State) : Changes s s := .registers

/-- The state a part of a command ends in, whether it completes or is stopped. -/
def Res.final {α : Type} : Res α → State
  | .ok _ s => s
  | .stop s => s

@[simp] theorem Res.final_ok {α : Type} (a : α) (s : State) : (Res.ok a s).final = s := rfl
@[simp] theorem Res.final_stop {α : Type} (s : State) : (Res.stop s : Res α).final = s := rfl

theorem Changes.andThen {α β : Type} {s : State} {r : Res α} {k : α → State → Res β} (h : Changes s r.final)
    (hk : ∀ a u, Changes u (k a u).final) : Changes s (r.andThen k).final := by
  cases r with
  | ok a u => exact h.trans (hk a u)
  | stop u => exact h

/-! ## The shared operations -/

theorem changes_raise {α : Type} (c : FaultCode) (s : State) : Changes s (raise c s : Res α).final := .registers

theorem changes_poll (s : State) : Changes s (poll s).final := by
  unfold poll
  repeat' split
  all_goals exact .registers

theorem changes_hbAppend (level : Bool) (delta : Sample) (s : State) : Changes s (hbAppend level delta s).final := by
  cases h : hbAppend level delta s with
  | ok u t => exact .append h
  | stop t =>
    obtain ⟨-, rfl⟩ := histAppendChain_eq_stop.1 h
    exact .registers

theorem changes_hbReadChain (i : Nat) (s : State) : Changes s (hbReadChain i s).final := by
  unfold hbReadChain
  split <;> exact .registers

theorem changes_restore (m : Mark) (s : State) : Changes s (restore m s).final := by
  unfold restore
  repeat' split
  all_goals exact .registers

theorem changes_discardHistory (s : State) : Changes s (discardHistory s) := by
  unfold discardHistory
  split
  · exact .clear s
  · exact .refl _

theorem changes_collectHistory (enable : Bool) (s : State) : Changes s (collectHistory enable s) := by
  unfold collectHistory
  split
  · exact (changes_discardHistory s).trans .registers
  · exact .registers

theorem changes_busResetCount (b : Bool) (s : State) : Changes s (busResetCount b s) := by
  cases b with
  | false => exact .registers
  | true =>
    by_cases h : (s.bd.contiguousToggleCount + 1).toNat = 4096
    · rw [busResetCount_true_of_eq h]
      exact .emit _
    · rw [busResetCount_true_of_ne h]
      exact .registers

theorem changes_historyBit (i : Nat) (s : State) : Changes s (historyBit i s).final :=
  (changes_hbReadChain i s).andThen fun _ _ => .registers

theorem changes_collectEdge (e : Edge) (s : State) : Changes s (collectEdge e s).final := by
  unfold collectEdge
  split
  · exact changes_hbAppend _ _ s
  · exact .refl _

theorem changes_liveBit (e : Edge) (s : State) : Changes s (liveBit e s).final :=
  (changes_collectEdge e s).andThen fun _ _ => Changes.trans .registers (changes_busResetCount _ _)

/-- `BD.NEXT_BIT` (R130): a replayed bit, or a live one on the record it takes. -/
theorem changes_nextBit {s : State} {r : Res Bool} (h : nextBit s = some r) : Changes s r.final := by
  unfold nextBit at h
  split at h
  · obtain rfl := Option.some.inj h
    exact changes_historyBit _ s
  · split at h
    · cases h
    · rename_i e t he
      obtain rfl := Option.some.inj h
      exact (Changes.takeEdge he).trans (changes_liveBit e t)

theorem changes_matcherInit (c : Columns) (s : State) : Changes s (matcherInit c s).final := by
  unfold matcherInit
  split <;> exact .registers

theorem changes_readerSetShape (rows : Rows) (columns : Columns) (r : FrameReader) (s : State) :
    Changes s (readerSetShape rows columns r s).final := by
  unfold readerSetShape
  split <;> exact .registers

/-! ## The driver -/

theorem changes_feStartRest (s : State) : Changes s (feStartRest s) := (changes_collectHistory true s).trans .registers

theorem changes_feStepEnd (s : State) : Changes s (feStepEnd s).final :=
  Changes.trans .registers ((changes_poll _).andThen fun _ _ => .refl _)

theorem changes_applyShapeChange (v : CtrlWord) (s : State) : Changes s (applyShapeChange v s).final := by
  unfold applyShapeChange
  dsimp only
  repeat' split
  · exact (changes_readerSetShape _ _ _ s).andThen fun _ _ => .emit _
  · exact .emit _
  · exact .registers

theorem changes_acceptFrame (v : CtrlWord) (s : State) : Changes s (acceptFrame v s).final :=
  (changes_applyShapeChange v s).andThen fun _ u => (changes_discardHistory u).trans .registers

theorem changes_onSeedFrame (s : State) : Changes s (onSeedFrame s).final :=
  Changes.trans (.emit _) (changes_acceptFrame _ _)

theorem changes_onLaterFrame (s : State) : Changes s (onLaterFrame s).final := by
  unfold onLaterFrame
  dsimp only
  generalize syncLost _ _ = lost
  cases lost with
  | false => exact Changes.trans (.emit _) (changes_acceptFrame _ _)
  | true => exact .emit _

theorem changes_onFrameComplete (s : State) : Changes s (onFrameComplete s).final := by
  unfold onFrameComplete
  split
  · exact changes_onSeedFrame s
  · exact changes_onLaterFrame s

theorem changes_onReaderResult (r : ReaderResult) (s : State) : Changes s (onReaderResult r s).final := by
  cases r with
  | frameComplete => exact changes_onFrameComplete s
  | _ => exact .registers

theorem changes_feBitRest (b : Bool) (s : State) : Changes s (feBitRest b s).final :=
  Changes.trans .registers ((changes_onReaderResult _ _).andThen fun _ u => changes_feStepEnd u)

theorem changes_feResyncRest (rows : Rows) (columns : Columns) (s : State) :
    Changes s (feResyncRest rows columns s).final :=
  Changes.trans (.emit _) <| (changes_readerSetShape _ _ _ _).andThen fun r u =>
    Changes.trans .registers <| (changes_discardHistory { u with fe := { u.fe with reader := r } }).trans <|
      Changes.trans .registers (changes_feStepEnd _)

/-! ## The search -/

theorem changes_countBit (count : Nat) (s : State) : Changes s (countBit count s).final := by
  unfold countBit
  split
  · exact (changes_poll s).andThen fun _ _ => .refl _
  · exact .refl _

theorem changes_startCheck (ask : Asker) (rows : Rows) (columns : Columns) (count : Nat) (s : State) :
    Changes s (startCheck ask rows columns count s).final :=
  (changes_readerSetShape _ _ _ s).andThen fun _ _ => .refl _

theorem changes_startAlign (ask : Asker) (rows : Rows) (columns : Columns) (left count : Nat) (s : State) :
    Changes s (startAlign ask rows columns left count s).final := by
  unfold startAlign
  split
  · exact changes_startCheck ..
  · exact .refl _

theorem changes_startTest (ask : Asker) (rows : Rows) (columns : Columns) (offset : Nat) (start matched : Mark)
    (count : Nat) (s : State) : Changes s (startTest ask rows columns offset start matched count s).final := by
  unfold startTest
  split
  · refine (changes_restore matched s).andThen fun _ u => ?_
    dsimp only
    split
    · exact (changes_restore start u).andThen fun _ _ => changes_startAlign ..
    · exact changes_startAlign ..
  · exact changes_raise _ s

theorem changes_startColumn (who : Finder) (w : Scan) (c : Columns) (rest : List Columns) (count : Nat) (s : State) :
    Changes s (startColumn who w c rest count s).final :=
  (changes_restore _ s).andThen fun _ u => (changes_matcherInit c u).andThen fun _ _ => .refl _

theorem changes_startWindow (who : Finder) (w : Scan) (count : Nat) (s : State) :
    Changes s (startWindow who w count s).final := by
  unfold startWindow
  split
  · exact .refl _
  · exact changes_startColumn ..

theorem changes_advanceWindow (who : Finder) (w : Scan) (count : Nat) (s : State) :
    Changes s (advanceWindow who w count s).final := by
  unfold advanceWindow
  split
  · exact .refl _
  · exact (changes_discardHistory s).trans (changes_startWindow ..)

theorem changes_endColumn (who : Finder) (w : Scan) (count : Nat) (s : State) :
    Changes s (endColumn who w count s).final := by
  refine (changes_poll s).andThen fun _ u => ?_
  split
  · exact changes_advanceWindow ..
  · exact changes_startColumn ..

theorem changes_continueScan (who : Finder) (w : Scan) (count : Nat) (s : State) :
    Changes s (continueScan who w count s).final := by
  unfold continueScan
  split
  · exact .refl _
  · exact changes_endColumn ..

theorem changes_tryRows (who : Finder) (w : Scan) (rows : List Rows) (count : Nat) (s : State) :
    Changes s (tryRows who w rows count s).final := by
  cases rows with
  | nil => exact changes_continueScan ..
  | cons r rest => exact changes_startTest ..

theorem changes_scanBit (who : Finder) (w : Scan) (count : Nat) (b : Bool) (s : State) :
    Changes s (scanBit who w count b s).final := by
  unfold scanBit
  dsimp only
  split
  · exact changes_tryRows ..
  · exact changes_continueScan ..

theorem changes_foundSync (who : Finder) (rows : Rows) (columns : Columns) (s : State) :
    Changes s (foundSync who rows columns s).final := by
  cases who with
  | command => exact .registers
  | driver => exact Changes.trans .registers (changes_feResyncRest rows columns _)

theorem changes_finishCheck (ask : Asker) (entry : Mark) (n count : Nat) (s : State) :
    Changes s (finishCheck ask entry n count s).final := by
  refine (changes_restore entry s).andThen fun _ u => ?_
  cases ask with
  | check => exact .refl _
  | test => exact .refl _
  | search who w =>
    dsimp only
    split
    · exact changes_foundSync ..
    · exact (changes_restore _ u).andThen fun _ _ => changes_tryRows ..

theorem changes_nextFrame (ask : Asker) (c : Check) (v : CtrlWord) (count : Nat) (s : State) :
    Changes s (nextFrame ask c v count s).final := by
  refine Changes.andThen ?_ fun _ _ => .refl _
  unfold nextReader
  split
  · exact changes_readerSetShape ..
  · exact .refl _

theorem changes_frameRead (ask : Asker) (c : Check) (count : Nat) (s : State) :
    Changes s (frameRead ask c count s).final := by
  unfold frameRead
  dsimp only
  split
  · split
    · exact changes_finishCheck ..
    · exact changes_nextFrame ..
  · split
    · exact changes_finishCheck ..
    · split
      · exact changes_finishCheck ..
      · exact changes_nextFrame ..

theorem changes_checkBit (ask : Asker) (c : Check) (count : Nat) (b : Bool) (s : State) :
    Changes s (checkBit ask c count b s).final := by
  unfold checkBit
  dsimp only
  split
  · exact .registers
  · exact (changes_poll s).andThen fun _ _ => changes_frameRead ..
  all_goals exact .refl _

theorem changes_startResync (s : State) : Changes s (startResync s).final :=
  (changes_restore _ s).andThen fun _ _ => changes_startWindow ..

/-! ## How a command runs -/

theorem changes_onBit (t : Task) (b : Bool) (s : State) : Changes s (onBit t b s).final := by
  cases t with
  | nextBit => exact .refl _
  | skipBits left =>
    show Changes s (if left ≤ 1 then _ else _ : Res Progress).final
    split <;> exact .refl _
  | feStart => exact changes_feStartRest s
  | feBit => exact changes_feBitRest b s
  | scan who w count => exact (changes_countBit count s).andThen fun _ _ => changes_scanBit ..
  | advance who w count => exact (changes_countBit count s).andThen fun _ _ => changes_advanceWindow ..
  | align ask rows columns left count => exact (changes_countBit count s).andThen fun _ _ => changes_startAlign ..
  | check ask c count => exact (changes_countBit count s).andThen fun _ _ => changes_checkBit ..

/-- A command in progress, up to its end or to where it waits. -/
theorem changes_runTask (n : Nat) (t : Task) (s : State) : Changes s (runTask n t s) := by
  have hbit : ∀ {t u r x}, Changes s u → nextBit u = some r → r.andThen (onBit t) = x → Changes s x.final :=
    fun h hb hx => hx ▸ h.trans ((changes_nextBit hb).andThen fun _ _ => changes_onBit ..)
  refine @runTask_induction (fun _ u => Changes s u) (Changes s) ?wait ?stop ?done ?more n t s (.refl s)
  case wait => exact fun _ _ h => h.trans .registers
  case stop => exact fun _ _ _ _ h hb hr => hbit h hb hr
  case done => exact fun _ _ _ _ _ h hb hr => (hbit h hb hr).trans .registers
  case more => exact fun _ _ _ _ _ h hb hr => hbit h hb hr

theorem changes_atOnce {s : State} {r : Res Value} (h : Changes s r.final) : Changes s (atOnce r) := by
  cases r with
  | ok v u => exact h.trans .registers
  | stop u => exact h

theorem changes_settle {s : State} {r : Res Progress} (h : Changes s r.final) : Changes s (settle r) := by
  cases r with
  | stop u => exact h
  | ok p u =>
    cases p with
    | done v => exact h.trans .registers
    | more t => exact h.trans (changes_runTask _ t u)

theorem changes_resume (t : Task) (s : State) : Changes s (resume t s) :=
  Changes.trans .registers (changes_runTask _ t _)

/-- A command whose body is made of changes is. -/
theorem changes_issue {s t : State} {body : State → State} (hbody : Changes s (body s))
    (h : issue s body = .next t) : Changes s t := by
  rcases issue_cases s body with ⟨-, hi⟩ | ⟨-, -, hi⟩ | ⟨-, -, hi⟩
  · rw [hi] at h; cases h; exact .refl s
  · rw [hi] at h; cases h
  · rw [hi] at h; cases h; exact hbody

/-! ## The commands -/

theorem changes_setMatcher (s : State) (k : Nat) (m : Matcher) : Changes s (s.setMatcher k m) := .registers

theorem changes_setGenerator (s : State) (g : GenName) (v : DSync) : Changes s (s.setGenerator g v) :=
  .registers ⟨by simp, by simp, by simp, by simp, by simp⟩

theorem changes_setReader (s : State) (n : ReaderName) (r : FrameReader) : Changes s (s.setReader n r) :=
  .registers ⟨by simp, by simp, by simp, by simp, by simp⟩

theorem changes_setWord (s : State) (n : WordName) (w : ControlWord) : Changes s (s.setWord n w) :=
  .registers ⟨by simp, by simp, by simp, by simp, by simp⟩

theorem changes_readWord {w : WordName} {f : CtrlWord → Value} {s t : State} (h : readWord w f s = .next t) :
    Changes s t := changes_issue .registers h

theorem changes_changeWord {w : WordName} {f : ControlWord → ControlWord} {s t : State}
    (h : changeWord w f s = .next t) : Changes s t := changes_issue (changes_atOnce (changes_setWord ..)) h

/-- Every command is made of changes. -/
theorem changes_exec {i : Instr} {s t : State} (h : exec i s = .next t) : Changes s t := by
  cases i <;> dsimp only [exec] at h
  case hbAppend level delta =>
    exact changes_issue (changes_atOnce ((changes_hbAppend level delta s).andThen fun _ _ => .refl _)) h
  case hbReadChain index =>
    exact changes_issue (changes_atOnce ((changes_hbReadChain index s).andThen fun _ _ => .refl _)) h
  case hbClear => exact changes_issue (changes_atOnce (.clear s)) h
  case bdNextBit => exact changes_issue (changes_settle (.refl s)) h
  case bdSkipBits n => exact changes_issue (changes_settle (by split <;> exact .refl s)) h
  case bdResetParity | bdIsParityOdd | bdCurrentSample | bdMark => exact changes_issue .registers h
  case bdCollectHistory enable => exact changes_issue (changes_atOnce (changes_collectHistory enable s)) h
  case bdDiscardHistory => exact changes_issue (changes_atOnce (changes_discardHistory s)) h
  case bdRestore m => exact changes_issue (changes_atOnce ((changes_restore m s).andThen fun _ _ => .refl _)) h
  case smInit sm columns =>
    exact changes_issue (changes_atOnce ((changes_matcherInit columns s).andThen fun _ _ => changes_setMatcher ..)) h
  case smPushBit sm bit => exact changes_issue (changes_atOnce (changes_setMatcher ..)) h
  case dsgSeed | dsgNext => exact changes_issue (changes_atOnce (changes_setGenerator ..)) h
  case frReset | frPushBit => exact changes_issue (changes_atOnce (changes_setReader ..)) h
  case frSetShape r rows columns =>
    exact changes_issue
      (changes_atOnce ((changes_readerSetShape rows columns _ s).andThen fun _ _ => changes_setReader ..)) h
  case cwReset | cwLoad | cwPushBit | cwSkipBits => exact changes_changeWord h
  case sfFindSync => exact changes_issue (changes_settle (changes_startWindow ..)) h
  case sfTestIfSyncIsReal => exact changes_issue (changes_settle (changes_startTest ..)) h
  case sfCheckSync => exact changes_issue (changes_settle (changes_startCheck ..)) h
  case feStart => exact changes_issue (changes_settle (by split <;> exact .registers)) h
  case feStep =>
    refine changes_issue (changes_settle ?_) h
    split
    · exact changes_raise _ s
    · split
      · exact .refl s
      · exact changes_startResync s
  -- The commands left read a control word (44_control_word.md section 2).
  all_goals exact changes_readWord h

/-- Taking a command from the port changes nothing else. -/
theorem changes_nextCommand {s u : State} {c : Except Reserved Instr} (h : nextCommand s = (c, u)) : Changes s u := by
  rcases hc : s.commands with _ | ⟨c, rest⟩
  · rw [nextCommand_nil hc] at h; cases h; exact .refl s
  · rw [nextCommand_cons hc] at h; cases h; exact .registers

/-- Every step is made of changes. -/
theorem changes_step {s t : State} (h : step s = .next t) : Changes s t := by
  rcases step_eq_next h with ⟨k, -, rfl⟩ | ⟨i, u, hn, hi⟩ | ⟨e, u, hn, rfl⟩
  · exact changes_resume k s
  · exact (changes_nextCommand hn).trans (changes_exec hi)
  · exact (changes_nextCommand hn).trans .registers

/-! ## What every change leaves of the past -/

/-- What a step leaves of the past (R42, R50, R52, R63, R64), as a relation of the states before and after it. -/
structure OnlyAppends (s t : State) : Prop where
  cfg : t.cfg = s.cfg
  events : s.events <+: t.events
  edges : ∃ k, k ≤ s.edges.length ∧ t.edges = s.edges.drop k ∧ t.edgesTaken = s.edgesTaken + k
  epoch : s.hb.epoch ≤ t.hb.epoch
  entries : t.hb.epoch = s.hb.epoch → s.hb.entries <+: t.hb.entries

theorem edgesTaken_none {s t : State} (h : t.edges = s.edges) (g : t.edgesTaken = s.edgesTaken) :
    ∃ k, k ≤ s.edges.length ∧ t.edges = s.edges.drop k ∧ t.edgesTaken = s.edgesTaken + k :=
  ⟨0, Nat.zero_le _, h, g⟩

theorem SamePast.onlyAppends {s t : State} (h : SamePast s t) : OnlyAppends s t where
  cfg := h.cfg
  events := h.events ▸ List.prefix_rfl
  edges := edgesTaken_none h.edges h.edgesTaken
  epoch := h.hb ▸ le_rfl
  entries _ := h.hb ▸ List.prefix_rfl

/-- Two epochs that agree at the ends of a chain of changes agree in its middle too, since they never fall. -/
theorem OnlyAppends.trans {s t u : State} (h : OnlyAppends s t) (g : OnlyAppends t u) : OnlyAppends s u where
  cfg := g.cfg.trans h.cfg
  events := h.events.trans g.events
  edges := by
    obtain ⟨j, hj, hjt, hjn⟩ := h.edges
    obtain ⟨k, hk, hku, hkn⟩ := g.edges
    rw [hjt, List.length_drop] at hk
    exact ⟨j + k, by omega, by rw [hku, hjt, List.drop_drop], by omega⟩
  epoch := h.epoch.trans g.epoch
  entries he := by
    have hst := h.epoch
    have htu := g.epoch
    exact (h.entries (by omega)).trans (g.entries (by omega))

theorem onlyAppends_takeEdge {s t : State} {e : Edge} (h : takeEdge s = some (e, t)) : OnlyAppends s t := by
  unfold takeEdge at h
  split at h
  · cases h
  · rename_i rest he
    cases h
    exact ⟨rfl, List.prefix_rfl, ⟨1, by simp [he], by simp [he], rfl⟩, le_rfl, fun _ => List.prefix_rfl⟩

theorem onlyAppends_hbAppend {s t : State} {level : Bool} {delta : Sample} (h : hbAppend level delta s = .ok () t) :
    OnlyAppends s t := by
  obtain ⟨-, rfl⟩ := histAppendChain_eq_ok.1 h
  exact ⟨rfl, List.prefix_rfl, edgesTaken_none rfl rfl, le_rfl, fun _ => List.prefix_append ..⟩

theorem onlyAppends_emit (e : Event) (s : State) : OnlyAppends s (emit e s) :=
  ⟨rfl, List.prefix_append .., edgesTaken_none rfl rfl, le_rfl, fun _ => List.prefix_rfl⟩

/-- A clear counts up the epoch (R64), so that it makes no claim of the entries. -/
theorem onlyAppends_histClear (s : State) : OnlyAppends s (histClear s) :=
  ⟨rfl, List.prefix_rfl, edgesTaken_none rfl rfl, Nat.le_succ _, fun h => absurd h (Nat.succ_ne_self _)⟩

theorem Changes.onlyAppends {s t : State} (h : Changes s t) : OnlyAppends s t := by
  induction h with
  | registers h => exact h.onlyAppends
  | takeEdge h => exact onlyAppends_takeEdge h
  | emit e h => exact (onlyAppends_emit e _).trans h.onlyAppends
  | append h => exact onlyAppends_hbAppend h
  | clear s => exact onlyAppends_histClear s
  | trans _ _ ih ih' => exact ih.trans ih'

/-- Settles O13: every step is made of changes, and each kind of change only appends. -/
theorem stepOnlyAppends : Obligations.StepOnlyAppends := by
  intro s t h
  obtain ⟨hcfg, hevents, hedges, hepoch, hentries⟩ := (changes_step h).onlyAppends
  exact ⟨hcfg, hevents, hedges, hepoch, hentries⟩

end Sys2Proof.Machine
end

section
/-! PROOFS. The two invariants of the block: a legal state stays legal, and the read index stays at SENTINEL or below
`HB.size`. First the values: every operation of a unit keeps what it acts on legal. Then the state: one walk over the parts
of the commands for both invariants. Then the working values of a command in progress, and the step. -/

namespace Sys2Proof.Machine

open Sys2Proof

-- One declaration after the other: beside the long tests above, still running, the threads of all of them would pass the
-- memory limit of the check.
set_option Elab.async false

/-! ## Legal values -/

theorem toNat_one_shiftLeft {k : Nat} (hk : k < 48) : ((1 : CtrlWord) <<< k).toNat = 2 ^ k := by
  have : 2 ^ k < 2 ^ 48 := Nat.pow_lt_pow_right (by decide) hk
  rw [BitVec.toNat_shiftLeft, Nat.shiftLeft_eq]
  show 1 * 2 ^ k % 2 ^ 48 = 2 ^ k
  rw [Nat.one_mul, Nat.mod_eq_of_lt this]

/-- A write mask shifted down stays one-hot, or its bit falls out (R34). -/
theorem MaskLegal.shift {v v' m : CtrlWord} (h : MaskLegal ⟨v, m⟩) (n : Nat) : MaskLegal ⟨v', m >>> n⟩ := by
  rcases h with h | ⟨k, hk, h⟩
  · exact .inl (by simp_all)
  · obtain rfl : m = (1 : CtrlWord) <<< k := h
    rcases Nat.lt_or_ge k n with hn | hn
    · refine .inl (BitVec.eq_of_toNat_eq ?_)
      rw [BitVec.toNat_ushiftRight, toNat_one_shiftLeft hk, Nat.shiftRight_eq_div_pow]
      exact Nat.div_eq_of_lt (Nat.pow_lt_pow_right (by decide) hn)
    · refine .inr ⟨k - n, by omega, BitVec.eq_of_toNat_eq ?_⟩
      rw [BitVec.toNat_ushiftRight, toNat_one_shiftLeft hk, toNat_one_shiftLeft (by omega), Nat.shiftRight_eq_div_pow]
      exact Nat.pow_div hn (by decide)

theorem maskLegal_cwReset : MaskLegal ControlWord.reset := .inr ⟨47, by decide, by decide⟩

theorem maskLegal_cwLoadWord (v : CtrlWord) : MaskLegal (cwLoadWord v) := .inl rfl

theorem maskLegal_cwPush {w : ControlWord} (h : MaskLegal w) (b : Bool) : MaskLegal (cwPush b w) := by
  unfold cwPush
  split
  · exact h
  · exact h.shift 1

theorem maskLegal_cwSkip {w : ControlWord} (h : MaskLegal w) (n : BitVec 64) : MaskLegal (cwSkip n w) := by
  unfold cwSkip
  split
  · exact .inl rfl
  · exact h.shift _

/-- The sides of a legal shape (R87, R88): not 0, and no more than the row and column numbers count to (R35). -/
theorem legalShape_bounds {rows : Rows} {columns : Columns} (h : legalShape rows columns = true) :
    0 < rows.toNat ∧ rows.toNat ≤ 256 ∧ 0 < columns.toNat ∧ columns.toNat ≤ 16 := by
  have hr : ∀ r ∈ rowSet, 0 < r.toNat ∧ r.toNat ≤ 256 := by decide
  have hc : ∀ c ∈ columnSet, 0 < c.toNat ∧ c.toNat ≤ 16 := by decide
  simp only [legalShape, Bool.and_eq_true, List.contains_iff_mem] at h
  exact ⟨(hr _ h.1).1, (hr _ h.1).2, hc _ h.2⟩

theorem readerLegal_readerShaped {rows : Rows} {columns : Columns} (h : legalShape rows columns = true)
    (r : FrameReader) : ReaderLegal (readerShaped rows columns r) := by
  obtain ⟨hr, -, hc, -⟩ := legalShape_bounds h
  exact ⟨h, hr, hc, fun _ => ⟨rfl, rfl⟩, maskLegal_cwReset⟩

theorem readerLegal_reset : ReaderLegal FrameReader.reset :=
  readerLegal_readerShaped (rows := 48) (columns := 2) (by decide) FrameReader.reset

theorem readerLegal_readerReset {r : FrameReader} (h : ReaderLegal r) : ReaderLegal (readerReset r) :=
  readerLegal_readerShaped h.1 r

theorem ReaderLegal.mask {r : FrameReader} (h : ReaderLegal r) : MaskLegal r.cw := by
  obtain ⟨-, -, -, -, hmask⟩ := h
  exact hmask

theorem ReaderLegal.withWord {r : FrameReader} (h : ReaderLegal r) {w : ControlWord} (hw : MaskLegal w) :
    ReaderLegal { r with cw := w } := by
  obtain ⟨hshape, hrow, hcolumn, hedge, -⟩ := h
  exact ⟨hshape, hrow, hcolumn, hedge, hw⟩

/-- A push inside a frame takes the bit and advances (R182). -/
theorem readerPush_of_ne {r : FrameReader} (h : r.state ≠ .frameComplete) (b : Bool) :
    readerPush b r =
      ((readerAdvance (readerTakeBit b { r with state := .needMoreBits })).1,
        if (readerAdvance (readerTakeBit b { r with state := .needMoreBits })).2 then .frameComplete
        else readerReport r) := if_neg h

theorem readerTakeBit_state (b : Bool) (r : FrameReader) : (readerTakeBit b r).state = r.state := by
  unfold readerTakeBit
  split <;> rfl

theorem readerLegal_readerTakeBit {r : FrameReader} (h : ReaderLegal r) (b : Bool) :
    ReaderLegal (readerTakeBit b r) := by
  unfold readerTakeBit
  split
  · exact h.withWord (maskLegal_cwPush h.mask b)
  · exact h

/-- Advance() ends the frame exactly when it says so (R183). -/
theorem readerAdvance_state (r : FrameReader) :
    (readerAdvance r).1.state = if (readerAdvance r).2 then .frameComplete else r.state := by
  unfold readerAdvance
  repeat' split
  all_goals simp_all

/-- Advance() stays inside the frame, or ends it at row 0 and column 0 (R183). -/
theorem readerLegal_readerAdvance {r : FrameReader} (h : ReaderLegal r) (hs : r.state = .needMoreBits) :
    ReaderLegal (readerAdvance r).1 := by
  obtain ⟨hshape, hrow, hcolumn, -, hmask⟩ := h
  obtain ⟨hr, hr', hc, hc'⟩ := legalShape_bounds hshape
  unfold readerAdvance
  split
  · split
    · exact ⟨hshape, hr, hc, fun _ => ⟨rfl, rfl⟩, hmask⟩
    · refine ⟨hshape, ?_, hc, fun h => absurd hs h, hmask⟩
      show (r.currentRow + 1).toNat < r.rows.toNat
      rw [BitVec.toNat_add_of_lt (by simp; omega)]
      simp; omega
  · refine ⟨hshape, hrow, ?_, fun h => absurd hs h, hmask⟩
    show (r.currentColumn + 1).toNat < r.columns.toNat
    rw [BitVec.toNat_add_of_lt (by simp; omega)]
    simp; omega

/-- FR.PUSH_BIT keeps a reader legal (R182). -/
theorem readerLegal_readerPush {r : FrameReader} (h : ReaderLegal r) (b : Bool) : ReaderLegal (readerPush b r).1 := by
  by_cases hs : r.state = .frameComplete
  · rw [readerPush_complete hs]
    exact h
  · obtain ⟨hshape, hrow, hcolumn, -, hmask⟩ := h
    rw [readerPush_of_ne hs]
    refine readerLegal_readerAdvance (readerLegal_readerTakeBit ?_ b) (readerTakeBit_state b _)
    exact ⟨hshape, hrow, hcolumn, fun h => absurd rfl h, hmask⟩

/-- A reader is at FRAME_COMPLETE after a push only when the push says so (R182). -/
theorem readerPush_state_ne {b : Bool} {r : FrameReader} (h : (readerPush b r).2 ≠ .frameComplete) :
    (readerPush b r).1.state ≠ .frameComplete := by
  by_cases hs : r.state = .frameComplete
  · exact absurd (by rw [readerPush_complete hs]) h
  · rw [readerPush_of_ne hs] at h ⊢
    rw [readerAdvance_state, readerTakeBit_state]
    split
    · rename_i hc; simp [hc] at h
    · simp

theorem matcherLegal_matcherNew {c : Columns} (h : columnSet.contains c = true) : MatcherLegal (matcherNew c) :=
  ⟨h, rfl, rfl⟩

theorem matcherLegal_reset : MatcherLegal Matcher.reset := ⟨by decide, by decide, by decide⟩

theorem matcherLegal_matcherPush {m : Matcher} (h : MatcherLegal m) (b : Bool) : MatcherLegal (matcherPush b m).1 := h

/-! ## Legal lists of instances -/

/-- A list of instances as `Legal` has it: numbers that rise, and legal values, none at the value of an unlisted one. -/
def PoolLegal {α : Type} (d : α) (P : α → Prop) (p : List (Nat × α)) : Prop :=
  sortedKeys p ∧ ∀ e ∈ p, P e.2 ∧ e.2 ≠ d

theorem PoolLegal.set {α : Type} [DecidableEq α] {d v : α} {P : α → Prop} {p : List (Nat × α)}
    (h : PoolLegal d P p) (k : Nat) (hv : P v) : PoolLegal d P (poolSet d k v p) := by
  refine ⟨poolSet_sorted d k v p h.1, fun e he => ?_⟩
  rcases mem_poolSet he with ⟨rfl, hne⟩ | he
  · exact ⟨hv, hne⟩
  · exact h.2 e he

theorem PoolLegal.get {α : Type} {d : α} {P : α → Prop} {p : List (Nat × α)} (h : PoolLegal d P p) (hd : P d)
    (k : Nat) : P (poolGet d k p) := by
  obtain ⟨-, h⟩ := h
  induction p with
  | nil => exact hd
  | cons e p ih =>
    obtain ⟨j, v⟩ := e
    unfold poolGet
    split
    · exact (h (j, v) (by simp)).1
    · exact ih fun x hx => h x (by simp [hx])

theorem Legal.matcher {s : State} (h : Legal s) (k : Nat) : MatcherLegal (s.matcher k) :=
  PoolLegal.get h.matchers matcherLegal_reset k

theorem Legal.reader {s : State} (h : Legal s) : ∀ n, ReaderLegal (s.reader n)
  | .driver => h.driverReader
  | .named k => PoolLegal.get h.readers readerLegal_reset k

theorem Legal.word {s : State} (h : Legal s) : ∀ n, MaskLegal (s.word n)
  | .ofReader n => (h.reader n).mask
  | .ephemeral k => PoolLegal.get h.words maskLegal_cwReset k

theorem Legal.setMatcher {s : State} (h : Legal s) (k : Nat) {m : Matcher} (hm : MatcherLegal m) :
    Legal (s.setMatcher k m) :=
  { h with matchers := PoolLegal.set h.matchers k hm }

theorem Legal.setReader {s : State} (h : Legal s) (n : ReaderName) {r : FrameReader} (hr : ReaderLegal r) :
    Legal (s.setReader n r) := by
  cases n with
  | driver => exact { h with driverReader := hr }
  | named k => exact { h with readers := PoolLegal.set h.readers k hr }

theorem Legal.setWord {s : State} (h : Legal s) (n : WordName) {w : ControlWord} (hw : MaskLegal w) :
    Legal (s.setWord n w) := by
  cases n with
  | ofReader n => exact h.setReader n ((h.reader n).withWord hw)
  | ephemeral k => exact { h with words := PoolLegal.set h.words k hw }

theorem Legal.setGenerator {s : State} (h : Legal s) (g : GenName) (v : DSync) : Legal (s.setGenerator g v) := by
  cases g with
  | driver => exact { h with }
  | named k =>
    have hpool : PoolLegal 0 (fun _ => True) s.generators :=
      ⟨h.generators.1, fun e he => ⟨trivial, h.generators.2 e he⟩⟩
    obtain ⟨hsorted, hmem⟩ := hpool.set (v := v) k trivial
    exact { h with generators := ⟨hsorted, fun e he => (hmem e he).2⟩ }

/-! ## Reset -/

theorem legal_resetWith (c : Configuration) : Legal (State.resetWith c) where
  memory := rfl
  capacity := Nat.zero_le _
  toggles := Nat.zero_le _
  driverReader := readerLegal_reset
  readers := ⟨.nil, by simp [State.resetWith]⟩
  words := ⟨.nil, by simp [State.resetWith]⟩
  matchers := ⟨.nil, by simp [State.resetWith]⟩
  generators := ⟨.nil, by simp [State.resetWith]⟩
  inProgress := by simp [State.resetWith]

/-- Settles O10: the buffer and the lists are empty, and the driver's reader is of shape 48 × 2. -/
theorem resetIsLegal : Obligations.ResetIsLegal := ⟨legal_resetWith _, legal_resetWith⟩

/-- Settles O9: every clause is a register of the reset block read back. -/
theorem resetValues : Obligations.ResetValues := by
  intro c
  simp [State.resetWith, Decoder.reset, Driver.reset, FrameReader.reset, ControlWord.reset]

/-! ## Both invariants, over the state -/

theorem indexInRange_iff {s : State} :
    IndexInRange s ↔ ∀ i, s.bd.nextHistoryReadIndex = .entry i → i < s.hb.size := by
  unfold IndexInRange
  cases s.bd.nextHistoryReadIndex <;> simp

/-- `t` has all of `s` that the two invariants speak of. -/
structure SameInstances (s t : State) : Prop where
  hb : t.hb = s.hb
  cfg : t.cfg = s.cfg
  toggles : t.bd.contiguousToggleCount = s.bd.contiguousToggleCount
  readIndex : t.bd.nextHistoryReadIndex = s.bd.nextHistoryReadIndex
  driverReader : t.fe.reader = s.fe.reader
  readers : t.readers = s.readers
  words : t.words = s.words
  matchers : t.matchers = s.matchers
  generators : t.generators = s.generators
  task : t.task = s.task

/-- Each of the two invariants holds of `t` if it holds of `s`. -/
structure Upholds (s t : State) : Prop where
  legal : Legal s → Legal t
  index : IndexInRange s → IndexInRange t

theorem Upholds.rest {s t : State}
    (h : SameInstances s t := by exact ⟨rfl, rfl, rfl, rfl, rfl, rfl, rfl, rfl, rfl, rfl⟩) : Upholds s t where
  legal hs := {
    memory := h.hb ▸ hs.memory
    capacity := h.hb ▸ h.cfg ▸ hs.capacity
    toggles := h.toggles ▸ hs.toggles
    driverReader := h.driverReader ▸ hs.driverReader
    readers := h.readers ▸ hs.readers
    words := h.words ▸ hs.words
    matchers := h.matchers ▸ hs.matchers
    generators := h.generators ▸ hs.generators
    inProgress := h.task ▸ hs.inProgress }
  index hs := by
    rw [indexInRange_iff] at *
    rw [h.readIndex, h.hb]
    exact hs

theorem Upholds.refl (s : State) : Upholds s s := ⟨id, id⟩

theorem Upholds.trans {s t u : State} (h : Upholds s t) (g : Upholds t u) : Upholds s u :=
  ⟨g.legal ∘ h.legal, g.index ∘ h.index⟩

theorem Upholds.andThen {α β : Type} {s : State} {r : Res α} {k : α → State → Res β} (h : Upholds s r.final)
    (hk : ∀ a u, r = .ok a u → Upholds u (k a u).final) : Upholds s (r.andThen k).final := by
  cases r with
  | ok a u => exact h.trans (hk a u rfl)
  | stop u => exact h

/-! The instances commands name. -/

theorem upholds_setMatcher {s : State} {k : Nat} {m : Matcher} (h : MatcherLegal (s.matcher k) → MatcherLegal m) :
    Upholds s (s.setMatcher k m) where
  legal hs := hs.setMatcher k (h (hs.matcher k))
  index hs := hs

theorem upholds_setGenerator (s : State) (g : GenName) (v : DSync) : Upholds s (s.setGenerator g v) where
  legal hs := hs.setGenerator g v
  index hs := by cases g <;> exact hs

theorem upholds_setReader {s : State} {n : ReaderName} {r : FrameReader}
    (h : ReaderLegal (s.reader n) → ReaderLegal r) : Upholds s (s.setReader n r) where
  legal hs := hs.setReader n (h (hs.reader n))
  index hs := by cases n <;> exact hs

theorem upholds_setWord {s : State} {n : WordName} {w : ControlWord} (h : MaskLegal (s.word n) → MaskLegal w) :
    Upholds s (s.setWord n w) where
  legal hs := hs.setWord n (h (hs.word n))
  index hs := by
    rw [indexInRange_iff] at *
    simpa using hs

/-! The shared operations. -/

theorem upholds_raise {α : Type} (c : FaultCode) (s : State) : Upholds s (raise c s : Res α).final := .rest

theorem upholds_poll (s : State) : Upholds s (poll s).final := by
  unfold poll
  repeat' split
  all_goals exact .rest

/-- An append adds a whole chain that fits, and nothing is below the read index that was not (R120). -/
theorem upholds_hbAppend (level : Bool) (delta : Sample) (s : State) : Upholds s (hbAppend level delta s).final := by
  cases h : hbAppend level delta s with
  | stop t =>
    obtain ⟨-, rfl⟩ := histAppendChain_eq_stop.1 h
    exact .rest
  | ok u t =>
    have hwf := hbAppend_wf h
    obtain ⟨hfits, rfl⟩ := histAppendChain_eq_ok.1 h
    have hsize : (s.hb.entries ++ encodeChain level delta).length = s.hb.size + (encodeChain level delta).length :=
      List.length_append
    refine ⟨fun hs => { hs with memory := hwf hs.memory, capacity := hsize.trans_le hfits }, fun hs => ?_⟩
    rw [indexInRange_iff] at *
    exact fun i hi => (hs i hi).trans_le ((Nat.le_add_right ..).trans_eq hsize.symm)

theorem upholds_hbReadChain (i : Nat) (s : State) : Upholds s (hbReadChain i s).final := by
  unfold hbReadChain
  split
  · exact .rest
  · exact .refl s

theorem legal_histClear {s : State} (h : Legal s) : Legal (histClear s) :=
  { h with memory := histClear_wf s, capacity := Nat.zero_le _ }

/-- The history is discarded at SENTINEL only, which is in range of every history (R140). -/
theorem upholds_discardHistory (s : State) : Upholds s (discardHistory s) := by
  unfold discardHistory
  split
  · rename_i hi
    refine ⟨legal_histClear, fun _ => indexInRange_iff.2 fun i h => ?_⟩
    rw [histClear_bd, hi] at h
    cases h
  · exact .refl s

theorem upholds_collectHistory (enable : Bool) (s : State) : Upholds s (collectHistory enable s) := by
  unfold collectHistory
  split
  · exact (upholds_discardHistory s).trans .rest
  · exact .rest

/-- A restore puts the index where its mark says, or at SENTINEL where that is the end (R142). -/
theorem upholds_restore (m : Mark) (s : State) : Upholds s (restore m s).final := by
  cases h : restore m s with
  | stop t =>
    rcases restore_eq_stop.1 h with ⟨-, rfl⟩ | ⟨-, -, rfl⟩ <;> exact .rest
  | ok u t =>
    obtain ⟨-, -, rfl⟩ := restore_eq_ok.1 h
    refine ⟨fun hs => { hs with }, fun _ => indexInRange_iff.2 fun i hi => ?_⟩
    have hi : (if m.index ≥ s.hb.size then ReadIndex.sentinel else .entry m.index) = .entry i := hi
    split at hi
    · cases hi
    · cases hi
      show m.index < s.hb.size
      omega

theorem upholds_busResetCount (b : Bool) (s : State) : Upholds s (busResetCount b s) where
  legal hs := {
    memory := by simpa using hs.memory
    capacity := by simpa using hs.capacity
    toggles := busResetCount_le b hs.toggles
    driverReader := by simpa using hs.driverReader
    readers := by simpa using hs.readers
    words := by simpa using hs.words
    matchers := by simpa using hs.matchers
    generators := by simpa using hs.generators
    inProgress := by simpa using hs.inProgress }
  index hs := by
    obtain ⟨-, hhb, hindex⟩ := busResetCount_frame b s
    rw [indexInRange_iff] at *
    rwa [hindex, hhb]

/-- A replayed bit moves the index past its chain, or to SENTINEL where that is the end (R131). -/
theorem upholds_historyBit (i : Nat) (s : State) : Upholds s (historyBit i s).final := by
  cases h : historyBit i s with
  | stop t =>
    rcases Res.andThen_eq_stop.1 h with h | ⟨a, u, -, h⟩
    · obtain ⟨-, rfl⟩ := hbReadChain_eq_stop.1 h
      exact .rest
    · cases h
  | ok b t =>
    obtain ⟨level, delta, n, hd, -, rfl⟩ := historyBit_eq_ok.1 h
    obtain ⟨hpos, -, hn⟩ := decodeChain_length hd
    rw [List.length_drop] at hn
    refine ⟨fun hs => { hs with }, fun _ => indexInRange_iff.2 fun j hj => ?_⟩
    have hj : (if i + n = s.hb.size then ReadIndex.sentinel else .entry (i + n)) = .entry j := hj
    split at hj
    · cases hj
    · cases hj
      show i + n < s.hb.size
      unfold History.size at *
      omega

theorem upholds_collectEdge (e : Edge) (s : State) : Upholds s (collectEdge e s).final := by
  unfold collectEdge
  split
  · exact upholds_hbAppend _ _ s
  · exact .refl s

theorem upholds_liveBit (e : Edge) (s : State) : Upholds s (liveBit e s).final :=
  (upholds_collectEdge e s).andThen fun _ _ _ => Upholds.trans .rest (upholds_busResetCount _ _)

theorem upholds_takeEdge {s t : State} {e : Edge} (h : takeEdge s = some (e, t)) : Upholds s t := by
  unfold takeEdge at h
  split at h <;> cases h
  exact .rest

/-- `BD.NEXT_BIT` (R130): a replayed bit, or a live one on the record it takes. -/
theorem upholds_nextBit {s : State} {r : Res Bool} (h : nextBit s = some r) : Upholds s r.final := by
  unfold nextBit at h
  split at h
  · obtain rfl := Option.some.inj h
    exact upholds_historyBit _ s
  · split at h
    · cases h
    · rename_i e t he
      obtain rfl := Option.some.inj h
      exact (upholds_takeEdge he).trans (upholds_liveBit e t)

theorem upholds_matcherInit (c : Columns) (s : State) : Upholds s (matcherInit c s).final := by
  unfold matcherInit
  split <;> exact .rest

theorem upholds_readerSetShape (rows : Rows) (columns : Columns) (r : FrameReader) (s : State) :
    Upholds s (readerSetShape rows columns r s).final := by
  unfold readerSetShape
  split <;> exact .rest

/-- FR.SET_SHAPE on a reader named (R181): the shape is checked before the reader takes it. -/
theorem upholds_andThen_setReader {rows : Rows} {columns : Columns} {r : FrameReader} {s : State} {n : ReaderName}
    {β : Type} {k : FrameReader → State → Res β} (hk : ∀ rd u, Upholds (u.setReader n rd) (k rd u).final) :
    Upholds s ((readerSetShape rows columns r s).andThen k).final :=
  (upholds_readerSetShape rows columns r s).andThen fun rd u hr => by
    obtain ⟨hshape, rfl, -⟩ := readerSetShape_eq_ok.1 hr
    exact (upholds_setReader (n := n) fun _ => readerLegal_readerShaped hshape r).trans (hk _ u)

/-! The driver. -/

theorem upholds_readerReset_driver (s : State) :
    Upholds s { s with fe := { s.fe with reader := readerReset s.fe.reader } } :=
  upholds_setReader (n := .driver) readerLegal_readerReset

theorem upholds_feStartRest (s : State) : Upholds s (feStartRest s) := (upholds_collectHistory true s).trans .rest

theorem upholds_feStepEnd (s : State) : Upholds s (feStepEnd s).final :=
  Upholds.trans .rest ((upholds_poll _).andThen fun _ u _ => .refl u)

theorem upholds_applyShapeChange (v : CtrlWord) (s : State) : Upholds s (applyShapeChange v s).final := by
  unfold applyShapeChange
  dsimp only
  split
  · split
    · exact upholds_andThen_setReader (n := .driver) fun _ _ => .rest
    · exact Upholds.trans .rest (upholds_readerReset_driver _)
  · exact upholds_readerReset_driver s

theorem upholds_acceptFrame (v : CtrlWord) (s : State) : Upholds s (acceptFrame v s).final :=
  (upholds_applyShapeChange v s).andThen fun _ u _ => (upholds_discardHistory u).trans .rest

theorem upholds_onLaterFrame (s : State) : Upholds s (onLaterFrame s).final := by
  unfold onLaterFrame
  dsimp only
  generalize syncLost _ _ = lost
  cases lost with
  | false => exact Upholds.trans .rest (upholds_acceptFrame _ _)
  | true => exact .rest

theorem upholds_onFrameComplete (s : State) : Upholds s (onFrameComplete s).final := by
  unfold onFrameComplete
  split
  · exact Upholds.trans .rest (upholds_acceptFrame _ _)
  · exact upholds_onLaterFrame s

theorem upholds_onReaderResult (r : ReaderResult) (s : State) : Upholds s (onReaderResult r s).final := by
  cases r with
  | frameComplete => exact upholds_onFrameComplete s
  | _ => exact .rest

theorem upholds_feBitRest (b : Bool) (s : State) : Upholds s (feBitRest b s).final :=
  (upholds_setReader (n := .driver) fun h => readerLegal_readerPush h b).trans <|
    (upholds_onReaderResult _ _).andThen fun _ u _ => upholds_feStepEnd u

theorem upholds_feResyncRest (rows : Rows) (columns : Columns) (s : State) :
    Upholds s (feResyncRest rows columns s).final :=
  Upholds.trans .rest <| upholds_andThen_setReader (n := .driver) fun r u =>
    (upholds_discardHistory { u with fe := { u.fe with reader := r } }).trans <|
      Upholds.trans .rest (upholds_feStepEnd _)

/-! The search. -/

theorem upholds_countBit (count : Nat) (s : State) : Upholds s (countBit count s).final := by
  unfold countBit
  split
  · exact (upholds_poll s).andThen fun _ u _ => .refl u
  · exact .refl s

theorem upholds_startCheck (ask : Asker) (rows : Rows) (columns : Columns) (count : Nat) (s : State) :
    Upholds s (startCheck ask rows columns count s).final :=
  (upholds_readerSetShape _ _ _ s).andThen fun _ u _ => .refl u

theorem upholds_startAlign (ask : Asker) (rows : Rows) (columns : Columns) (left count : Nat) (s : State) :
    Upholds s (startAlign ask rows columns left count s).final := by
  unfold startAlign
  split
  · exact upholds_startCheck ..
  · exact .refl s

theorem upholds_startTest (ask : Asker) (rows : Rows) (columns : Columns) (offset : Nat) (start matched : Mark)
    (count : Nat) (s : State) : Upholds s (startTest ask rows columns offset start matched count s).final := by
  unfold startTest
  split
  · refine (upholds_restore matched s).andThen fun _ u _ => ?_
    dsimp only
    split
    · exact (upholds_restore start u).andThen fun _ _ _ => upholds_startAlign ..
    · exact upholds_startAlign ..
  · exact upholds_raise _ s

theorem upholds_startColumn (who : Finder) (w : Scan) (c : Columns) (rest : List Columns) (count : Nat) (s : State) :
    Upholds s (startColumn who w c rest count s).final :=
  (upholds_restore _ s).andThen fun _ u _ => (upholds_matcherInit c u).andThen fun _ v _ => .refl v

theorem upholds_startWindow (who : Finder) (w : Scan) (count : Nat) (s : State) :
    Upholds s (startWindow who w count s).final := by
  unfold startWindow
  split
  · exact .refl s
  · exact upholds_startColumn ..

theorem upholds_advanceWindow (who : Finder) (w : Scan) (count : Nat) (s : State) :
    Upholds s (advanceWindow who w count s).final := by
  unfold advanceWindow
  split
  · exact .refl s
  · exact (upholds_discardHistory s).trans (upholds_startWindow ..)

theorem upholds_endColumn (who : Finder) (w : Scan) (count : Nat) (s : State) :
    Upholds s (endColumn who w count s).final := by
  refine (upholds_poll s).andThen fun _ u _ => ?_
  split
  · exact upholds_advanceWindow ..
  · exact upholds_startColumn ..

theorem upholds_continueScan (who : Finder) (w : Scan) (count : Nat) (s : State) :
    Upholds s (continueScan who w count s).final := by
  unfold continueScan
  split
  · exact .refl s
  · exact upholds_endColumn ..

theorem upholds_tryRows (who : Finder) (w : Scan) (rows : List Rows) (count : Nat) (s : State) :
    Upholds s (tryRows who w rows count s).final := by
  cases rows with
  | nil => exact upholds_continueScan ..
  | cons r rest => exact upholds_startTest ..

theorem upholds_scanBit (who : Finder) (w : Scan) (count : Nat) (b : Bool) (s : State) :
    Upholds s (scanBit who w count b s).final := by
  unfold scanBit
  dsimp only
  split
  · exact upholds_tryRows ..
  · exact upholds_continueScan ..

theorem upholds_foundSync (who : Finder) (rows : Rows) (columns : Columns) (s : State) :
    Upholds s (foundSync who rows columns s).final := by
  cases who with
  | command => exact .rest
  | driver => exact Upholds.trans .rest (upholds_feResyncRest rows columns _)

theorem upholds_finishCheck (ask : Asker) (entry : Mark) (n count : Nat) (s : State) :
    Upholds s (finishCheck ask entry n count s).final := by
  refine (upholds_restore entry s).andThen fun _ u _ => ?_
  cases ask with
  | check => exact .refl u
  | test => exact .refl u
  | search who w =>
    dsimp only
    split
    · exact upholds_foundSync ..
    · exact (upholds_restore _ u).andThen fun _ _ _ => upholds_tryRows ..

theorem upholds_nextFrame (ask : Asker) (c : Check) (v : CtrlWord) (count : Nat) (s : State) :
    Upholds s (nextFrame ask c v count s).final := by
  refine Upholds.andThen ?_ fun _ u _ => .refl u
  unfold nextReader
  split
  · exact upholds_readerSetShape ..
  · exact .refl s

theorem upholds_frameRead (ask : Asker) (c : Check) (count : Nat) (s : State) :
    Upholds s (frameRead ask c count s).final := by
  unfold frameRead
  dsimp only
  split
  · split
    · exact upholds_finishCheck ..
    · exact upholds_nextFrame ..
  · split
    · exact upholds_finishCheck ..
    · split
      · exact upholds_finishCheck ..
      · exact upholds_nextFrame ..

theorem upholds_checkBit (ask : Asker) (c : Check) (count : Nat) (b : Bool) (s : State) :
    Upholds s (checkBit ask c count b s).final := by
  unfold checkBit
  dsimp only
  split
  · exact .rest
  · exact (upholds_poll s).andThen fun _ _ _ => upholds_frameRead ..
  all_goals exact .refl s

theorem upholds_startResync (s : State) : Upholds s (startResync s).final :=
  (upholds_restore _ s).andThen fun _ _ _ => upholds_startWindow ..

/-- A command in progress on its bit. -/
theorem upholds_onBit (t : Task) (b : Bool) (s : State) : Upholds s (onBit t b s).final := by
  cases t with
  | nextBit => exact .refl s
  | skipBits left =>
    show Upholds s (if left ≤ 1 then _ else _ : Res Progress).final
    split <;> exact .refl s
  | feStart => exact upholds_feStartRest s
  | feBit => exact upholds_feBitRest b s
  | scan who w count => exact (upholds_countBit count s).andThen fun _ _ _ => upholds_scanBit ..
  | advance who w count => exact (upholds_countBit count s).andThen fun _ _ _ => upholds_advanceWindow ..
  | align ask rows columns left count => exact (upholds_countBit count s).andThen fun _ _ _ => upholds_startAlign ..
  | check ask c count => exact (upholds_countBit count s).andThen fun _ _ _ => upholds_checkBit ..

/-! ## The working values of a command in progress -/

/-- Where a part of a command goes on as a command in progress, that one is legal. -/
def NextLegal : Res Progress → Prop
  | .ok (.more t) _ => TaskLegal t
  | .ok (.done _) _ => True
  | .stop _ => True

theorem NextLegal.andThen {α : Type} {p : Res α} {k : α → State → Res Progress}
    (h : ∀ a u, p = .ok a u → NextLegal (k a u)) : NextLegal (p.andThen k) := by
  cases p with
  | ok a u => exact h a u rfl
  | stop u => trivial

theorem nextLegal_more {t : Task} {s : State} (h : TaskLegal t) : NextLegal (.ok (.more t) s) := h

theorem nextLegal_done (v : Value) (s : State) : NextLegal (.ok (.done v) s) := trivial

theorem nextLegal_raise (c : FaultCode) (s : State) : NextLegal (raise c s) := trivial

theorem nextLegal_of_ne_more {r : Res Progress} (h : ∀ t u, r ≠ .ok (.more t) u) : NextLegal r := by
  cases r with
  | stop u => trivial
  | ok p u =>
    cases p with
    | done v => trivial
    | more t => exact absurd rfl (h t u)

/-- A CHECK_SYNC between two frames: its reader is just shaped or reset. -/
theorem taskLegal_check_shaped {ask : Asker} {rows : Rows} {columns : Columns} {c : Check} (count : Nat)
    (ha : AskerLegal ask) (h : legalShape rows columns = true) (hn : c.framesOk < syncFrames) (r : FrameReader) :
    TaskLegal (.check ask { c with reader := readerShaped rows columns r } count) :=
  ⟨ha, readerLegal_readerShaped h r, ReaderState.noConfusion, hn⟩

theorem nextLegal_startCheck {ask : Asker} (ha : AskerLegal ask) (rows : Rows) (columns : Columns) (count : Nat)
    (s : State) : NextLegal (startCheck ask rows columns count s) := by
  refine NextLegal.andThen fun r u hr => ?_
  obtain ⟨h, rfl, -⟩ := readerSetShape_eq_ok.1 hr
  exact nextLegal_more
    (taskLegal_check_shaped (c := ⟨FrameReader.reset, 0, mark u, 0, false⟩) count ha h (Nat.zero_lt_succ _) _)

theorem nextLegal_startAlign {ask : Asker} {rows : Rows} {columns : Columns} (ha : AskerLegal ask)
    (h : legalShape rows columns = true) (left count : Nat) (s : State) :
    NextLegal (startAlign ask rows columns left count s) := by
  unfold startAlign
  split
  · exact nextLegal_startCheck ha ..
  · exact nextLegal_more ⟨ha, h, by omega⟩

theorem nextLegal_startTest {ask : Asker} (ha : AskerLegal ask) (rows : Rows) (columns : Columns) (offset : Nat)
    (start matched : Mark) (count : Nat) (s : State) :
    NextLegal (startTest ask rows columns offset start matched count s) := by
  unfold startTest
  split
  · rename_i h
    refine NextLegal.andThen fun _ u _ => ?_
    dsimp only
    split
    · exact NextLegal.andThen fun _ _ _ => nextLegal_startAlign ha h ..
    · exact nextLegal_startAlign ha h ..
  · exact nextLegal_raise ..

/-- A column window begins with the matcher SM.INIT makes, at offset 0 (R241). -/
theorem nextLegal_startColumn (who : Finder) (w : Scan) (c : Columns) (rest : List Columns) (count : Nat) (s : State) :
    NextLegal (startColumn who w c rest count s) := by
  refine NextLegal.andThen fun _ u _ => NextLegal.andThen fun m v hm => ?_
  obtain ⟨hc, rfl, -⟩ := matcherInit_eq_ok.1 hm
  have hlimit : 0 < searchLimit c := by simp [searchLimit, searchWindowBits]
  exact nextLegal_more ⟨matcherLegal_matcherNew hc, hlimit⟩

theorem nextLegal_startWindow (who : Finder) (w : Scan) (count : Nat) (s : State) :
    NextLegal (startWindow who w count s) := by
  unfold startWindow
  split
  · exact nextLegal_done ..
  · exact nextLegal_startColumn ..

theorem nextLegal_advanceWindow {w : Scan} (hw : MatcherLegal w.matcher) (who : Finder) (count : Nat) (s : State) :
    NextLegal (advanceWindow who w count s) := by
  unfold advanceWindow
  split
  · exact nextLegal_more hw
  · exact nextLegal_startWindow ..

theorem nextLegal_endColumn {w : Scan} (hw : MatcherLegal w.matcher) (who : Finder) (count : Nat) (s : State) :
    NextLegal (endColumn who w count s) := by
  refine NextLegal.andThen fun _ u _ => ?_
  split
  · exact nextLegal_advanceWindow hw ..
  · exact nextLegal_startColumn ..

theorem nextLegal_continueScan {w : Scan} (hw : MatcherLegal w.matcher) (who : Finder) (count : Nat) (s : State) :
    NextLegal (continueScan who w count s) := by
  unfold continueScan
  split
  · rename_i ho; exact nextLegal_more ⟨hw, ho⟩
  · exact nextLegal_endColumn hw ..

theorem nextLegal_tryRows {w : Scan} (hw : MatcherLegal w.matcher) (who : Finder) (rows : List Rows) (count : Nat)
    (s : State) : NextLegal (tryRows who w rows count s) := by
  cases rows with
  | nil => exact nextLegal_continueScan hw ..
  | cons r rest => exact nextLegal_startTest (ask := .search who { w with row := r, rowsLeft := rest }) hw ..

theorem nextLegal_scanBit {w : Scan} (hw : MatcherLegal w.matcher) (who : Finder) (count : Nat) (b : Bool) (s : State) :
    NextLegal (scanBit who w count b s) := by
  have hm := matcherLegal_matcherPush hw b
  unfold scanBit
  dsimp only
  split
  · exact nextLegal_tryRows (w := { w with matcher := _, offset := _, matchMark := _ }) hm ..
  · exact nextLegal_continueScan (w := { w with matcher := _, offset := _ }) hm ..

theorem nextLegal_finishCheck {ask : Asker} (ha : AskerLegal ask) (entry : Mark) (n count : Nat) (s : State) :
    NextLegal (finishCheck ask entry n count s) := by
  refine NextLegal.andThen fun _ u _ => ?_
  cases ask with
  | check => exact nextLegal_done ..
  | test => exact nextLegal_done ..
  | search who w =>
    dsimp only
    split
    · exact nextLegal_of_ne_more fun _ _ => foundSync_ne_more
    · exact NextLegal.andThen fun _ _ _ => nextLegal_tryRows ha ..

theorem nextLegal_nextFrame {ask : Asker} {c : Check} (ha : AskerLegal ask) (hr : ReaderLegal c.reader)
    (hn : c.framesOk < syncFrames) (v : CtrlWord) (count : Nat) (s : State) :
    NextLegal (nextFrame ask c v count s) := by
  refine NextLegal.andThen fun rd u hrd => ?_
  unfold nextReader at hrd
  split at hrd
  · obtain ⟨h, rfl, -⟩ := readerSetShape_eq_ok.1 hrd
    exact nextLegal_more (taskLegal_check_shaped (c := { c with cap := false }) count ha h hn _)
  · cases hrd
    exact nextLegal_more (taskLegal_check_shaped (c := { c with cap := false }) count ha hr.1 hn _)

theorem nextLegal_frameRead {ask : Asker} {c : Check} (ha : AskerLegal ask) (hr : ReaderLegal c.reader) (count : Nat)
    (s : State) : NextLegal (frameRead ask c count s) := by
  unfold frameRead
  dsimp only
  split
  · split
    · exact nextLegal_finishCheck ha ..
    · exact nextLegal_nextFrame (c := { c with gen := _, framesOk := 1 }) ha hr (by decide : 1 < syncFrames) ..
  · split
    · exact nextLegal_finishCheck ha ..
    · split
      · exact nextLegal_finishCheck ha ..
      · rename_i hn
        exact nextLegal_nextFrame (c := { c with gen := _, framesOk := c.framesOk + 1 }) ha hr (not_le.1 hn) ..

theorem nextLegal_checkBit {ask : Asker} {c : Check} (ha : AskerLegal ask) (hr : ReaderLegal c.reader)
    (hn : c.framesOk < syncFrames) (count : Nat) (b : Bool) (s : State) : NextLegal (checkBit ask c count b s) := by
  have hpush := readerLegal_readerPush hr b
  have hmore : (readerPush b c.reader).2 ≠ .frameComplete →
      ∀ cap, TaskLegal (.check ask { c with reader := (readerPush b c.reader).1, cap := cap } count) :=
    fun h _ => ⟨ha, hpush, readerPush_state_ne h, hn⟩
  unfold checkBit
  dsimp only
  split
  · rename_i h; exact nextLegal_more (hmore (by simp [h]) _)
  · exact NextLegal.andThen fun _ _ _ => nextLegal_frameRead ha hpush ..
  · rename_i h; exact nextLegal_more (hmore (by simp [h]) _)
  · rename_i h; exact nextLegal_more (hmore (by simp [h]) _)

/-- What a bit leads a legal command in progress to is legal. -/
theorem nextLegal_onBit {t : Task} (h : TaskLegal t) (b : Bool) (s : State) : NextLegal (onBit t b s) := by
  cases t with
  | nextBit => exact nextLegal_done ..
  | skipBits left =>
    show NextLegal (if left ≤ 1 then _ else _)
    split
    · exact nextLegal_done ..
    · exact nextLegal_more (show 1 ≤ left - 1 by omega)
  | feStart => exact nextLegal_done ..
  | feBit => exact nextLegal_of_ne_more fun _ _ => feBitRest_ne_more
  | scan who w count => exact NextLegal.andThen fun _ _ _ => nextLegal_scanBit h.1 ..
  | advance who w count => exact NextLegal.andThen fun _ _ _ => nextLegal_advanceWindow h ..
  | align ask rows columns left count =>
    obtain ⟨ha, hshape, -⟩ := h
    exact NextLegal.andThen fun _ _ _ => nextLegal_startAlign ha hshape ..
  | check ask c count =>
    obtain ⟨ha, hr, -, hn⟩ := h
    exact NextLegal.andThen fun _ _ _ => nextLegal_checkBit ha hr hn ..

/-! ## The step -/

/-- A run that starts with a legal command in progress ends with one wherever it waits. -/
theorem upholds_runTask {t : Task} {s u : State} (hu : Upholds s u) (ht : Legal s → TaskLegal t) (n : Nat) :
    Upholds s (runTask n t u) := by
  have hbit : ∀ {k v r x}, Upholds s v → nextBit v = some r → r.andThen (onBit k) = x → Upholds s x.final :=
    fun hv hb hx => hx ▸ hv.trans ((upholds_nextBit hb).andThen fun _ _ _ => upholds_onBit ..)
  refine runTask_induction (P := fun k v => Upholds s v ∧ (Legal s → TaskLegal k)) (Q := Upholds s)
    ?wait ?stop ?done ?more n t u ⟨hu, ht⟩
  case wait =>
    rintro k v ⟨hv, hk⟩
    refine ⟨fun hs => { hv.legal hs with inProgress := fun j hj => ?_ }, hv.index⟩
    obtain rfl : k = j := Option.some.inj hj
    exact hk hs
  case stop => exact fun _ _ _ _ h hb hr => hbit h.1 hb hr
  case done => exact fun _ _ _ _ _ h hb hr => (hbit h.1 hb hr).trans .rest
  case more =>
    rintro k v r k' v' ⟨hv, hk⟩ hb hr
    obtain ⟨b, w, -, hon⟩ := Res.andThen_eq_ok.1 hr
    refine ⟨hbit hv hb hr, fun hs => ?_⟩
    have hnext := nextLegal_onBit (hk hs) b w
    rwa [hon] at hnext

theorem upholds_atOnce {s : State} {r : Res Value} (h : Upholds s r.final) : Upholds s (atOnce r) := by
  cases r with
  | ok v u => exact h.trans .rest
  | stop u => exact h

theorem upholds_settle {s : State} {r : Res Progress} (h : Upholds s r.final) (hr : NextLegal r) :
    Upholds s (settle r) := by
  cases r with
  | stop u => exact h
  | ok p u =>
    cases p with
    | done v => exact h.trans .rest
    | more t => exact upholds_runTask h (fun _ => hr) _

theorem upholds_resume {t : Task} {s : State} (h : s.task = some t) : Upholds s (resume t s) :=
  upholds_runTask (s := s) (u := { s with task := none }) ⟨fun hs => { hs with inProgress := nofun }, id⟩
    (fun hs => hs.inProgress t h) _

theorem upholds_issue {s t : State} {body : State → State} (h : issue s body = .next t)
    (hbody : Upholds s (body s)) : Upholds s t := by
  rcases issue_cases s body with ⟨-, hi⟩ | ⟨-, -, hi⟩ | ⟨-, -, hi⟩
  · rw [hi] at h; cases h; exact .refl s
  · rw [hi] at h; cases h
  · rw [hi] at h; cases h; exact hbody

theorem upholds_readWord {w : WordName} {f : CtrlWord → Value} {s t : State} (h : readWord w f s = .next t) :
    Upholds s t := upholds_issue h .rest

theorem upholds_changeWord {w : WordName} {f : ControlWord → ControlWord} {s t : State}
    (hf : MaskLegal (s.word w) → MaskLegal (f (s.word w))) (h : changeWord w f s = .next t) : Upholds s t :=
  upholds_issue h (upholds_atOnce (upholds_setWord hf))

/-- HB.CLEAR by hand keeps a legal state legal (R122); the read index it may leave out of range. -/
theorem legal_execHbClear {s t : State} (hs : Legal s) (h : exec .hbClear s = .next t) : Legal t := by
  rcases issue_cases s (fun s => atOnce (.ok .none (histClear s))) with ⟨-, hi⟩ | ⟨-, -, hi⟩ | ⟨-, -, hi⟩
  · cases hi.symm.trans h; exact hs
  · cases hi.symm.trans h
  · cases hi.symm.trans h
    exact (Upholds.rest (s := histClear s)).legal (legal_histClear hs)

/-- Every command but HB.CLEAR upholds both invariants. -/
theorem upholds_exec {i : Instr} {s t : State} (hi : i ≠ .hbClear) (h : exec i s = .next t) : Upholds s t := by
  cases i <;> dsimp only [exec] at h
  case hbClear => exact absurd rfl hi
  case hbAppend level delta =>
    exact upholds_issue h (upholds_atOnce ((upholds_hbAppend level delta s).andThen fun _ _ _ => .refl _))
  case hbReadChain index =>
    exact upholds_issue h (upholds_atOnce ((upholds_hbReadChain index s).andThen fun _ _ _ => .refl _))
  case bdNextBit => exact upholds_issue h (upholds_settle (.refl s) (nextLegal_more trivial))
  case bdSkipBits n =>
    refine upholds_issue h (upholds_settle (by split <;> exact .refl s) ?_)
    split
    · exact nextLegal_done ..
    · rename_i hn
      exact nextLegal_more (Nat.one_le_iff_ne_zero.2 fun h => hn (BitVec.eq_of_toNat_eq h))
  case bdResetParity | bdIsParityOdd | bdCurrentSample | bdMark => exact upholds_issue h .rest
  case bdCollectHistory enable => exact upholds_issue h (upholds_atOnce (upholds_collectHistory enable s))
  case bdDiscardHistory => exact upholds_issue h (upholds_atOnce (upholds_discardHistory s))
  case bdRestore m => exact upholds_issue h (upholds_atOnce ((upholds_restore m s).andThen fun _ _ _ => .refl _))
  case smInit sm columns =>
    refine upholds_issue h (upholds_atOnce ((upholds_matcherInit columns s).andThen fun m u hm => ?_))
    obtain ⟨hc, rfl, -⟩ := matcherInit_eq_ok.1 hm
    exact upholds_setMatcher fun _ => matcherLegal_matcherNew hc
  case smPushBit sm bit =>
    exact upholds_issue h (upholds_atOnce (upholds_setMatcher fun hm => matcherLegal_matcherPush hm bit))
  case dsgSeed | dsgNext => exact upholds_issue h (upholds_atOnce (upholds_setGenerator ..))
  case frReset => exact upholds_issue h (upholds_atOnce (upholds_setReader readerLegal_readerReset))
  case frSetShape r rows columns =>
    exact upholds_issue h (upholds_atOnce (upholds_andThen_setReader (n := r) fun _ _ => .refl _))
  case frPushBit r bit =>
    exact upholds_issue h (upholds_atOnce (upholds_setReader fun hr => readerLegal_readerPush hr bit))
  case cwReset => exact upholds_changeWord (fun _ => maskLegal_cwReset) h
  case cwLoad w value => exact upholds_changeWord (fun _ => maskLegal_cwLoadWord value) h
  case cwPushBit w bit => exact upholds_changeWord (fun hw => maskLegal_cwPush hw bit) h
  case cwSkipBits w n => exact upholds_changeWord (fun hw => maskLegal_cwSkip hw n) h
  case sfFindSync => exact upholds_issue h (upholds_settle (upholds_startWindow ..) (nextLegal_startWindow ..))
  case sfTestIfSyncIsReal =>
    exact upholds_issue h (upholds_settle (upholds_startTest ..) (nextLegal_startTest (ask := .test) trivial ..))
  case sfCheckSync =>
    exact upholds_issue h (upholds_settle (upholds_startCheck ..) (nextLegal_startCheck (ask := .check) trivial ..))
  case feStart =>
    refine upholds_issue h (upholds_settle (by split <;> exact .rest) ?_)
    split
    · exact nextLegal_more trivial
    · exact nextLegal_raise ..
  case feStep =>
    refine upholds_issue h (upholds_settle (r := if _ then _ else _) ?_ ?_)
    · split
      · exact upholds_raise _ s
      · split
        · exact .refl s
        · exact upholds_startResync s
    · split
      · exact nextLegal_raise ..
      · split
        · exact nextLegal_more trivial
        · exact NextLegal.andThen fun _ _ _ => nextLegal_startWindow ..
  -- The commands left read a control word (44_control_word.md section 2).
  all_goals exact upholds_readWord h

/-- Taking a command from the port touches neither invariant. -/
theorem upholds_nextCommand {s u : State} {c : Except Reserved Instr} (h : nextCommand s = (c, u)) : Upholds s u := by
  rcases hc : s.commands with _ | ⟨c, rest⟩
  · rw [nextCommand_nil hc] at h; cases h; exact .refl s
  · rw [nextCommand_cons hc] at h; cases h; exact .rest

/-- The next command is HB.CLEAR only where the one at the head of the port is: the block's own sequence has none. -/
theorem nextCommand_ne_hbClear {s u : State} {i : Instr} (hs : ∀ c ∈ s.commands.head?, decode c ≠ .ok .hbClear)
    (h : nextCommand s = (.ok i, u)) : i ≠ .hbClear := by
  rintro rfl
  rcases hc : s.commands with _ | ⟨c, rest⟩
  · rw [nextCommand_nil hc, autonomous_eq] at h
    split at h <;> cases h
  · rw [nextCommand_cons hc, Prod.mk.injEq] at h
    exact hs c (by simp [hc]) h.1

/-- Settles O11: a step resumes a legal command in progress, issues a command, or faults, and each upholds `Legal`. -/
theorem stepKeepsLegal : Obligations.StepKeepsLegal := by
  intro s t hs h
  rcases step_eq_next h with ⟨k, hk, rfl⟩ | ⟨i, u, hn, hi⟩ | ⟨e, u, hn, rfl⟩
  · exact (upholds_resume hk).legal hs
  · have hu := (upholds_nextCommand hn).legal hs
    by_cases hc : i = .hbClear
    · exact legal_execHbClear hu (hc ▸ hi)
    · exact (upholds_exec hc hi).legal hu
  · exact ((upholds_nextCommand hn).trans .rest).legal hs

/-- Settles O12: every command but HB.CLEAR writes the read index to SENTINEL or below `HB.size`, or leaves it with a
history no shorter. -/
theorem stepKeepsIndexInRange : Obligations.StepKeepsIndexInRange := by
  intro s t hs hc h
  rcases step_eq_next h with ⟨k, hk, rfl⟩ | ⟨i, u, hn, hi⟩ | ⟨e, u, hn, rfl⟩
  · exact (upholds_resume hk).index hs
  · exact ((upholds_nextCommand hn).trans (upholds_exec (nextCommand_ne_hbClear hc hn) hi)).index hs
  · exact ((upholds_nextCommand hn).trans .rest).index hs

end Sys2Proof.Machine
end

section
/-! PROOFS. The configuration register `suppress_duplicate_pings` is read nowhere (R41): writing it commutes with every
part of a command, and so with every step. -/

namespace Sys2Proof.Machine

open Sys2Proof

/-- The state with `CFG.suppress_duplicate_pings` at `b` (R41). -/
def State.suppressing (b : Bool) (s : State) : State := { s with cfg := { s.cfg with suppressDuplicatePings := b } }

/-- The same end of a part of a command, with the flag at `b`. -/
def Res.suppressing {α : Type} (b : Bool) : Res α → Res α
  | .ok a s => .ok a (s.suppressing b)
  | .stop s => .stop (s.suppressing b)

/-- The same outcome, with the flag at `b`. -/
def outSuppressing (b : Bool) : Out → Out
  | .next t => .next (t.suppressing b)
  | .fault f => .fault f
  | .refused r => .refused r

/-- A sequence commutes with the flag where both its parts do. -/
theorem Res.suppressing_andThen {b : Bool} {α β : Type} {r r' : Res α} {k k' : α → State → Res β}
    (h : r' = r.suppressing b) (hk : ∀ a u, k' a (u.suppressing b) = (k a u).suppressing b) :
    r'.andThen k' = (r.andThen k).suppressing b := by
  subst h
  cases r with
  | ok a u => exact hk a u
  | stop u => rfl

/-! A lemma about an operation that others use on a state they have changed takes that state as `s'`: by `rfl` it is one
with the flag written. -/

section

variable {b : Bool} {s s' : State}

/-! ## The instances commands name -/

theorem reader_suppressing {n : ReaderName} : (s.suppressing b).reader n = s.reader n := by
  cases n <;> rfl

theorem generator_suppressing {g : GenName} : (s.suppressing b).generator g = s.generator g := by
  cases g <;> rfl

theorem word_suppressing {w : WordName} : (s.suppressing b).word w = s.word w := by
  cases w with
  | ofReader n => exact congrArg FrameReader.cw reader_suppressing
  | ephemeral k => rfl

theorem setGenerator_suppressing {g : GenName} {v : DSync} :
    (s.suppressing b).setGenerator g v = (s.setGenerator g v).suppressing b := by
  cases g <;> rfl

theorem setReader_suppressing {n : ReaderName} {r : FrameReader} :
    (s.suppressing b).setReader n r = (s.setReader n r).suppressing b := by
  cases n <;> rfl

theorem setWord_suppressing {n : WordName} {w : ControlWord} :
    (s.suppressing b).setWord n w = (s.setWord n w).suppressing b := by
  cases n with
  | ofReader r => simp only [State.setWord, reader_suppressing, setReader_suppressing]
  | ephemeral k => rfl

/-! ## The shared operations -/

theorem poll_suppressing (h : s' = s.suppressing b := by rfl) : poll s' = (poll s).suppressing b := by
  subst h
  unfold poll
  show (match s.cancel with | [] => _ | c :: rest => _) = _
  rcases s.cancel with _ | ⟨c, rest⟩
  · rfl
  · cases c <;> rfl

theorem histAppendChain_suppressing {c : List Entry} :
    histAppendChain c (s.suppressing b) = (histAppendChain c s).suppressing b := by
  show (if s.hb.size + c.length > s.cfg.historyCapacity then _ else _) = _
  unfold histAppendChain
  split <;> rfl

theorem hbReadChain_suppressing {i : Nat} : hbReadChain i (s.suppressing b) = (hbReadChain i s).suppressing b := by
  unfold hbReadChain
  show (match decodeChain (s.hb.entries.drop i) with | none => _ | some (level, delta, n) => _) = _
  rcases decodeChain (s.hb.entries.drop i) with _ | ⟨level, delta, n⟩ <;> rfl

theorem restore_suppressing {m : Mark} : restore m (s.suppressing b) = (restore m s).suppressing b := by
  show (if m.epoch ≠ s.hb.epoch then _ else if m.index > s.hb.size then _ else _) = _
  unfold restore
  split
  · rfl
  · split <;> rfl

theorem discardHistory_suppressing : discardHistory (s.suppressing b) = (discardHistory s).suppressing b := by
  unfold discardHistory
  show (match s.bd.nextHistoryReadIndex with | .sentinel => _ | .entry _ => _) = _
  cases s.bd.nextHistoryReadIndex <;> rfl

theorem collectHistory_suppressing {enable : Bool} :
    collectHistory enable (s.suppressing b) = (collectHistory enable s).suppressing b := by
  cases enable with
  | false => rfl
  | true =>
    simp only [collectHistory, if_true, discardHistory_suppressing]
    rfl

theorem busResetCount_suppressing {bit : Bool} (h : s' = s.suppressing b := by rfl) :
    busResetCount bit s' = (busResetCount bit s).suppressing b := by
  subst h
  cases bit with
  | false => rfl
  | true =>
    by_cases h : (s.bd.contiguousToggleCount + 1).toNat = 4096
    · rw [busResetCount_true_of_eq h, busResetCount_true_of_eq (by exact h)]; rfl
    · rw [busResetCount_true_of_ne h, busResetCount_true_of_ne (by exact h)]; rfl

theorem historyBit_suppressing {i : Nat} : historyBit i (s.suppressing b) = (historyBit i s).suppressing b :=
  Res.suppressing_andThen hbReadChain_suppressing fun _ _ => rfl

theorem collectEdge_suppressing {e : Edge} : collectEdge e (s.suppressing b) = (collectEdge e s).suppressing b := by
  show (if s.bd.collectHistory then _ else _) = _
  unfold collectEdge
  split
  · exact histAppendChain_suppressing
  · rfl

theorem liveBit_suppressing {e : Edge} : liveBit e (s.suppressing b) = (liveBit e s).suppressing b :=
  Res.suppressing_andThen collectEdge_suppressing fun _ _ => congrArg (Res.ok _) busResetCount_suppressing

theorem takeEdge_suppressing :
    takeEdge (s.suppressing b) = (takeEdge s).map fun p => (p.1, p.2.suppressing b) := by
  unfold takeEdge
  show (match s.edges with | [] => _ | e :: rest => _) = _
  cases s.edges <;> rfl

/-- `BD.NEXT_BIT` (R130). -/
theorem nextBit_suppressing : nextBit (s.suppressing b) = (nextBit s).map (Res.suppressing b) := by
  unfold nextBit
  rw [takeEdge_suppressing]
  show (match s.bd.nextHistoryReadIndex with | .entry i => _ | .sentinel => _) = _
  cases s.bd.nextHistoryReadIndex with
  | entry i => exact congrArg some historyBit_suppressing
  | sentinel =>
    rcases takeEdge s with _ | ⟨e, t⟩
    · rfl
    · exact congrArg some liveBit_suppressing

theorem matcherInit_suppressing {c : Columns} :
    matcherInit c (s.suppressing b) = (matcherInit c s).suppressing b := by
  unfold matcherInit
  split <;> rfl

theorem readerSetShape_suppressing {rows : Rows} {columns : Columns} {r : FrameReader}
    (h : s' = s.suppressing b := by rfl) :
    readerSetShape rows columns r s' = (readerSetShape rows columns r s).suppressing b := by
  subst h
  unfold readerSetShape
  split <;> rfl

/-! ## The driver -/

theorem feStartRest_suppressing : feStartRest (s.suppressing b) = (feStartRest s).suppressing b := by
  simp only [feStartRest, collectHistory_suppressing]
  rfl

theorem feStepEnd_suppressing (h : s' = s.suppressing b := by rfl) : feStepEnd s' = (feStepEnd s).suppressing b := by
  subst h
  exact Res.suppressing_andThen poll_suppressing fun _ _ => rfl

theorem applyShapeChange_suppressing {v : CtrlWord} :
    applyShapeChange v (s.suppressing b) = (applyShapeChange v s).suppressing b := by
  unfold applyShapeChange
  dsimp only
  split
  · split
    · exact Res.suppressing_andThen readerSetShape_suppressing fun _ _ => rfl
    · rfl
  · rfl

theorem acceptFrame_suppressing {v : CtrlWord} (h : s' = s.suppressing b := by rfl) :
    acceptFrame v s' = (acceptFrame v s).suppressing b := by
  subst h
  refine Res.suppressing_andThen applyShapeChange_suppressing fun _ u => ?_
  simp only [discardHistory_suppressing]
  rfl

theorem onLaterFrame_suppressing : onLaterFrame (s.suppressing b) = (onLaterFrame s).suppressing b := by
  unfold onLaterFrame
  dsimp only
  rw [apply_ite (Res.suppressing b)]
  exact ite_congr rfl (fun _ => rfl) fun _ => acceptFrame_suppressing

theorem onFrameComplete_suppressing : onFrameComplete (s.suppressing b) = (onFrameComplete s).suppressing b := by
  show (if s.fe.firstFrame then _ else _) = _
  unfold onFrameComplete
  split
  · exact acceptFrame_suppressing
  · exact onLaterFrame_suppressing

theorem onReaderResult_suppressing {r : ReaderResult} (h : s' = s.suppressing b := by rfl) :
    onReaderResult r s' = (onReaderResult r s).suppressing b := by
  subst h
  cases r with
  | frameComplete => exact onFrameComplete_suppressing
  | _ => rfl

theorem feBitRest_suppressing {bit : Bool} : feBitRest bit (s.suppressing b) = (feBitRest bit s).suppressing b :=
  Res.suppressing_andThen onReaderResult_suppressing fun _ _ => feStepEnd_suppressing

theorem feResyncRest_suppressing {rows : Rows} {columns : Columns} (h : s' = s.suppressing b := by rfl) :
    feResyncRest rows columns s' = (feResyncRest rows columns s).suppressing b := by
  subst h
  refine Res.suppressing_andThen readerSetShape_suppressing fun r u => ?_
  exact feStepEnd_suppressing
    (congrArg (fun v : State => { v with fe := { v.fe with inSync := true, firstFrame := true } })
      (discardHistory_suppressing (s := { u with fe := { u.fe with reader := r } })))

/-! ## The search -/

theorem countBit_suppressing {count : Nat} : countBit count (s.suppressing b) = (countBit count s).suppressing b := by
  unfold countBit
  split
  · exact Res.suppressing_andThen poll_suppressing fun _ _ => rfl
  · rfl

theorem startCheck_suppressing {ask : Asker} {rows : Rows} {columns : Columns} {count : Nat} :
    startCheck ask rows columns count (s.suppressing b) = (startCheck ask rows columns count s).suppressing b :=
  Res.suppressing_andThen readerSetShape_suppressing fun _ _ => rfl

theorem startAlign_suppressing {ask : Asker} {rows : Rows} {columns : Columns} {left count : Nat} :
    startAlign ask rows columns left count (s.suppressing b) =
      (startAlign ask rows columns left count s).suppressing b := by
  unfold startAlign
  split
  · exact startCheck_suppressing
  · rfl

theorem startTest_suppressing {ask : Asker} {rows : Rows} {columns : Columns} {offset count : Nat}
    {start matched : Mark} :
    startTest ask rows columns offset start matched count (s.suppressing b) =
      (startTest ask rows columns offset start matched count s).suppressing b := by
  unfold startTest
  split
  · refine Res.suppressing_andThen restore_suppressing fun _ u => ?_
    dsimp only
    split
    · exact Res.suppressing_andThen restore_suppressing fun _ _ => startAlign_suppressing
    · exact startAlign_suppressing
  · rfl

theorem startColumn_suppressing {who : Finder} {w : Scan} {c : Columns} {rest : List Columns} {count : Nat} :
    startColumn who w c rest count (s.suppressing b) = (startColumn who w c rest count s).suppressing b :=
  Res.suppressing_andThen restore_suppressing fun _ _ =>
    Res.suppressing_andThen matcherInit_suppressing fun _ _ => rfl

theorem startWindow_suppressing {who : Finder} {w : Scan} {count : Nat} :
    startWindow who w count (s.suppressing b) = (startWindow who w count s).suppressing b := by
  unfold startWindow
  cases columnCandidates w.columnsHint with
  | nil => rfl
  | cons c rest => exact startColumn_suppressing

theorem advanceWindow_suppressing {who : Finder} {w : Scan} {count : Nat} :
    advanceWindow who w count (s.suppressing b) = (advanceWindow who w count s).suppressing b := by
  unfold advanceWindow
  rw [discardHistory_suppressing]
  show (match s.bd.nextHistoryReadIndex with | .entry _ => _ | .sentinel => _) = _
  cases s.bd.nextHistoryReadIndex with
  | entry i => rfl
  | sentinel => exact startWindow_suppressing

theorem endColumn_suppressing {who : Finder} {w : Scan} {count : Nat} :
    endColumn who w count (s.suppressing b) = (endColumn who w count s).suppressing b := by
  refine Res.suppressing_andThen poll_suppressing fun _ u => ?_
  cases w.columnsLeft with
  | nil => exact advanceWindow_suppressing
  | cons c rest => exact startColumn_suppressing

theorem continueScan_suppressing {who : Finder} {w : Scan} {count : Nat} :
    continueScan who w count (s.suppressing b) = (continueScan who w count s).suppressing b := by
  unfold continueScan
  split
  · rfl
  · exact endColumn_suppressing

theorem tryRows_suppressing {who : Finder} {w : Scan} {rows : List Rows} {count : Nat} :
    tryRows who w rows count (s.suppressing b) = (tryRows who w rows count s).suppressing b := by
  cases rows with
  | nil => exact continueScan_suppressing
  | cons r rest => exact startTest_suppressing

theorem scanBit_suppressing {who : Finder} {w : Scan} {count : Nat} {bit : Bool} :
    scanBit who w count bit (s.suppressing b) = (scanBit who w count bit s).suppressing b := by
  unfold scanBit
  dsimp only
  split
  · exact tryRows_suppressing
  · exact continueScan_suppressing

theorem foundSync_suppressing {who : Finder} {rows : Rows} {columns : Columns} :
    foundSync who rows columns (s.suppressing b) = (foundSync who rows columns s).suppressing b := by
  cases who with
  | command => rfl
  | driver => exact feResyncRest_suppressing (s := { s with sf := ⟨rows, columns⟩ })

theorem finishCheck_suppressing {ask : Asker} {entry : Mark} {n count : Nat} :
    finishCheck ask entry n count (s.suppressing b) = (finishCheck ask entry n count s).suppressing b := by
  refine Res.suppressing_andThen restore_suppressing fun _ u => ?_
  cases ask with
  | check => rfl
  | test => rfl
  | search who w =>
    dsimp only
    split
    · exact foundSync_suppressing
    · exact Res.suppressing_andThen restore_suppressing fun _ _ => tryRows_suppressing

theorem nextReader_suppressing {v : CtrlWord} {r : FrameReader} :
    nextReader v r (s.suppressing b) = (nextReader v r s).suppressing b := by
  unfold nextReader
  split
  · exact readerSetShape_suppressing
  · rfl

theorem nextFrame_suppressing {ask : Asker} {c : Check} {v : CtrlWord} {count : Nat} :
    nextFrame ask c v count (s.suppressing b) = (nextFrame ask c v count s).suppressing b :=
  Res.suppressing_andThen nextReader_suppressing fun _ _ => rfl

theorem frameRead_suppressing {ask : Asker} {c : Check} {count : Nat} :
    frameRead ask c count (s.suppressing b) = (frameRead ask c count s).suppressing b := by
  unfold frameRead
  dsimp only
  split
  · split
    · exact finishCheck_suppressing
    · exact nextFrame_suppressing
  · split
    · exact finishCheck_suppressing
    · split
      · exact finishCheck_suppressing
      · exact nextFrame_suppressing

theorem checkBit_suppressing {ask : Asker} {c : Check} {count : Nat} {bit : Bool} :
    checkBit ask c count bit (s.suppressing b) = (checkBit ask c count bit s).suppressing b := by
  unfold checkBit
  dsimp only
  cases (readerPush bit c.reader).2 with
  | frameComplete => exact Res.suppressing_andThen poll_suppressing fun _ _ => frameRead_suppressing
  | _ => rfl

theorem startResync_suppressing : startResync (s.suppressing b) = (startResync s).suppressing b :=
  Res.suppressing_andThen restore_suppressing fun _ _ => startWindow_suppressing

/-! ## How a command runs -/

/-- A command in progress on its bit. -/
theorem onBit_suppressing {t : Task} {bit : Bool} :
    onBit t bit (s.suppressing b) = (onBit t bit s).suppressing b := by
  cases t with
  | nextBit => rfl
  | skipBits left =>
    simp only [onBit]
    split <;> rfl
  | feStart => exact congrArg (Res.ok _) feStartRest_suppressing
  | feBit => exact feBitRest_suppressing
  | scan who w count => exact Res.suppressing_andThen countBit_suppressing fun _ _ => scanBit_suppressing
  | advance who w count => exact Res.suppressing_andThen countBit_suppressing fun _ _ => advanceWindow_suppressing
  | align ask rows columns left count =>
    exact Res.suppressing_andThen countBit_suppressing fun _ _ => startAlign_suppressing
  | check ask c count => exact Res.suppressing_andThen countBit_suppressing fun _ _ => checkBit_suppressing

theorem runTask_suppressing {n : Nat} {t : Task} (h : s' = s.suppressing b := by rfl) :
    runTask n t s' = (runTask n t s).suppressing b := by
  subst h
  induction n generalizing t s with
  | zero => rfl
  | succ n ih =>
    rw [runTask_succ, runTask_succ, nextBit_suppressing]
    cases nextBit s with
    | none => rfl
    | some r =>
      have hbit : (r.suppressing b).andThen (onBit t) = (r.andThen (onBit t)).suppressing b :=
        Res.suppressing_andThen rfl fun _ _ => onBit_suppressing
      simp only [Option.map_some, hbit]
      cases r.andThen (onBit t) with
      | stop u => rfl
      | ok p u =>
        cases p with
        | done v => rfl
        | more t' => exact ih

theorem atOnce_suppressing {r : Res Value} : atOnce (r.suppressing b) = (atOnce r).suppressing b := by
  cases r <;> rfl

theorem settle_suppressing {r : Res Progress} : settle (r.suppressing b) = (settle r).suppressing b := by
  cases r with
  | stop u => rfl
  | ok p u =>
    cases p with
    | done v => rfl
    | more t => exact runTask_suppressing

theorem resume_suppressing {t : Task} : resume t (s.suppressing b) = (resume t s).suppressing b :=
  runTask_suppressing (s := { s with task := none })

theorem waiting_suppressing : waiting (s.suppressing b) = waiting s := by
  unfold waiting
  rw [nextBit_suppressing]
  show (match s.task, (nextBit s).map (Res.suppressing b) with | some _, none => true | _, _ => false) = _
  cases s.task <;> cases nextBit s <;> rfl

theorem issue_suppressing {body : State → State} (h : body (s.suppressing b) = (body s).suppressing b) :
    issue (s.suppressing b) body = outSuppressing b (issue s body) := by
  unfold issue
  rw [h]
  show (if statusEnded s.status then _ else match s.task with | some _ => _ | none => _) = _
  split
  · rfl
  · cases s.task <;> rfl

/-- A command that completes at once, or stops. -/
theorem issue_atOnce_suppressing {r : State → Res Value} (h : r (s.suppressing b) = (r s).suppressing b) :
    issue (s.suppressing b) (fun s => atOnce (r s)) = outSuppressing b (issue s fun s => atOnce (r s)) :=
  issue_suppressing (by rw [h, atOnce_suppressing])

/-- A command that may take decoded bits. -/
theorem issue_settle_suppressing {r : State → Res Progress} (h : r (s.suppressing b) = (r s).suppressing b) :
    issue (s.suppressing b) (fun s => settle (r s)) = outSuppressing b (issue s fun s => settle (r s)) :=
  issue_suppressing (by rw [h, settle_suppressing])

theorem readWord_suppressing {w : WordName} {f : CtrlWord → Value} :
    readWord w f (s.suppressing b) = outSuppressing b (readWord w f s) :=
  issue_atOnce_suppressing (by rw [word_suppressing]; rfl)

theorem changeWord_suppressing {w : WordName} {f : ControlWord → ControlWord} :
    changeWord w f (s.suppressing b) = outSuppressing b (changeWord w f s) :=
  issue_atOnce_suppressing (by rw [word_suppressing, setWord_suppressing]; rfl)

/-- Every command. -/
theorem exec_suppressing {i : Instr} : exec i (s.suppressing b) = outSuppressing b (exec i s) := by
  cases i <;> dsimp only [exec]
  case hbAppend =>
    exact issue_atOnce_suppressing (Res.suppressing_andThen histAppendChain_suppressing fun _ _ => rfl)
  case hbReadChain => exact issue_atOnce_suppressing (Res.suppressing_andThen hbReadChain_suppressing fun _ _ => rfl)
  case bdNextBit => exact issue_settle_suppressing rfl
  case bdSkipBits n => exact issue_settle_suppressing (by split <;> rfl)
  case hbClear | bdResetParity | bdIsParityOdd | bdCurrentSample | bdMark => exact issue_atOnce_suppressing rfl
  case bdCollectHistory => exact issue_atOnce_suppressing (congrArg (Res.ok _) collectHistory_suppressing)
  case bdDiscardHistory => exact issue_atOnce_suppressing (congrArg (Res.ok _) discardHistory_suppressing)
  case bdRestore => exact issue_atOnce_suppressing (Res.suppressing_andThen restore_suppressing fun _ _ => rfl)
  case smInit => exact issue_atOnce_suppressing (Res.suppressing_andThen matcherInit_suppressing fun _ _ => rfl)
  case smPushBit => exact issue_atOnce_suppressing rfl
  case dsgSeed => exact issue_atOnce_suppressing (congrArg (Res.ok _) setGenerator_suppressing)
  case dsgNext => exact issue_atOnce_suppressing (by rw [generator_suppressing, setGenerator_suppressing]; rfl)
  case frReset => exact issue_atOnce_suppressing (by rw [reader_suppressing, setReader_suppressing]; rfl)
  case frSetShape =>
    refine issue_atOnce_suppressing ?_
    rw [reader_suppressing]
    exact Res.suppressing_andThen readerSetShape_suppressing fun _ _ => congrArg (Res.ok _) setReader_suppressing
  case frPushBit => exact issue_atOnce_suppressing (by rw [reader_suppressing, setReader_suppressing]; rfl)
  case cwReset | cwLoad | cwPushBit | cwSkipBits => exact changeWord_suppressing
  case sfFindSync => exact issue_settle_suppressing startWindow_suppressing
  case sfTestIfSyncIsReal => exact issue_settle_suppressing startTest_suppressing
  case sfCheckSync => exact issue_settle_suppressing startCheck_suppressing
  case feStart =>
    refine issue_settle_suppressing ?_
    show (if s.status = .idle then _ else _) = _
    split <;> rfl
  case feStep =>
    refine issue_settle_suppressing ?_
    show (if s.status ≠ .running ∨ s.fe.started = false then _ else if s.fe.inSync then _ else _) = _
    split
    · rfl
    · split
      · rfl
      · exact startResync_suppressing
  -- The commands left read a control word (44_control_word.md section 2).
  all_goals exact readWord_suppressing

theorem nextCommand_suppressing :
    nextCommand (s.suppressing b) = ((nextCommand s).1, (nextCommand s).2.suppressing b) := by
  cases h : s.commands with
  | nil => rw [nextCommand_nil h, nextCommand_nil (by exact h)]; rfl
  | cons c rest => rw [nextCommand_cons h, nextCommand_cons (by exact h)]; rfl

theorem step_suppressing : step (s.suppressing b) = outSuppressing b (step s) := by
  unfold step
  rw [nextCommand_suppressing, waiting_suppressing]
  show (if statusEnded s.status then _ else match s.task with | some t => _ | none => _) = _
  split
  · rfl
  · cases s.task with
    | some t =>
      dsimp only
      split
      · rfl
      · exact congrArg Host.Outcome.next resume_suppressing
    | none =>
      rcases nextCommand s with ⟨_ | i, u⟩
      · rfl
      · exact exec_suppressing

end

/-- Settles O14: every part of a command commutes with writing the flag, and so does every step. -/
theorem suppressionFlagIsNotRead : Obligations.SuppressionFlagIsNotRead := by
  intro s b
  have h : step (s.suppressing b) = outSuppressing b (step s) := step_suppressing
  revert h
  cases step s <;> exact id

end Sys2Proof.Machine
end

section
/-! PROOFS. Chains of the history are read back as they were written (R82, R83): decoding undoes encoding, and a chain that
decodes does so whatever is appended after it. -/

namespace Sys2Proof.Machine

open Sys2Proof

/-- A chain taken from the head of a list is taken from any longer list. -/
theorem takeChain_append {fuel : Nat} {es c : List Entry} (h : takeChain fuel es = some c) (more : List Entry) :
    takeChain fuel (es ++ more) = some c := by
  induction fuel generalizing es c with
  | zero => exact absurd h (by simp [takeChain])
  | succ n ih =>
    cases es with
    | nil => exact absurd h (by simp [takeChain])
    | cons e rest =>
      simp only [List.cons_append, takeChain] at h ⊢
      split
      · rename_i hm
        rw [if_pos hm] at h
        obtain ⟨c', hc, rfl⟩ := Option.map_eq_some_iff.1 h
        rw [ih hc, Option.map_some]
      · rename_i hm
        rwa [if_neg hm] at h

/-- A chain that decodes does so whatever follows in the history (R63, R83). -/
theorem decodeChain_append {es : List Entry} {r : Bool × Sample × Nat} (h : decodeChain es = some r)
    (more : List Entry) : decodeChain (es ++ more) = some r := by
  unfold decodeChain at h ⊢
  cases hc : takeChain maxChainEntries es with
  | none => simp [hc] at h
  | some c => rwa [takeChain_append hc, ← hc]

@[simp] theorem entryFrag_mkEntry (l m : Bool) (f : BitVec 14) : entryFrag (mkEntry l m f) = f := by
  unfold entryFrag mkEntry
  ext i hi
  rw [BitVec.getElem_extractLsb', BitVec.getLsbD_append, BitVec.getLsbD_append]
  simp [hi, show i < 15 by omega]

/-- Every entry of a chain written carries its level (R81, R82). -/
theorem entryLevel_of_mem_encodeChainFrom {fuel : Nat} {level : Bool} {delta : Sample} {e : Entry}
    (h : e ∈ encodeChainFrom fuel level delta) : entryLevel e = level := by
  induction fuel generalizing delta with
  | zero => exact absurd h List.not_mem_nil
  | succ n ih =>
    unfold encodeChainFrom at h
    split at h
    · simp_all
    · rcases List.mem_cons.1 h with rfl | h
      · simp
      · exact ih h

/-- A delta is its bits above the lowest fragment, and that fragment (R80). -/
theorem shiftLeft_or_fragment (delta : Sample) :
    ((delta >>> 14) <<< 14) ||| (delta.extractLsb' 0 14).setWidth 64 = delta := by
  ext i hi
  by_cases h : i < 14
  · simp [h, BitVec.getLsbD_eq_getElem hi]
  · simp [h, Nat.add_sub_cancel' (Nat.le_of_not_lt h), BitVec.getLsbD_eq_getElem hi]

/-- With entries enough for the delta, the chain written is taken back whole and carries the delta (R82, R83). -/
theorem takeChain_encodeChainFrom {fuel : Nat} (level : Bool) {delta : Sample} (hf : 1 ≤ fuel)
    (hd : delta.toNat < 2 ^ (14 * fuel)) :
    takeChain fuel (encodeChainFrom fuel level delta) = some (encodeChainFrom fuel level delta) ∧
      chainDelta (encodeChainFrom fuel level delta) = delta := by
  induction fuel generalizing delta with
  | zero => omega
  | succ n ih =>
    have hfrag := shiftLeft_or_fragment delta
    have htop : (delta >>> 14).toNat < 2 ^ (14 * n) := by
      rw [BitVec.toNat_ushiftRight, Nat.shiftRight_eq_div_pow]
      exact Nat.div_lt_of_lt_mul (by rwa [← pow_add, show 14 + 14 * n = 14 * (n + 1) by omega])
    unfold encodeChainFrom
    split
    · rename_i h0
      rw [h0] at hfrag
      exact ⟨by simp [takeChain], by simpa [chainDelta] using hfrag⟩
    · rename_i hne
      have hn : 1 ≤ n := by
        by_contra h0
        obtain rfl : n = 0 := by omega
        exact hne (BitVec.eq_of_toNat_eq (by simpa using htop))
      obtain ⟨htake, hdelta⟩ := ih hn htop
      refine ⟨by simp [takeChain, htake], ?_⟩
      have hcons : ∀ (e : Entry) (c : List Entry),
        chainDelta (e :: c) = (chainDelta c <<< 14) ||| (entryFrag e).setWidth 64 := fun _ _ => rfl
      rw [hcons, hdelta, entryFrag_mkEntry, hfrag]

/-- Decoding undoes encoding (R82, R83). -/
theorem decodeChain_encodeChain (level : Bool) (delta : Sample) :
    decodeChain (encodeChain level delta) = some (level, delta, (encodeChain level delta).length) := by
  obtain ⟨htake, hdelta⟩ : takeChain maxChainEntries (encodeChain level delta) = some (encodeChain level delta) ∧
      chainDelta (encodeChain level delta) = delta :=
    takeChain_encodeChainFrom level (by decide) (delta.isLt.trans (by decide))
  have hlevel : chainLevel (encodeChain level delta) = some level := by
    have hpos := (takeChain_length htake).1
    have hall : ∀ e ∈ encodeChain level delta, entryLevel e = level := fun _ => entryLevel_of_mem_encodeChainFrom
    cases hc : encodeChain level delta with
    | nil => simp [hc] at hpos
    | cons e rest =>
      rw [hc] at hall
      simp_all [chainLevel]
  simp only [decodeChain, htake, hlevel, hdelta]

end Sys2Proof.Machine
end

section
/-! PROOFS. The replay of marked bits (R72, R144). With collection on, every bit read is one chain of the history between
the mark before it and the mark after it, whether it was replayed or live. So the decoder restored to the first mark reads
that bit and stands at the second, in every later state that still holds the chain. -/

namespace Sys2Proof.Machine

open Sys2Proof

/-! ## BD.NEXT_BIT and BD.RESTORE as commands -/

/-- Where no bit is read but the command stops, a fault ended the run: HISTORY_CORRUPT on the history path (R317), or
HISTORY_OVERFLOW on the live one (R312). -/
theorem nextBit_stop_ended {s t : State} (h : nextBit s = some (.stop t)) : statusEnded t.status = true := by
  rcases nextBit_eq_some_stop.1 h with ⟨i, -, hb⟩ | ⟨-, e, rest, -, hb⟩
  · rcases Res.andThen_eq_stop.1 hb with hr | ⟨_, _, -, hk⟩
    · rw [(hbReadChain_eq_stop.1 hr).2]; rfl
    · cases hk
  · rcases Res.andThen_eq_stop.1 hb with hc | ⟨_, _, -, hk⟩
    · unfold collectEdge at hc
      split at hc
      · rw [(histAppendChain_eq_stop.1 hc).2]; rfl
      · cases hc
    · cases hk

/-- BD.NEXT_BIT is the command in progress that waits for one bit. -/
theorem exec_bdNextBit {s : State} (hs : Ready s) : exec .bdNextBit s = .next (runTask (bitBound s) .nextBit s) :=
  issue_ready hs.1 hs.2 fun s => settle (.ok (.more .nextBit) s)

/-- BD.NEXT_BIT completes with the bit read (R130). -/
theorem exec_bdNextBit_of_ok {s t : State} {b : Bool} (hs : Ready s) (h : nextBit s = some (.ok b t)) :
    exec .bdNextBit s = .next (t.returning (.u1 b)) := by
  rw [exec_bdNextBit hs, runTask_unfold taskOk_nextBit, h]
  rfl

/-- A BD.NEXT_BIT that completes has read a bit. -/
theorem nextBit_of_completed {s t : State} (hs : Ready s) (h : exec .bdNextBit s = .next t) (ht : Completed t) :
    ∃ b u, nextBit s = some (.ok b u) ∧ t = u.returning (.u1 b) := by
  rw [exec_bdNextBit hs, runTask_unfold taskOk_nextBit] at h
  rcases hb : nextBit s with _ | ⟨b, u⟩ | u
  all_goals rw [hb] at h; obtain rfl := Host.Outcome.next.inj h
  · cases ht.1
  · exact ⟨b, u, rfl, rfl⟩
  · exact absurd ((nextBit_stop_ended hb).symm.trans ht.2) (by decide)

/-- BD.RESTORE completes on a mark of the current epoch inside the buffer (R142). -/
theorem exec_bdRestore_of_usable {s : State} {m : Mark} (hs : Ready s) (he : m.epoch = s.hb.epoch)
    (hi : m.index ≤ s.hb.size) : exec (.bdRestore m) s = .next ((restoreRegs m s).returning .none) := by
  have hbody : exec (.bdRestore m) s = .next (atOnce ((restore m s).andThen fun _ s => .ok .none s)) :=
    issue_ready hs.1 hs.2 fun s => atOnce ((restore m s).andThen fun _ s => .ok .none s)
  rw [hbody, restore_eq_ok (u := ()).2 ⟨he, hi, rfl⟩]
  rfl

/-- Bits are read one after the other. -/
theorem readBits_succ_eq_some {n : Nat} {s u : State} {bits : List Bool} (hs : Ready s) :
    readBits (n + 1) s = some (bits, u) ↔
      ∃ b t bs, nextBit s = some (.ok b t) ∧ Ready t ∧ bits = b :: bs ∧
        readBits n (t.returning (.u1 b)) = some (bs, u) := by
  constructor
  · intro h
    unfold readBits at h
    split at h
    · rename_i t he
      split at h
      · rename_i hc
        obtain ⟨b, v, hb, rfl⟩ := nextBit_of_completed hs he hc
        obtain ⟨⟨bs, w⟩, hr, hw⟩ := Option.map_eq_some_iff.1 h
        cases hw
        exact ⟨b, v, bs, hb, ⟨hc.2, hc.1⟩, rfl, hr⟩
      · cases h
    · cases h
  · rintro ⟨b, t, bs, hb, ht, rfl, hr⟩
    unfold readBits
    rw [exec_bdNextBit_of_ok hs hb]
    have hc : (t.returning (.u1 b)).task = none ∧ statusEnded (t.returning (.u1 b)).status = false := ⟨ht.2, ht.1⟩
    simp only [if_pos hc]
    exact (congrArg (Option.map _) hr).trans rfl

/-! ## Where a bit read leads -/

theorem mark_index_entry {s : State} {i : Nat} (h : s.bd.nextHistoryReadIndex = .entry i) : (mark s).index = i := by
  simp [mark, h]

theorem mark_index_sentinel {s : State} (h : s.bd.nextHistoryReadIndex = .sentinel) : (mark s).index = s.hb.size := by
  simp [mark, h]

/-- A read index behind a replayed chain marks that place, the live tail too (R131, R141). -/
theorem mark_index_of_readIndex {s : State} {k : Nat}
    (h : s.bd.nextHistoryReadIndex = if k = s.hb.size then .sentinel else .entry k) : (mark s).index = k := by
  split at h
  · rename_i hk
    rw [mark_index_sentinel h, hk]
  · exact mark_index_entry h

/-- The toggle count is no part of a mark (R72, R141). -/
theorem mark_busResetCount (b : Bool) (s : State) : mark (busResetCount b s) = mark s := by
  unfold busResetCount
  split
  · dsimp only; split <;> rfl
  · rfl

theorem busResetCount_collectHistory (b : Bool) (s : State) :
    (busResetCount b s).bd.collectHistory = s.bd.collectHistory := by
  unfold busResetCount
  split
  · dsimp only; split <;> rfl
  · rfl

/-- No bit switches collection (R139). -/
theorem nextBit_collectHistory {s t : State} {b : Bool} (h : nextBit s = some (.ok b t)) :
    t.bd.collectHistory = s.bd.collectHistory := by
  rcases nextBit_eq_some_ok.1 h with ⟨i, -, hb⟩ | ⟨-, e, rest, -, hb⟩
  · obtain ⟨level, delta, n, -, -, rfl⟩ := historyBit_eq_ok.1 hb
    rfl
  · obtain ⟨u, hu, -, rfl⟩ := liveBit_eq_ok.1 hb
    rw [busResetCount_collectHistory]
    rcases collectEdge_eq_ok.1 hu with ⟨-, -, rfl⟩ | ⟨-, rfl⟩ <;> rfl

/-- A bit with collection on, live or replayed, is a chain in the history at the mark before it, and the mark after it is
that chain further on (R131, R132, R133). -/
theorem nextBit_reads_chain {s t : State} {b : Bool} (hc : s.bd.collectHistory = true)
    (h : nextBit s = some (.ok b t)) :
    ∃ level delta n, decodeChain (t.hb.entries.drop (mark s).index) = some (level, delta, n) ∧
      b = (level != s.bd.lastLevel) ∧
      mark t = ⟨level, parityAfter s.bd.parityIsOdd level, s.bd.currentSample + delta, (mark s).index + n,
        s.hb.epoch⟩ := by
  rcases nextBit_eq_some_ok.1 h with ⟨i, hi, hb⟩ | ⟨hi, e, rest, -, hb⟩
  · obtain ⟨level, delta, n, hd, hbit, rfl⟩ := historyBit_eq_ok.1 hb
    rw [mark_index_entry hi]
    exact ⟨level, delta, n, hd, hbit, congrArg (Mark.mk level _ _ · _) (mark_index_of_readIndex rfl)⟩
  · obtain ⟨u, hu, hbit, rfl⟩ := liveBit_eq_ok.1 hb
    obtain ⟨-, -, rfl⟩ : _ ∧ _ ∧ u = _ := (collectEdge_eq_ok.1 hu).resolve_right fun hoff => by simp [hc] at hoff
    have hdelta : s.bd.currentSample + (e.sample - s.bd.currentSample) = e.sample := by
      rw [add_comm, sub_add_cancel]
    refine ⟨e.level, e.sample - s.bd.currentSample, (encodeChain e.level (e.sample - s.bd.currentSample)).length,
      ?_, hbit, ?_⟩
    · rw [mark_index_sentinel hi, (busResetCount_frame _ _).2.1]
      exact (congrArg decodeChain List.drop_left).trans (decodeChain_encodeChain _ _)
    · rw [mark_busResetCount, mark_index_sentinel hi, hdelta]
      simp [mark, hi, History.size]

/-- What reading bits with collection on leaves: a decoder that still collects, its index in range (R27), and a history
that only grew (R63). -/
structure Collected (s t : State) : Prop where
  collecting : t.bd.collectHistory = true
  index : IndexInRange t
  epoch : t.hb.epoch = s.hb.epoch
  entries : s.hb.entries <+: t.hb.entries

theorem Collected.refl {s : State} (hc : s.bd.collectHistory = true) (hi : IndexInRange s) : Collected s s :=
  ⟨hc, hi, rfl, List.prefix_rfl⟩

theorem Collected.trans {s t u : State} (h : Collected s t) (g : Collected t u) : Collected s u :=
  ⟨g.collecting, g.index, g.epoch.trans h.epoch, h.entries.trans g.entries⟩

theorem collected_nextBit {s t : State} {b : Bool} (hc : s.bd.collectHistory = true) (hi : IndexInRange s)
    (h : nextBit s = some (.ok b t)) : Collected s t := by
  obtain ⟨_, _, _, -, -, hmark⟩ := nextBit_reads_chain hc h
  have hepoch : t.hb.epoch = s.hb.epoch := congrArg Mark.epoch hmark
  exact ⟨(nextBit_collectHistory h).trans hc, (upholds_nextBit h).index hi, hepoch,
    (changes_nextBit h).onlyAppends.entries hepoch⟩

/-- The bits of a run, and what they leave. -/
theorem collected_readBits {n : Nat} {s u : State} {bits : List Bool} (hs : Ready s) (hc : s.bd.collectHistory = true)
    (hi : IndexInRange s) (h : readBits n s = some (bits, u)) : Ready u ∧ Collected s u := by
  induction n generalizing s bits with
  | zero => cases h; exact ⟨hs, .refl hc hi⟩
  | succ n ih =>
    obtain ⟨b, t, bs, hb, ht, -, hr⟩ := (readBits_succ_eq_some hs).1 h
    have hst := collected_nextBit hc hi hb
    obtain ⟨hu, htu⟩ := ih (s := t.returning (.u1 b)) ht hst.collecting hst.index hr
    exact ⟨hu, hst.trans ⟨htu.collecting, htu.index, htu.epoch, htu.entries⟩⟩

/-! ## The replay -/

/-- The key step: where a bit was read with collection on, any state whose history still holds it, restored to the mark
before the bit, reads the bit again and stands restored to the mark after it. -/
theorem nextBit_restoreRegs_mark {s t u : State} {b : Bool} (hc : s.bd.collectHistory = true)
    (h : nextBit s = some (.ok b t)) (hu : t.hb.entries <+: u.hb.entries) :
    nextBit (restoreRegs (mark s) u) = some (.ok b (restoreRegs (mark t) u)) := by
  obtain ⟨level, delta, n, hd, hbit, hmark⟩ := nextBit_reads_chain hc h
  obtain ⟨more, hmore⟩ := hu
  obtain ⟨hpos, -, hlen⟩ := decodeChain_length hd
  rw [List.length_drop] at hlen
  have hin : (mark s).index + n ≤ u.hb.size := by
    have := congrArg List.length hmore
    rw [List.length_append] at this
    unfold History.size
    omega
  have hchain : decodeChain (u.hb.entries.drop (mark s).index) = some (level, delta, n) := by
    rw [← hmore, List.drop_append_of_le_length (by omega)]
    exact decodeChain_append hd more
  have hentry : (restoreRegs (mark s) u).bd.nextHistoryReadIndex = .entry (mark s).index := if_neg (by omega)
  refine nextBit_eq_some_ok.2 (.inl ⟨_, hentry, historyBit_eq_ok.2 ⟨level, delta, n, hchain, hbit, ?_⟩⟩)
  rw [hmark]
  simp only [restoreRegs, mark_lastLevel, mark_parityIsOdd, mark_currentSample, ge_iff_le, hin.ge_iff_eq]

/-- The replay of `n` bits, in any state whose history still holds them: the key step once per bit (R144). The result
port alone depends on the commands in between. -/
theorem readBits_restoreRegs_mark {n : Nat} {s u v : State} {bits : List Bool} (hs : Ready s)
    (hc : s.bd.collectHistory = true) (hi : IndexInRange s) (h : readBits n s = some (bits, u)) (hv : Ready v)
    (huv : u.hb.entries <+: v.hb.entries) :
    ∃ r, readBits n (restoreRegs (mark s) v) = some (bits, (restoreRegs (mark u) v).returning r) := by
  induction n generalizing s v bits with
  | zero => cases h; exact ⟨v.result, rfl⟩
  | succ n ih =>
    obtain ⟨b, t, bs, hb, ht, rfl, hr⟩ := (readBits_succ_eq_some hs).1 h
    have hst := collected_nextBit hc hi hb
    have htu := (collected_readBits (s := t.returning (.u1 b)) ht hst.collecting hst.index hr).2
    have hstep := nextBit_restoreRegs_mark hc hb (htu.entries.trans huv)
    obtain ⟨r, hrest⟩ := ih (s := t.returning (.u1 b)) (v := v.returning (.u1 b)) ht hst.collecting hst.index hr hv huv
    exact ⟨r, (readBits_succ_eq_some (s := restoreRegs (mark s) v) hv).2 ⟨b, _, bs, hstep, hv, rfl, hrest⟩⟩

/-- A mark restored where it was taken changes nothing (R72). -/
theorem restoreRegs_mark_self {s : State} (hi : IndexInRange s) : restoreRegs (mark s) s = s := by
  have hindex : (if (mark s).index ≥ s.hb.size then .sentinel else .entry (mark s).index) =
      s.bd.nextHistoryReadIndex := by
    rw [indexInRange_iff] at hi
    cases h : s.bd.nextHistoryReadIndex with
    | sentinel => rw [mark_index_sentinel h, if_pos le_rfl]
    | entry i => rw [mark_index_entry h, if_neg (hi i h).not_ge]
  unfold restoreRegs
  rw [hindex]
  rfl

/-- What can be replayed to its end lies in the history (R27, R65). -/
theorem indexInRange_of_pendingWhole {s : State} (h : PendingWhole s) : IndexInRange s := by
  revert h
  unfold PendingWhole IndexInRange
  cases s.bd.nextHistoryReadIndex with
  | sentinel => exact id
  | entry i => exact And.left

/-- Settles O30: the replay runs along the marks of the first reading, by induction on the number of bits, and ends
restored to the mark of the end state, which changes nothing there. -/
theorem markRestoreReplaysBits : Obligations.MarkRestoreReplaysBits := by
  intro s u n bits hs hc hp h
  have hi : IndexInRange s := indexInRange_of_pendingWhole hp
  obtain ⟨hu, hsu⟩ := collected_readBits hs hc hi h
  have hle : (mark s).index ≤ u.hb.size := (mark_index_le (indexInRange_iff.1 hi)).trans hsu.entries.length_le
  obtain ⟨r, hw⟩ := readBits_restoreRegs_mark (v := u.returning .none) hs hc hi h hu List.prefix_rfl
  refine ⟨_, _, exec_bdRestore_of_usable hu hsu.epoch.symm hle, ⟨hu.2, hu.1⟩, rfl, rfl, rfl, hw, ?_⟩
  have hself : restoreRegs (mark u) (u.returning .none) = u.returning .none :=
    restoreRegs_mark_self (s := u.returning .none) hsu.index
  rw [hself]
  exact ⟨rfl, rfl, rfl, rfl⟩

end Sys2Proof.Machine
end

section
/-! PROOFS. The command map (R97 to R99): the assigned words of a unit are those whose OP is below the number of its
operations, decoding undoes encoding, and the word of a decoded command is the word it was decoded from. -/

namespace Sys2Proof

open Sys2Proof.Machine

/-- The operations of a unit, as `decode` looks them up by UNIT and then by OP (R98). -/
def decodeUnit (unit op : Nat) (a : Operands) : Option Instr :=
  match unit with
  | 0x1 => decodeHb op a
  | 0x2 => decodeBd op a
  | 0x3 => decodeSm op a
  | 0x4 => decodeDsg op a
  | 0x5 => decodeFr op a
  | 0x6 => decodeCw op a
  | 0x7 => decodeCwField op a
  | 0x8 => decodeSf op a
  | 0x9 => decodeFe op a
  | _ => none

/-- How many operations a unit has; their OPs count up from 0 (R99). -/
def opCount (unit : Nat) : Nat :=
  match unit with
  | 0x1 => 3
  | 0x2 => 9
  | 0x3 => 2
  | 0x4 => 2
  | 0x5 => 3
  | 0x6 => 8
  | 0x7 => 14
  | 0x8 => 3
  | 0x9 => 2
  | _ => 0

/-- `decode` is the lookup in the word's unit, with the word itself where that finds nothing. -/
theorem decode_eq_elim (c : Command) :
    decode c = (decodeUnit (cmdUnit c.code).toNat (cmdOp c.code).toNat c.args).elim
      (.error (.reservedCommand c.code)) .ok := by
  change (match decodeUnit (cmdUnit c.code).toNat (cmdOp c.code).toNat c.args with
    | some i => Except.ok i
    | none => Except.error (Reserved.reservedCommand c.code)) = _
  cases decodeUnit (cmdUnit c.code).toNat (cmdOp c.code).toNat c.args <;> rfl

/-- A unit's operations are the OPs below their number, whatever the operand lanes hold. -/
theorem isSome_decodeUnit (unit op : Nat) (a : Operands) :
    (decodeUnit unit op a).isSome = true ↔ op < opCount unit := by
  unfold decodeUnit
  split
  case h_10 => simp [opCount, *]
  all_goals
    simp only [decodeHb, decodeBd, decodeSm, decodeDsg, decodeFr, decodeCw, decodeCwField, decodeSf, decodeFe]
    split <;> grind [opCount]

/-- The command found has the code of its UNIT and OP. -/
theorem code_of_decodeUnit {unit op : Nat} {a : Operands} {i : Instr} (h : decodeUnit unit op a = some i) :
    (encode i).code = BitVec.ofNat 8 (16 * unit + op) := by
  unfold decodeUnit at h
  split at h
  case h_10 => cases h
  all_goals
    simp only [decodeHb, decodeBd, decodeSm, decodeDsg, decodeFr, decodeCw, decodeCwField, decodeSf, decodeFe] at h
    split at h <;> cases h <;> rfl

/-- A command word is its UNIT above its OP (R98). -/
theorem ofNat_cmdUnit_cmdOp (w : BitVec 8) : BitVec.ofNat 8 (16 * (cmdUnit w).toNat + (cmdOp w).toNat) = w := by
  revert w; decide

/-- R99's words are those whose OP is one of their unit's operations. -/
theorem mem_commandMap_iff (w : BitVec 8) :
    w ∈ commandMap.map Prod.fst ↔ (cmdOp w).toNat < opCount (cmdUnit w).toNat := by
  revert w; decide

/-- All that decoding can do: a word of R99 gives a command with that word, any other is reserved (R97). -/
theorem decode_cases (c : Command) :
    (∃ i, decode c = .ok i ∧ c.code ∈ commandMap.map Prod.fst ∧ (encode i).code = c.code) ∨
    (decode c = .error (.reservedCommand c.code) ∧ c.code ∉ commandMap.map Prod.fst) := by
  rw [decode_eq_elim, mem_commandMap_iff, ← isSome_decodeUnit _ _ c.args]
  cases h : decodeUnit (cmdUnit c.code).toNat (cmdOp c.code).toNat c.args with
  | some i => exact .inl ⟨i, rfl, rfl, (code_of_decodeUnit h).trans (ofNat_cmdUnit_cmdOp c.code)⟩
  | none => exact .inr ⟨rfl, nofun⟩

/-- Decoding undoes encoding: each command's word finds its own row, which reads the lanes the command was put in. -/
theorem decode_encode (i : Instr) : decode (encode i) = .ok i := by
  cases i <;> simp only [encode, decode] <;> rfl

/-- The word of a decoded command is the word it was decoded from. -/
theorem code_of_decode {c : Command} {i : Instr} (hi : decode c = .ok i) : (encode i).code = c.code := by
  obtain ⟨j, hj, -, hcode⟩ | ⟨herr, -⟩ := decode_cases c
  · rw [hj] at hi
    cases hi
    exact hcode
  · rw [herr] at hi
    cases hi

/-- Exactly the words of R99 decode. -/
theorem exists_decode_iff (c : Command) : (∃ i, decode c = .ok i) ↔ c.code ∈ commandMap.map Prod.fst := by
  obtain ⟨j, hj, hmem, -⟩ | ⟨herr, hmem⟩ := decode_cases c
  · exact ⟨fun _ => hmem, fun _ => ⟨j, hj⟩⟩
  · simp [herr, hmem]

theorem decode_of_reserved {c : Command} (hc : c.code ∉ commandMap.map Prod.fst) :
    decode c = .error (.reservedCommand c.code) := by
  obtain ⟨-, -, hmem, -⟩ | ⟨herr, -⟩ := decode_cases c
  · exact absurd hmem hc
  · exact herr

/-- Settles O1: the round trip, and what decoding any word can do. -/
theorem encodeDecodeAgree : Obligations.EncodeDecodeAgree :=
  ⟨decode_encode, fun _ _ => code_of_decode, exists_decode_iff, fun _ => decode_of_reserved⟩

/-- A bare word that some command is encoded as decodes to that command. -/
theorem decodeTableWord_of_encode {n w : Nat} {i : Instr} (hw : w < 256) (hi : bareCommand w = encode i) :
    decodeTableWord n w = some i := by
  simp [decodeTableWord, hw, hi, decode_encode]

/-- A word that R99 does not list decodes to no command. -/
theorem decodeTableWord_of_reserved {n w : Nat} (hw : BitVec.ofNat 8 w ∉ commandMap.map Prod.fst) :
    decodeTableWord n w = none := by
  have herr : decode (bareCommand w) = .error (.reservedCommand (BitVec.ofNat 8 w)) :=
    decode_of_reserved hw
  simp [decodeTableWord, herr]

/-- Settles O2: each listed word is the word of its command with every lane at rest, or a word R99 does not list. -/
theorem tableWordsDecode : Obligations.TableWordsDecode := by
  refine ⟨?_, ?_, ?_, ?_, ?_, ?_, ?_, ?_, ?_, ?reserved, ?reserved'⟩
  case reserved => exact decodeTableWord_of_reserved (by decide)
  case reserved' => exact decodeTableWord_of_reserved (by decide)
  all_goals exact decodeTableWord_of_encode (by decide) rfl

end Sys2Proof
end

section
/-! PROOFS. The entries of a chain (R80, R82): how many there are, and what each of them carries. -/

namespace Sys2Proof.Machine

open Sys2Proof

/-- What is left of a delta above its lowest fragment. -/
theorem toNat_ushiftRight_fourteen (delta : Sample) : (delta >>> 14).toNat = delta.toNat / 2 ^ 14 := by
  rw [BitVec.toNat_ushiftRight, Nat.shiftRight_eq_div_pow]

theorem ushiftRight_fourteen_eq_zero_iff (delta : Sample) : delta >>> 14 = 0 ↔ delta.toNat < 2 ^ 14 := by
  rw [← BitVec.toNat_inj, toNat_ushiftRight_fourteen]
  simp

/-- A delta of one fragment is a chain of one entry. -/
theorem encodeChainFrom_of_lt (fuel : Nat) (level : Bool) {delta : Sample} (h : delta.toNat < 2 ^ 14) :
    encodeChainFrom (fuel + 1) level delta = [mkEntry level false (delta.extractLsb' 0 14)] := by
  rw [encodeChainFrom, if_pos ((ushiftRight_fourteen_eq_zero_iff delta).2 h)]

/-- The chain of any other delta goes on with the chain of what is left above its lowest fragment. -/
theorem encodeChainFrom_of_le (fuel : Nat) (level : Bool) {delta : Sample} (h : 2 ^ 14 ≤ delta.toNat) :
    encodeChainFrom (fuel + 1) level delta =
      mkEntry level true (delta.extractLsb' 0 14) :: encodeChainFrom fuel level (delta >>> 14) := by
  rw [encodeChainFrom, if_neg ((ushiftRight_fourteen_eq_zero_iff delta).not.2 h.not_gt)]

/-- What is left above the lowest fragment fits one fragment less. -/
theorem ushiftRight_fourteen_lt_iff (delta : Sample) (n : Nat) :
    (delta >>> 14).toNat < 2 ^ (14 * n) ↔ delta.toNat < 2 ^ (14 * (n + 1)) := by
  rw [toNat_ushiftRight_fourteen, Nat.div_lt_iff_lt_mul (by decide), ← pow_add, Nat.mul_succ]

theorem length_encodeChainFrom_pos (fuel : Nat) (level : Bool) (delta : Sample) :
    1 ≤ (encodeChainFrom (fuel + 1) level delta).length := by
  rcases lt_or_ge delta.toNat (2 ^ 14) with h | h
  · simp [encodeChainFrom_of_lt fuel level h]
  · simp [encodeChainFrom_of_le fuel level h]

/-- A delta of one fragment takes one entry, and fits any number of fragments. -/
theorem length_encodeChainFrom_le_iff_of_lt (fuel n : Nat) (level : Bool) {delta : Sample}
    (h : delta.toNat < 2 ^ 14) :
    (encodeChainFrom (fuel + 1) level delta).length ≤ n + 1 ↔ delta.toNat < 2 ^ (14 * (n + 1)) := by
  have hpow : 2 ^ 14 ≤ 2 ^ (14 * (n + 1)) := Nat.pow_le_pow_right (by decide) (by omega)
  simp [encodeChainFrom_of_lt fuel level h, h.trans_le hpow]

/-- A delta with fuel enough takes at most `n` entries exactly when its bits fit `n` fragments (R82). -/
theorem length_encodeChainFrom_le_iff {fuel n : Nat} (level : Bool) {delta : Sample}
    (hd : delta.toNat < 2 ^ (14 * (fuel + 1))) :
    (encodeChainFrom (fuel + 1) level delta).length ≤ n + 1 ↔ delta.toNat < 2 ^ (14 * (n + 1)) := by
  induction fuel generalizing n delta with
  | zero => exact length_encodeChainFrom_le_iff_of_lt 0 n level hd
  | succ fuel ih =>
    rcases lt_or_ge delta.toNat (2 ^ 14) with h | h
    · exact length_encodeChainFrom_le_iff_of_lt _ n level h
    · rw [encodeChainFrom_of_le _ level h, List.length_cons, Nat.add_le_add_iff_right]
      cases n with
      | zero =>
        have hpos := length_encodeChainFrom_pos fuel level (delta >>> 14)
        constructor <;> intro hn <;> omega
      | succ n => rw [ih ((ushiftRight_fourteen_lt_iff delta _).2 hd), ushiftRight_fourteen_lt_iff]

/-- The one entry of a chain of one fragment. -/
theorem getElem?_encodeChainFrom_of_lt {fuel k : Nat} {level : Bool} {delta : Sample} {e : Entry}
    (h : delta.toNat < 2 ^ 14) (he : (encodeChainFrom (fuel + 1) level delta)[k]? = some e) :
    e = mkEntry level (decide (k + 1 < (encodeChainFrom (fuel + 1) level delta).length))
      ((delta >>> (14 * k)).extractLsb' 0 14) := by
  rw [encodeChainFrom_of_lt fuel level h] at he ⊢
  cases k with
  | zero => cases he; simp
  | succ k => cases he

/-- Entry `k` of a chain: its level, whether another follows, and fragment `k` of the delta (R80, R82). -/
theorem getElem?_encodeChainFrom {fuel k : Nat} {level : Bool} {delta : Sample} {e : Entry}
    (hd : delta.toNat < 2 ^ (14 * (fuel + 1))) (he : (encodeChainFrom (fuel + 1) level delta)[k]? = some e) :
    e = mkEntry level (decide (k + 1 < (encodeChainFrom (fuel + 1) level delta).length))
      ((delta >>> (14 * k)).extractLsb' 0 14) := by
  induction fuel generalizing k delta with
  | zero => exact getElem?_encodeChainFrom_of_lt hd he
  | succ fuel ih =>
    rcases lt_or_ge delta.toNat (2 ^ 14) with h | h
    · exact getElem?_encodeChainFrom_of_lt h he
    · rw [encodeChainFrom_of_le _ level h] at he ⊢
      have hpos := length_encodeChainFrom_pos fuel level (delta >>> 14)
      cases k with
      | zero =>
        cases he
        simp [Nat.lt_of_succ_le hpos]
      | succ k =>
        rw [ih ((ushiftRight_fourteen_lt_iff delta _).2 hd) he, ← BitVec.shiftRight_add]
        simp [Nat.mul_succ, Nat.add_comm]

/-- The fragment of a delta from bit `n` up, in arithmetic (R80). -/
theorem toNat_fragment (delta : Sample) (n : Nat) :
    ((delta >>> n).extractLsb' 0 14).toNat = delta.toNat / 2 ^ n % 2 ^ 14 := by
  rw [BitVec.extractLsb'_toNat, BitVec.toNat_ushiftRight, Nat.shiftRight_zero, Nat.shiftRight_eq_div_pow]

/-- FRAG is an entry's low 14 bits (R80). -/
theorem toNat_entryFrag (e : Entry) : (entryFrag e).toNat = e.toNat % 2 ^ 14 := by
  rw [entryFrag, BitVec.extractLsb'_toNat, Nat.shiftRight_zero]

/-- Settles O18: the number of entries, and each entry, follow the chain from its lowest fragment up. -/
theorem chainEncoding : Obligations.ChainEncoding := by
  intro level delta
  have hd : delta.toNat < 2 ^ (14 * (4 + 1)) := delta.isLt.trans (by decide)
  refine ⟨fun n hn => ?_, length_encodeChainFrom_pos 4 level delta, encodeChain_length_le level delta,
    fun k e he => ?_⟩
  · obtain ⟨m, rfl⟩ : ∃ m, n = m + 1 := Nat.exists_eq_succ_of_ne_zero (by rintro rfl; simp at hn)
    exact length_encodeChainFrom_le_iff level hd
  · obtain rfl : e = mkEntry level (decide (k + 1 < (encodeChain level delta).length)) _ :=
      getElem?_encodeChainFrom hd he
    refine ⟨entryLevel_mkEntry .., entryMore_mkEntry .., ?_⟩
    rw [← toNat_entryFrag, entryFrag_mkEntry, toNat_fragment]

end Sys2Proof.Machine
end

section
/-! PROOFS. SM.INIT (R161) with the mask and match words of R91. -/

namespace Sys2Proof.Machine

open Sys2Proof

/-- SM.INIT constructs the matcher of a stride of COLUMN_SET (R161). -/
theorem exec_smInit_of_mem {s : State} {c : Columns} (hs : Ready s) (sm : Nat) (hc : columnSet.contains c = true) :
    exec (.smInit sm c) s = .next ((s.setMatcher sm (matcherNew c)).returning .none) := by
  have hinit : matcherInit c s = .ok (matcherNew c) s := matcherInit_eq_ok.2 ⟨hc, rfl, rfl⟩
  have hexec : exec (.smInit sm c) s = execSmInit sm c s := rfl
  rw [hexec, execSmInit, issue_ready hs.1 hs.2, hinit, Res.andThen_ok, atOnce_ok]

/-- SM.INIT of any other stride faults with ILLEGAL_SHAPE and changes nothing else (R161, R315). -/
theorem exec_smInit_of_not_mem {s : State} {c : Columns} (hs : Ready s) (sm : Nat)
    (hc : columnSet.contains c = false) :
    exec (.smInit sm c) s = .next { s with status := .faulted .illegalShape } := by
  have hinit : matcherInit c s = .stop { s with status := .faulted .illegalShape } :=
    matcherInit_eq_stop.2 ⟨hc, rfl⟩
  have hexec : exec (.smInit sm c) s = execSmInit sm c s := rfl
  rw [hexec, execSmInit, issue_ready hs.1 hs.2, hinit, Res.andThen_stop, atOnce_stop]

/-- COLUMN_SET in numbers (R88). -/
theorem columnSet_contains_iff (c : Columns) :
    columnSet.contains c = true ↔ c.toNat ∈ [2, 4, 6, 8, 10, 12, 14, 16] := by
  revert c; decide

/-- R91's table: each stride of COLUMN_SET with its mask and its match word. -/
def matcherWords : List (Columns × Window × Window) :=
  [(2, 0x5555, 0x4501), (4, 0x11111111, 0x10110001), (6, 0x41041041041, 0x40041000001),
    (8, 0x101010101010101, 0x100010100000001), (10, 0x401004010040100401, 0x400004010000000001),
    (12, 0x1001001001001001001001, 0x1000001001000000000001),
    (14, 0x4001000400100040010004001, 0x4000000400100000000000001),
    (16, 0x10001000100010001000100010001, 0x10000000100010000000000000001)]

/-- The words SM.INIT computes are those of R91's table. -/
theorem matcherNew_of_mem_matcherWords {e : Columns × Window × Window} (he : e ∈ matcherWords) :
    columnSet.contains e.1 = true ∧ matcherNew e.1 = ⟨e.1, 0, e.2.1, e.2.2⟩ := by
  revert e
  simp only [matcherWords, List.forall_mem_cons]
  refine ⟨?_, ?_, ?_, ?_, ?_, ?_, ?_, ?_, ?_⟩
  case refine_9 => simp
  all_goals exact ⟨rfl, rfl⟩

/-- Settles O31: SM.INIT of a stride of COLUMN_SET takes its words from R91's table, and any other stride faults. -/
theorem StaticSyncMatcher.matcherInit : Obligations.MatcherInit := by
  intro s sm hs
  refine ⟨fun e he => ?_, fun c hc => ?_⟩
  · obtain ⟨hmem, hnew⟩ := matcherNew_of_mem_matcherWords he
    rw [exec_smInit_of_mem hs sm hmem, hnew]
  · exact exec_smInit_of_not_mem hs sm (by simpa using (columnSet_contains_iff c).not.2 hc)

end Sys2Proof.Machine
end

section
/-! PROOFS. The commands of the history buffer, and those of the BitstreamDecoder that take no edge (R120 to R122, R136 to
R142): each ends at once, with its result or with a fault. -/

namespace Sys2Proof.Machine

open Sys2Proof

/-! ## HB.APPEND, HB.READ_CHAIN and HB.CLEAR -/

/-- HB.APPEND of a chain that fits (R120). -/
theorem exec_hbAppend_of_fits {s : State} {level : Bool} {delta : Sample} (hs : Ready s)
    (hfits : s.hb.size + (encodeChain level delta).length ≤ s.cfg.historyCapacity) :
    exec (.hbAppend level delta) s =
      .next { s with hb := { s.hb with entries := s.hb.entries ++ encodeChain level delta }, result := .none } := by
  have hexec : exec (.hbAppend level delta) s = execHbAppend level delta s := rfl
  have happend : hbAppend level delta s = _ := histAppendChain_eq_ok (u := ()).2 ⟨hfits, rfl⟩
  rw [hexec, execHbAppend, issue_ready hs.1 hs.2, happend]
  rfl

/-- HB.APPEND of a chain that does not fit appends nothing and faults (R120). -/
theorem exec_hbAppend_of_not_fits {s : State} {level : Bool} {delta : Sample} (hs : Ready s)
    (hfull : s.hb.size + (encodeChain level delta).length > s.cfg.historyCapacity) :
    exec (.hbAppend level delta) s = .next { s with status := .faulted .historyOverflow } := by
  have hexec : exec (.hbAppend level delta) s = execHbAppend level delta s := rfl
  have happend : hbAppend level delta s = _ := histAppendChain_eq_stop.2 ⟨hfull, rfl⟩
  rw [hexec, execHbAppend, issue_ready hs.1 hs.2, happend]
  rfl

/-- HB.READ_CHAIN where a chain can be decoded changes nothing but the result (R121). -/
theorem exec_hbReadChain_of_decodes {s : State} {index n : Nat} {level : Bool} {delta : Sample} (hs : Ready s)
    (hd : decodeChain (s.hb.entries.drop index) = some (level, delta, n)) :
    exec (.hbReadChain index) s = .next { s with result := .chain level delta (index + n) } := by
  have hexec : exec (.hbReadChain index) s = execHbReadChain index s := rfl
  have hread : hbReadChain index s = .ok (level, delta, index + n) s := hbReadChain_eq_ok.2 ⟨rfl, n, hd, rfl⟩
  rw [hexec, execHbReadChain, issue_ready hs.1 hs.2, hread]
  rfl

/-- Settles O16: the chain appended is what stands from the old size on, and decoding undoes encoding. -/
theorem chainRoundTrip : Obligations.ChainRoundTrip := by
  intro s level delta hs hfits
  have hd : decodeChain ((s.hb.entries ++ encodeChain level delta).drop s.hb.size) = some (level, delta, _) :=
    (congrArg decodeChain List.drop_left).trans (decodeChain_encodeChain level delta)
  refine ⟨_, exec_hbAppend_of_fits hs hfits, hs, (exec_hbReadChain_of_decodes (by exact hs) hd).trans ?_⟩
  simp [History.size]

/-- Settles O17: the three commands' ends, the append's by whether the chain fits. -/
theorem appendAndClear : Obligations.AppendAndClear := fun _ hs =>
  ⟨fun _ _ => ⟨exec_hbAppend_of_fits hs, exec_hbAppend_of_not_fits hs⟩,
    issue_ready hs.1 hs.2 fun s => atOnce (.ok .none (histClear s))⟩

/-! ## The commands of unit BD that take no edge -/

/-- Settles O27: each of the three commands is its one register written or read. -/
theorem parityAndSampleCommands : Obligations.ParityAndSampleCommands := fun _ hs =>
  ⟨issue_ready hs.1 hs.2 fun s => atOnce (.ok .none (resetParity s)),
    issue_ready hs.1 hs.2 fun s => atOnce (.ok (.u1 s.bd.parityIsOdd) s),
    issue_ready hs.1 hs.2 fun s => atOnce (.ok (.u64 s.bd.currentSample) s)⟩

/-- A discard changes the history only, and that only with nothing pending (R140). -/
theorem discardHistory_eq (s : State) : discardHistory s =
    { s with hb := if s.bd.nextHistoryReadIndex = .sentinel then ⟨[], s.hb.epoch + 1⟩ else s.hb } := by
  rw [← discardHistory_hb]
  unfold discardHistory
  split <;> rfl

/-- Settles O28: enabling collection is a discard with the flag set after it, and disabling sets the flag only. -/
theorem collectAndDiscard : Obligations.CollectAndDiscard := by
  intro s hs
  have hdiscard : exec .bdDiscardHistory s = .next ((discardHistory s).returning .none) :=
    issue_ready hs.1 hs.2 fun s => atOnce (.ok .none (discardHistory s))
  have hcollect (enable : Bool) :
      exec (.bdCollectHistory enable) s = .next ((collectHistory enable s).returning .none) :=
    issue_ready hs.1 hs.2 fun s => atOnce (.ok .none (collectHistory enable s))
  refine ⟨?_, ?_, hcollect false⟩
  · rw [hdiscard, discardHistory_eq]
    rfl
  · rw [hcollect, collectHistory, if_pos rfl, discardHistory_eq]
    rfl

/-- BD.MARK returns the mark of the position and changes nothing else (R141). -/
theorem exec_bdMark {s : State} (hs : Ready s) : exec .bdMark s = .next { s with result := .mark (mark s) } :=
  issue_ready hs.1 hs.2 fun s => atOnce (.ok (.mark (mark s)) s)

/-- BD.RESTORE that is stopped ends where the restore is (R142). -/
theorem exec_bdRestore_of_stop {s t : State} {m : Mark} (hs : Ready s) (h : restore m s = .stop t) :
    exec (.bdRestore m) s = .next t := by
  have hexec : exec (.bdRestore m) s = execBdRestore m s := rfl
  rw [hexec, execBdRestore, issue_ready hs.1 hs.2, h, Res.andThen_stop, atOnce_stop]

/-- Settles O29: the mark of each kind of position, and the restore by its two checks in their order (R307). -/
theorem markAndRestore : Obligations.MarkAndRestore := by
  intro s m hs
  refine ⟨fun hi => ?tail, fun i hi => ?inside, fun he => ?stale, fun he hlt => ?bad, fun he hle => ?usable⟩
  case tail => rw [exec_bdMark hs, mark, hi]; rfl
  case inside => rw [exec_bdMark hs, mark, hi]
  case stale => exact exec_bdRestore_of_stop hs (restore_eq_stop.2 (.inl ⟨he, rfl⟩))
  case bad => exact exec_bdRestore_of_stop hs (restore_eq_stop.2 (.inr ⟨he, hlt, rfl⟩))
  case usable =>
    rw [exec_bdRestore_of_usable hs he hle]
    simp only [restoreRegs, ge_iff_le, hle.ge_iff_eq, State.returning]

end Sys2Proof.Machine
end

section
/-! PROOFS. The decoded bit (R130 to R134, R145) on either path, and its whole next state. -/

namespace Sys2Proof.Machine

open Sys2Proof

/-! ## Level and parity -/

/-- The parity toggles on HIGH (R133). -/
theorem parityAfter_eq_bne (parity level : Bool) : parityAfter parity level = (parity != level) := by
  cases parity <;> cases level <;> rfl

/-- The decoded bit and the parity in terms of the levels before and after it, on either path (R133, R145). -/
theorem nextBit_nrzi {s t : State} {b : Bool} (h : nextBit s = some (.ok b t)) :
    b = (t.bd.lastLevel != s.bd.lastLevel) ∧ t.bd.parityIsOdd = (s.bd.parityIsOdd != t.bd.lastLevel) := by
  rcases nextBit_eq_some_ok.1 h with ⟨i, -, hb⟩ | ⟨-, e, rest, -, hb⟩
  · obtain ⟨level, delta, n, -, hbit, rfl⟩ := historyBit_eq_ok.1 hb
    exact ⟨hbit, parityAfter_eq_bne _ _⟩
  · obtain ⟨u, hu, hbit, rfl⟩ := liveBit_eq_ok.1 hb
    obtain ⟨hlevel, hparity⟩ : u.bd.lastLevel = s.bd.lastLevel ∧ u.bd.parityIsOdd = s.bd.parityIsOdd := by
      rcases collectEdge_eq_ok.1 hu with ⟨-, -, rfl⟩ | ⟨-, rfl⟩ <;> exact ⟨rfl, rfl⟩
    rw [← mark_lastLevel (busResetCount _ _), ← mark_parityIsOdd (busResetCount _ _), mark_busResetCount, ← hlevel,
      ← hparity]
    exact ⟨hbit, parityAfter_eq_bne _ _⟩

/-- Settles O23: a BD.NEXT_BIT that completes has read a bit, and any bit read is the NRZI decoding of its levels. -/
theorem bitIsNrziOfLevels : Obligations.BitIsNrziOfLevels := by
  intro s t hs h ht
  obtain ⟨b, u, hb, rfl⟩ := nextBit_of_completed hs h ht
  obtain ⟨hbit, hparity⟩ := nextBit_nrzi hb
  exact ⟨congrArg Value.u1 hbit, hparity⟩

/-! ## The history path -/

/-- Settles O21: the chain at the read index decodes, so BD.NEXT_BIT replays it. -/
theorem nextBitReplay : Obligations.NextBitReplay := by
  intro s i n level delta hs hi hd
  rw [exec_bdNextBit_of_ok hs
    (nextBit_eq_some_ok.2 (.inl ⟨i, hi, historyBit_eq_ok.2 ⟨level, delta, n, hd, rfl, rfl⟩⟩)), parityAfter_eq_bne]
  rfl

/-! ## The live path -/

/-- The toggle count as one update (R134): a 0 restarts it, a 1 counts, and the 4096th in a row emits BUS_RESET. -/
theorem busResetCount_eq (bit : Bool) (s : State) :
    let first : Sample :=
      if bit = true ∧ s.bd.contiguousToggleCount = 0 then s.bd.currentSample else s.bd.runStartSample
    let full : Bool := bit && decide (s.bd.contiguousToggleCount.toNat = 4095)
    busResetCount bit s =
      { s with
        bd := { s.bd with
          contiguousToggleCount := if bit = true ∧ full = false then s.bd.contiguousToggleCount + 1 else 0
          runStartSample := first }
        events := s.events ++ (if full then [.busReset first s.bd.currentSample] else []) } := by
  cases bit with
  | false => simp [busResetCount_false]
  | true =>
    have hfull : (s.bd.contiguousToggleCount + 1).toNat = 4096 ↔ s.bd.contiguousToggleCount.toNat = 4095 := by
      bv_omega
    by_cases h : s.bd.contiguousToggleCount.toNat = 4095
    · simp [busResetCount_true_of_eq (hfull.2 h), h, emit]
    · simp [busResetCount_true_of_ne (hfull.not.2 h), h]

/-- What the edge `e` appends to the history at the live tail of `s` (R132). -/
def collectedChain (s : State) (e : Edge) : List Entry :=
  if s.bd.collectHistory then encodeChain e.level (e.sample - s.bd.currentSample) else []

/-- The state after the record `e` is taken and decoded at the live tail (R132 to R134). -/
def State.afterEdge (s : State) (e : Edge) : State :=
  busResetCount (e.level != s.bd.lastLevel)
    { s with
      edges := s.edges.tail
      edgesTaken := s.edgesTaken + 1
      hb := { s.hb with entries := s.hb.entries ++ collectedChain s e }
      bd := { s.bd with
        lastLevel := e.level
        parityIsOdd := s.bd.parityIsOdd != e.level
        currentSample := e.sample } }

/-- The chain of the edge `e` fits the history at the live tail of `s`, or none is collected (R132). -/
abbrev EdgeFits (s : State) (e : Edge) : Prop :=
  s.bd.collectHistory = false ∨
    s.hb.size + (encodeChain e.level (e.sample - s.bd.currentSample)).length ≤ s.cfg.historyCapacity

/-- The live path appends a chain that fits, and nothing with collection off. -/
theorem collectEdge_of_fits {s : State} {e : Edge} (hfits : EdgeFits s e) :
    collectEdge e s = .ok () { s with hb := { s.hb with entries := s.hb.entries ++ collectedChain s e } } := by
  cases hc : s.bd.collectHistory with
  | false => exact collectEdge_eq_ok.2 (.inr ⟨hc, by simp [collectedChain, hc]⟩)
  | true =>
    have hlen := hfits.resolve_left (by simp [hc])
    exact collectEdge_eq_ok.2 (.inl ⟨hc, hlen, by simp [collectedChain, hc]⟩)

/-- BD.NEXT_BIT at the live tail, with room for the edge's chain. -/
theorem nextBit_of_edge {s : State} {e : Edge} {rest : List Edge} (hi : s.bd.nextHistoryReadIndex = .sentinel)
    (he : s.edges = e :: rest) (hfits : EdgeFits s e) :
    nextBit s = some (.ok (e.level != s.bd.lastLevel) (s.afterEdge e)) := by
  refine nextBit_eq_some_ok.2 (.inr ⟨hi, e, rest, he, liveBit_eq_ok.2 ⟨_, collectEdge_of_fits hfits, rfl, ?_⟩⟩)
  rw [State.afterEdge, he, parityAfter_eq_bne]
  rfl

/-- Settles O20: the bit is read from the next record, and the toggle count is one update. -/
theorem nextBitLive : Obligations.NextBitLive := by
  intro s e rest hs hi he hfits
  rw [exec_bdNextBit_of_ok hs (nextBit_of_edge hi he hfits), State.afterEdge, busResetCount_eq, he]
  rfl

end Sys2Proof.Machine
end

section
/-! PROOFS. BD.SKIP_BITS (R135): bit after bit it is a discarded BD.NEXT_BIT. At the live tail with its edges there and room
for their chains it folds one update per record over them, and what it leaves is read off that fold. -/

namespace Sys2Proof.Machine

open Sys2Proof

/-! ## Bit after bit -/

/-- The skip of `n` bits (R135) in a block that takes commands. -/
def skipBits (n : Nat) (s : State) : State :=
  settle (if n = 0 then .ok (.done .none) s else .ok (.more (.skipBits n)) s)

/-- BD.SKIP_BITS is the skip of its operand (R135). -/
theorem exec_bdSkipBits {s : State} (hs : Ready s) (n : BitVec 64) :
    exec (.bdSkipBits n) s = .next (skipBits n.toNat s) := by
  have hexec : exec (.bdSkipBits n) s = execBdSkipBits n s := rfl
  have hzero : n = 0 ↔ n.toNat = 0 := by bv_omega
  rw [hexec, execBdSkipBits, issue_ready hs.1 hs.2, skipBits]
  simp only [hzero]

theorem exec_bdSkipBits_ofNat {s : State} (hs : Ready s) {n : Nat} (hn : n < 2 ^ 64) :
    exec (.bdSkipBits (BitVec.ofNat 64 n)) s = .next (skipBits n s) := by
  rw [exec_bdSkipBits hs, BitVec.toNat_ofNat, Nat.mod_eq_of_lt hn]

@[simp] theorem skipBits_zero (s : State) : skipBits 0 s = s.returning .none := rfl

/-- A bit that is read is discarded, and the skip goes on behind it. -/
theorem skipBits_succ_of_ok {s t : State} {b : Bool} (n : Nat) (h : nextBit s = some (.ok b t)) :
    skipBits (n + 1) s = skipBits n t := by
  rw [skipBits, if_neg n.succ_ne_zero, settle_more, runTask_unfold (taskOk_skipBits _), h]
  cases n <;> rfl

/-- A skip is stopped where one of its bits is. -/
theorem skipBits_succ_of_stop {s t : State} (n : Nat) (h : nextBit s = some (.stop t)) :
    skipBits (n + 1) s = t := by
  rw [skipBits, if_neg n.succ_ne_zero, settle_more, runTask_unfold (taskOk_skipBits _), h]
  rfl

/-- A bit that is read leaves STATUS as it is (R310). -/
theorem nextBit_status {s t : State} {b : Bool} (h : nextBit s = some (.ok b t)) : t.status = s.status := by
  rcases nextBit_eq_some_ok.1 h with ⟨i, -, hb⟩ | ⟨-, e, rest, -, hb⟩
  · obtain ⟨_, _, _, -, -, rfl⟩ := historyBit_eq_ok.1 hb
    rfl
  · obtain ⟨u, hu, -, rfl⟩ := liveBit_eq_ok.1 hb
    rw [busResetCount_status]
    rcases collectEdge_eq_ok.1 hu with ⟨-, -, rfl⟩ | ⟨-, rfl⟩ <;> rfl

/-- A BD.NEXT_BIT that ends the run was stopped at its bit. -/
theorem nextBit_of_ended {s t : State} (hs : Ready s) (h : exec .bdNextBit s = .next t)
    (ht : statusEnded t.status = true) : nextBit s = some (.stop t) := by
  rw [exec_bdNextBit hs, runTask_unfold taskOk_nextBit] at h
  rcases hb : nextBit s with _ | ⟨b, u⟩ | u
  all_goals rw [hb] at h; obtain rfl := Host.Outcome.next.inj h
  · exact absurd (hs.1.symm.trans ht) (by decide)
  · exact absurd (hs.1.symm.trans ((congrArg statusEnded (nextBit_status hb)).symm.trans ht)) (by decide)
  · rfl

/-- Settles O24: the next bit, read or stopped, is the first bit of the skip. -/
theorem skipIsDiscardedNextBits : Obligations.SkipIsDiscardedNextBits := by
  intro s n hs hn
  refine ⟨exec_bdSkipBits hs 0, fun t h => ⟨fun ht => ?_, fun ht => ?_⟩⟩
  · obtain ⟨b, u, hb, rfl⟩ := nextBit_of_completed hs h ht
    have hresult : u.result = s.result := (keeps_nextBit hb).result
    rw [exec_bdSkipBits_ofNat hs hn, skipBits_succ_of_ok n hb, ← hresult]
    exact (exec_bdSkipBits_ofNat (s := u) ⟨ht.2, ht.1⟩ (by omega)).symm
  · rw [exec_bdSkipBits_ofNat hs hn, skipBits_succ_of_stop n (nextBit_of_ended hs h ht)]

/-! ## Along the edges at the live tail -/

@[simp] theorem State.afterEdge_edges (s : State) (e : Edge) : (s.afterEdge e).edges = s.edges.tail := by
  simp [State.afterEdge]
@[simp] theorem State.afterEdge_edgesTaken (s : State) (e : Edge) :
    (s.afterEdge e).edgesTaken = s.edgesTaken + 1 := by simp [State.afterEdge]
@[simp] theorem State.afterEdge_hb (s : State) (e : Edge) :
    (s.afterEdge e).hb = { s.hb with entries := s.hb.entries ++ collectedChain s e } := by simp [State.afterEdge]
@[simp] theorem State.afterEdge_sf (s : State) (e : Edge) : (s.afterEdge e).sf = s.sf := by simp [State.afterEdge]
@[simp] theorem State.afterEdge_fe (s : State) (e : Edge) : (s.afterEdge e).fe = s.fe := by simp [State.afterEdge]
@[simp] theorem State.afterEdge_cfg (s : State) (e : Edge) : (s.afterEdge e).cfg = s.cfg := by simp [State.afterEdge]
@[simp] theorem State.afterEdge_status (s : State) (e : Edge) : (s.afterEdge e).status = s.status := by
  simp [State.afterEdge]
@[simp] theorem State.afterEdge_task (s : State) (e : Edge) : (s.afterEdge e).task = s.task := by
  simp [State.afterEdge]
@[simp] theorem State.afterEdge_lastLevel (s : State) (e : Edge) : (s.afterEdge e).bd.lastLevel = e.level := by
  rw [State.afterEdge, busResetCount_eq]
@[simp] theorem State.afterEdge_parityIsOdd (s : State) (e : Edge) :
    (s.afterEdge e).bd.parityIsOdd = (s.bd.parityIsOdd != e.level) := by rw [State.afterEdge, busResetCount_eq]
@[simp] theorem State.afterEdge_currentSample (s : State) (e : Edge) :
    (s.afterEdge e).bd.currentSample = e.sample := by rw [State.afterEdge, busResetCount_eq]
@[simp] theorem State.afterEdge_nextHistoryReadIndex (s : State) (e : Edge) :
    (s.afterEdge e).bd.nextHistoryReadIndex = s.bd.nextHistoryReadIndex := by rw [State.afterEdge, busResetCount_eq]
@[simp] theorem State.afterEdge_collectHistory (s : State) (e : Edge) :
    (s.afterEdge e).bd.collectHistory = s.bd.collectHistory := by rw [State.afterEdge, busResetCount_eq]

/-- Room for an edge and `n` more is room for its chain, whatever the chain, and then for the `n` (R82). -/
theorem RoomFor.afterEdge {n : Nat} {s : State} (h : RoomFor (n + 1) s) (e : Edge) :
    EdgeFits s e ∧ RoomFor n (s.afterEdge e) := by
  have hlen := encodeChain_length_le e.level (e.sample - s.bd.currentSample)
  rcases h with hoff | hroom
  · exact ⟨.inl hoff, .inl (by simpa using hoff)⟩
  · have hmul : maxChainEntries * (n + 1) = maxChainEntries * n + 5 := Nat.mul_succ _ _
    have hchain : (collectedChain s e).length ≤ 5 := by
      unfold collectedChain
      split
      · exact hlen
      · simp
    refine ⟨.inr (by omega), .inr ?_⟩
    simp only [State.afterEdge_hb, State.afterEdge_cfg, History.size, List.length_append] at hroom ⊢
    omega

/-- A skip of the edges there, with room for their chains, is the update of one edge folded over them. -/
theorem skipBits_of_edges {run rest : List Edge} {s : State} (hi : s.bd.nextHistoryReadIndex = .sentinel)
    (he : s.edges = run ++ rest) (hroom : RoomFor run.length s) :
    skipBits run.length s = (run.foldl State.afterEdge s).returning .none := by
  induction run generalizing s with
  | nil => rfl
  | cons e run ih =>
    obtain ⟨hfits, hrest⟩ := hroom.afterEdge e
    rw [List.length_cons, skipBits_succ_of_ok _ (nextBit_of_edge hi he hfits), List.foldl_cons]
    exact ih (by simpa using hi) (by simp [he]) hrest

/-- What no edge changes, no run of edges changes. -/
theorem foldl_afterEdge_const {α : Type} {f : State → α} (hf : ∀ s e, f (State.afterEdge s e) = f s)
    (run : List Edge) (s : State) : f (run.foldl State.afterEdge s) = f s := by
  induction run generalizing s with
  | nil => rfl
  | cons e run ih => exact (ih _).trans (hf s e)

theorem foldl_afterEdge_edges (run : List Edge) (s : State) :
    (run.foldl State.afterEdge s).edges = s.edges.drop run.length := by
  induction run generalizing s with
  | nil => rfl
  | cons e run ih => simp [ih]

theorem foldl_afterEdge_edgesTaken (run : List Edge) (s : State) :
    (run.foldl State.afterEdge s).edgesTaken = s.edgesTaken + run.length := by
  induction run generalizing s with
  | nil => rfl
  | cons e run ih => rw [List.foldl_cons, ih, State.afterEdge_edgesTaken, List.length_cons]; omega

/-- The parity toggles once per HIGH level of the run (R133). -/
theorem foldl_afterEdge_parityIsOdd (run : List Edge) (s : State) :
    (run.foldl State.afterEdge s).bd.parityIsOdd = run.foldl (fun p e => p != e.level) s.bd.parityIsOdd :=
  (List.foldl_hom (fun s : State => s.bd.parityIsOdd) fun s e => (s.afterEdge_parityIsOdd e).symm).symm

/-- With collection off no edge is recorded (R132). -/
theorem foldl_afterEdge_hb {s : State} (hc : s.bd.collectHistory = false) (run : List Edge) :
    (run.foldl State.afterEdge s).hb = s.hb := by
  induction run generalizing s with
  | nil => rfl
  | cons e run ih => rw [List.foldl_cons, ih (by simpa using hc)]; simp [collectedChain, hc]

/-- Settles O25: the skip is the fold over the first `n` records, and the last of them sets level and sample. -/
theorem skipCompletes : Obligations.SkipCompletes := by
  intro s n hs hi hn hroom
  obtain ⟨run, hrun⟩ : ∃ run, run = s.edges.take n.toNat := ⟨_, rfl⟩
  have hlen : run.length = n.toNat := by simp [hrun, hn]
  have hskip := skipBits_of_edges (run := run) (rest := s.edges.drop n.toNat) hi (by simp [hrun]) (hlen ▸ hroom)
  rw [hlen] at hskip
  have htask := foldl_afterEdge_const (f := State.task) State.afterEdge_task run s
  have hstatus := foldl_afterEdge_const (f := State.status) State.afterEdge_status run s
  refine ⟨_, (exec_bdSkipBits hs n).trans (congrArg _ hskip), ⟨htask.trans hs.2, ?_⟩, rfl, ?_, ?_, ?_, ?_, ?_, ?_,
    foldl_afterEdge_const State.afterEdge_fe run s, foldl_afterEdge_const State.afterEdge_sf run s, hstatus⟩
  · exact (congrArg statusEnded hstatus).trans hs.1
  · exact hlen ▸ foldl_afterEdge_edges run s
  · exact hlen ▸ foldl_afterEdge_edgesTaken run s
  · exact (foldl_afterEdge_const (f := fun s => s.bd.nextHistoryReadIndex) State.afterEdge_nextHistoryReadIndex
      run s).trans hi
  · intro e he
    rw [← hrun] at he
    obtain ⟨init, rfl⟩ := List.getLast?_eq_some_iff.1 he
    simp
  · exact hrun ▸ foldl_afterEdge_parityIsOdd run s
  · exact fun hc => foldl_afterEdge_hb hc run

end Sys2Proof.Machine
end

section
/-! PROOFS. The bus reset (R134, R303): a run of edges that each change the level counts up from 0, emits nothing before the
4096th of them, and emits one BUS_RESET with the run's end samples there. -/

namespace Sys2Proof.Machine

open Sys2Proof

/-- A toggle before the 4096th counts; the first of a run records its sample, and nothing is emitted (R134). -/
theorem State.afterEdge_counts {s : State} {e : Edge} (htoggle : e.level ≠ s.bd.lastLevel)
    (hcount : s.bd.contiguousToggleCount.toNat < 4095) :
    (s.afterEdge e).bd.contiguousToggleCount.toNat = s.bd.contiguousToggleCount.toNat + 1 ∧
      (s.afterEdge e).bd.runStartSample =
        (if s.bd.contiguousToggleCount = 0 then e.sample else s.bd.runStartSample) ∧
      (s.afterEdge e).events = s.events := by
  have hbit : (e.level != s.bd.lastLevel) = true := bne_iff_ne.2 htoggle
  rw [State.afterEdge, busResetCount_eq, hbit]
  simp only [hcount.ne, decide_false, Bool.and_false, and_self, if_true, Bool.false_eq_true, if_false,
    List.append_nil, true_and, and_true]
  bv_omega

/-- The 4096th toggle emits BUS_RESET and starts the count again (R134). -/
theorem State.afterEdge_busReset {s : State} {e : Edge} (htoggle : e.level ≠ s.bd.lastLevel)
    (hcount : s.bd.contiguousToggleCount.toNat = 4095) :
    (s.afterEdge e).events = s.events ++ [.busReset s.bd.runStartSample e.sample] ∧
      (s.afterEdge e).bd.contiguousToggleCount = 0 := by
  have hbit : (e.level != s.bd.lastLevel) = true := bne_iff_ne.2 htoggle
  have hne : s.bd.contiguousToggleCount ≠ 0#13 := fun h => by simp [h] at hcount
  rw [State.afterEdge, busResetCount_eq, hbit]
  simp [hcount, hne]

/-- A run of edges that each change the level, from the level of `s` on. -/
def Toggling (s : State) (run : List Edge) : Prop :=
  (∀ first ∈ run.head?, first.level ≠ s.bd.lastLevel) ∧ run.IsChain (fun a b => b.level ≠ a.level)

/-- A toggling run, cut before its last edge: that edge changes the level the others leave. -/
theorem Toggling.of_concat {s : State} {run : List Edge} {last : Edge} (h : Toggling s (run ++ [last])) :
    Toggling s run ∧ last.level ≠ (run.foldl State.afterEdge s).bd.lastLevel := by
  obtain ⟨hhead, hchain⟩ := h
  obtain ⟨hrun, -, hlast⟩ := List.isChain_append.1 hchain
  rcases List.eq_nil_or_concat run with rfl | ⟨init, prev, rfl⟩
  · exact ⟨⟨by simp, hrun⟩, hhead last (by simp)⟩
  · refine ⟨⟨fun first hf => hhead first ?_, hrun⟩, ?_⟩
    · rw [List.head?_append, Option.mem_def.1 hf]
      rfl
    · simpa using hlast prev (by simp) last (by simp)

/-- Up to 4095 toggles count, hold the sample of the first of them, and emit nothing. -/
theorem foldl_afterEdge_toggling {s : State} {run : List Edge} (h0 : s.bd.contiguousToggleCount = 0)
    (hrun : Toggling s run) (hlen : run.length ≤ 4095) :
    (run.foldl State.afterEdge s).bd.contiguousToggleCount.toNat = run.length ∧
      (∀ first ∈ run.head?, (run.foldl State.afterEdge s).bd.runStartSample = first.sample) ∧
      (run.foldl State.afterEdge s).events = s.events := by
  induction run using List.reverseRecOn with
  | nil => simp [h0]
  | append_singleton run last ih =>
    rw [List.length_append, List.length_singleton] at hlen ⊢
    obtain ⟨hinit, htoggle⟩ := hrun.of_concat
    obtain ⟨hcount, hstart, hevents⟩ := ih hinit (by omega)
    obtain ⟨hcount', hstart', hevents'⟩ := State.afterEdge_counts htoggle (by omega)
    rw [List.foldl_append, List.foldl_cons, List.foldl_nil]
    refine ⟨hcount'.trans (by rw [hcount]), fun first hf => ?_, hevents'.trans hevents⟩
    rw [hstart']
    cases run with
    | nil =>
      obtain rfl : last = first := by simpa using hf
      exact if_pos h0
    | cons head run =>
      have hne : ((head :: run).foldl State.afterEdge s).bd.contiguousToggleCount ≠ 0 := fun hz => by
        rw [hz] at hcount
        simp at hcount
      exact (if_neg hne).trans (hstart first hf)

/-- Settles O26: the skip is the fold over the run, which counts up to 4095; the 4096th toggle follows 4095 of them. -/
theorem busResetAfterRun : Obligations.BusResetAfterRun := by
  intro s run rest first last hs hi h0 he hfirst hlast hlen hne hchain hroom
  have hrun : Toggling s run := ⟨fun e hf => Option.some.inj (hfirst.symm.trans hf) ▸ hne, hchain⟩
  have hskip : exec (.bdSkipBits (BitVec.ofNat 64 run.length)) s =
      .next ((run.foldl State.afterEdge s).returning .none) :=
    (exec_bdSkipBits_ofNat hs (by omega)).trans (congrArg _ (skipBits_of_edges hi he hroom))
  have htask := foldl_afterEdge_const (f := State.task) State.afterEdge_task run s
  have hstatus := foldl_afterEdge_const (f := State.status) State.afterEdge_status run s
  have hedges : (run.foldl State.afterEdge s).edges = rest := by simp [foldl_afterEdge_edges, he]
  refine ⟨_, hskip, ⟨htask.trans hs.2, (congrArg statusEnded hstatus).trans hs.1⟩, hedges, fun hlt => ?_,
    fun hfull => ?_⟩
  · obtain ⟨hcount, -, hevents⟩ := foldl_afterEdge_toggling h0 hrun (by omega)
    exact ⟨hevents, hcount⟩
  · obtain ⟨init, rfl⟩ := List.getLast?_eq_some_iff.1 hlast
    have hinit : init.length = 4095 := by simpa using hfull
    obtain ⟨htoggling, htoggle⟩ := hrun.of_concat
    obtain ⟨hcount, hstart, hevents⟩ := foldl_afterEdge_toggling h0 htoggling hinit.le
    have hhead : first ∈ init.head? := by
      rwa [List.head?_append_of_ne_nil _ (List.ne_nil_of_length_pos (by omega))] at hfirst
    have hreset := State.afterEdge_busReset htoggle (hcount.trans hinit)
    rw [hstart first hhead, hevents] at hreset
    simpa using hreset

end Sys2Proof.Machine
end

section
/-! PROOFS. SM.PUSH_BIT (R162): the window as the bits pushed, and the firing condition of R163. The mask and the match
word are both a fold that sets bits at multiples of the stride; one lemma gives every bit of such a fold. -/

namespace Sys2Proof.Machine

open Sys2Proof

/-! ## The words of a stride -/

/-- The bounds of the strides of COLUMN_SET (R88). -/
theorem columnSet_bounds {c : Columns} (hc : columnSet.contains c = true) : 0 < c.toNat ∧ c.toNat ≤ 16 := by
  have hmem := (columnSet_contains_iff c).1 hc
  simp only [List.mem_cons, List.not_mem_nil, or_false] at hmem
  omega

/-- The eight positions of the pattern are inside the window (R160). -/
theorem patternPosition_lt {c : Columns} (hc : columnSet.contains c = true) {i : Nat} (hi : i < 8) :
    i * c.toNat < 128 :=
  (Nat.mul_le_mul (Nat.le_of_lt_succ hi) (columnSet_bounds hc).2).trans_lt (by decide)

/-- A bit of the word that holds the bits `f i` for the `i` of a list with `p i`. -/
theorem getLsbD_foldl_setBit (p : Nat → Bool) (f : Nat → Nat) (l : List Nat) (m : Window) {j : Nat} (hj : j < 128) :
    (l.foldl (fun m i => if p i then m ||| ((1 : Window) <<< f i) else m) m).getLsbD j = true ↔
      m.getLsbD j = true ∨ ∃ i ∈ l, p i = true ∧ f i = j := by
  induction l generalizing m with
  | nil => simp
  | cons i l ih =>
    have hbit : ((1 : Window) <<< f i).getLsbD j = true ↔ f i = j := by
      simp [hj]; omega
    rw [List.foldl_cons, ih]
    cases hp : p i
    · simp [hp]
    · rw [if_pos rfl, BitVec.getLsbD_or, Bool.or_eq_true, hbit]
      simp [hp, or_assoc]

/-- The mask holds the positions `i*C` (R161). -/
theorem getLsbD_matcherMask (c : Columns) {j : Nat} (hj : j < 128) :
    (matcherMask c).getLsbD j = true ↔ ∃ i, i < 8 ∧ i * c.toNat = j := by
  have h := getLsbD_foldl_setBit (fun _ => true) (· * c.toNat) (List.range 8) 0 hj
  simpa [matcherMask] using h

/-- The match word holds the positions `i*C` where bit `i` of 0xB1 is 1 (R161). -/
theorem getLsbD_matcherPattern (c : Columns) {j : Nat} (hj : j < 128) :
    (matcherPattern c).getLsbD j = true ↔ ∃ i, i < 8 ∧ staticSync.getLsbD i = true ∧ i * c.toNat = j := by
  have h := getLsbD_foldl_setBit staticSync.getLsbD (· * c.toNat) (List.range 8) 0 hj
  simpa [matcherPattern] using h

/-- At position `i*C` the match word holds bit `i` of 0xB1: no two positions coincide. -/
theorem getLsbD_matcherPattern_mul {c : Columns} {i : Nat} (hc : 0 < c.toNat) (hi : i < 8)
    (hj : i * c.toNat < 128) : (matcherPattern c).getLsbD (i * c.toNat) = staticSync.getLsbD i := by
  rw [Bool.eq_iff_iff, getLsbD_matcherPattern c hj]
  constructor
  · rintro ⟨k, -, hk, hki⟩
    rwa [← Nat.eq_of_mul_eq_mul_right hc hki]
  · exact fun h => ⟨i, hi, h, rfl⟩

/-- The matcher property (R163): a legal matcher fires exactly on the windows with bit `i` of 0xB1 at `i*C`. -/
theorem matcherFires_iff {m : Matcher} (hm : MatcherLegal m) :
    matcherFires m = true ↔ ∀ i, i < 8 → m.acc.getLsbD (i * m.columns.toNat) = staticSync.getLsbD i := by
  obtain ⟨hc, hmask, hpattern⟩ := hm
  have hpos := (columnSet_bounds hc).1
  rw [matcherFires, beq_iff_eq, hmask, hpattern]
  constructor
  · intro h i hi
    have hset : (matcherMask m.columns).getLsbD (i * m.columns.toNat) = true :=
      (getLsbD_matcherMask _ (patternPosition_lt hc hi)).2 ⟨i, hi, rfl⟩
    rw [← getLsbD_matcherPattern_mul hpos hi (patternPosition_lt hc hi), ← h, BitVec.getLsbD_and, hset, Bool.and_true]
  · intro h
    apply BitVec.eq_of_getLsbD_eq
    intro j hj
    rw [BitVec.getLsbD_and]
    by_cases hset : ∃ i, i < 8 ∧ i * m.columns.toNat = j
    · rw [(getLsbD_matcherMask _ hj).2 hset, Bool.and_true]
      obtain ⟨i, hi, rfl⟩ := hset
      rw [h i hi, getLsbD_matcherPattern_mul hpos hi hj]
    · have hmask0 := Bool.eq_false_iff.2 fun h => hset ((getLsbD_matcherMask _ hj).1 h)
      have hpattern0 := Bool.eq_false_iff.2 fun h =>
        hset (((getLsbD_matcherPattern m.columns hj).1 h).imp fun _ ⟨hi, _, hij⟩ => ⟨hi, hij⟩)
      rw [hmask0, hpattern0, Bool.and_false]

/-! ## The push -/

/-- The window shifts, and takes the bit at position 0 (R162). -/
theorem matcherPush_fst (b : Bool) (m : Matcher) : (matcherPush b m).1 = { m with acc := m.acc.shiftConcat b } := by
  have hacc : (m.acc <<< 1) ||| (BitVec.ofBool b).setWidth 128 = m.acc.shiftConcat b := by
    ext i hi
    cases i <;> simp [BitVec.getElem_shiftConcat]
  exact congrArg (fun acc => { m with acc := acc }) hacc

/-- The window after a push in plain arithmetic (R162). -/
theorem shiftConcat_eq_ofNat (w : Window) (b : Bool) : w.shiftConcat b = BitVec.ofNat 128 (2 * w.toNat + b.toNat) := by
  apply BitVec.eq_of_toNat_eq
  rw [BitVec.toNat_shiftConcat, BitVec.toNat_ofNat, Nat.shiftLeft_eq, pow_one, Nat.mul_comm]

/-- SM.PUSH_BIT completes with the answer of the matcher after the push, and touches only that matcher (R162). -/
theorem exec_smPushBit {s : State} (hs : Ready s) (sm : Nat) (b : Bool) :
    exec (.smPushBit sm b) s =
      .next ((s.setMatcher sm (matcherPush b (s.matcher sm)).1).returning
        (.u1 (matcherFires (matcherPush b (s.matcher sm)).1))) := by
  have hexec : exec (.smPushBit sm b) s = execSmPushBit sm b s := rfl
  rw [hexec, execSmPushBit, issue_ready hs.1 hs.2]
  rfl

/-- Settles O32: the matcher property at the window after the push. -/
theorem StaticSyncMatcher.matcherPush : Obligations.MatcherPush := by
  intro s sm b hs hm
  have hfires := matcherFires_iff (matcherLegal_matcherPush hm b)
  rw [matcherPush_fst, shiftConcat_eq_ofNat] at hfires
  exact ⟨_, by rw [exec_smPushBit hs, matcherPush_fst, shiftConcat_eq_ofNat], hfires⟩

/-! ## The pushes after an SM.INIT -/

/-- The window after the pushes of the bits, oldest first, on the empty one (R162). -/
def windowOf (bits : List Bool) : Window := bits.foldl BitVec.shiftConcat 0

theorem windowOf_concat (bits : List Bool) (b : Bool) : windowOf (bits ++ [b]) = (windowOf bits).shiftConcat b := by
  simp [windowOf]

/-- Position 0 is the newest bit, and what was not pushed yet reads 0 (R162). -/
theorem getLsbD_windowOf (bits : List Bool) {j : Nat} (hj : j < 128) :
    (windowOf bits).getLsbD j = (bits.reverse[j]?).getD false := by
  induction bits using List.reverseRecOn generalizing j with
  | nil => simp [windowOf]
  | append_singleton bits b ih =>
    rw [windowOf_concat, BitVec.getLsbD_shiftConcat, List.reverse_concat, decide_eq_true hj, Bool.true_and]
    cases j with
    | zero => rfl
    | succ j => simpa using ih (Nat.lt_of_succ_lt hj)

/-- The matcher of a stride once the bits were pushed on it. -/
def matcherAfter (c : Columns) (bits : List Bool) : Matcher := { matcherNew c with acc := windowOf bits }

theorem matcherPush_matcherAfter (c : Columns) (bits : List Bool) (b : Bool) :
    (matcherPush b (matcherAfter c bits)).1 = matcherAfter c (bits ++ [b]) := by
  rw [matcherPush_fst, matcherAfter, matcherAfter, windowOf_concat]

/-- It fires exactly when the bits pushed carry 0xB1 at the stride (R163). -/
theorem matcherFires_matcherAfter {c : Columns} (hc : columnSet.contains c = true) (bits : List Bool) :
    matcherFires (matcherAfter c bits) = true ↔ syncPatternAt c bits := by
  have hlegal : MatcherLegal (matcherAfter c bits) := ⟨hc, rfl, rfl⟩
  rw [matcherFires_iff hlegal]
  exact forall₂_congr fun i hi => Eq.congr_left (getLsbD_windowOf bits (patternPosition_lt hc hi))

/-- Pushes one after the other. -/
theorem matchBits_cons {s : State} (hs : Ready s) (sm : Nat) (b : Bool) (rest : List Bool) :
    matchBits sm (b :: rest) s =
      (matchBits sm rest ((s.setMatcher sm (matcherPush b (s.matcher sm)).1).returning
        (.u1 (matcherFires (matcherPush b (s.matcher sm)).1)))).map fun (vs, u) =>
          (matcherFires (matcherPush b (s.matcher sm)).1 :: vs, u) := by
  rw [matchBits, exec_smPushBit hs]
  rfl

/-- The pushes on a matcher that has taken the bits `pushed`: each answers whether the bits up to it carry 0xB1. -/
theorem matchBits_matcherAfter {s : State} {sm : Nat} {c : Columns} {pushed : List Bool} (bits : List Bool)
    (hs : Ready s) (hc : columnSet.contains c = true) (hm : s.matcher sm = matcherAfter c pushed) :
    ∃ hits t, matchBits sm bits s = some (hits, t) ∧ hits.length = bits.length ∧
      ∀ k, k < bits.length → (hits[k]? = some true ↔ syncPatternAt c (pushed ++ bits.take (k + 1))) := by
  induction bits generalizing s pushed with
  | nil => exact ⟨[], s, rfl, rfl, fun _ h => absurd h (Nat.not_lt_zero _)⟩
  | cons b rest ih =>
    have hpush : (matcherPush b (s.matcher sm)).1 = matcherAfter c (pushed ++ [b]) := by
      rw [hm, matcherPush_matcherAfter]
    rw [matchBits_cons hs, hpush]
    obtain ⟨hits, t, hrun, hlen, hhits⟩ :=
      ih (s := (s.setMatcher sm (matcherAfter c (pushed ++ [b]))).returning
        (.u1 (matcherFires (matcherAfter c (pushed ++ [b]))))) hs (State.matcher_setMatcher s sm _)
    refine ⟨matcherFires (matcherAfter c (pushed ++ [b])) :: hits, t, by rw [hrun]; rfl, congrArg (· + 1) hlen, ?_⟩
    intro k hk
    cases k with
    | zero => simpa using matcherFires_matcherAfter hc (pushed ++ [b])
    | succ k => simpa using hhits k (Nat.lt_of_succ_lt_succ hk)

/-- Settles O33: SM.INIT leaves the matcher of the stride with no bits pushed. -/
theorem matcherFiresOnPattern : Obligations.MatcherFiresOnPattern := by
  intro s s1 sm c bits hs hc hinit
  have hmem := List.contains_iff_mem.2 hc
  rw [exec_smInit_of_mem hs sm hmem] at hinit
  obtain rfl := Host.Outcome.next.inj hinit
  exact matchBits_matcherAfter (pushed := []) bits hs hmem (State.matcher_setMatcher s sm _)

end Sys2Proof.Machine
end

section
/-! PROOFS. The dynamic-sync generator (R170 to R172): DSG.NEXT iterates the table of R89, and the table is one cycle of
length fifteen over the non-zero values. -/

namespace Sys2Proof.Machine

open Sys2Proof

/-! ## DSG.SEED and DSG.NEXT -/

/-- DSG.SEED sets the generator and returns nothing (R170). -/
theorem exec_dsgSeed {s : State} (hs : Ready s) (g : GenName) (seed : DSync) :
    exec (.dsgSeed g seed) s = .next ((s.setGenerator g seed).returning .none) := by
  have hexec : exec (.dsgSeed g seed) s = execDsgSeed g seed s := rfl
  rw [hexec, execDsgSeed, issue_ready hs.1 hs.2, atOnce_ok]

/-- The state after DSG.NEXT: the next value stands in the generator and in the result port (R171). -/
def State.afterDsgNext (g : GenName) (s : State) : State :=
  (s.setGenerator g (dsyncNext (s.generator g))).returning (.u4 (dsyncNext (s.generator g)))

theorem exec_dsgNext {s : State} (hs : Ready s) (g : GenName) : exec (.dsgNext g) s = .next (s.afterDsgNext g) := by
  have hexec : exec (.dsgNext g) s = execDsgNext g s := rfl
  rw [hexec, execDsgNext, issue_ready hs.1 hs.2]
  rfl

@[simp] theorem State.generator_returning (s : State) (g : GenName) (v : Value) :
    (s.returning v).generator g = s.generator g := by cases g <;> rfl

@[simp] theorem State.generator_afterDsgNext (s : State) (g : GenName) :
    (s.afterDsgNext g).generator g = dsyncNext (s.generator g) := by simp [State.afterDsgNext]

theorem ready_setGenerator_returning {s : State} (hs : Ready s) (g : GenName) (v : DSync) (r : Value) :
    Ready ((s.setGenerator g v).returning r) := by
  simpa [Ready] using hs

/-- The next value is the table's entry at the present one (R89). -/
theorem dsyncNext_eq_of_getElem? {g v : DSync} (h : dsyncTable[g.toNat]? = some v) : dsyncNext g = v := by
  rw [dsyncNext, List.getD_eq_getElem?_getD, h, Option.getD_some]

/-- Settles O34: both commands complete at once, DSG.NEXT with the table's entry. -/
theorem generatorCommands : Obligations.GeneratorCommands := by
  intro s g hs
  refine ⟨exec_dsgSeed hs g, fun v hv => ?_⟩
  rw [exec_dsgNext hs, State.afterDsgNext, dsyncNext_eq_of_getElem? hv]

/-! ## The cycle -/

/-- DSG.NEXT one after the other. -/
theorem nextValues_succ {s : State} (hs : Ready s) (n : Nat) (g : GenName) :
    nextValues (n + 1) g s =
      (nextValues n g (s.afterDsgNext g)).map fun (vs, u) => (dsyncNext (s.generator g) :: vs, u) := by
  rw [nextValues, exec_dsgNext hs]
  rfl

/-- `n` times DSG.NEXT returns the first `n` values the table leads to, and leaves the generator at the last of them. -/
theorem nextValues_eq_iterate {s : State} (hs : Ready s) (n : Nat) (g : GenName) :
    ∃ t, nextValues n g s = some (List.iterate dsyncNext (dsyncNext (s.generator g)) n, t) ∧
      t.generator g = dsyncNext^[n] (s.generator g) := by
  induction n generalizing s with
  | zero => exact ⟨s, rfl, rfl⟩
  | succ n ih =>
    obtain ⟨t, hrun, hgen⟩ := ih (s := s.afterDsgNext g) (ready_setGenerator_returning hs g _ _)
    rw [State.generator_afterDsgNext] at hrun hgen
    exact ⟨t, by rw [nextValues_succ hs, hrun]; rfl, hgen⟩

/-- The fifteenth value is the one the run began at (R172). -/
theorem dsyncNext_iterate_fifteen (v : DSync) (hv : v ≠ 0) : dsyncNext^[15] v = v := by
  revert v; decide

/-- No value comes twice in the cycle (R172). -/
theorem nodup_iterate_dsyncNext (v : DSync) (hv : v ≠ 0) : (List.iterate dsyncNext v 15).Nodup := by
  revert v; decide

/-- The table leads from a non-zero value to a non-zero value only (R89). -/
theorem dsyncNext_ne_zero {v : DSync} (hv : v ≠ 0) : dsyncNext v ≠ 0 := by
  revert v; decide

theorem ne_zero_of_mem_iterate_dsyncNext {v w : DSync} {n : Nat} (hv : v ≠ 0)
    (hw : w ∈ List.iterate dsyncNext v n) : w ≠ 0 := by
  obtain ⟨k, -, rfl⟩ := List.mem_iterate.1 hw
  exact Function.Iterate.rec (· ≠ 0) hv (fun _ => dsyncNext_ne_zero) k

/-- The table's entries after its first are the non-zero values (R89). -/
theorem mem_tail_dsyncTable_iff (w : DSync) : w ∈ dsyncTable.tail ↔ w ≠ 0 := by
  revert w; decide

/-- Fifteen different non-zero values are all there are (R172). -/
theorem mem_iterate_dsyncNext_iff {v w : DSync} (hv : v ≠ 0) : w ∈ List.iterate dsyncNext v 15 ↔ w ≠ 0 := by
  have hsub : List.iterate dsyncNext v 15 ⊆ dsyncTable.tail := fun u hu =>
    (mem_tail_dsyncTable_iff u).2 (ne_zero_of_mem_iterate_dsyncNext hv hu)
  have hperm : (List.iterate dsyncNext v 15).Perm dsyncTable.tail :=
    (List.subperm_of_subset (nodup_iterate_dsyncNext v hv) hsub).perm_of_length_le (by simp [dsyncTable])
  rw [hperm.mem_iff, mem_tail_dsyncTable_iff]

/-- The last of the values is the last iterate. -/
theorem getLast?_iterate_succ {α : Type} (f : α → α) (a : α) (n : Nat) :
    (List.iterate f a (n + 1)).getLast? = some (f^[n] a) := by
  rw [List.getLast?_eq_getElem?, List.length_iterate]
  exact List.getElem?_iterate f a (n + 1) n (Nat.lt_succ_self n)

/-- Settles O35: the values are the iterates of the table, which runs through its one cycle once. -/
theorem generatorCycle : Obligations.GeneratorCycle := by
  intro s s1 g seed hs hseed hexec
  rw [exec_dsgSeed hs] at hexec
  obtain rfl := Host.Outcome.next.inj hexec
  obtain ⟨t, hrun, hgen⟩ := nextValues_eq_iterate (ready_setGenerator_returning hs g seed .none) 15 g
  rw [State.generator_returning, State.generator_setGenerator] at hrun hgen
  have hcycle := dsyncNext_iterate_fifteen seed hseed
  have hnext := dsyncNext_ne_zero hseed
  exact ⟨_, t, hrun, (getLast?_iterate_succ dsyncNext _ 14).trans (congrArg some hcycle),
    nodup_iterate_dsyncNext _ hnext, fun _ => mem_iterate_dsyncNext_iff hnext, hgen.trans hcycle⟩

end Sys2Proof.Machine
end

section
/-! PROOFS. The frame reader (R180 to R184): its commands at once, and the pushes of a frame. Inside a frame the reader's
coordinates count the bits pushed, and its control word has taken the first bit of every row that has begun. -/

namespace Sys2Proof.Machine

open Sys2Proof

/-! ## FR.RESET, FR.SET_SHAPE and FR.PUSH_BIT -/

theorem legalShape_iff {rows : Rows} {columns : Columns} :
    legalShape rows columns = true ↔ rows ∈ rowSet ∧ columns ∈ columnSet := by
  rw [legalShape, Bool.and_eq_true, List.contains_iff_mem, List.contains_iff_mem]

/-- FR.RESET leaves the reader as shaping it to its own shape would (R180, R181). -/
theorem exec_frReset {s : State} (hs : Ready s) (r : ReaderName) :
    exec (.frReset r) s =
      .next ((s.setReader r (readerShaped (s.reader r).rows (s.reader r).columns (s.reader r))).returning .none) := by
  have hexec : exec (.frReset r) s = execFrReset r s := rfl
  rw [hexec, execFrReset, issue_ready hs.1 hs.2, atOnce_ok]
  rfl

theorem exec_frSetShape_of_legal {s : State} {rows : Rows} {columns : Columns} (hs : Ready s) (r : ReaderName)
    (hl : legalShape rows columns = true) :
    exec (.frSetShape r rows columns) s =
      .next ((s.setReader r (readerShaped rows columns (s.reader r))).returning .none) := by
  have hshape : readerSetShape rows columns (s.reader r) s = .ok (readerShaped rows columns (s.reader r)) s :=
    readerSetShape_eq_ok.2 ⟨hl, rfl, rfl⟩
  have hexec : exec (.frSetShape r rows columns) s = execFrSetShape r rows columns s := rfl
  rw [hexec, execFrSetShape, issue_ready hs.1 hs.2, hshape, Res.andThen_ok, atOnce_ok]

/-- FR.SET_SHAPE to any other shape faults with ILLEGAL_SHAPE and changes nothing else (R181, R315). -/
theorem exec_frSetShape_of_not_legal {s : State} {rows : Rows} {columns : Columns} (hs : Ready s) (r : ReaderName)
    (hl : legalShape rows columns = false) :
    exec (.frSetShape r rows columns) s = .next { s with status := .faulted .illegalShape } := by
  have hshape : readerSetShape rows columns (s.reader r) s = .stop { s with status := .faulted .illegalShape } :=
    readerSetShape_eq_stop.2 ⟨hl, rfl⟩
  have hexec : exec (.frSetShape r rows columns) s = execFrSetShape r rows columns s := rfl
  rw [hexec, execFrSetShape, issue_ready hs.1 hs.2, hshape, Res.andThen_stop, atOnce_stop]

/-- The state after FR.PUSH_BIT: the reader named has taken the bit, and what it answers is the result (R182). -/
def State.afterFrPush (r : ReaderName) (b : Bool) (s : State) : State :=
  (s.setReader r (readerPush b (s.reader r)).1).returning (.u2 (readerResultCode (readerPush b (s.reader r)).2))

theorem exec_frPushBit {s : State} (hs : Ready s) (r : ReaderName) (b : Bool) :
    exec (.frPushBit r b) s = .next (s.afterFrPush r b) := by
  have hexec : exec (.frPushBit r b) s = execFrPushBit r b s := rfl
  rw [hexec, execFrPushBit, issue_ready hs.1 hs.2]
  rfl

@[simp] theorem State.reader_returning (s : State) (r : ReaderName) (v : Value) :
    (s.returning v).reader r = s.reader r := by cases r <;> rfl

@[simp] theorem State.reader_afterFrPush (s : State) (r : ReaderName) (b : Bool) :
    (s.afterFrPush r b).reader r = (readerPush b (s.reader r)).1 := by simp [State.afterFrPush]

theorem ready_setReader_returning {s : State} (hs : Ready s) (r : ReaderName) (rd : FrameReader) (v : Value) :
    Ready ((s.setReader r rd).returning v) := by
  simpa [Ready] using hs

/-- Settles O36: both commands leave a reader just shaped, and an illegal shape faults. -/
theorem readerResetAndShape : Obligations.ReaderResetAndShape := fun _ r _ _ hs =>
  ⟨exec_frReset hs r, fun hl => exec_frSetShape_of_legal hs r (legalShape_iff.2 hl),
    fun hl => exec_frSetShape_of_not_legal hs r (Bool.eq_false_iff.2 (legalShape_iff.not.2 hl))⟩

/-- Settles O37: a push keeps the shape, and one after FRAME_COMPLETE keeps the whole reader. -/
theorem readerPushFrame : Obligations.ReaderPushFrame := by
  refine fun s r b hs => ⟨⟨_, _, exec_frPushBit hs r b, readerPush_shape b (s.reader r)⟩, fun hc => ?_⟩
  rw [exec_frPushBit hs, State.afterFrPush, readerPush_complete hc]
  rfl

/-! ## The control word, bit after bit -/

/-- The write mask moves down with every push, and stays at 0 once there (R202). -/
theorem cwPush_wmask (b : Bool) (w : ControlWord) : (cwPush b w).wmask = w.wmask >>> 1 := by
  unfold cwPush
  split
  · next h => rw [h]; rfl
  · rfl

/-- A push writes the bits of the write mask and no other (R202). -/
theorem getLsbD_cwPush_value (b : Bool) (w : ControlWord) (i : Nat) :
    (cwPush b w).value.getLsbD i = if w.wmask.getLsbD i then b else w.value.getLsbD i := by
  unfold cwPush
  split
  · next h => simp [h]
  · have hi : w.value.getLsbD i = true → i < 48 := BitVec.lt_of_getLsbD
    cases b <;> grind

/-- The write mask of a word reset and pushed `n` times (R200, R202). -/
theorem getLsbD_reset_wmask_shift (n i : Nat) :
    (ControlWord.reset.wmask >>> n).getLsbD i = decide (n + i = 47) := by
  have hbit : ControlWord.reset.wmask = BitVec.twoPow 48 47 := rfl
  rw [BitVec.getLsbD_ushiftRight, hbit, BitVec.getLsbD_twoPow]
  simp [eq_comm]

/-! ## The column-0 bits in the control word -/

/-- The bit of the first column of row 0 to 47 is the word's bit 47 down to 0, as far as it is pushed, and 0 from there
on (R182, R184). -/
def HoldsFirstColumn (columns : Columns) (pushed : List Bool) (v : CtrlWord) : Prop :=
  ∀ row, row < 48 → v.getLsbD (47 - row) = (pushed[row * columns.toNat]?).getD false

/-- The control word of a reader that has taken the bits `pushed`, the first bit of a row `n` times. -/
structure Captured (columns : Columns) (pushed : List Bool) (n : Nat) (w : ControlWord) : Prop where
  value : HoldsFirstColumn columns pushed w.value
  wmask : w.wmask = ControlWord.reset.wmask >>> n

theorem captured_reset (columns : Columns) : Captured columns [] 0 ControlWord.reset :=
  ⟨fun row _ => by simp [ControlWord.reset], rfl⟩

/-- A place given by its row and its column begins the row `j` exactly when it is the column 0 of that row. -/
theorem mul_add_eq_mul_iff {c row column j : Nat} (h : column < c) :
    row * c + column = j * c ↔ column = 0 ∧ row = j := by
  refine ⟨fun heq => ?_, by rintro ⟨rfl, rfl⟩; rfl⟩
  have hcolumn : column = 0 := by
    have := congrArg (· % c) heq
    simpa [Nat.mul_add_mod', Nat.mod_eq_of_lt h] using this
  subst hcolumn
  exact ⟨rfl, Nat.eq_of_mul_eq_mul_right h heq⟩

theorem getD_getElem?_concat (pushed : List Bool) (b : Bool) (i : Nat) :
    ((pushed ++ [b])[i]?).getD false = if pushed.length = i then b else (pushed[i]?).getD false := by
  grind

/-- A bit inside a row leaves the control word to be what it is. -/
theorem Captured.concat {columns : Columns} {pushed : List Bool} {n row column : Nat} {w : ControlWord}
    (h : Captured columns pushed n w) (hlen : row * columns.toNat + column = pushed.length) (h0 : column ≠ 0)
    (hc : column < columns.toNat) (b : Bool) : Captured columns (pushed ++ [b]) n w := by
  refine ⟨fun j hj => ?_, h.wmask⟩
  have hne : pushed.length ≠ j * columns.toNat := fun he => h0 ((mul_add_eq_mul_iff hc).1 (hlen.trans he)).1
  rw [h.value j hj, getD_getElem?_concat, if_neg hne]

/-- The first bit of the next row goes to the next bit of the control word (R182). -/
theorem Captured.push {columns : Columns} {pushed : List Bool} {n : Nat} {w : ControlWord}
    (h : Captured columns pushed n w) (hlen : n * columns.toNat = pushed.length) (hc : 0 < columns.toNat) (b : Bool) :
    Captured columns (pushed ++ [b]) (n + 1) (cwPush b w) := by
  refine ⟨fun j hj => ?_, by rw [cwPush_wmask, h.wmask, BitVec.shiftRight_add]⟩
  have hrow : n + (47 - j) = 47 ↔ pushed.length = j * columns.toNat := by
    rw [← hlen, Nat.mul_left_inj hc.ne']; omega
  rw [getLsbD_cwPush_value, h.wmask, getLsbD_reset_wmask_shift, h.value j hj, getD_getElem?_concat]
  simp only [decide_eq_true_eq, hrow]

/-- With its 48 bits taken the control word takes no more (R202). -/
theorem Captured.push_eq {columns : Columns} {pushed : List Bool} {n : Nat} {w : ControlWord}
    (h : Captured columns pushed n w) (hn : 48 ≤ n) (b : Bool) : cwPush b w = w := by
  have hmask : w.wmask = 0 := by
    rw [h.wmask]
    refine BitVec.eq_of_getLsbD_eq fun i _ => ?_
    rw [getLsbD_reset_wmask_shift, decide_eq_false (by omega)]
    exact BitVec.getLsbD_zero.symm
  rw [cwPush, if_pos hmask]

/-! ## The reader inside a frame -/

/-- The number of rows of which the first bit is taken. -/
def rowsBegun (r : FrameReader) : Nat := if r.currentColumn = 0 then r.currentRow.toNat else r.currentRow.toNat + 1

/-- A reader inside a frame that has taken the bits `pushed` of it (R182, R183). -/
structure InFrame (rows : Rows) (columns : Columns) (pushed : List Bool) (r : FrameReader) : Prop where
  rows_eq : r.rows = rows
  columns_eq : r.columns = columns
  row_lt : r.currentRow.toNat < rows.toNat
  column_lt : r.currentColumn.toNat < columns.toNat
  position : r.currentRow.toNat * columns.toNat + r.currentColumn.toNat = pushed.length
  state : r.state = if pushed.length = 0 then .frameStart else .needMoreBits
  word : Captured columns pushed (rowsBegun r) r.cw

/-- A reader at the end of the frame of the bits `pushed` (R184). -/
structure FrameDone (columns : Columns) (pushed : List Bool) (r : FrameReader) : Prop where
  state : r.state = .frameComplete
  value : HoldsFirstColumn columns pushed r.cw.value

/-- A reader just shaped that has then taken the bits `pushed`, no more than a frame. -/
def FrameAfter (rows : Rows) (columns : Columns) (pushed : List Bool) (r : FrameReader) : Prop :=
  if pushed.length = rows.toNat * columns.toNat then FrameDone columns pushed r else InFrame rows columns pushed r

theorem inFrame_readerShaped {rows : Rows} {columns : Columns} (hl : legalShape rows columns = true) (r : FrameReader) :
    InFrame rows columns [] (readerShaped rows columns r) := by
  obtain ⟨hrow, -, hcol, -⟩ := legalShape_bounds hl
  exact ⟨rfl, rfl, hrow, hcol, by simp [readerShaped_eq], rfl, captured_reset columns⟩

/-- Before the advance a bit is taken in as the next of the frame (R182). -/
theorem InFrame.captured_readerTakeBit {rows : Rows} {columns : Columns} {pushed : List Bool} {r : FrameReader}
    (h : InFrame rows columns pushed r) (b : Bool) :
    Captured columns (pushed ++ [b]) (r.currentRow.toNat + 1) (readerTakeBit b r).cw := by
  have hword := h.word
  have hpos := h.position
  unfold rowsBegun at hword
  by_cases h0 : r.currentColumn = 0
  · rw [if_pos h0] at hword
    have hlen : r.currentRow.toNat * columns.toNat = pushed.length := by simpa [h0] using hpos
    have hpush := hword.push hlen (Nat.zero_lt_of_lt h.column_lt) b
    by_cases h47 : r.currentRow.toNat ≤ 47
    · rwa [readerTakeBit, if_pos ⟨h0, h47⟩]
    · rw [readerTakeBit, if_neg fun hc => h47 hc.2]
      rwa [hword.push_eq (by omega)] at hpush
  · rw [if_neg h0] at hword
    rw [readerTakeBit, if_neg fun hc => h0 hc.1]
    exact hword.concat hpos (fun hz => h0 (BitVec.eq_of_toNat_eq hz)) h.column_lt b

/-! ## The advance -/

/-- Taking a bit touches the control word only (R182). -/
theorem readerTakeBit_withState (b : Bool) (r : FrameReader) (st : ReaderState) :
    readerTakeBit b { r with state := st } = { r with state := st, cw := (readerTakeBit b r).cw } := by
  unfold readerTakeBit
  dsimp only
  split <;> rfl

/-- At the last bit of the frame the advance completes it (R183). -/
theorem readerAdvance_last {r : FrameReader} (hcol : r.currentColumn.toNat < r.columns.toNat)
    (hlast : r.currentRow.toNat * r.columns.toNat + r.currentColumn.toNat + 1 = r.rows.toNat * r.columns.toNat) :
    readerAdvance r = ({ r with currentColumn := 0, currentRow := 0, state := .frameComplete }, true) := by
  rcases Nat.lt_or_eq_of_le hcol with hlt | hc
  · exact absurd ((mul_add_eq_mul_iff hlt).1 hlast).1 (Nat.succ_ne_zero _)
  · have hc : r.currentColumn.toNat + 1 = r.columns.toNat := hc
    have hr : r.currentRow.toNat + 1 = r.rows.toNat := by
      rw [Nat.add_assoc, hc, ← Nat.succ_mul] at hlast
      exact Nat.eq_of_mul_eq_mul_right (Nat.zero_lt_of_lt hcol) hlast
    rw [readerAdvance, if_pos hc, if_pos hr]

/-- Before the last bit of the frame the advance goes to the next column, or to column 0 of the next row; the rows begun
at the new place are those up to the old one (R183). -/
theorem readerAdvance_inside {r : FrameReader} (hl : legalShape r.rows r.columns = true)
    (hrow : r.currentRow.toNat < r.rows.toNat) (hcol : r.currentColumn.toNat < r.columns.toNat)
    (hlast : r.currentRow.toNat * r.columns.toNat + r.currentColumn.toNat + 1 ≠ r.rows.toNat * r.columns.toNat) :
    ∃ row column, readerAdvance r = ({ r with currentRow := row, currentColumn := column }, false) ∧
      row.toNat < r.rows.toNat ∧ column.toNat < r.columns.toNat ∧
      row.toNat * r.columns.toNat + column.toNat = r.currentRow.toNat * r.columns.toNat + r.currentColumn.toNat + 1 ∧
      rowsBegun { r with currentRow := row, currentColumn := column } = r.currentRow.toNat + 1 := by
  obtain ⟨-, hr256, -, hc16⟩ := legalShape_bounds hl
  by_cases hc : r.currentColumn.toNat + 1 = r.columns.toNat
  · have hr : r.currentRow.toNat + 1 ≠ r.rows.toNat := fun hr =>
      hlast (by rw [Nat.add_assoc, hc, ← Nat.succ_mul, ← hr])
    have hnext : (r.currentRow + 1).toNat = r.currentRow.toNat + 1 :=
      BitVec.toNat_add_of_lt (by simp; omega)
    refine ⟨r.currentRow + 1, 0, by rw [readerAdvance, if_pos hc, if_neg hr], by omega,
      Nat.zero_lt_of_lt hcol, ?_, hnext⟩
    rw [hnext, Nat.add_assoc, hc, Nat.succ_mul]
    rfl
  · have hnext : (r.currentColumn + 1).toNat = r.currentColumn.toNat + 1 :=
      BitVec.toNat_add_of_lt (by simp; omega)
    have hne : r.currentColumn + 1 ≠ 0 := fun h0 => by rw [h0] at hnext; exact absurd hnext (Nat.succ_ne_zero _).symm
    exact ⟨r.currentRow, r.currentColumn + 1, by rw [readerAdvance, if_neg hc], hrow, by omega,
      by rw [hnext, Nat.add_assoc], if_neg hne⟩

/-! ## The pushes of a frame -/

/-- What the push number `k` of a frame answers (R184). -/
def scheduledResult (rows : Rows) (columns : Columns) (k : Nat) : BitVec 2 :=
  if k = 0 then 0 else if k = 44 * columns.toNat then 2 else if k + 1 = rows.toNat * columns.toNat then 3 else 1

/-- Every row of ROW_SET lies past the rows of the control word (R87). -/
theorem rowSet_bound {rows : Rows} (h : rows ∈ rowSet) : 48 ≤ rows.toNat := by
  revert h; revert rows; decide

/-- A frame holds the rows of the control word, and none of them is empty. -/
theorem frame_bound {rows : Rows} {columns : Columns} (hl : legalShape rows columns = true) :
    0 < columns.toNat ∧ 48 * columns.toNat ≤ rows.toNat * columns.toNat := by
  obtain ⟨-, -, hc, -⟩ := legalShape_bounds hl
  exact ⟨hc, Nat.mul_le_mul_right _ (rowSet_bound (legalShape_iff.1 hl).1)⟩

/-- The first push, the one at row 44 and the last are three different pushes, so the order in which R182 and R184 look
for them does not matter. -/
theorem readerResultCode_eq_scheduledResult {rows : Rows} {columns : Columns} (hl : legalShape rows columns = true)
    (k : Nat) :
    readerResultCode (if k + 1 = rows.toNat * columns.toNat then .frameComplete
      else if k = 44 * columns.toNat then .captureParity else if k = 0 then .frameStart else .needMoreBits) =
      scheduledResult rows columns k := by
  obtain ⟨hc, hframe⟩ := frame_bound hl
  unfold scheduledResult
  by_cases h0 : k = 0
  · rw [if_pos h0, if_neg (by omega), if_neg (by omega), if_pos h0]; rfl
  · by_cases h44 : k = 44 * columns.toNat
    · rw [if_neg (show k + 1 ≠ _ by omega), if_pos h44, if_neg h0, if_pos h44]; rfl
    · simp only [if_neg h0, if_neg h44]
      split <;> rfl

/-- What a push reports before the advance, by the number of bits pushed (R182). -/
theorem InFrame.report_eq {rows : Rows} {columns : Columns} {pushed : List Bool} {r : FrameReader}
    (h : InFrame rows columns pushed r) :
    readerReport r = if pushed.length = 44 * columns.toNat then .captureParity
      else if pushed.length = 0 then .frameStart else .needMoreBits := by
  have hparity : (r.currentColumn = 0 ∧ r.currentRow.toNat = parRow - 1) ↔ pushed.length = 44 * columns.toNat := by
    rw [← h.position, mul_add_eq_mul_iff h.column_lt, BitVec.toNat_eq]
    rfl
  have hstart : r.state = .frameStart ↔ pushed.length = 0 := by
    rw [h.state]; split <;> simp [*]
  simp only [readerReport, hparity, hstart]

theorem InFrame.state_ne {rows : Rows} {columns : Columns} {pushed : List Bool} {r : FrameReader}
    (h : InFrame rows columns pushed r) : r.state ≠ .frameComplete := by
  rw [h.state]; split <;> decide

/-- The last push of a frame completes it, and its bit is taken (R182 to R184). -/
theorem InFrame.push_last {rows : Rows} {columns : Columns} {pushed : List Bool} {r : FrameReader}
    (h : InFrame rows columns pushed r) (hlast : pushed.length + 1 = rows.toNat * columns.toNat) (b : Bool) :
    FrameDone columns (pushed ++ [b]) (readerPush b r).1 ∧ (readerPush b r).2 = .frameComplete := by
  have hword := h.captured_readerTakeBit b
  rw [readerPush_of_ne h.state_ne, readerTakeBit_withState]
  obtain ⟨rfl, rfl, -, hcol, hpos, -, -⟩ := h
  have hadvance := readerAdvance_last (r := { r with state := .needMoreBits, cw := (readerTakeBit b r).cw }) hcol
    ((congrArg (· + 1) hpos).trans hlast)
  rw [hadvance]
  exact ⟨⟨rfl, hword.value⟩, rfl⟩

/-- A push before the last of a frame leaves the reader inside it, with its bit taken (R182, R183). -/
theorem InFrame.push_inside {rows : Rows} {columns : Columns} {pushed : List Bool} {r : FrameReader}
    (h : InFrame rows columns pushed r) (hl : legalShape rows columns = true)
    (hlast : pushed.length + 1 ≠ rows.toNat * columns.toNat) (b : Bool) :
    InFrame rows columns (pushed ++ [b]) (readerPush b r).1 ∧ (readerPush b r).2 = readerReport r := by
  have hword := h.captured_readerTakeBit b
  rw [readerPush_of_ne h.state_ne, readerTakeBit_withState]
  obtain ⟨rfl, rfl, hrow, hcol, hpos, -, -⟩ := h
  have hlen : (pushed ++ [b]).length = pushed.length + 1 := List.length_append
  obtain ⟨row, column, hadvance, hrow', hcol', hpos', hbegun⟩ :=
    readerAdvance_inside (r := { r with state := .needMoreBits, cw := (readerTakeBit b r).cw }) hl hrow hcol
      (fun he => hlast ((congrArg (· + 1) hpos).symm.trans he))
  rw [hadvance]
  refine ⟨⟨rfl, rfl, hrow', hcol', ?_, ?_, hbegun ▸ hword⟩, rfl⟩
  · rw [hlen, ← hpos]; exact hpos'
  · rw [hlen, if_neg (Nat.succ_ne_zero _)]

/-- A push inside a frame answers as scheduled, and its bit is taken (R182 to R184). -/
theorem InFrame.push_scheduled {rows : Rows} {columns : Columns} {pushed : List Bool} {r : FrameReader}
    (h : InFrame rows columns pushed r) (hl : legalShape rows columns = true) (b : Bool) :
    readerResultCode (readerPush b r).2 = scheduledResult rows columns pushed.length ∧
      FrameAfter rows columns (pushed ++ [b]) (readerPush b r).1 := by
  rw [← readerResultCode_eq_scheduledResult hl, FrameAfter, List.length_append, List.length_singleton]
  split
  · next hlast =>
    obtain ⟨hdone, hres⟩ := h.push_last hlast b
    exact ⟨congrArg _ hres, hdone⟩
  · next hlast =>
    obtain ⟨hin, hres⟩ := h.push_inside hl hlast b
    exact ⟨congrArg _ (hres.trans h.report_eq), hin⟩

/-- Pushes one after the other. -/
theorem pushBits_cons {s : State} (hs : Ready s) (r : ReaderName) (b : Bool) (rest : List Bool) :
    pushBits r (b :: rest) s = (pushBits r rest (s.afterFrPush r b)).map fun (vs, u) =>
      (readerResultCode (readerPush b (s.reader r)).2 :: vs, u) := by
  rw [pushBits, exec_frPushBit hs]
  rfl

/-- The pushes that bring a reader from the bits `pushed` to the end of the frame answer as scheduled (R184). -/
theorem pushBits_frameAfter {s : State} {r : ReaderName} {rows : Rows} {columns : Columns} {pushed : List Bool}
    (bits : List Bool) (hs : Ready s) (hl : legalShape rows columns = true)
    (h : FrameAfter rows columns pushed (s.reader r))
    (hlen : pushed.length + bits.length = rows.toNat * columns.toNat) :
    ∃ vs t, pushBits r bits s = some (vs, t) ∧
      (∀ k, k < bits.length → vs[k]? = some (scheduledResult rows columns (pushed.length + k))) ∧
      FrameDone columns (pushed ++ bits) (t.reader r) := by
  induction bits generalizing s pushed with
  | nil =>
    rw [FrameAfter, if_pos (by simpa using hlen)] at h
    exact ⟨[], s, rfl, fun _ hk => absurd hk (Nat.not_lt_zero _), by rwa [List.append_nil]⟩
  | cons b rest ih =>
    rw [List.length_cons] at hlen
    rw [FrameAfter, if_neg (by omega)] at h
    obtain ⟨hres, hafter⟩ := h.push_scheduled hl b
    rw [← State.reader_afterFrPush] at hafter
    obtain ⟨vs, t, hrun, hvs, hdone⟩ :=
      ih (s := s.afterFrPush r b) (ready_setReader_returning hs r _ _) hafter (by simp; omega)
    refine ⟨_ :: vs, t, by rw [pushBits_cons hs, hrun]; rfl, fun k hk => ?_, by simpa using hdone⟩
    cases k with
    | zero => exact congrArg some hres
    | succ k => simpa [Nat.add_assoc, Nat.add_comm 1 k] using hvs k (Nat.lt_of_succ_lt_succ hk)

/-- Either command of the schedule leaves the reader just shaped (R180, R181). -/
theorem reader_of_shaped_or_reset {s s1 : State} {r : ReaderName} {rows : Rows} {columns : Columns} (hs : Ready s)
    (hl : legalShape rows columns = true)
    (h : exec (.frSetShape r rows columns) s = .next s1 ∨
      exec (.frReset r) s = .next s1 ∧ (s.reader r).rows = rows ∧ (s.reader r).columns = columns) :
    Ready s1 ∧ s1.reader r = readerShaped rows columns (s.reader r) := by
  have hs1 : s1 = (s.setReader r (readerShaped rows columns (s.reader r))).returning .none := by
    rcases h with h | ⟨h, rfl, rfl⟩
    · rw [exec_frSetShape_of_legal hs r hl] at h
      exact (Host.Outcome.next.inj h).symm
    · rw [exec_frReset hs] at h
      exact (Host.Outcome.next.inj h).symm
  rw [hs1]
  exact ⟨ready_setReader_returning hs r _ _, by simp⟩

/-- Settles O38: the pushes from the first bit of the frame to its last. -/
theorem readerSchedule : Obligations.ReaderSchedule := by
  intro s s1 r rows columns bits hs hrows hcolumns hshaped hlen
  have hl := legalShape_iff.2 ⟨hrows, hcolumns⟩
  obtain ⟨hs1, hreader⟩ := reader_of_shaped_or_reset hs hl hshaped
  have hstart : FrameAfter rows columns [] (s1.reader r) := by
    obtain ⟨hc, hframe⟩ := frame_bound hl
    rw [hreader, FrameAfter, if_neg (by rw [List.length_nil]; omega)]
    exact inFrame_readerShaped hl _
  obtain ⟨vs, t, hrun, hvs, hdone⟩ := pushBits_frameAfter bits hs1 hl hstart (by simpa using hlen)
  refine ⟨vs, t, hrun, fun k hk => ?_, hdone.state, hdone.value⟩
  rw [hvs k hk, hlen, List.length_nil, Nat.zero_add]
  rfl

end Sys2Proof.Machine
end

section
/-! PROOFS. The control word (R200 to R223): its commands change the word named or read its value, its fields and
predicates are said in arithmetic and in single bits, and 48 pushes after a reset fill it from bit 47 down. -/

namespace Sys2Proof.Machine

open Sys2Proof

/-! ## The two kinds of command -/

/-- A command that changes the control word completes at once and returns nothing (R200 to R203). -/
theorem exec_of_changeWord {s : State} {i : Instr} {w : WordName} {cw : ControlWord} (hs : Ready s)
    (f : ControlWord → ControlWord) (hexec : exec i s = changeWord w f s) (hf : f (s.word w) = cw) :
    exec i s = .next ((s.setWord w cw).returning .none) := by
  rw [hexec, changeWord, issue_ready hs.1 hs.2, atOnce_ok, hf]

/-- A command that reads the control word's value completes at once and changes the result port only (R204 to R222). -/
theorem exec_of_readWord {s : State} {i : Instr} {w : WordName} {v : Value} (hs : Ready s)
    (f : CtrlWord → Value) (hexec : exec i s = readWord w f s) (hf : f (s.word w).value = v) :
    exec i s = .next { s with result := v } := by
  rw [hexec, readWord, issue_ready hs.1 hs.2, atOnce_ok, hf]
  rfl

theorem exec_cwReset {s : State} (hs : Ready s) (w : WordName) :
    exec (.cwReset w) s = .next ((s.setWord w ControlWord.reset).returning .none) :=
  exec_of_changeWord hs (fun _ => ControlWord.reset) rfl rfl

theorem exec_cwPushBit {s : State} (hs : Ready s) (w : WordName) (b : Bool) :
    exec (.cwPushBit w b) s = .next ((s.setWord w (cwPush b (s.word w))).returning .none) :=
  exec_of_changeWord hs (cwPush b) rfl rfl

/-- Shifting the write mask is dividing it, past its 48 bits too (R203). -/
theorem cwSkip_eq (n : BitVec 64) (cw : ControlWord) :
    cwSkip n cw = ⟨cw.value, BitVec.ofNat 48 (cw.wmask.toNat / 2 ^ n.toNat)⟩ := by
  have hshift : cw.wmask >>> n.toNat = BitVec.ofNat 48 (cw.wmask.toNat / 2 ^ n.toNat) := by
    rw [← Nat.shiftRight_eq_div_pow, ← BitVec.toNat_ushiftRight, BitVec.ofNat_toNat, BitVec.setWidth_eq]
  rw [cwSkip, ← hshift]
  split
  · next hn => rw [BitVec.ushiftRight_eq_zero hn]; rfl
  · rfl

/-- Settles O39: each of the four commands is a change of the control word named. -/
theorem wordOperations : Obligations.WordOperations := fun _ w hs =>
  ⟨exec_cwReset hs w, fun x => exec_of_changeWord hs (fun _ => cwLoadWord x) rfl rfl, fun b => exec_cwPushBit hs w b,
    fun n => exec_of_changeWord hs (cwSkip n) rfl (cwSkip_eq n _)⟩

/-! ## The fields of the value -/

/-- A field of one bit (R85). -/
theorem getLsbD_eq_decide (v : CtrlWord) (i : Nat) : v.getLsbD i = decide (v.toNat / 2 ^ i % 2 = 1) :=
  Nat.testBit_eq_decide_div_mod_eq

/-- A field of several bits (R85). -/
theorem extractLsb'_eq_ofNat (v : CtrlWord) (i n : Nat) : v.extractLsb' i n = BitVec.ofNat n (v.toNat / 2 ^ i) :=
  congrArg (BitVec.ofNat n) (Nat.shiftRight_eq_div_pow ..)

/-- An accessor of a field of one bit. -/
theorem exec_of_readBit {s : State} {c : Instr} {w : WordName} (hs : Ready s) (i : Nat)
    (hexec : exec c s = readWord w (fun v => .u1 (v.getLsbD i)) s) :
    exec c s = .next { s with result := .u1 (decide ((s.word w).value.toNat / 2 ^ i % 2 = 1)) } :=
  exec_of_readWord hs _ hexec (congrArg Value.u1 (getLsbD_eq_decide _ i))

/-- An accessor of a field of several bits. -/
theorem exec_of_readField {s : State} {c : Instr} {w : WordName} {n : Nat} (hs : Ready s) (answer : BitVec n → Value)
    (i : Nat) (hexec : exec c s = readWord w (fun v => answer (v.extractLsb' i n)) s) :
    exec c s = .next { s with result := answer (BitVec.ofNat n ((s.word w).value.toNat / 2 ^ i)) } :=
  exec_of_readWord hs _ hexec (congrArg answer (extractLsb'_eq_ofNat _ i n))

/-- Settles O41: each accessor reads the field at its lowest bit. -/
theorem wordAccessors : Obligations.WordAccessors := fun _ _ hs =>
  ⟨exec_of_readWord hs .u48 rfl rfl, exec_of_readBit hs 47 rfl, exec_of_readField hs .u3 44 rfl,
    exec_of_readField hs .u4 40 rfl, exec_of_readField hs .u8 16 rfl, exec_of_readBit hs 15 rfl,
    exec_of_readField hs .u16 24 rfl, exec_of_readField hs .u8 7 rfl, exec_of_readBit hs 42 rfl⟩

/-- Settles O42: each status accessor reads the field at its lowest bit. -/
theorem wordStatusAccessors : Obligations.WordStatusAccessors := by
  intro s w hs
  have hack : exec (.cwAck w) s = _ := exec_of_readBit hs 0 rfl
  rw [pow_zero, Nat.div_one] at hack
  exact ⟨exec_of_readField hs .u16 24 rfl, exec_of_readField hs .u8 7 rfl, exec_of_readField hs .u4 3 rfl,
    exec_of_readBit hs 2 rfl, exec_of_readBit hs 1 rfl, hack⟩

/-! ## The predicates -/

/-- A field is a number exactly when its bits, in arithmetic, are that number. -/
theorem extractLsb'_eq_iff_toNat (v : CtrlWord) (i n : Nat) (x : BitVec n) :
    v.extractLsb' i n = x ↔ v.toNat / 2 ^ i % 2 ^ n = x.toNat := by
  rw [extractLsb'_eq_ofNat, ← BitVec.toNat_inj, BitVec.toNat_ofNat]

/-- A shape change is a WRITE to one of two registers (R220). -/
theorem cwShapeChange_iff (v : CtrlWord) :
    cwShapeChange v = true ↔ v.toNat / 2 ^ 44 % 8 = 3 ∧
      (v.toNat / 2 ^ 24 % 2 ^ 16 = 0x60 ∨ v.toNat / 2 ^ 24 % 2 ^ 16 = 0x70) := by
  simp only [cwShapeChange, Bool.and_eq_true, Bool.or_eq_true, beq_iff_eq, cwOpcode, cwRegAddr,
    extractLsb'_eq_iff_toNat]
  rfl

/-- Two words have a field in common exactly when they agree on each of its bits. -/
theorem extractLsb'_eq_iff_getLsbD (v o : CtrlWord) (i n : Nat) :
    v.extractLsb' i n = o.extractLsb' i n ↔ ∀ k, i ≤ k → k < i + n → v.getLsbD k = o.getLsbD k := by
  constructor
  · intro h k hik hkn
    have hbit := congrArg (BitVec.getLsbD · (k - i)) h
    simpa [Nat.add_sub_cancel' hik, show k - i < n by omega] using hbit
  · intro h
    refine BitVec.eq_of_getLsbD_eq fun j hj => ?_
    simp [hj, h (i + j) (by omega) (by omega)]

/-- Two words are equal under a mask exactly when they agree on each bit of it. -/
theorem and_eq_and_iff_getLsbD (v o m : CtrlWord) :
    v &&& m = o &&& m ↔ ∀ k, m.getLsbD k = true → v.getLsbD k = o.getLsbD k := by
  constructor
  · intro h k hk
    simpa [hk] using congrArg (BitVec.getLsbD · k) h
  · intro h
    refine BitVec.eq_of_getLsbD_eq fun k _ => ?_
    rw [BitVec.getLsbD_and, BitVec.getLsbD_and]
    cases hk : m.getLsbD k with
    | false => simp
    | true => rw [h k hk]

/-- The bits of R221's five fields: ACK and NAK, PingStat0_3, PingStat4_11, and PREQ. -/
theorem getLsbD_pingMask_iff (k : Nat) :
    (0x80FFFF007F83 : CtrlWord).getLsbD k = true ↔
      k = 0 ∨ k = 1 ∨ 7 ≤ k ∧ k < 7 + 8 ∨ 24 ≤ k ∧ k < 24 + 16 ∨ k = 47 := by
  by_cases hk : k < 48
  · revert hk; revert k; decide
  · rw [BitVec.getLsbD_of_ge _ _ (by omega)]
    simp only [Bool.false_eq_true, false_iff]
    omega

/-- Two words are the same PING exactly when they agree on R221's five fields, bit by bit. -/
theorem cwPingSame_iff (v o : CtrlWord) :
    cwPingSame v o = true ↔ v &&& 0x80FFFF007F83 = o &&& 0x80FFFF007F83 := by
  simp only [cwPingSame, Bool.and_eq_true, beq_iff_eq, cwPingStat4To11, cwPingStat0To3, cwPreq, cwAck, cwNak,
    extractLsb'_eq_iff_getLsbD, and_eq_and_iff_getLsbD, getLsbD_pingMask_iff]
  constructor
  · rintro ⟨⟨⟨⟨hstat4, hstat0⟩, hpreq⟩, hack⟩, hnak⟩ k (rfl | rfl | ⟨hlo, hhi⟩ | ⟨hlo, hhi⟩ | rfl)
    exacts [hack, hnak, hstat0 k hlo hhi, hstat4 k hlo hhi, hpreq]
  · intro h
    exact ⟨⟨⟨⟨fun k hlo hhi => h k (by omega), fun k hlo hhi => h k (by omega)⟩, h 47 (by omega)⟩, h 0 (by omega)⟩,
      h 1 (by omega)⟩

/-- Settles O43: both predicates are read from the value, the shape change in arithmetic and the same PING by bits. -/
theorem wordPredicates : Obligations.WordPredicates := fun _ _ other hs =>
  ⟨⟨_, exec_of_readWord hs (fun v => .u1 (cwShapeChange v)) rfl rfl, cwShapeChange_iff _⟩,
    ⟨_, exec_of_readWord hs (fun v => .u1 (cwPingSame v other)) rfl rfl, cwPingSame_iff _ other⟩⟩

/-! ## The new shape -/

/-- RegData in arithmetic (R211). -/
theorem toNat_cwRegData (v : CtrlWord) : (cwRegData v).toNat = v.toNat / 2 ^ 7 % 256 :=
  (extractLsb'_eq_iff_toNat v 7 8 _).1 rfl |>.symm

/-- The rows are the entry of ROWS_TABLE that the upper five bits number, and no index is out of range (R87, R222). -/
theorem getElem?_rowsTable (data : BitVec 8) : rowsTable[data.toNat / 8]? = some (rowsOfData data) := by
  have hlt : data.toNat / 8 < rowsTable.length := Nat.div_lt_of_lt_mul data.isLt
  have hindex : (data >>> 3).toNat = data.toNat / 8 := Nat.shiftRight_eq_div_pow ..
  rw [rowsOfData, hindex, List.getD_eq_getElem _ _ hlt, List.getElem?_eq_getElem hlt]

/-- The columns are the entry of COLS_TABLE that the lower three bits number (R88, R222). -/
theorem getElem?_colsTable (data : BitVec 8) : colsTable[data.toNat % 8]? = some (columnsOfData data) := by
  have hlt : data.toNat % 8 < colsTable.length := Nat.mod_lt _ (by decide)
  have hindex : (data &&& 7).toNat = data.toNat % 8 := Nat.and_two_pow_sub_one_eq_mod data.toNat 3
  rw [columnsOfData, hindex, List.getD_eq_getElem _ _ hlt, List.getElem?_eq_getElem hlt]

/-- COLS_TABLE counts up in steps of 2 (R88). -/
theorem toNat_of_getElem?_colsTable {i : Nat} {columns : Columns} (h : colsTable[i]? = some columns) :
    columns.toNat = 2 * i + 2 := by
  obtain ⟨hlt, rfl⟩ := List.getElem?_eq_some_iff.1 h
  revert i
  decide

/-- A shape of the two tables is legal unless its rows are 0 (R87, R88). -/
theorem legalShape_of_tables {rows : Rows} {columns : Columns} (hr : rows ∈ rowsTable) (hc : columns ∈ colsTable)
    (h0 : rows ≠ 0) : legalShape rows columns = true :=
  legalShape_iff.2 ⟨List.mem_filter.2 ⟨hr, bne_iff_ne.2 h0⟩, hc⟩

/-- Settles O44: the two entries RegData numbers, and what the tables hold. -/
theorem newShapeTables : Obligations.NewShapeTables := by
  intro s w hs
  have hrows := getElem?_rowsTable (cwRegData (s.word w).value)
  have hcols := getElem?_colsTable (cwRegData (s.word w).value)
  have hlegal := legalShape_of_tables (List.mem_of_getElem? hrows) (List.mem_of_getElem? hcols)
  rw [toNat_cwRegData] at hrows hcols
  refine ⟨_, _, exec_of_readWord hs (fun v => .shape (cwNewShape v).1 (cwNewShape v).2) rfl rfl,
    toNat_of_getElem?_colsTable hcols, ?_, hlegal⟩
  exact (List.getElem?_map ..).trans (congrArg (Option.map BitVec.toNat) hrows)

/-! ## Filling the word -/

@[simp] theorem State.word_returning (s : State) (w : WordName) (v : Value) : (s.returning v).word w = s.word w := by
  cases w with
  | ofReader r => exact congrArg FrameReader.cw (State.reader_returning s r v)
  | ephemeral k => rfl

theorem ready_setWord_returning {s : State} (hs : Ready s) (w : WordName) (cw : ControlWord) (v : Value) :
    Ready ((s.setWord w cw).returning v) := by
  simpa [Ready] using hs

/-- Pushes one after the other fold CW.PUSH_BIT over the bits (R202). -/
theorem fillWord_eq_foldl {s : State} (hs : Ready s) (w : WordName) (bits : List Bool) :
    ∃ t, fillWord w bits s = some t ∧ Ready t ∧ t.word w = bits.foldl (fun cw b => cwPush b cw) (s.word w) := by
  induction bits generalizing s with
  | nil => exact ⟨s, rfl, hs, rfl⟩
  | cons b rest ih =>
    obtain ⟨t, hrun, ht, hword⟩ := ih (ready_setWord_returning hs w (cwPush b (s.word w)) .none)
    rw [State.word_returning, State.word_setWord] at hword
    exact ⟨t, by rw [fillWord, exec_cwPushBit hs]; exact hrun, ht, hword⟩

/-- A word filled by hand is that of a frame of one column: every bit pushed is the first of its row. -/
theorem captured_foldl_cwPush (bits : List Bool) :
    Captured 1 bits bits.length (bits.foldl (fun cw b => cwPush b cw) ControlWord.reset) := by
  induction bits using List.reverseRecOn with
  | nil => exact captured_reset 1
  | append_singleton bits b ih =>
    rw [List.foldl_append, List.length_append]
    exact ih.push (Nat.mul_one _) Nat.one_pos b

/-- The bits of the number that a list of bits is, the last of them the lowest. -/
theorem testBit_foldl (bits : List Bool) (i : Nat) :
    (bits.foldl (fun acc (b : Bool) => 2 * acc + b.toNat) 0).testBit i = (bits.reverse[i]?).getD false := by
  induction bits using List.reverseRecOn generalizing i with
  | nil => simp
  | append_singleton bits b ih =>
    rw [List.foldl_append, List.foldl_cons, List.foldl_nil, ← Nat.bit_val, List.reverse_concat]
    cases i with
    | zero => exact Nat.testBit_bit_zero b _
    | succ i => rw [Nat.testBit_bit_succ, ih, List.getElem?_cons_succ]

/-- The value of a word filled with 48 bits is their sum, the first bit the highest (R223). -/
theorem Captured.value_toNat {bits : List Bool} {n : Nat} {cw : ControlWord} (h : Captured 1 bits n cw)
    (hlen : bits.length = 48) : cw.value.toNat = bits.foldl (fun acc b => 2 * acc + b.toNat) 0 := by
  refine Nat.eq_of_testBit_eq fun i => ?_
  rw [testBit_foldl, BitVec.testBit_toNat]
  by_cases hi : i < 48
  · have hbit := h.value (47 - i) (by omega)
    rw [show 47 - (47 - i) = i by omega] at hbit
    rw [hbit, List.getElem?_reverse (hlen ▸ hi), hlen]
    simp
  · rw [BitVec.getLsbD_of_ge _ _ (by omega), List.getElem?_eq_none (by simp; omega)]
    rfl

/-- Settles O40: the 48 pushes are those of a frame of one column, after which the write mask is 0. -/
theorem wordFill : Obligations.WordFill := by
  intro s s1 w bits hs hexec hlen
  rw [exec_cwReset hs] at hexec
  obtain rfl := Host.Outcome.next.inj hexec
  obtain ⟨t, hrun, ht, hword⟩ := fillWord_eq_foldl (ready_setWord_returning hs w ControlWord.reset .none) w bits
  rw [State.word_returning, State.word_setWord] at hword
  have hcaptured : Captured 1 bits bits.length (t.word w) := hword ▸ captured_foldl_cwPush bits
  refine ⟨t, hrun, hcaptured.value_toNat hlen, fun b u hpush => ?_⟩
  rw [exec_cwPushBit ht, hcaptured.push_eq hlen.ge] at hpush
  obtain rfl := Host.Outcome.next.inj hpush
  simp

end Sys2Proof.Machine
end

section
/-! PROOFS. The stream ahead of the decoder: a bit read, replayed or live, is its first one, and leaves what comes after. A
block that is supplied with `n` bits reads them one after the other. -/

namespace Sys2Proof.Machine

open Sys2Proof

/-! ## Stretches -/

theorem Stream.bits_cons (before level : Bool) (levels : List Bool) :
    (Stream.mk before (level :: levels)).bits = (level != before) :: (Stream.mk level levels).bits := rfl

@[simp] theorem Stream.length_bits (a : Stream) : a.bits.length = a.levels.length := by
  simp [Stream.bits]

theorem Stream.length_take_bits {a : Stream} {k : Nat} (hk : k ≤ a.levels.length) : (a.bits.take k).length = k :=
  List.length_take_of_le (by rwa [Stream.length_bits])

@[simp] theorem Stream.drop_zero (a : Stream) : a.drop 0 = a := rfl

@[simp] theorem Stream.drop_levels (n : Nat) (a : Stream) : (a.drop n).levels = a.levels.drop n := rfl

theorem Stream.drop_succ_cons {n : Nat} (before level : Bool) {levels : List Bool} (hn : n ≤ levels.length) :
    (Stream.mk before (level :: levels)).drop (n + 1) = (Stream.mk level levels).drop n := by
  simp only [Stream.drop, List.getD_cons_succ, List.drop_succ_cons, Stream.mk.injEq, and_true]
  rw [List.getD_eq_getElem _ _ (by simpa using Nat.lt_succ_of_le hn),
    List.getD_eq_getElem _ _ (by simpa using Nat.lt_succ_of_le hn)]

/-- Dropping inside a stretch adds up. -/
theorem Stream.drop_drop {m n : Nat} {a : Stream} (h : m + n ≤ a.levels.length) :
    (a.drop m).drop n = a.drop (m + n) := by
  obtain ⟨before, levels⟩ := a
  induction levels generalizing before m with
  | nil =>
    obtain ⟨rfl, rfl⟩ : m = 0 ∧ n = 0 := by simpa using h
    rfl
  | cons level levels ih =>
    cases m with
    | zero => rw [Nat.zero_add]; rfl
    | succ m =>
      have h : m + n ≤ levels.length := by simp at h; omega
      rw [drop_succ_cons _ _ (by omega), Nat.add_right_comm, drop_succ_cons _ _ h, ih level h]

theorem Stream.bits_drop {n : Nat} {a : Stream} (h : n ≤ a.levels.length) : (a.drop n).bits = a.bits.drop n := by
  obtain ⟨before, levels⟩ := a
  induction levels generalizing before n with
  | nil =>
    obtain rfl : n = 0 := by simpa using h
    rfl
  | cons level levels ih =>
    cases n with
    | zero => rfl
    | succ n =>
      have h : n ≤ levels.length := by simpa using h
      rw [drop_succ_cons _ _ h, ih level h, bits_cons, List.drop_succ_cons]

/-! ## What is pending -/

/-- The levels of the chains in the entries (R81). -/
def chainLevels (es : List Entry) : List Bool := (es.filter fun e => !entryMore e).map entryLevel

@[simp] theorem chainLevels_nil : chainLevels [] = [] := rfl

@[simp] theorem chainLevels_append (a b : List Entry) : chainLevels (a ++ b) = chainLevels a ++ chainLevels b := by
  simp [chainLevels]

/-- What is pending is the history from the mark of the position on (R131, R141). -/
theorem pendingLevels_eq (s : State) : pendingLevels s = chainLevels (s.hb.entries.drop (mark s).index) := by
  unfold pendingLevels
  cases h : s.bd.nextHistoryReadIndex with
  | sentinel => simp [mark_index_sentinel h, History.size]
  | entry i => simp only [mark_index_entry h]; rfl

theorem pendingLevels_sentinel {s : State} (h : s.bd.nextHistoryReadIndex = .sentinel) : pendingLevels s = [] := by
  simp [pendingLevels, h]

/-- The last of a chain's entries is the only one with OVF = 0 (R84). -/
theorem takeChain_levels {fuel : Nat} {es c : List Entry} (h : takeChain fuel es = some c) :
    ∃ last, c.getLast? = some last ∧ chainLevels es = entryLevel last :: chainLevels (es.drop c.length) := by
  induction fuel generalizing es c with
  | zero => cases h
  | succ n ih =>
    cases es with
    | nil => cases h
    | cons e rest =>
      unfold takeChain at h
      split at h
      · rename_i hm
        obtain ⟨c', hc, rfl⟩ := Option.map_eq_some_iff.1 h
        obtain ⟨last, hlast, hlevels⟩ := ih hc
        refine ⟨last, by rw [List.getLast?_cons, hlast]; rfl, ?_⟩
        rw [List.length_cons, List.drop_succ_cons, ← hlevels]
        simp [chainLevels, hm]
      · rename_i hm
        obtain rfl := Option.some.inj h
        exact ⟨e, rfl, by simp [chainLevels, hm]⟩

/-- Every entry of a chain carries its level (R83). -/
theorem chainLevel_eq_some {c : List Entry} {level : Bool} (h : chainLevel c = some level) :
    ∀ e ∈ c, entryLevel e = level := by
  cases c with
  | nil => exact fun e he => absurd he List.not_mem_nil
  | cons e rest =>
    simp only [chainLevel, Option.ite_none_right_eq_some, List.all_eq_true, beq_iff_eq, Option.some.injEq] at h
    obtain ⟨hall, rfl⟩ := h
    simpa using hall

/-- The chain at the head of the entries is the first of their levels (R83). -/
theorem chainLevels_of_decodeChain {es : List Entry} {level : Bool} {delta : Sample} {n : Nat}
    (h : decodeChain es = some (level, delta, n)) : chainLevels es = level :: chainLevels (es.drop n) := by
  unfold decodeChain at h
  split at h
  · cases h
  · rename_i c hc
    split at h
    · cases h
    · rename_i hl
      cases h
      obtain ⟨last, hlast, hlevels⟩ := takeChain_levels hc
      rw [hlevels, chainLevel_eq_some hl last (List.mem_of_getLast? hlast)]

@[simp] theorem chainLevels_encodeChain (level : Bool) (delta : Sample) :
    chainLevels (encodeChain level delta) = [level] := by
  simpa using chainLevels_of_decodeChain (decodeChain_encodeChain level delta)

/-! ## The next bit -/

/-- The state after the chain of `level` and `delta`, which ends at the index `next`, is replayed (R131, R133). -/
def State.afterChain (s : State) (level : Bool) (delta : Sample) (next : Nat) : State :=
  { s with bd := { s.bd with
    lastLevel := level
    parityIsOdd := s.bd.parityIsOdd != level
    currentSample := s.bd.currentSample + delta
    nextHistoryReadIndex := if next = s.hb.size then .sentinel else .entry next } }

theorem mark_index_afterChain (s : State) (level : Bool) (delta : Sample) (next : Nat) :
    (mark (s.afterChain level delta next)).index = next := mark_index_of_readIndex rfl

/-- The two ways a bit is read, with their whole next states (R130 to R134). -/
theorem nextBit_iff {s t : State} {b : Bool} :
    nextBit s = some (.ok b t) ↔
      (∃ i level delta n, s.bd.nextHistoryReadIndex = .entry i ∧
        decodeChain (s.hb.entries.drop i) = some (level, delta, n) ∧ b = (level != s.bd.lastLevel) ∧
        t = s.afterChain level delta (i + n)) ∨
      (∃ e rest, s.bd.nextHistoryReadIndex = .sentinel ∧ s.edges = e :: rest ∧ EdgeFits s e ∧
        b = (e.level != s.bd.lastLevel) ∧ t = s.afterEdge e) := by
  constructor
  · intro h
    rcases nextBit_eq_some_ok.1 h with ⟨i, hi, hb⟩ | ⟨hi, e, rest, he, hb⟩
    · obtain ⟨level, delta, n, hd, hbit, rfl⟩ := historyBit_eq_ok.1 hb
      exact .inl ⟨i, level, delta, n, hi, hd, hbit, by rw [State.afterChain, parityAfter_eq_bne]⟩
    · obtain ⟨u, hu, -, -⟩ := liveBit_eq_ok.1 hb
      have hfits : EdgeFits s e := by
        rcases collectEdge_eq_ok.1 hu with ⟨-, hfits, -⟩ | ⟨hoff, -⟩
        · exact .inr hfits
        · exact .inl hoff
      rw [nextBit_of_edge hi he hfits] at h
      obtain ⟨hbit, hstate⟩ := Res.ok.inj (Option.some.inj h)
      exact .inr ⟨e, rest, hi, he, hfits, hbit.symm, hstate.symm⟩
  · rintro (⟨i, level, delta, n, hi, hd, rfl, rfl⟩ | ⟨e, rest, hi, he, hfits, rfl, rfl⟩)
    · refine nextBit_eq_some_ok.2 (.inl ⟨i, hi, historyBit_eq_ok.2 ⟨level, delta, n, hd, rfl, ?_⟩⟩)
      rw [State.afterChain, parityAfter_eq_bne]
    · exact nextBit_of_edge hi he hfits

/-- A bit read takes the first level ahead, and leaves those behind it. -/
theorem nextBit_ahead {s t : State} {b : Bool} (h : nextBit s = some (.ok b t)) :
    s.ahead = ⟨s.bd.lastLevel, t.bd.lastLevel :: t.ahead.levels⟩ ∧
      (pendingLevels t).length = (pendingLevels s).length - 1 := by
  rcases nextBit_iff.1 h with ⟨i, level, delta, n, hi, hd, -, rfl⟩ | ⟨e, rest, hi, he, -, -, rfl⟩
  · have hs : pendingLevels s = level :: pendingLevels (s.afterChain level delta (i + n)) := by
      rw [pendingLevels_eq, pendingLevels_eq, mark_index_entry hi, chainLevels_of_decodeChain hd, List.drop_drop,
        mark_index_afterChain]
      rfl
    rw [State.ahead, hs]
    exact ⟨rfl, rfl⟩
  · have hi' : (s.afterEdge e).bd.nextHistoryReadIndex = .sentinel := by simpa using hi
    simp [State.ahead, pendingLevels_sentinel hi, pendingLevels_sentinel hi', he]

theorem nextBit_ahead_drop {s t : State} {b : Bool} (h : nextBit s = some (.ok b t)) : t.ahead = s.ahead.drop 1 := by
  rw [(nextBit_ahead h).1]
  rfl

/-- A block with `n` bits ahead that it can read: whole chains pending, and room for the edges among them. -/
structure Supplied (n : Nat) (s : State) : Prop where
  pending : PendingWhole s
  length : n ≤ s.ahead.levels.length
  room : RoomFor (n - (pendingLevels s).length) s

theorem RoomFor.mono {m n : Nat} {s : State} (h : RoomFor n s) (hmn : m ≤ n) : RoomFor m s :=
  h.imp_right fun h => (Nat.add_le_add_left (Nat.mul_le_mul_left _ hmn) _).trans h

theorem Supplied.mono {m n : Nat} {s : State} (h : Supplied n s) (hmn : m ≤ n) : Supplied m s :=
  ⟨h.pending, hmn.trans h.length, h.room.mono (Nat.sub_le_sub_right hmn _)⟩

theorem pendingWhole_of_sentinel {s : State} (h : s.bd.nextHistoryReadIndex = .sentinel) : PendingWhole s := by
  simp only [PendingWhole, h]

theorem pendingWhole_of_entry {s : State} {i : Nat} (h : s.bd.nextHistoryReadIndex = .entry i) :
    PendingWhole s ↔ i < s.hb.size ∧ Memory.wf (s.hb.entries.drop i) = true := by
  simp only [PendingWhole, h]

/-- What is pending in whole chains begins with one that is replayed, and leaves whole chains (R65, R131). -/
theorem decodeChain_of_pendingWhole {s : State} {i : Nat} (hi : s.bd.nextHistoryReadIndex = .entry i)
    (h : PendingWhole s) :
    ∃ level delta n, decodeChain (s.hb.entries.drop i) = some (level, delta, n) ∧
      PendingWhole (s.afterChain level delta (i + n)) := by
  obtain ⟨hlt, hwf⟩ := (pendingWhole_of_entry hi).1 h
  obtain ⟨level, delta, n, hd, hwf'⟩ := decodeChain_of_wf hwf (by simpa [History.size] using hlt)
  obtain ⟨hpos, -, hn⟩ := decodeChain_length hd
  rw [List.length_drop] at hn
  rw [List.drop_drop] at hwf'
  refine ⟨level, delta, n, hd, ?_⟩
  unfold History.size at hlt
  by_cases hend : i + n = s.hb.size
  · exact pendingWhole_of_sentinel (if_pos hend)
  · have hin : i + n < s.hb.entries.length := by unfold History.size at hend; omega
    exact (pendingWhole_of_entry (if_neg hend)).2 ⟨hin, hwf'⟩

/-- A bit that is supplied is read, and the bits after it are supplied. -/
theorem Supplied.nextBit {n : Nat} {s : State} (h : Supplied (n + 1) s) :
    ∃ b t, nextBit s = some (.ok b t) ∧ Supplied n t := by
  obtain ⟨hpending, hlen, hroom⟩ := h
  cases hi : s.bd.nextHistoryReadIndex with
  | entry i =>
    obtain ⟨level, delta, n', hd, ht⟩ := decodeChain_of_pendingWhole hi hpending
    have hbit := nextBit_iff.2 (.inl ⟨i, level, delta, n', hi, hd, rfl, rfl⟩)
    refine ⟨_, _, hbit, ht, ?_, ?_⟩
    · rw [nextBit_ahead_drop hbit, Stream.drop_levels, List.length_drop]
      omega
    · have hpos : 0 < (pendingLevels s).length := by
        rw [pendingLevels_eq, mark_index_entry hi, chainLevels_of_decodeChain hd]
        exact Nat.zero_lt_succ _
      rw [(nextBit_ahead hbit).2, show n - ((pendingLevels s).length - 1) = n + 1 - (pendingLevels s).length by omega]
      exact hroom
  | sentinel =>
    have hnil := pendingLevels_sentinel hi
    rw [hnil, List.length_nil, Nat.sub_zero] at hroom
    cases he : s.edges with
    | nil => simp [State.ahead, hnil, he] at hlen
    | cons e rest =>
      obtain ⟨hfits, hrest⟩ := hroom.afterEdge e
      have hbit := nextBit_of_edge hi he hfits
      have hi' : (s.afterEdge e).bd.nextHistoryReadIndex = .sentinel := by simpa using hi
      refine ⟨_, _, hbit, ?_, ?_, ?_⟩
      · exact pendingWhole_of_sentinel hi'
      · rw [nextBit_ahead_drop hbit, Stream.drop_levels, List.length_drop]
        omega
      · rwa [pendingLevels_sentinel hi']

/-! ## Bit after bit -/

/-- The bits are read one after the other from `s`, and lead to `u`. -/
def Reads : List Bool → State → State → Prop
  | [], s, u => u = s
  | b :: rest, s, u => ∃ t, nextBit s = some (.ok b t) ∧ Reads rest t u

theorem Reads.append {p q : List Bool} {s t u : State} (h : Reads p s t) (g : Reads q t u) : Reads (p ++ q) s u := by
  induction p generalizing s with
  | nil => obtain rfl := h; exact g
  | cons b p ih =>
    obtain ⟨v, hb, hv⟩ := h
    exact ⟨v, hb, ih hv⟩

/-- What is read is what lay ahead, and what comes after it lies ahead then. -/
theorem Reads.ahead {bits : List Bool} {s u : State} (h : Reads bits s u) :
    bits.length ≤ s.ahead.levels.length ∧ bits = s.ahead.bits.take bits.length ∧ u.ahead = s.ahead.drop bits.length := by
  induction bits generalizing s with
  | nil => obtain rfl := h; exact ⟨Nat.zero_le _, rfl, rfl⟩
  | cons b rest ih =>
    obtain ⟨t, hb, ht⟩ := h
    obtain ⟨hlen, hbits, hahead⟩ := ih ht
    have hs := (nextBit_ahead hb).1
    have hbit := (nextBit_nrzi hb).1
    have htail : t.ahead = ⟨t.bd.lastLevel, t.ahead.levels⟩ := rfl
    refine ⟨by rw [hs]; simpa using hlen, ?_, ?_⟩
    · rw [hs, Stream.bits_cons, List.length_cons, List.take_succ_cons, ← htail, ← hbits, hbit]
    · rw [hahead, hs, List.length_cons, Stream.drop_succ_cons _ _ hlen, htail]

/-- The bits supplied are read. -/
theorem Supplied.reads {m n : Nat} {s : State} (h : Supplied (m + n) s) :
    ∃ u, Reads (s.ahead.bits.take m) s u ∧ Supplied n u := by
  induction m generalizing s with
  | zero => exact ⟨s, rfl, Nat.zero_add n ▸ h⟩
  | succ m ih =>
    rw [Nat.add_right_comm] at h
    obtain ⟨b, t, hb, ht⟩ := h.nextBit
    obtain ⟨u, hu, hn⟩ := ih ht
    refine ⟨u, ?_, hn⟩
    rw [(nextBit_ahead hb).1, Stream.bits_cons, List.take_succ_cons]
    exact ⟨t, (nextBit_nrzi hb).1 ▸ hb, hu⟩

end Sys2Proof.Machine
end

section
/-! PROOFS. What reading leaves alone, and what it does not look at: the ports, and the parity, which no bit depends on. -/

namespace Sys2Proof.Machine

open Sys2Proof

/-! ## What reading leaves alone -/

/-- `t` comes from `s` by reading bits and moving the decoder over what was read: registers of the decoder change, the
history and the log grow, and edges are taken. -/
structure OnlyReads (s t : State) : Prop extends Untouched s t where
  fe : t.fe = s.fe
  sf : t.sf = s.sf
  status : t.status = s.status
  progressSample : t.progressSample = s.progressSample
  collectHistory : t.bd.collectHistory = s.bd.collectHistory
  epoch : t.hb.epoch = s.hb.epoch
  entries : s.hb.entries <+: t.hb.entries
  events : ∃ ev, t.events = s.events ++ ev ∧ ∀ e ∈ ev, ∃ a b, e = .busReset a b

theorem OnlyReads.refl (s : State) : OnlyReads s s :=
  ⟨.refl s, rfl, rfl, rfl, rfl, rfl, rfl, List.prefix_rfl, [], (List.append_nil _).symm, nofun⟩

theorem OnlyReads.trans {s t u : State} (h : OnlyReads s t) (g : OnlyReads t u) : OnlyReads s u where
  toUntouched := h.toUntouched.trans g.toUntouched
  fe := g.fe.trans h.fe
  sf := g.sf.trans h.sf
  status := g.status.trans h.status
  progressSample := g.progressSample.trans h.progressSample
  collectHistory := g.collectHistory.trans h.collectHistory
  epoch := g.epoch.trans h.epoch
  entries := h.entries.trans g.entries
  events := by
    obtain ⟨ev, hev, hall⟩ := h.events
    obtain ⟨ev', hev', hall'⟩ := g.events
    exact ⟨ev ++ ev', by rw [hev', hev, List.append_assoc],
      fun e he => (List.mem_append.1 he).elim (hall e) (hall' e)⟩

theorem OnlyReads.size_le {s t : State} (h : OnlyReads s t) : s.hb.size ≤ t.hb.size := h.entries.length_le

@[simp] theorem State.afterEdge_progressSample (s : State) (e : Edge) :
    (s.afterEdge e).progressSample = s.progressSample := by simp [State.afterEdge]

theorem onlyReads_nextBit {s t : State} {b : Bool} (h : nextBit s = some (.ok b t)) : OnlyReads s t := by
  rcases nextBit_iff.1 h with ⟨i, level, delta, n, -, -, -, rfl⟩ | ⟨e, rest, -, -, -, -, rfl⟩
  · exact ⟨keeps_nextBit h, rfl, rfl, rfl, rfl, rfl, rfl, List.prefix_rfl, [], (List.append_nil _).symm, nofun⟩
  · refine ⟨keeps_nextBit h, by simp, by simp, by simp, by simp, by simp, by simp, by simp, ?_⟩
    rw [State.afterEdge, busResetCount_eq]
    dsimp only
    split
    · exact ⟨_, rfl, by simp⟩
    · exact ⟨_, rfl, nofun⟩

theorem Reads.onlyReads {bits : List Bool} {s u : State} (h : Reads bits s u) : OnlyReads s u := by
  induction bits generalizing s with
  | nil => obtain rfl := h; exact .refl _
  | cons b rest ih =>
    obtain ⟨t, hb, ht⟩ := h
    exact (onlyReads_nextBit hb).trans (ih ht)

/-- A restore moves the decoder only (R142). -/
theorem onlyReads_restoreRegs (m : Mark) (s : State) : OnlyReads s (restoreRegs m s) :=
  ⟨⟨rfl, rfl, rfl, rfl, rfl, rfl, rfl, rfl⟩, rfl, rfl, rfl, rfl, rfl, rfl, List.prefix_rfl, [],
    (List.append_nil _).symm, nofun⟩

theorem nextBit_cancel {s t : State} {b : Bool} (h : nextBit s = some (.ok b t)) : t.cancel = s.cancel := by
  rcases nextBit_iff.1 h with ⟨i, level, delta, n, -, -, -, rfl⟩ | ⟨e, rest, -, -, -, -, rfl⟩
  · rfl
  · simp [State.afterEdge]

theorem Reads.cancel {bits : List Bool} {s u : State} (h : Reads bits s u) : u.cancel = s.cancel := by
  induction bits generalizing s with
  | nil => obtain rfl := h; rfl
  | cons b rest ih =>
    obtain ⟨t, hb, ht⟩ := h
    exact (ih ht).trans (nextBit_cancel hb)

/-- A bit that is read leaves the block ready. -/
theorem OnlyReads.ready {s t : State} (h : OnlyReads s t) (hs : Ready s) : Ready t :=
  ⟨(congrArg statusEnded h.status).trans hs.1, h.task.trans hs.2⟩

/-- What is supplied stays supplied along the bits read. -/
theorem Supplied.of_reads {bits : List Bool} {n : Nat} {s u : State} (h : Supplied (bits.length + n) s)
    (hr : Reads bits s u) : Supplied n u := by
  induction bits generalizing s with
  | nil => obtain rfl := hr; simpa using h
  | cons b rest ih =>
    obtain ⟨t, hb, ht⟩ := hr
    rw [List.length_cons, Nat.add_right_comm] at h
    obtain ⟨b', t', hb', ht'⟩ := h.nextBit
    obtain ⟨-, rfl⟩ := Res.ok.inj (Option.some.inj (hb.symm.trans hb'))
    exact ih ht' ht

/-! ## What reading does not look at -/

/-- The state with the cancel input and the result port at the values given. -/
def State.withPorts (cancel : List Bool) (v : Value) (s : State) : State := { s with cancel := cancel, result := v }

/-- The state with the parity at `p` (R23). -/
def State.withParity (p : Bool) (s : State) : State := { s with bd := { s.bd with parityIsOdd := p } }

theorem afterEdge_withPorts (k : List Bool) (v : Value) (s : State) (e : Edge) :
    (s.withPorts k v).afterEdge e = (s.afterEdge e).withPorts k v := by
  simp only [State.afterEdge, busResetCount_eq]
  rfl

theorem afterEdge_withParity (p : Bool) (s : State) (e : Edge) :
    (s.withParity p).afterEdge e = (s.afterEdge e).withParity (p != e.level) := by
  simp only [State.afterEdge, busResetCount_eq]
  rfl

/-- No bit depends on the ports. -/
theorem nextBit_withPorts {s t : State} {b : Bool} (h : nextBit s = some (.ok b t)) (k : List Bool) (v : Value) :
    nextBit (s.withPorts k v) = some (.ok b (t.withPorts k v)) := by
  rcases nextBit_iff.1 h with ⟨i, level, delta, n, hi, hd, rfl, rfl⟩ | ⟨e, rest, hi, he, hfits, rfl, rfl⟩
  · exact nextBit_iff.2 (.inl ⟨i, level, delta, n, hi, hd, rfl, rfl⟩)
  · exact nextBit_iff.2 (.inr ⟨e, rest, hi, he, hfits, rfl, (afterEdge_withPorts k v s e).symm⟩)

/-- No bit depends on the parity (R133). -/
theorem nextBit_withParity {s t : State} {b : Bool} (h : nextBit s = some (.ok b t)) (p : Bool) :
    nextBit (s.withParity p) = some (.ok b (t.withParity (p != t.bd.lastLevel))) := by
  rcases nextBit_iff.1 h with ⟨i, level, delta, n, hi, hd, rfl, rfl⟩ | ⟨e, rest, hi, he, hfits, rfl, rfl⟩
  · exact nextBit_iff.2 (.inl ⟨i, level, delta, n, hi, hd, rfl, rfl⟩)
  · rw [State.afterEdge_lastLevel]
    exact nextBit_iff.2 (.inr ⟨e, rest, hi, he, hfits, rfl, (afterEdge_withParity p s e).symm⟩)

theorem Reads.withPorts {bits : List Bool} {s u : State} (h : Reads bits s u) (k : List Bool) (v : Value) :
    Reads bits (s.withPorts k v) (u.withPorts k v) := by
  induction bits generalizing s with
  | nil => obtain rfl := h; rfl
  | cons b rest ih =>
    obtain ⟨t, hb, ht⟩ := h
    exact ⟨_, nextBit_withPorts hb k v, ih ht⟩

/-- BD.NEXT_BIT commands one after the other read the bits, and leave the result port at the last of them. -/
theorem reads_of_readBits {n : Nat} {s u : State} {bits : List Bool} (hs : Ready s)
    (h : readBits n s = some (bits, u)) :
    bits.length = n ∧ ∃ t, Reads bits s t ∧ u = t.withPorts s.cancel u.result := by
  induction n generalizing s bits with
  | zero => cases h; exact ⟨rfl, _, rfl, rfl⟩
  | succ n ih =>
    obtain ⟨b, t, bs, hb, ht, rfl, hr⟩ := (readBits_succ_eq_some hs).1 h
    obtain ⟨hlen, v, hv, hu⟩ := ih (s := t.returning (.u1 b)) ht hr
    refine ⟨congrArg (· + 1) hlen, v.withPorts t.cancel t.result, ⟨t, hb, hv.withPorts t.cancel t.result⟩, ?_⟩
    rw [← nextBit_cancel hb]
    exact hu

end Sys2Proof.Machine
end

section
/-! PROOFS. SF.CHECK_SYNC (R244, R245) apart from who asked for it: what it does with a bit, and the run to its answer. -/

namespace Sys2Proof.Machine

open Sys2Proof

/-! ## How a command goes on -/

/-- A command in progress goes on with the bit it reads. -/
theorem settle_more_of_nextBit {t : Task} {s u : State} {b : Bool} (ht : TaskOk t) (h : nextBit s = some (.ok b u)) :
    settle (.ok (.more t) s) = settle (onBit t b u) := by
  rw [settle_more, runTask_unfold ht, h]
  dsimp only [Res.andThen_ok]
  rcases onBit t b u with ⟨_ | _, _⟩ | _ <;> rfl

/-- A command in progress is stopped by the fault of its bit. -/
theorem settle_more_of_stop {t : Task} {s u : State} (ht : TaskOk t) (h : nextBit s = some (.stop u)) :
    settle (.ok (.more t) s) = u := by
  rw [settle_more, runTask_unfold ht, h]
  rfl

/-- A command in progress waits where no bit can be read. -/
theorem settle_more_of_none {t : Task} {s : State} (ht : TaskOk t) (h : nextBit s = none) :
    settle (.ok (.more t) s) = { s with task := some t } := by
  rw [settle_more, runTask_unfold ht, h]

/-- With the cancel input at 0 the bit counter only counts (R251). -/
theorem countBit_of_cancel {count : Nat} {s : State} (h : s.cancel = []) : countBit count s = .ok (count + 1) s := by
  refine countBit_eq_ok.2 ⟨rfl, ?_⟩
  by_cases hpoll : (count + 1) % pollInterval = 0
  · refine .inl ⟨hpoll, by simp [h], ?_⟩
    rw [h, List.tail_nil, ← h]
  · exact .inr ⟨hpoll, rfl⟩

/-- An alignment skip reads its bits and then checks (R243). -/
theorem settle_startAlign {ask : Asker} (hask : askLeft ask < windowRestores) {bits : List Bool} {s u : State}
    (h : Reads bits s u) (hc : s.cancel = []) (rows : Rows) (columns : Columns) (count : Nat) :
    ∃ count', settle (startAlign ask rows columns bits.length count s) =
      settle (startCheck ask rows columns count' u) := by
  induction bits generalizing s count with
  | nil => obtain rfl := h; exact ⟨count, rfl⟩
  | cons b rest ih =>
    obtain ⟨t, hb, ht⟩ := h
    have hct := (nextBit_cancel hb).trans hc
    obtain ⟨count', hrun⟩ := ih ht hct (count + 1)
    have hok : TaskOk (.align ask rows columns (rest.length + 1) count) := ⟨hask, trivial⟩
    have hbit : onBit (.align ask rows columns (rest.length + 1) count) b t =
        startAlign ask rows columns rest.length (count + 1) t := by
      simp only [onBit, countBit_of_cancel hct, Res.andThen_ok, Nat.add_sub_cancel]
    refine ⟨count', ?_⟩
    rw [← hrun, ← hbit, ← settle_more_of_nextBit hok hb]
    rfl

/-! ## One bit of a check -/

/-- The reader for the frame after the one with control word `v` (R244). -/
def reshaped (v : CtrlWord) (r : FrameReader) : FrameReader :=
  if cwShapeChange v = true ∧ (cwNewShape v).1 ≠ 0 then readerShaped (cwNewShape v).1 (cwNewShape v).2 r
  else readerReset r

/-- A new shape with rows is legal, whatever the word (R222). -/
theorem legalShape_cwNewShape {v : CtrlWord} (h : (cwNewShape v).1 ≠ 0) :
    legalShape (cwNewShape v).1 (cwNewShape v).2 = true :=
  legalShape_of_tables (List.mem_of_getElem? (getElem?_rowsTable _)) (List.mem_of_getElem? (getElem?_colsTable _)) h

theorem nextReader_eq (v : CtrlWord) (r : FrameReader) (s : State) : nextReader v r s = .ok (reshaped v r) s := by
  unfold nextReader reshaped
  simp only [Bool.and_eq_true, bne_iff_ne]
  split
  · rename_i h
    exact readerSetShape_eq_ok.2 ⟨legalShape_cwNewShape h.2, rfl, rfl⟩
  · rfl

/-- What a frame just read leads to (R244): the check of the next frame, or the answer. -/
def Check.verdict (c : Check) : Check ⊕ Nat :=
  let v := c.reader.cw.value
  let next (gen : DSync) (n : Nat) : Check :=
    { c with reader := reshaped v c.reader, gen := gen, framesOk := n, cap := false }
  if c.framesOk = 0 then
    if cwDynamicSync v = 0 then .inr 0 else .inl (next (cwDynamicSync v) 1)
  else if parityBad c.cap v || syncLost (dsyncNext c.gen) v then .inr c.framesOk
  else if c.framesOk + 1 ≥ syncFrames then .inr (c.framesOk + 1)
  else .inl (next (dsyncNext c.gen) (c.framesOk + 1))

/-- How a check goes on, or answers whoever asked (R241, R243, R244). -/
def proceed (ask : Asker) (entry : Mark) (count : Nat) (r : Check ⊕ Nat) (s : State) : Res Progress :=
  match r with
  | .inl c => .ok (.more (.check ask c count)) s
  | .inr n => finishCheck ask entry n count s

theorem frameRead_eq (ask : Asker) (c : Check) (count : Nat) (s : State) :
    frameRead ask c count s = proceed ask c.entryMark count c.verdict s := by
  unfold frameRead Check.verdict nextFrame
  simp only [nextReader_eq, Res.andThen_ok]
  split
  · split <;> rfl
  · split
    · rfl
    · split <;> rfl

/-- A check on its bit (R245), but for the poll after a frame. -/
def Check.onBit (b : Bool) (s : State) (c : Check) : (Check ⊕ Nat) × State :=
  let c1 := { c with reader := (readerPush b c.reader).1 }
  match (readerPush b c.reader).2 with
  | .captureParity => (.inl { c1 with cap := s.bd.parityIsOdd }, resetParity s)
  | .frameComplete => (c1.verdict, s)
  | .frameStart => (.inl c1, s)
  | .needMoreBits => (.inl c1, s)

/-- What a check hands on of the values it began with: the initial mark. -/
theorem Check.verdict_entryMark {c c' : Check} (h : c.verdict = .inl c') : c'.entryMark = c.entryMark := by
  unfold verdict at h
  dsimp only at h
  repeat' split at h
  all_goals cases h
  all_goals rfl

theorem Check.onBit_entryMark {c c' : Check} {b : Bool} {s t : State} (h : c.onBit b s = (.inl c', t)) :
    c'.entryMark = c.entryMark := by
  unfold onBit at h
  split at h
  · cases h; rfl
  · have hv := (Prod.mk.inj h).1
    have he := verdict_entryMark hv
    exact he
  all_goals cases h; rfl

/-- A check on its bit leaves the state, but for the parity at row 44 (R245). -/
theorem Check.onBit_state {c : Check} {b : Bool} {s t : State} {r : Check ⊕ Nat} (h : c.onBit b s = (r, t)) :
    t = s ∨ t = s.withParity false := by
  unfold onBit at h
  split at h <;> cases h
  · exact .inr rfl
  all_goals exact .inl rfl

theorem Check.onBit_withPorts {c : Check} {b : Bool} {s t : State} {r : Check ⊕ Nat} (h : c.onBit b s = (r, t))
    (k : List Bool) (v : Value) : c.onBit b (s.withPorts k v) = (r, t.withPorts k v) := by
  unfold onBit at h ⊢
  split at h <;> cases h <;> rfl

/-- All that a check can do with its bit: it goes on as `Check.onBit` says, or a poll stops it. -/
theorem checkBit_cases (ask : Asker) (c : Check) (count : Nat) (b : Bool) (s : State) :
    (∃ k, k <:+ s.cancel ∧ checkBit ask c count b s =
      proceed ask c.entryMark count (c.onBit b s).1 ((c.onBit b s).2.withPorts k s.result)) ∨
    ∃ u, checkBit ask c count b s = .stop u ∧ statusEnded u.status = true := by
  unfold checkBit Check.onBit
  dsimp only
  cases (readerPush b c.reader).2 with
  | frameComplete =>
    dsimp only
    rcases hp : poll s with ⟨⟨⟩, u⟩ | u
    · obtain ⟨-, rfl⟩ := poll_eq_ok.1 hp
      exact .inl ⟨_, List.tail_suffix _, frameRead_eq ..⟩
    · obtain ⟨-, rfl⟩ := poll_eq_stop.1 hp
      exact .inr ⟨_, rfl, rfl⟩
  | _ => exact .inl ⟨s.cancel, List.suffix_rfl, rfl⟩

theorem checkBit_of_cancel {s : State} (h : s.cancel = []) (ask : Asker) (c : Check) (count : Nat) (b : Bool) :
    checkBit ask c count b s = proceed ask c.entryMark count (c.onBit b s).1 (c.onBit b s).2 := by
  unfold checkBit Check.onBit
  dsimp only
  cases (readerPush b c.reader).2 with
  | frameComplete =>
    dsimp only
    rw [poll_nil h]
    exact frameRead_eq ..
  | _ => rfl

/-! ## The run of a check -/

/-- The check at `c` reads on from `s` to its answer `n`, with the decoder at `u` before it goes back to the initial
mark. -/
inductive ChecksTo : Check → State → Nat → State → Prop
  | more {c c' : Check} {s t t' u : State} {n : Nat} {b : Bool} (h : nextBit s = some (.ok b t))
      (hc : c.onBit b t = (.inl c', t')) (hr : ChecksTo c' t' n u) : ChecksTo c s n u
  | answer {c : Check} {s t u : State} {n : Nat} {b : Bool} (h : nextBit s = some (.ok b t))
      (hc : c.onBit b t = (.inr n, u)) : ChecksTo c s n u

theorem onlyReads_withParity (p : Bool) (s : State) : OnlyReads s (s.withParity p) :=
  ⟨⟨rfl, rfl, rfl, rfl, rfl, rfl, rfl, rfl⟩, rfl, rfl, rfl, rfl, rfl, rfl, List.prefix_rfl, [],
    (List.append_nil _).symm, nofun⟩

theorem Check.onBit_onlyReads {c : Check} {b : Bool} {s t : State} {r : Check ⊕ Nat} (h : c.onBit b s = (r, t)) :
    OnlyReads s t ∧ t.cancel = s.cancel := by
  rcases Check.onBit_state h with rfl | rfl
  · exact ⟨.refl _, rfl⟩
  · exact ⟨onlyReads_withParity _ _, rfl⟩

/-- A check begins with a bit, and only reads. -/
theorem ChecksTo.first {c : Check} {s u : State} {n : Nat} (h : ChecksTo c s n u) :
    ∃ b t, nextBit s = some (.ok b t) ∧ OnlyReads t u ∧ u.cancel = t.cancel := by
  induction h with
  | more hb hc hr ih =>
    obtain ⟨b', t', hb', hreads, hcancel⟩ := ih
    obtain ⟨hon, hon'⟩ := Check.onBit_onlyReads hc
    exact ⟨_, _, hb, hon.trans ((onlyReads_nextBit hb').trans hreads),
      hcancel.trans ((nextBit_cancel hb').trans hon')⟩
  | answer hb hc => exact ⟨_, _, hb, Check.onBit_onlyReads hc⟩

theorem ChecksTo.onlyReads {c : Check} {s u : State} {n : Nat} (h : ChecksTo c s n u) :
    OnlyReads s u ∧ u.cancel = s.cancel := by
  obtain ⟨b, t, hb, hreads, hcancel⟩ := h.first
  exact ⟨(onlyReads_nextBit hb).trans hreads, hcancel.trans (nextBit_cancel hb)⟩

theorem ChecksTo.withPorts {c : Check} {s u : State} {n : Nat} (h : ChecksTo c s n u) (k : List Bool) (v : Value) :
    ChecksTo c (s.withPorts k v) n (u.withPorts k v) := by
  induction h with
  | more hb hc hr ih => exact .more (nextBit_withPorts hb k v) (Check.onBit_withPorts hc k v) ih
  | answer hb hc => exact .answer (nextBit_withPorts hb k v) (Check.onBit_withPorts hc k v)

theorem taskOk_check {ask : Asker} (h : askLeft ask < windowRestores) (c : Check) (count : Nat) :
    TaskOk (.check ask c count) := ⟨h, trivial⟩

/-- With the cancel input at 0 a check runs to its answer, whoever asked. -/
theorem ChecksTo.settle_eq {c : Check} {s u : State} {n : Nat} (h : ChecksTo c s n u) (hcancel : s.cancel = [])
    {ask : Asker} (hask : askLeft ask < windowRestores) (count : Nat) :
    ∃ count', settle (.ok (.more (.check ask c count)) s) = settle (finishCheck ask c.entryMark n count' u) := by
  induction h generalizing count with
  | @more c _ _ _ _ _ _ _ hb hc hr ih =>
    have ht := (nextBit_cancel hb).trans hcancel
    obtain ⟨count', hrun⟩ := ih ((Check.onBit_onlyReads hc).2.trans ht) (count + 1)
    refine ⟨count', ?_⟩
    rw [settle_more_of_nextBit (taskOk_check hask c count) hb, ← Check.onBit_entryMark hc, ← hrun]
    simp only [onBit, countBit_of_cancel ht, Res.andThen_ok, checkBit_of_cancel ht, hc, proceed]
  | @answer c _ _ _ _ _ hb hc =>
    have ht := (nextBit_cancel hb).trans hcancel
    refine ⟨count + 1, ?_⟩
    rw [settle_more_of_nextBit (taskOk_check hask c count) hb]
    simp only [onBit, countBit_of_cancel ht, Res.andThen_ok, checkBit_of_cancel ht, hc, proceed]

/-- The bit counter goes on, having taken a value of the cancel input or not, or a poll stops the command (R251). -/
theorem countBit_cases (count : Nat) (s : State) :
    (∃ k, k <:+ s.cancel ∧ countBit count s = .ok (count + 1) (s.withPorts k s.result)) ∨
    ∃ u, countBit count s = .stop u ∧ statusEnded u.status = true := by
  unfold countBit
  split
  · rcases hp : poll s with ⟨⟨⟩, u⟩ | u
    · obtain ⟨-, rfl⟩ := poll_eq_ok.1 hp
      exact .inl ⟨_, List.tail_suffix _, rfl⟩
    · obtain ⟨-, rfl⟩ := poll_eq_stop.1 hp
      exact .inr ⟨_, rfl, rfl⟩
  · exact .inl ⟨s.cancel, List.suffix_rfl, rfl⟩

/-- The whole of one bit of a check, the two polls included. -/
theorem onBit_check_cases (ask : Asker) (c : Check) (count : Nat) (b : Bool) (s : State) :
    (∃ k, k <:+ s.cancel ∧ onBit (.check ask c count) b s =
      proceed ask c.entryMark (count + 1) (c.onBit b s).1 ((c.onBit b s).2.withPorts k s.result)) ∨
    ∃ u, onBit (.check ask c count) b s = .stop u ∧ statusEnded u.status = true := by
  rcases countBit_cases count s with ⟨k, hk, hcount⟩ | ⟨u, hcount, hu⟩
  · have hon : onBit (.check ask c count) b s = checkBit ask c (count + 1) b (s.withPorts k s.result) := by
      simp only [onBit, hcount, Res.andThen_ok]
    rw [hon]
    rcases checkBit_cases ask c (count + 1) b (s.withPorts k s.result) with ⟨k', hk', hc⟩ | h
    · rw [Check.onBit_withPorts (s := s) rfl k s.result] at hc
      exact .inl ⟨k', hk'.trans hk, hc⟩
    · exact .inr h
  · exact .inr ⟨u, by simp only [onBit, hcount, Res.andThen_stop], hu⟩

/-- A check that completes ran to an answer, whatever the polls read. -/
theorem checksTo_of_completed {c : Check} {s : State} {count : Nat} (hs : s.task = none)
    (h : Completed (settle (.ok (.more (.check .check c count)) s))) :
    ∃ n u k count', ChecksTo c s n u ∧ k <:+ s.cancel ∧
      settle (.ok (.more (.check .check c count)) s) =
        settle (finishCheck .check c.entryMark n count' (u.withPorts k s.result)) := by
  have hok := taskOk_check (ask := .check) windowRestores_pos c count
  refine task_induction (P := fun t s => ∀ c count, t = .check .check c count → s.task = none →
    Completed (settle (.ok (.more (.check .check c count)) s)) → ∃ n u k count', ChecksTo c s n u ∧ k <:+ s.cancel ∧
      settle (.ok (.more (.check .check c count)) s) =
        settle (finishCheck .check c.entryMark n count' (u.withPorts k s.result))) ?_ hok s c count rfl hs h
  rintro t s hok ih c count rfl hs h
  cases hb : nextBit s with
  | none =>
    rw [settle_more_of_none hok hb] at h
    cases h.1
  | some r =>
    cases r with
    | stop u =>
      rw [settle_more_of_stop hok hb] at h
      exact absurd ((nextBit_stop_ended hb).symm.trans h.2) (by decide)
    | ok b t =>
      have hstep := settle_more_of_nextBit hok hb
      have hcancel := nextBit_cancel hb
      have hresult : t.result = s.result := (onlyReads_nextBit hb).result
      rcases onBit_check_cases .check c count b t with ⟨k, hk, hon⟩ | ⟨u, hon, hu⟩
      · rcases hc : c.onBit b t with ⟨c' | n, t'⟩
        · rw [hc] at hon
          have ht' : t'.task = none := by
            rw [(Check.onBit_onlyReads hc).1.task, (onlyReads_nextBit hb).task, hs]
          rw [hstep, hon] at h
          have hmore : (Res.ok b t).andThen (onBit (.check .check c count)) = _ := hon
          obtain ⟨n, u, k', count', hto, hk', hrun⟩ := ih _ _ _ hb hmore c' (count + 1) rfl ht' h
          have hto' : ChecksTo c' t' n (u.withPorts t'.cancel t'.result) := hto.withPorts t'.cancel t'.result
          rw [hstep, hon]
          refine ⟨n, _, k', count', .more hb hc hto', hk'.trans (hcancel ▸ hk), ?_⟩
          rw [← Check.onBit_entryMark hc, ← hresult]
          exact hrun
        · rw [hc] at hon
          rw [hstep, hon]
          rw [← hresult]
          exact ⟨n, t', k, count + 1, .answer hb hc, hcancel ▸ hk, rfl⟩
      · rw [hstep, hon] at h
        exact absurd (hu.symm.trans h.2) (by decide)

end Sys2Proof.Machine
end

section
/-! PROOFS. SF.CHECK_SYNC and SF.TEST_IF_SYNC_IS_REAL as commands (R243, R244, R248): where they complete, a check ran to its
answer between their restores. -/

namespace Sys2Proof.Machine

open Sys2Proof

/-! ## SF.CHECK_SYNC -/

theorem exec_sfCheckSync {s : State} (hs : Ready s) (rows : Rows) (columns : Columns) :
    exec (.sfCheckSync rows columns) s = .next (settle (startCheck .check rows columns 0 s)) :=
  issue_ready hs.1 hs.2 fun s => settle (startCheck .check rows columns 0 s)

/-- The working values SF.CHECK_SYNC begins with (R244). -/
def firstCheck (rows : Rows) (columns : Columns) (s : State) : Check :=
  ⟨readerShaped rows columns FrameReader.reset, 0, mark s, 0, false⟩

/-- A restore to a mark of the current epoch inside the buffer (R142). -/
theorem restore_of_usable {m : Mark} {s : State} (he : m.epoch = s.hb.epoch) (hi : m.index ≤ s.hb.size) :
    restore m s = .ok () (restoreRegs m s) := restore_eq_ok.2 ⟨he, hi, rfl⟩

section

variable {entry : Mark} {u : State} (he : entry.epoch = u.hb.epoch) (hi : entry.index ≤ u.hb.size) (n count : Nat)

include he hi

/-! A check whose initial mark can be restored goes back to it, and the answer goes to who asked (R241, R243, R244). -/

theorem finishCheck_check : finishCheck .check entry n count u = .ok (.done (.count n)) (restoreRegs entry u) := by
  rw [finishCheck, restore_of_usable he hi, Res.andThen_ok]

theorem finishCheck_test :
    finishCheck .test entry n count u = .ok (.done (.u1 (decide (n > 15)))) (restoreRegs entry u) := by
  rw [finishCheck, restore_of_usable he hi, Res.andThen_ok]

theorem finishCheck_search (who : Finder) (w : Scan) :
    finishCheck (.search who w) entry n count u =
      if n > 15 then foundSync who w.row w.matcher.columns (restoreRegs entry u)
      else (restore w.matchMark (restoreRegs entry u)).andThen fun _ s => tryRows who w w.rowsLeft count s := by
  rw [finishCheck, restore_of_usable he hi, Res.andThen_ok]

end

/-- SF.CHECK_SYNC that completes is a check that ran to its answer, and then back to the initial mark. -/
theorem checksTo_of_exec {s t : State} {rows : Rows} {columns : Columns} (hs : Ready s)
    (h : exec (.sfCheckSync rows columns) s = .next t) (ht : Completed t) :
    legalShape rows columns = true ∧ ∃ n u k, ChecksTo (firstCheck rows columns s) s n u ∧ k <:+ s.cancel ∧
      (mark s).index ≤ u.hb.size ∧ t = ((restoreRegs (mark s) u).withPorts k (.count n)) := by
  rw [exec_sfCheckSync hs] at h
  obtain rfl := Host.Outcome.next.inj h
  cases hl : legalShape rows columns with
  | false =>
    rw [startCheck_illegal hl] at ht
    cases ht.2
  | true =>
    rw [startCheck_legal hl] at ht ⊢
    obtain ⟨n, u, k, count, hto, hk, hrun⟩ := checksTo_of_completed hs.2 ht
    rw [hrun] at ht ⊢
    have hepoch : (mark s).epoch = u.hb.epoch := hto.onlyReads.1.epoch.symm
    by_cases hi : (mark s).index ≤ u.hb.size
    · refine ⟨rfl, n, u, k, hto, hk, hi, ?_⟩
      rw [finishCheck_check (u := u.withPorts k s.result) hepoch hi]
      rfl
    · have hstop : finishCheck .check (mark s) n count (u.withPorts k s.result) =
          .stop { u.withPorts k s.result with status := .faulted .badMark } := by
        rw [finishCheck, restore_eq_stop (s := u.withPorts k s.result).2 (.inr ⟨hepoch, not_le.1 hi, rfl⟩),
          Res.andThen_stop]
      rw [hstop] at ht
      cases ht.2

/-- Settles O45: the check only reads, and ends restored to the mark it began with, which reads its first bit again. -/
theorem checkSyncKeepsPosition : Obligations.CheckSyncKeepsPosition := by
  intro s t rows columns hs hi h ht
  obtain ⟨-, n, u, k, hto, -, -, rfl⟩ := checksTo_of_exec hs h ht
  have hreads := hto.onlyReads.1
  refine ⟨rfl, rfl, rfl, ?_, hreads.collectHistory, hreads.epoch,
    hreads.entries, hreads.fe, hreads.sf, hreads.readers, hreads.words, hreads.matchers, hreads.generators,
    hreads.progressSample, hreads.events, fun hc v hv hvc => ?_⟩
  · have hindex : (restoreRegs (mark s) u).bd.nextHistoryReadIndex =
        if (mark s).index ≥ u.hb.size then .sentinel else .entry (mark s).index := rfl
    have hle := hreads.size_le
    refine hindex.trans ?_
    rw [indexInRange_iff] at hi
    cases h : s.bd.nextHistoryReadIndex with
    | sentinel =>
      rw [mark_index_sentinel h]
      simp only [ge_iff_le, hle.ge_iff_eq']
      rfl
    | entry i => rw [mark_index_entry h, if_neg ((hi i h).trans_le hle).not_ge]
  · obtain ⟨b, v, hb, rfl⟩ := nextBit_of_completed hs hv hvc
    obtain ⟨b', v', hb', hgrown, -⟩ := hto.first
    obtain ⟨rfl, rfl⟩ := Res.ok.inj (Option.some.inj (hb.symm.trans hb'))
    have hagain := nextBit_restoreRegs_mark (u := u.withPorts k (.count n)) hc hb hgrown.entries
    exact ⟨_, exec_bdNextBit_of_ok ⟨ht.2, ht.1⟩ hagain, ht, rfl, rfl⟩

/-! ## SF.TEST_IF_SYNC_IS_REAL -/

theorem exec_sfTestIfSyncIsReal {s : State} (hs : Ready s) (rows : Rows) (columns : Columns) (offset : Nat)
    (start matched : Mark) :
    exec (.sfTestIfSyncIsReal rows columns offset start matched) s =
      .next (settle (startTest .test rows columns offset start matched 0 s)) :=
  issue_ready hs.1 hs.2 fun s => settle (startTest .test rows columns offset start matched 0 s)

/-- BD.RESTORE that completes found its mark usable (R142). -/
theorem restore_of_completed {s t : State} {m : Mark} (hs : Ready s) (h : exec (.bdRestore m) s = .next t)
    (ht : Completed t) : restore m s = .ok () (restoreRegs m s) ∧ t = (restoreRegs m s).returning .none := by
  cases hr : restore m s with
  | ok a u =>
    obtain ⟨he, hi, rfl⟩ := restore_eq_ok.1 hr
    rw [exec_bdRestore_of_usable hs he hi] at h
    exact ⟨rfl, (Host.Outcome.next.inj h).symm⟩
  | stop u =>
    rw [exec_bdRestore_of_stop hs hr] at h
    obtain rfl := Host.Outcome.next.inj h
    rcases restore_eq_stop.1 hr with ⟨-, rfl⟩ | ⟨-, -, rfl⟩
    all_goals cases ht.2

/-- The test with a match far enough on: both restores, and then the skip (R243). -/
theorem startTest_of_le {ask : Asker} {rows : Rows} {columns : Columns} {offset count : Nat} {start matched : Mark}
    {s : State} (hl : legalShape rows columns = true) (hm : restore matched s = .ok () (restoreRegs matched s))
    (hoffset : lastStaticSyncBitOffset columns ≤ offset)
    (hs : restore start (restoreRegs matched s) = .ok () (restoreRegs start (restoreRegs matched s))) :
    startTest ask rows columns offset start matched count s =
      startAlign ask rows columns (offset - lastStaticSyncBitOffset columns) count
        (restoreRegs start (restoreRegs matched s)) := by
  rw [startTest, if_pos hl, hm, Res.andThen_ok]
  dsimp only
  rw [if_pos hoffset, hs, Res.andThen_ok]

/-- The test with a match nearer than that: one restore, and then the skip (R243). -/
theorem startTest_of_lt {ask : Asker} {rows : Rows} {columns : Columns} {offset count : Nat} {start matched : Mark}
    {s : State} (hl : legalShape rows columns = true) (hm : restore matched s = .ok () (restoreRegs matched s))
    (hoffset : ¬lastStaticSyncBitOffset columns ≤ offset) :
    startTest ask rows columns offset start matched count s =
      startAlign ask rows columns (totalBitsInFrame rows columns - lastStaticSyncBitOffset columns) count
        (restoreRegs matched s) := by
  rw [startTest, if_pos hl, hm, Res.andThen_ok]
  dsimp only
  rw [if_neg hoffset]

/-- An alignment skip and then a check run to the answer of the check, whoever asked. -/
theorem settle_startAlign_of_checksTo {ask : Asker} (hask : askLeft ask < windowRestores) {rows : Rows}
    {columns : Columns} (hl : legalShape rows columns = true) {bits : List Bool} {s a u : State} {n : Nat}
    (hcancel : s.cancel = []) (hr : Reads bits s a) (hto : ChecksTo (firstCheck rows columns a) a n u) (count : Nat) :
    ∃ count', settle (startAlign ask rows columns bits.length count s) =
      settle (finishCheck ask (mark a) n count' u) := by
  obtain ⟨count1, h1⟩ := settle_startAlign hask hr hcancel rows columns count
  obtain ⟨count2, h2⟩ := hto.settle_eq (hr.cancel.trans hcancel) hask count1
  refine ⟨count2, ?_⟩
  rw [h1, startCheck_legal hl]
  exact h2

/-- Bits read by commands, and then SF.CHECK_SYNC by command, are the skip and the check of a test or a search: the result
port is all that the commands leave besides. -/
theorem settle_startAlign_of_commands {ask : Asker} (hask : askLeft ask < windowRestores) {rows : Rows}
    {columns : Columns} {bits : List Bool} {v a c : State} {len n : Nat} (hv : Ready v) (hcancel : v.cancel = [])
    (hr : readBits len v = some (bits, a)) (h : exec (.sfCheckSync rows columns) a = .next c) (hc : Completed c)
    (hn : c.result = .count n) (r : Value) (count : Nat) :
    ∃ entry u count', entry.epoch = u.hb.epoch ∧ entry.index ≤ u.hb.size ∧
      c = (restoreRegs entry u).returning (.count n) ∧
      settle (startAlign ask rows columns len count (v.returning r)) = settle (finishCheck ask entry n count' u) := by
  obtain ⟨rfl, a', hreads, ha⟩ := reads_of_readBits hv hr
  have hready : Ready a := by rw [ha]; exact hreads.onlyReads.ready hv
  have hcancel' : a.cancel = [] := by rw [ha]; exact hcancel
  obtain ⟨hl, n', u, k, hto, hk, hi, rfl⟩ := checksTo_of_exec hready h hc
  obtain rfl : n' = n := Value.count.inj hn
  obtain rfl : k = [] := by rwa [hcancel', List.suffix_nil] at hk
  have hto' := hto.withPorts [] r
  have ha' : a'.withPorts [] r = a.withPorts [] r := by rw [ha]; rfl
  have hreads' := hreads.withPorts [] r
  rw [ha'] at hreads'
  have hv' : v.withPorts [] r = v.returning r := by rw [← hcancel]; rfl
  rw [hv'] at hreads'
  obtain ⟨count', hrun⟩ :=
    settle_startAlign_of_checksTo hask hl (s := v.returning r) (a := a.withPorts [] r) hcancel hreads' hto' count
  exact ⟨mark a, u.withPorts [] r, count', hto.onlyReads.1.epoch.symm, hi, rfl, hrun⟩

/-- Settles O48: the commands' restores are the test's, and their bits and check its skip and its check. -/
theorem testAlignsThenChecks : Obligations.TestAlignsThenChecks := by
  intro s v a c rows columns offset n start matched bits last hs hcancel hl hv hvc halign hcheck hc hn
  rw [exec_sfTestIfSyncIsReal hs]
  refine congrArg Host.Outcome.next ?_
  obtain ⟨hm, rfl⟩ := restore_of_completed hs hv hvc
  have hready : Ready ((restoreRegs matched s).returning .none) := hs
  suffices ∃ entry u count', entry.epoch = u.hb.epoch ∧ entry.index ≤ u.hb.size ∧
      c = (restoreRegs entry u).returning (.count n) ∧
      settle (startTest .test rows columns offset start matched 0 s) = settle (finishCheck .test entry n count' u) by
    obtain ⟨entry, u, count', he, hi, rfl, hrun⟩ := this
    rw [hrun, finishCheck_test he hi]
    rfl
  by_cases hoffset : last ≤ offset
  · rw [if_pos hoffset] at halign
    obtain ⟨v1, hv1, hv1c, hr⟩ := halign
    obtain ⟨hstart, rfl⟩ := restore_of_completed hready hv1 hv1c
    obtain ⟨he, hi, -⟩ := restore_eq_ok.1 hstart
    rw [startTest_of_le hl hm hoffset (restore_of_usable (s := restoreRegs matched s) he hi)]
    exact settle_startAlign_of_commands (ask := .test) windowRestores_pos (v := (restoreRegs start
      ((restoreRegs matched s).returning .none)).returning .none) hs hcancel hr hcheck hc hn s.result 0
  · rw [if_neg hoffset] at halign
    rw [startTest_of_lt hl hm hoffset]
    exact settle_startAlign_of_commands (ask := .test) windowRestores_pos hready hcancel halign hcheck hc hn s.result 0

end Sys2Proof.Machine
end

section
/-! PROOFS. The frames of a check (R244, R245) on the stream that lies ahead: the reader's control word, the parity it captures
and the verdict on a frame are those said of the stream alone. -/

namespace Sys2Proof.Machine

open Sys2Proof

/-! ## Parity -/

/-- The parity of the HIGH levels (R133). -/
def oddHighs (levels : List Bool) : Bool := decide (levels.count true % 2 = 1)

theorem oddHighs_concat (levels : List Bool) (l : Bool) : oddHighs (levels ++ [l]) = (oddHighs levels != l) := by
  unfold oddHighs
  rw [List.count_append, List.count_singleton]
  cases l with
  | false => simp
  | true =>
    rw [Bool.bne_true, ← decide_not]
    exact decide_eq_decide.2 (by simp; omega)

theorem oddHighs_append (p q : List Bool) : oddHighs (p ++ q) = (oddHighs p != oddHighs q) := by
  induction q using List.reverseRecOn with
  | nil => simp [oddHighs]
  | append_singleton q l ih => rw [← List.append_assoc, oddHighs_concat, ih, oddHighs_concat, Bool.bne_assoc]

/-- The parity the decoder holds when a check has read these levels of a frame, begun with parity `p`: the accumulator
starts again after row 44, column 0 (R245). -/
def heldParity (p : Bool) (columns : Columns) (read : List Bool) : Bool :=
  if read.length ≤ 44 * columns.toNat then p != oddHighs read else oddHighs (read.drop (44 * columns.toNat + 1))

/-- The parity captured by then, or that of before (R245). -/
def capturedParity (p cap : Bool) (columns : Columns) (read : List Bool) : Bool :=
  if read.length ≤ 44 * columns.toNat then cap else p != oddHighs (read.take (44 * columns.toNat + 1))

theorem heldParity_concat (p : Bool) (columns : Columns) (read : List Bool) (l : Bool) :
    heldParity p columns (read ++ [l]) =
      if read.length = 44 * columns.toNat then false else heldParity p columns read != l := by
  unfold heldParity
  rw [List.length_append, List.length_singleton]
  rcases Nat.lt_trichotomy read.length (44 * columns.toNat) with h | h | h
  · rw [if_pos (by omega), if_neg (by omega), if_pos h.le, oddHighs_concat, Bool.bne_assoc]
  · rw [if_neg (by omega), if_pos h, List.drop_of_length_le (by simp; omega)]
    rfl
  · rw [if_neg (by omega), if_neg (by omega), if_neg (by omega), List.drop_append_of_le_length (by omega),
      oddHighs_concat]

theorem capturedParity_concat (p cap : Bool) (columns : Columns) (read : List Bool) (l : Bool) :
    capturedParity p cap columns (read ++ [l]) =
      if read.length = 44 * columns.toNat then heldParity p columns read != l
      else capturedParity p cap columns read := by
  unfold capturedParity heldParity
  rw [List.length_append, List.length_singleton]
  rcases Nat.lt_trichotomy read.length (44 * columns.toNat) with h | h | h
  · rw [if_pos (by omega), if_neg (by omega), if_pos h.le]
  · rw [if_neg (by omega), if_pos h, if_pos h.le, List.take_of_length_le (by simp; omega), oddHighs_concat,
      Bool.bne_assoc]
  · rw [if_neg (by omega), if_neg (by omega), if_neg (by omega), List.take_append_of_le_length (by omega)]

/-! ## The bits of a frame -/

/-- A check goes on from `s` to the answer `n`, or has just given it. -/
def Continues (r : Check ⊕ Nat) (s : State) (n : Nat) (u : State) : Prop :=
  match r with
  | .inl c => ChecksTo c s n u
  | .inr m => m = n ∧ u = s

theorem ChecksTo.of_continues {c : Check} {s t u : State} {n : Nat} {b : Bool} (h : nextBit s = some (.ok b t))
    (hc : Continues (c.onBit b t).1 (c.onBit b t).2 n u) : ChecksTo c s n u := by
  rcases hon : c.onBit b t with ⟨c' | m, t'⟩
  · rw [hon] at hc
    exact .more h hon hc
  · rw [hon] at hc
    obtain ⟨rfl, rfl⟩ := hc
    exact .answer h hon

/-- A check on a bit that does not end the frame and is not that of row 44, column 0. -/
theorem Check.onBit_inside {c : Check} {b : Bool} (s : State) (h1 : (readerPush b c.reader).2 ≠ .captureParity)
    (h2 : (readerPush b c.reader).2 ≠ .frameComplete) :
    c.onBit b s = (.inl { c with reader := (readerPush b c.reader).1 }, s) := by
  unfold onBit
  split
  · exact absurd ‹_› h1
  · exact absurd ‹_› h2
  · rfl
  · rfl

theorem Check.onBit_capture {c : Check} {b : Bool} (s : State) (h : (readerPush b c.reader).2 = .captureParity) :
    c.onBit b s =
      (.inl { c with reader := (readerPush b c.reader).1, cap := s.bd.parityIsOdd }, s.withParity false) := by
  unfold onBit
  rw [h]
  rfl

theorem Check.onBit_complete {c : Check} {b : Bool} (s : State) (h : (readerPush b c.reader).2 = .frameComplete) :
    c.onBit b s = (Check.verdict { c with reader := (readerPush b c.reader).1 }, s) := by
  unfold onBit
  rw [h]

/-- A check reads a frame to its end: from where it has pushed the bits `pushed`, of the levels `read`, along the levels
left. What it does then is the verdict with the frame's reader and the parity captured. -/
theorem checksTo_frame {rows : Rows} {columns : Columns} (hl : legalShape rows columns = true) {p cap : Bool}
    {left read pushed : List Bool} {c : Check} {y : State} (hne : left ≠ [])
    (hlen : pushed.length = read.length) (hsize : read.length + left.length = rows.toNat * columns.toNat)
    (hin : InFrame rows columns pushed c.reader) (hcap : c.cap = capturedParity p cap columns read)
    (hs : Supplied left.length y) (hleft : left <+: y.ahead.levels) :
    ∃ z rd, Reads (y.ahead.bits.take left.length) y z ∧
      FrameDone columns (pushed ++ y.ahead.bits.take left.length) rd ∧ rd.rows = rows ∧ rd.columns = columns ∧
      ∀ n u, Continues (Check.verdict { c with reader := rd, cap := capturedParity p cap columns (read ++ left) })
        (z.withParity (heldParity p columns (read ++ left))) n u →
        ChecksTo c (y.withParity (heldParity p columns read)) n u := by
  induction left generalizing read pushed c y with
  | nil => contradiction
  | cons l left ih =>
    rw [List.length_cons] at hsize hs
    obtain ⟨b, t, hb, ht⟩ := hs.nextBit
    have hahead := (nextBit_ahead hb).1
    rw [hahead] at hleft
    obtain ⟨rfl, hrest⟩ := List.cons_prefix_cons.1 hleft
    have hbits : y.ahead.bits.take (left.length + 1) = b :: t.ahead.bits.take left.length := by
      rw [hahead, Stream.bits_cons, List.take_succ_cons, (nextBit_nrzi hb).1]
      rfl
    obtain ⟨hc0, hframe⟩ := frame_bound hl
    obtain ⟨hrows, hcolumns⟩ := readerPush_shape b c.reader
    have hstep := fun n u => @ChecksTo.of_continues c _ _ u n b
      (nextBit_withParity hb (heldParity p columns read))
    rw [List.length_cons, hbits]
    rcases left with _ | ⟨l', left⟩
    · obtain ⟨hdone, hres⟩ := hin.push_last (by rw [hlen]; simpa using hsize) b
      have hlast : read.length ≠ 44 * columns.toNat := by simp at hsize; omega
      refine ⟨t, _, ⟨t, hb, rfl⟩, hdone, hrows.trans hin.rows_eq, hcolumns.trans hin.columns_eq, fun n u hend => ?_⟩
      rw [heldParity_concat, capturedParity_concat, if_neg hlast, if_neg hlast, ← hcap] at hend
      refine hstep n u ?_
      rw [Check.onBit_complete _ hres]
      exact hend
    · obtain ⟨hin', hres⟩ := hin.push_inside hl (by rw [hlen]; simp at hsize ⊢; omega) b
      rw [hin.report_eq, hlen] at hres
      have hlen' : (pushed ++ [b]).length = (read ++ [t.bd.lastLevel]).length := by simp [hlen]
      have hsize' : (read ++ [t.bd.lastLevel]).length + (l' :: left).length = rows.toNat * columns.toNat := by
        simp at hsize ⊢; omega
      have hnext := fun c => @ih (read ++ [t.bd.lastLevel]) (pushed ++ [b]) c t (List.cons_ne_nil _ _) hlen' hsize'
      simp only [List.append_assoc, List.singleton_append, heldParity_concat, capturedParity_concat] at hnext
      by_cases h44 : read.length = 44 * columns.toNat
      · rw [if_pos h44] at hres
        simp only [if_pos h44] at hnext
        obtain ⟨z, rd, hz, hdone, hr, hc, hend⟩ := hnext { c with
          reader := (readerPush b c.reader).1, cap := heldParity p columns read != t.bd.lastLevel } hin' rfl ht hrest
        refine ⟨z, rd, ⟨t, hb, hz⟩, hdone, hr, hc, fun n u hu => hstep n u ?_⟩
        rw [Check.onBit_capture _ hres]
        exact hend n u hu
      · rw [if_neg h44] at hres
        simp only [if_neg h44] at hnext
        obtain ⟨z, rd, hz, hdone, hr, hc, hend⟩ := hnext { c with reader := (readerPush b c.reader).1 } hin' hcap ht hrest
        refine ⟨z, rd, ⟨t, hb, hz⟩, hdone, hr, hc, fun n u hu => hstep n u ?_⟩
        rw [Check.onBit_inside _ (by rw [hres]; split <;> simp) (by rw [hres]; split <;> simp)]
        exact hend n u hu

end Sys2Proof.Machine
end

section
/-! PROOFS. The answer of a check (R244): frame after frame along the stream, up to the first that fails. -/

namespace Sys2Proof.Machine

open Sys2Proof

/-! ## The frames of a stream -/

theorem frameOffset_succ (a : Stream) (rows : Rows) (columns : Columns) (k : Nat) :
    frameOffset a rows columns (k + 1) = frameOffset a rows columns k + (frameNo a rows columns k).size := by
  simp [frameOffset, List.range_succ]

@[simp] theorem frameOffset_zero (a : Stream) (rows : Rows) (columns : Columns) : frameOffset a rows columns 0 = 0 := rfl

theorem frameOffset_mono (a : Stream) (rows : Rows) (columns : Columns) {j k : Nat} (h : j ≤ k) :
    frameOffset a rows columns j ≤ frameOffset a rows columns k :=
  monotone_nat_of_le_succ (fun k => by rw [frameOffset_succ]; exact Nat.le_add_right ..) h

/-- Every frame has a legal shape where the first one has: the shapes announced are legal (R222, R349). -/
theorem frameNo_legal {rows : Rows} {columns : Columns} (hl : legalShape rows columns = true) (a : Stream) (k : Nat) :
    legalShape (frameNo a rows columns k).rows (frameNo a rows columns k).columns = true := by
  induction k with
  | zero => exact hl
  | succ k ih =>
    rw [frameNo, FrameAt.next]
    dsimp only
    split
    · rename_i h; exact legalShape_cwNewShape h.2
    · exact ih

theorem FrameAt.size_le {f : FrameAt} (hl : legalShape f.rows f.columns = true) : f.size ≤ 4096 := by
  obtain ⟨-, hr, -, hc⟩ := legalShape_bounds hl
  exact Nat.mul_le_mul hr hc

/-- Frame number `k` stands behind the frames before it, where the stream holds them. -/
theorem frameNo_stream {a : Stream} {rows : Rows} {columns : Columns} {k : Nat}
    (h : ∀ j, j < k → (frameNo a rows columns j).held) :
    frameOffset a rows columns k ≤ a.levels.length ∧
      (frameNo a rows columns k).stream = a.drop (frameOffset a rows columns k) := by
  induction k with
  | zero => exact ⟨Nat.zero_le _, rfl⟩
  | succ k ih =>
    obtain ⟨hle, hstream⟩ := ih fun j hj => h j (Nat.lt_succ_of_lt hj)
    have hheld := h k (Nat.lt_succ_self k)
    rw [FrameAt.held, hstream, Stream.drop_levels, List.length_drop] at hheld
    rw [frameOffset_succ]
    refine ⟨by omega, ?_⟩
    rw [frameNo, FrameAt.next, hstream, ← Stream.drop_drop (by omega)]

/-- The word that holds the first column of a frame is the frame's (R184). -/
theorem FrameAt.eq_value {f : FrameAt} {v : CtrlWord} (hl : legalShape f.rows f.columns = true)
    (h : HoldsFirstColumn f.columns (f.stream.bits.take f.size) v) : v = f.value := by
  obtain ⟨hc, hframe⟩ := frame_bound hl
  refine BitVec.eq_of_getLsbD_eq fun i hi => ?_
  have hrow : (47 - i) * f.columns.toNat < f.size := by
    have : (47 - i + 1) * f.columns.toNat ≤ 48 * f.columns.toNat := Nat.mul_le_mul_right _ (by omega)
    rw [Nat.succ_mul] at this
    unfold FrameAt.size
    omega
  have hbit := h (47 - i) (by omega)
  rw [show 47 - (47 - i) = i by omega, List.getElem?_take_of_lt hrow] at hbit
  have hfold : f.value = BitVec.ofNat 48 (((List.range 48).map fun row =>
      (f.stream.bits[row * f.columns.toNat]?).getD false).foldl (fun acc (b : Bool) => 2 * acc + b.toNat) 0) := by
    rw [List.foldl_map]
    rfl
  rw [hbit, hfold, BitVec.getLsbD_ofNat, testBit_foldl, List.getElem?_reverse (by simpa using hi)]
  simp [hi, show 47 - i < 48 by omega]

/-! ## The verdict on a frame -/

theorem parityBetween_eq (f g : FrameAt) :
    parityBetween f g = (oddHighs ((f.stream.levels.take f.size).drop (44 * f.columns.toNat + 1)) !=
      oddHighs (g.stream.levels.take (44 * g.columns.toNat + 1))) :=
  oddHighs_append _ _

/-- A check with its reader at frame number `k` of the stream, the frames before it passed, and `p` the parity held. -/
structure AtFrame (a : Stream) (rows : Rows) (columns : Columns) (k : Nat) (c : Check) (p : Bool) : Prop where
  framesOk : c.framesOk = k
  reader : ∃ r, c.reader = readerShaped (frameNo a rows columns k).rows (frameNo a rows columns k).columns r
  gen : ∀ j, k = j + 1 → c.gen = cwDynamicSync (frameNo a rows columns j).value
  parity : ∀ j, k = j + 1 → p = oddHighs (((frameNo a rows columns j).stream.levels.take
    (frameNo a rows columns j).size).drop (44 * (frameNo a rows columns j).columns.toNat + 1))

theorem cwDynamicSync_eq_zero_iff (v : CtrlWord) : cwDynamicSync v = 0 ↔ v.toNat / 2 ^ 3 % 16 = 0 :=
  extractLsb'_eq_iff_toNat v 3 4 0

/-- The seed frame passes with a DynamicSync that is not 0 (R244). -/
theorem frameGood_zero (a : Stream) (rows : Rows) (columns : Columns) :
    frameGood a rows columns 0 = !decide (cwDynamicSync (frameNo a rows columns 0).value = 0) := by
  simp only [frameGood, cwDynamicSync_eq_zero_iff, bne, beq_eq_decide]

/-- A later frame passes with its PAR, StaticSync and DynamicSync right (R244). -/
theorem frameGood_succ (a : Stream) (rows : Rows) (columns : Columns) (k : Nat) :
    let f := frameNo a rows columns k
    let g := frameNo a rows columns (k + 1)
    frameGood a rows columns (k + 1) =
      !(parityBad (parityBetween f g) g.value || syncLost (dsyncNext (cwDynamicSync f.value)) g.value) := by
  intro f g
  have hstatic : cwStaticSync g.value = 0xB1 ↔ g.value.toNat / 2 ^ 16 % 256 = 0xB1 :=
    extractLsb'_eq_iff_toNat g.value 16 8 0xB1
  have hdynamic : ∀ d : DSync, cwDynamicSync g.value = d ↔ g.value.toNat / 2 ^ 3 % 16 = d.toNat := fun d =>
    extractLsb'_eq_iff_toNat g.value 3 4 d
  have hgen : cwDynamicSync f.value = BitVec.ofNat 4 (f.value.toNat / 2 ^ 3) := extractLsb'_eq_ofNat f.value 3 4
  rw [Bool.eq_iff_iff, hgen]
  simp only [frameGood, parityBad, syncLost, cwPar, Bool.and_eq_true, beq_iff_eq, Bool.not_eq_true',
    Bool.or_eq_false_iff, bne_eq_false_iff_eq, hstatic, hdynamic, and_assoc]
  exact and_congr_left' eq_comm

/-- The reader goes on with the shape of the next frame (R244, R349). -/
theorem reshaped_eq (f : FrameAt) {rd : FrameReader} (hrows : rd.rows = f.rows) (hcolumns : rd.columns = f.columns) :
    reshaped f.value rd = readerShaped f.next.rows f.next.columns rd := by
  unfold reshaped FrameAt.next
  dsimp only
  split
  · rfl
  · rw [← hrows, ← hcolumns]
    rfl

/-- The parity held behind a frame: that of its levels after row 44, column 0 (R245). -/
def parityBehind (f : FrameAt) : Bool := oddHighs ((f.stream.levels.take f.size).drop (44 * f.columns.toNat + 1))

/-- The verdict on frame number `k`, once its reader has its word and the parity is captured (R244): one that fails ends the
check with the frames before it, the sixteenth ends it, and any other leads to the next frame. -/
theorem AtFrame.verdict {a : Stream} {rows : Rows} {columns : Columns} {k : Nat} {c : Check} {p cap : Bool}
    (h : AtFrame a rows columns k c p) {rd : FrameReader} (hrows : rd.rows = (frameNo a rows columns k).rows)
    (hcolumns : rd.columns = (frameNo a rows columns k).columns)
    (hv : rd.cw.value = (frameNo a rows columns k).value)
    (hcap : ∀ j, k = j + 1 → cap = parityBetween (frameNo a rows columns j) (frameNo a rows columns k)) :
    (frameGood a rows columns k = false → Check.verdict { c with reader := rd, cap := cap } = .inr k) ∧
    (frameGood a rows columns k = true → k + 1 = 16 →
      Check.verdict { c with reader := rd, cap := cap } = .inr (k + 1)) ∧
    (frameGood a rows columns k = true → k + 1 < 16 →
      ∃ c', Check.verdict { c with reader := rd, cap := cap } = .inl c' ∧
        AtFrame a rows columns (k + 1) c' (parityBehind (frameNo a rows columns k))) := by
  have hnext : ∀ gen, gen = cwDynamicSync (frameNo a rows columns k).value →
      AtFrame a rows columns (k + 1)
        { c with reader := reshaped rd.cw.value rd, gen := gen, framesOk := k + 1, cap := false }
        (parityBehind (frameNo a rows columns k)) := by
    intro gen hgen
    refine ⟨rfl, ⟨rd, by rw [hv]; exact reshaped_eq _ hrows hcolumns⟩, fun j hj => ?_, fun j hj => ?_⟩
    · rw [hgen, Nat.succ_injective hj]
    · rw [parityBehind, Nat.succ_injective hj]
  unfold Check.verdict
  dsimp only
  rw [h.framesOk, hv] at *
  cases k with
  | zero =>
    rw [frameGood_zero]
    by_cases hd : cwDynamicSync (frameNo a rows columns 0).value = 0
    · simp [hd]
    · refine ⟨by simp, by omega, fun _ _ => ⟨_, ?_, hnext _ rfl⟩⟩
      rw [if_pos rfl, if_neg hd]
  | succ k =>
    have hgood := frameGood_succ a rows columns k
    dsimp only at hgood
    rw [← hcap k rfl, ← h.gen k rfl] at hgood
    rw [if_neg (Nat.succ_ne_zero k), hgood, Bool.not_eq_false', Bool.not_eq_true']
    refine ⟨fun hbad => by rw [if_pos hbad], fun hok hlast => ?_, fun hok hmore => ?_⟩
    · rw [if_neg (by rw [hok]; decide), if_pos (by unfold syncFrames; omega)]
    · refine ⟨_, by rw [if_neg (by rw [hok]; decide), if_neg (by unfold syncFrames; omega)], hnext _ ?_⟩
      rw [Bool.or_eq_false_iff] at hok
      have hlost := hok.2
      simp only [syncLost, Bool.or_eq_false_iff, bne_eq_false_iff_eq] at hlost
      exact hlost.2.symm

/-! ## The frames of a check -/

/-- Bits read are read in two stretches. -/
theorem reads_append_iff {p q : List Bool} {s u : State} :
    Reads (p ++ q) s u ↔ ∃ t, Reads p s t ∧ Reads q t u := by
  constructor
  · intro h
    induction p generalizing s with
    | nil => exact ⟨s, rfl, h⟩
    | cons b p ih =>
      obtain ⟨t, hb, ht⟩ := h
      obtain ⟨v, hp, hq⟩ := ih ht
      exact ⟨v, ⟨t, hb, hp⟩, hq⟩
  · rintro ⟨t, hp, hq⟩
    exact hp.append hq

/-- The bits of the stream up to a place and from there on are read one after the other. -/
theorem Reads.append_take {m n : Nat} {s t u : State} (h : Reads (s.ahead.bits.take m) s t)
    (hm : m ≤ s.ahead.levels.length) (g : Reads (t.ahead.bits.take n) t u) : Reads (s.ahead.bits.take (m + n)) s u := by
  have hlen := Stream.length_take_bits hm
  obtain ⟨-, -, hahead⟩ := h.ahead
  rw [hlen] at hahead
  rw [hahead, Stream.bits_drop hm] at g
  rw [List.take_add]
  exact h.append g

/-- The number of frames a check reads for its answer: up to the one that fails, or all sixteen. -/
def framesRead (n : Nat) : Nat := min (n + 1) 16

theorem CheckAnswer.le {a : Stream} {rows : Rows} {columns : Columns} {n : Nat} (h : CheckAnswer a rows columns n) :
    n ≤ 16 := h.2.elim le_of_eq fun h => h.1.le

/-- The stream holds the frames read for an answer. -/
theorem CheckAnswer.held {a : Stream} {rows : Rows} {columns : Columns} {n k : Nat} (h : CheckAnswer a rows columns n)
    (hk : k < framesRead n) : (frameNo a rows columns k).held := by
  unfold framesRead at hk
  rcases h.2 with rfl | ⟨hn, hheld, -⟩
  · exact (h.1 k (by omega)).1
  · rcases Nat.lt_succ_iff_lt_or_eq.1 (show k < n + 1 by omega) with hlt | rfl
    · exact (h.1 k hlt).1
    · exact hheld

/-- A check at the start of a frame reads to the end of it, and on as the verdict says. -/
theorem checksTo_of_frameStart {f : FrameAt} (hl : legalShape f.rows f.columns = true) (hheld : f.held) {c : Check}
    (hc : ∃ r, c.reader = readerShaped f.rows f.columns r) (p : Bool) {y : State} (hy : y.ahead = f.stream)
    (hs : Supplied f.size y) :
    ∃ z rd, Reads (y.ahead.bits.take f.size) y z ∧ rd.rows = f.rows ∧ rd.columns = f.columns ∧
      rd.cw.value = f.value ∧
      ∀ n u, Continues (Check.verdict { c with
          reader := rd, cap := p != oddHighs (f.stream.levels.take (44 * f.columns.toNat + 1)) })
        (z.withParity (parityBehind f)) n u → ChecksTo c (y.withParity p) n u := by
  obtain ⟨r, hr⟩ := hc
  have hleft : (f.stream.levels.take f.size).length = f.size := by simpa using hheld
  obtain ⟨hc0, hframe⟩ := frame_bound hl
  have hsize : 44 * f.columns.toNat < f.size := by unfold FrameAt.size; omega
  have hin : InFrame f.rows f.columns [] c.reader := hr ▸ inFrame_readerShaped hl r
  obtain ⟨z, rd, hz, hdone, hrows, hcolumns, hend⟩ := checksTo_frame hl (p := p) (cap := c.cap) (read := [])
    (List.ne_nil_of_length_pos (by omega)) rfl (by rw [hleft]; exact Nat.zero_add _) hin (by simp [capturedParity])
    (hleft.symm ▸ hs) (hy ▸ List.take_prefix _ _)
  rw [hleft] at hz hdone
  refine ⟨z, rd, hz, hrows, hcolumns, FrameAt.eq_value hl (hy ▸ hdone.value), ?_⟩
  have hp : heldParity p f.columns [] = p := by simp [heldParity, oddHighs]
  rw [hp, List.nil_append, heldParity, capturedParity, hleft, if_neg hsize.not_ge, if_neg hsize.not_ge,
    List.take_take, min_eq_left hsize] at hend
  exact hend

/-- A check at frame number `k` reads to the answer that the stream gives. -/
theorem checksTo_of_atFrame {s : State} {rows : Rows} {columns : Columns} {n : Nat}
    (hl : legalShape rows columns = true) (ha : CheckAnswer s.ahead rows columns n)
    (hs : Supplied (frameOffset s.ahead rows columns (framesRead n)) s) {k : Nat} (hk : k < framesRead n) {c : Check}
    {p : Bool} (hat : AtFrame s.ahead rows columns k c p) {y : State}
    (hy : Reads (s.ahead.bits.take (frameOffset s.ahead rows columns k)) s y) :
    ∃ z q, ChecksTo c (y.withParity p) n (z.withParity q) ∧
      Reads (s.ahead.bits.take (frameOffset s.ahead rows columns (framesRead n))) s z := by
  induction hd : framesRead n - k generalizing k c p y with
  | zero => omega
  | succ d ih =>
    obtain ⟨hoff, hstream⟩ := frameNo_stream fun j hj => ha.held (hj.trans hk)
    have hlen := Stream.length_take_bits hoff
    have hnext : frameOffset s.ahead rows columns (k + 1) ≤ frameOffset s.ahead rows columns (framesRead n) :=
      frameOffset_mono _ _ _ hk
    rw [frameOffset_succ] at hnext
    have hyahead : y.ahead = (frameNo s.ahead rows columns k).stream := by
      obtain ⟨-, -, h⟩ := hy.ahead
      rw [h, hstream, hlen]
    have hsupplied : Supplied (frameNo s.ahead rows columns k).size y :=
      Supplied.of_reads (hlen.symm ▸ hs.mono hnext) hy
    obtain ⟨z, rd, hz, hrows, hcolumns, hvalue, hend⟩ :=
      checksTo_of_frameStart (frameNo_legal hl s.ahead k) (ha.held hk) hat.reader p hyahead hsupplied
    have hread := hy.append_take hoff hz
    rw [← frameOffset_succ] at hread
    obtain ⟨hbad, hlast, hmore⟩ := hat.verdict hrows hcolumns hvalue (cap := p != oddHighs
      ((frameNo s.ahead rows columns k).stream.levels.take (44 * (frameNo s.ahead rows columns k).columns.toNat + 1)))
      fun j hj => by rw [parityBetween_eq, ← hat.parity j hj]
    by_cases hfinal : k + 1 = framesRead n
    · refine ⟨z, parityBehind (frameNo s.ahead rows columns k), hend _ _ ?_, hfinal ▸ hread⟩
      unfold framesRead at hfinal
      rcases ha.2 with rfl | ⟨hn, -, hfail⟩
      · have hk : k + 1 = 16 := hfinal
        rw [hlast (ha.1 k (by omega)).2 hk]
        exact ⟨hk, rfl⟩
      · obtain rfl : k = n := by omega
        rw [hbad hfail]
        exact ⟨rfl, rfl⟩
    · have hlt : k < n ∧ k + 1 < 16 := by unfold framesRead at hk hfinal; omega
      obtain ⟨c', hc', hat'⟩ := hmore (ha.1 k hlt.1).2 hlt.2
      obtain ⟨z', q, hto, hz'⟩ := ih (by omega) hat' hread (by omega)
      refine ⟨z', q, hend _ _ ?_, hz'⟩
      rw [hc']
      exact hto

/-- A check of a stream whose answer is `n` reads the frames up to it and answers `n` (R244). -/
theorem checksTo_of_checkAnswer {s : State} {rows : Rows} {columns : Columns} {n : Nat}
    (hl : legalShape rows columns = true) (ha : CheckAnswer s.ahead rows columns n)
    (hs : Supplied (frameOffset s.ahead rows columns (framesRead n)) s) :
    ∃ z q, ChecksTo (firstCheck rows columns s) s n (z.withParity q) ∧
      Reads (s.ahead.bits.take (frameOffset s.ahead rows columns (framesRead n))) s z :=
  checksTo_of_atFrame hl ha hs (k := 0) (by unfold framesRead; omega)
    ⟨rfl, ⟨_, rfl⟩, fun j hj => absurd hj (Nat.succ_ne_zero j).symm, fun j hj => absurd hj (Nat.succ_ne_zero j).symm⟩
    (p := s.bd.parityIsOdd) rfl

end Sys2Proof.Machine
end

section
/-! PROOFS. Where enough bits are there, SF.CHECK_SYNC and SF.TEST_IF_SYNC_IS_REAL complete, the check with the answer of
the stream (R244, R361). -/

namespace Sys2Proof.Machine

open Sys2Proof

/-! ## A stream of sixteen frames -/

theorem frameOffset_le {rows : Rows} {columns : Columns} (hl : legalShape rows columns = true) (a : Stream) (k : Nat) :
    frameOffset a rows columns k ≤ k * 4096 := by
  induction k with
  | zero => exact le_rfl
  | succ k ih =>
    have := FrameAt.size_le (frameNo_legal hl a k)
    rw [frameOffset_succ, Nat.succ_mul]
    omega

theorem frameOffset_framesRead_le {rows : Rows} {columns : Columns} (hl : legalShape rows columns = true) (a : Stream)
    (n : Nat) : frameOffset a rows columns (framesRead n) ≤ 16 * 4096 :=
  (frameOffset_le hl a _).trans (Nat.mul_le_mul_right 4096 (min_le_right _ _))

/-- A stretch of 16 frames of the largest shape holds 16 frames of any shapes. -/
theorem frameNo_held {a : Stream} {rows : Rows} {columns : Columns} (hl : legalShape rows columns = true)
    (h : 16 * 4096 ≤ a.levels.length) {k : Nat} (hk : k < 16) : (frameNo a rows columns k).held := by
  induction k using Nat.strong_induction_on with
  | _ k ih =>
    obtain ⟨-, hstream⟩ := frameNo_stream fun j hj => ih j hj (hj.trans hk)
    have hoff := frameOffset_le hl a (k + 1)
    rw [frameOffset_succ] at hoff
    rw [FrameAt.held, hstream, Stream.drop_levels, List.length_drop]
    omega

/-- The answer of a check on such a stretch. -/
theorem exists_checkAnswer {a : Stream} {rows : Rows} {columns : Columns} (hl : legalShape rows columns = true)
    (h : 16 * 4096 ≤ a.levels.length) : ∃ n, CheckAnswer a rows columns n := by
  by_cases hbad : ∃ k, k < 16 ∧ frameGood a rows columns k = false
  · obtain ⟨hlt, hfirst⟩ := Nat.find_spec hbad
    refine ⟨Nat.find hbad, fun k hk => ⟨frameNo_held hl h (hk.trans hlt), ?_⟩, .inr ⟨hlt, frameNo_held hl h hlt, hfirst⟩⟩
    simpa [hk.trans hlt] using Nat.find_min hbad hk
  · push Not at hbad
    exact ⟨16, fun k hk => ⟨frameNo_held hl h hk, by simpa using hbad k hk⟩, .inl rfl⟩

theorem CheckAnswer.offset_le {a : Stream} {rows : Rows} {columns : Columns} {n : Nat}
    (h : CheckAnswer a rows columns n) : frameOffset a rows columns (framesRead n) ≤ a.levels.length :=
  (frameNo_stream fun _ hj => h.held hj).1

/-! ## What is supplied -/

theorem length_ahead (s : State) : s.ahead.levels.length = (pendingLevels s).length + s.edges.length := by
  simp [State.ahead]

/-- With room for every edge at its input, a block is supplied with all that lies ahead. -/
theorem Supplied.of_room {n : Nat} {s : State} (hp : PendingWhole s) (hr : RoomFor s.edges.length s)
    (hn : n ≤ s.ahead.levels.length) : Supplied n s :=
  ⟨hp, hn, hr.mono (by rw [length_ahead] at hn; omega)⟩

/-- With `n` edges at its input and room for them, a block is supplied with `n` bits. -/
theorem Supplied.of_edges {n : Nat} {s : State} (hp : PendingWhole s) (hn : n ≤ s.edges.length) (hr : RoomFor n s) :
    Supplied n s :=
  ⟨hp, by rw [length_ahead]; omega, hr.mono (Nat.sub_le _ _)⟩

/-- What is pending after a restore to a usable mark is whole chains (R65, R142). -/
theorem pendingWhole_restoreRegs {m : Mark} {s : State} (h : MarkUsable m s) : PendingWhole (restoreRegs m s) := by
  by_cases hend : m.index ≥ s.hb.size
  · exact pendingWhole_of_sentinel (if_pos hend)
  · exact (pendingWhole_of_entry (if_neg hend)).2 ⟨not_le.1 hend, h.2.2⟩

theorem PendingWhole.mark_index_le {s : State} (h : PendingWhole s) : (mark s).index ≤ s.hb.size :=
  Machine.mark_index_le (indexInRange_iff.1 (indexInRange_of_pendingWhole h))

/-! ## The commands complete -/

/-- A check whose bits are all there completes with its answer. -/
theorem exec_sfCheckSync_of_checkAnswer {s : State} {rows : Rows} {columns : Columns} {n : Nat} (hs : Ready s)
    (hl : legalShape rows columns = true) (hc : s.cancel = []) (ha : CheckAnswer s.ahead rows columns n)
    (hsup : Supplied (frameOffset s.ahead rows columns (framesRead n)) s) :
    ∃ t, exec (.sfCheckSync rows columns) s = .next t ∧ Completed t ∧ t.result = .count n ∧ t.status = s.status := by
  obtain ⟨z, q, hto, -⟩ := checksTo_of_checkAnswer hl ha hsup
  have hreads := hto.onlyReads.1
  obtain ⟨count', hrun⟩ := hto.settle_eq hc (ask := .check) windowRestores_pos 0
  rw [exec_sfCheckSync hs, startCheck_legal hl, ← firstCheck, hrun,
    finishCheck_check (entry := (firstCheck rows columns s).entryMark) hreads.epoch.symm
    (hsup.pending.mark_index_le.trans hreads.size_le)]
  obtain ⟨hstatus, htask⟩ := hreads.ready hs
  exact ⟨_, rfl, ⟨htask, hstatus⟩, rfl, hreads.status⟩

/-- Settles O46: the stream gives the check its answer, in 16 frames of at most 4096 bits. -/
theorem checkSyncCompletes : Obligations.CheckSyncCompletes := by
  constructor
  · intro s rows columns hs hl hc hp hedges hroom
    have hsup := Supplied.of_edges hp hedges hroom
    obtain ⟨n, ha⟩ := exists_checkAnswer hl hsup.length
    obtain ⟨t, ht, hcompleted, hresult, hstatus⟩ :=
      exec_sfCheckSync_of_checkAnswer hs hl hc ha (hsup.mono (frameOffset_framesRead_le hl _ n))
    exact ⟨t, n, ht, hcompleted, hresult, ha.le, hstatus⟩
  · intro s rows columns n hs hl hc hp hroom ha
    exact exec_sfCheckSync_of_checkAnswer hs hl hc ha (.of_room hp hroom ha.offset_le)

/-- An alignment skip and its check, with 16 frames of the largest shape behind the skip, come to the test's answer. -/
theorem settle_startAlign_test {s : State} {rows : Rows} {columns : Columns} {k : Nat} (hs : Ready s)
    (hl : legalShape rows columns = true) (hc : s.cancel = []) (hsup : Supplied (k + 16 * 4096) s) :
    ∃ b, let t := settle (startAlign .test rows columns k 0 s)
      Completed t ∧ t.result = .u1 b ∧ t.status = s.status := by
  obtain ⟨a, hreads, ha⟩ := hsup.reads
  obtain ⟨n, hanswer⟩ := exists_checkAnswer hl ha.length
  obtain ⟨z, q, hto, -⟩ := checksTo_of_checkAnswer hl hanswer (ha.mono (frameOffset_framesRead_le hl _ n))
  have hto' := hto.onlyReads.1
  obtain ⟨count', hrun⟩ := settle_startAlign_of_checksTo (ask := .test) windowRestores_pos hl hc hreads hto 0
  have hlen := Stream.length_take_bits ((Nat.le_add_right k _).trans hsup.length)
  rw [hlen, finishCheck_test (entry := mark a) hto'.epoch.symm (ha.pending.mark_index_le.trans hto'.size_le)] at hrun
  have hboth := hreads.onlyReads.trans hto'
  obtain ⟨hstatus, htask⟩ := hboth.ready hs
  rw [hrun]
  exact ⟨_, ⟨htask, hstatus⟩, rfl, hboth.status⟩

/-- Settles O49: its marks are restored, and its skip and its check find their bits among the edges. -/
theorem testSyncCompletes : Obligations.TestSyncCompletes := by
  intro s rows columns offset start matched hs hl hc hstart hmatched hedges hroom
  have hm : restore matched s = .ok () (restoreRegs matched s) := restore_of_usable hmatched.1 hmatched.2.1
  rw [exec_sfTestIfSyncIsReal hs]
  suffices ∃ b, let t := settle (startTest .test rows columns offset start matched 0 s)
      Completed t ∧ t.result = .u1 b ∧ t.status = s.status by
    obtain ⟨b, hcompleted, hresult, hstatus⟩ := this
    exact ⟨_, b, rfl, hcompleted, hresult, hstatus⟩
  have hsup : ∀ {m k}, MarkUsable m s → k ≤ offset + 4096 → Supplied (k + 16 * 4096) (restoreRegs m s) :=
    fun hm hk => (Supplied.of_edges (pendingWhole_restoreRegs hm) hedges hroom).mono (by omega)
  by_cases hoffset : lastStaticSyncBitOffset columns ≤ offset
  · rw [startTest_of_le hl hm hoffset (restore_of_usable (s := restoreRegs matched s) hstart.1 hstart.2.1)]
    exact settle_startAlign_test (s := restoreRegs start s) hs hl hc (hsup hstart (by omega))
  · rw [startTest_of_lt hl hm hoffset]
    have hsize : totalBitsInFrame rows columns ≤ 4096 := FrameAt.size_le (f := ⟨rows, columns, s.ahead⟩) hl
    exact settle_startAlign_test (s := restoreRegs matched s) hs hl hc (hsup hmatched (by omega))

end Sys2Proof.Machine
end

section
/-! PROOFS. Phase 1 of a search bit by bit (R241, R242), up to the first match, and a search that finds sync there. -/

namespace Sys2Proof.Machine

open Sys2Proof

/-! ## Phase 1 -/

/-- The working values of a search whose column window has pushed the bits `pushed` on the matcher of stride `columns`. -/
def Scan.scanned (columns : Columns) (pushed : List Bool) (w : Scan) : Scan :=
  { w with matcher := matcherAfter columns pushed, offset := pushed.length }

/-- The working values of a search at a match, whose mark is `m` (R242). -/
def Scan.matchedAt (m : Mark) (w : Scan) : Scan := { w with matchMark := m }

/-- The working values of a search that tries the row candidate `r`, with `rest` still to try (R241). -/
def Scan.trying (r : Rows) (rest : List Rows) (w : Scan) : Scan := { w with row := r, rowsLeft := rest }

/-- A search as SF.FIND_SYNC begins it, in the window that starts at `start` (R241, R331). -/
def firstScan (rowsHint : Rows) (columnsHint : Columns) (start : Mark) : Scan :=
  ⟨rowsHint, columnsHint, start, [], Matcher.reset, 0, Mark.zero, 0, []⟩

theorem exec_sfFindSync {s : State} (hs : Ready s) (rowsHint : Rows) (columnsHint : Columns) :
    exec (.sfFindSync rowsHint columnsHint) s = .next (settle (startFind .command rowsHint columnsHint s)) :=
  issue_ready hs.1 hs.2 fun s => settle (startFind .command rowsHint columnsHint s)

theorem continueScan_scanned (who : Finder) (w : Scan) (columns : Columns) (pushed : List Bool) (count : Nat)
    (s : State) :
    continueScan who (w.scanned columns pushed) count s =
      if pushed.length < searchLimit columns then .ok (.more (.scan who (w.scanned columns pushed) count)) s
      else endColumn who (w.scanned columns pushed) count s := rfl

/-- The column candidates `left` are still to try in the window, or none is and the window is over (R241, R246). -/
def nextColumn (who : Finder) (w : Scan) (left : List Columns) (count : Nat) (s : State) : Res Progress :=
  match left with
  | [] => advanceWindow who w count s
  | c :: rest => startColumn who w c rest count s

theorem nextColumn_cons (who : Finder) (w : Scan) (c : Columns) (rest : List Columns) (count : Nat) (s : State) :
    nextColumn who w (c :: rest) count s = startColumn who w c rest count s := rfl

theorem endColumn_eq {s : State} (hs : s.cancel = []) (who : Finder) (w : Scan) (count : Nat) :
    endColumn who w count s = nextColumn who w w.columnsLeft count s := by
  rw [endColumn, poll_nil hs, Res.andThen_ok]
  rfl

theorem startWindow_eq (who : Finder) (w : Scan) (count : Nat) (s : State) :
    startWindow who w count s = nextColumn who { w with startMark := mark s } (columnCandidates w.columnsHint) count s := by
  unfold startWindow
  cases hcand : columnCandidates w.columnsHint with
  | nil => exact absurd hcand (columnCandidates_ne_nil _)
  | cons c rest => rfl

theorem startFind_eq (who : Finder) (rowsHint : Rows) (columnsHint : Columns) (s : State) :
    startFind who rowsHint columnsHint s =
      nextColumn who (firstScan rowsHint columnsHint (mark s)) (columnCandidates columnsHint) 0 s :=
  startWindow_eq who (firstScan rowsHint columnsHint Mark.zero) 0 s

/-- A column candidate begins with nothing pushed, back at the window's start (R242). -/
theorem startColumn_eq {who : Finder} {w : Scan} {columns : Columns} {s : State}
    (hr : restore w.startMark s = .ok () (restoreRegs w.startMark s)) (hc : columnSet.contains columns = true)
    (rest : List Columns) (count : Nat) :
    startColumn who w columns rest count s =
      continueScan who (({ w with columnsLeft := rest } : Scan).scanned columns []) count
        (restoreRegs w.startMark s) := by
  have hlimit : 0 < searchLimit columns := by simp [searchLimit, searchWindowBits]
  rw [startColumn, hr, Res.andThen_ok, matcherInit, if_pos hc, Res.andThen_ok, continueScan_scanned, List.length_nil,
    if_pos hlimit]
  rfl

/-- No search has more restores to come than a window. -/
theorem scanLeft_scanned_le (w : Scan) (columns : Columns) (pushed : List Bool) (h : w.columnsLeft.length ≤ 8) :
    scanLeft (w.scanned columns pushed) + 24 < windowRestores := by
  have := searchLimit_le columns
  have hleft : scanLeft (w.scanned columns pushed) =
      25 * (searchLimit columns - pushed.length) + 400000 * w.columnsLeft.length + 1 := rfl
  unfold windowRestores
  omega

theorem askLeft_trying {w : Scan} (hw : w.columnsLeft.length ≤ 8) {rest : List Rows} (hrest : rest.length ≤ 22)
    (who : Finder) (columns : Columns) (pushed : List Bool) (r : Rows) :
    askLeft (.search who ((w.scanned columns pushed).trying r rest)) < windowRestores := by
  have hleft : askLeft (.search who ((w.scanned columns pushed).trying r rest)) =
      1 + rest.length + scanLeft (w.scanned columns pushed) := rfl
  have := scanLeft_scanned_le w columns pushed hw
  omega

theorem tryRows_cons (who : Finder) (w : Scan) (r : Rows) (rest : List Rows) (count : Nat) (s : State) :
    tryRows who w (r :: rest) count s =
      startTest (.search who (w.trying r rest)) r w.matcher.columns w.offset w.startMark w.matchMark count s := rfl

/-- Phase 2 begins on its first row candidate (R241). -/
theorem tryRows_scanned (who : Finder) (w : Scan) (columns : Columns) (pushed : List Bool) (r : Rows)
    (rest : List Rows) (count : Nat) (s : State) :
    tryRows who (w.scanned columns pushed) (r :: rest) count s =
      startTest (.search who ((w.scanned columns pushed).trying r rest)) r columns pushed.length w.startMark
        w.matchMark count s := tryRows_cons ..

/-- Phase 1 takes its next bit while its column window lasts. -/
theorem settle_continueScan {who : Finder} {w : Scan} {columns : Columns} (hw : w.columnsLeft.length ≤ 8) {s t : State}
    (hcancel : s.cancel = []) {pushed : List Bool} (hoff : pushed.length < searchLimit columns) {b : Bool}
    (hb : nextBit s = some (.ok b t)) (count : Nat) :
    settle (continueScan who (w.scanned columns pushed) count s) =
      settle (scanBit who (w.scanned columns pushed) (count + 1) b t) := by
  have hok : TaskOk (.scan who (w.scanned columns pushed) count) :=
    ⟨(Nat.le_add_right _ 24).trans_lt (scanLeft_scanned_le w columns pushed hw), hoff⟩
  rw [continueScan_scanned, if_pos hoff, settle_more_of_nextBit hok hb]
  simp only [onBit, countBit_of_cancel ((nextBit_cancel hb).trans hcancel), Res.andThen_ok]

/-- The working values of a search whose matcher has taken one more bit (R242). -/
def Scan.pushed (b : Bool) (w : Scan) : Scan :=
  { w with matcher := (matcherPush b w.matcher).1, offset := w.offset + 1 }

theorem scanBit_eq (who : Finder) (w : Scan) (count : Nat) (b : Bool) (s : State) :
    scanBit who w count b s =
      if (matcherPush b w.matcher).2 then
        tryRows who ((w.pushed b).matchedAt (mark s)) (rowCandidates w.rowsHint) count s
      else continueScan who (w.pushed b) count s := rfl

theorem Scan.pushed_scanned (b : Bool) (w : Scan) (columns : Columns) (pushed : List Bool) :
    (w.scanned columns pushed).pushed b = w.scanned columns (pushed ++ [b]) := by
  have hlen : (pushed ++ [b]).length = pushed.length + 1 := by simp
  unfold Scan.pushed Scan.scanned
  rw [← matcherPush_matcherAfter, hlen]

/-- Phase 1 on its bit, with a match or without (R241). -/
theorem scanBit_scanned {who : Finder} {w : Scan} {columns : Columns} (hc : columnSet.contains columns = true)
    (pushed : List Bool) (b : Bool) (count : Nat) (s : State) :
    (syncPatternAt columns (pushed ++ [b]) → scanBit who (w.scanned columns pushed) count b s =
      tryRows who ((w.matchedAt (mark s)).scanned columns (pushed ++ [b])) (rowCandidates w.rowsHint)
        count s) ∧
    (¬syncPatternAt columns (pushed ++ [b]) → scanBit who (w.scanned columns pushed) count b s =
      continueScan who (w.scanned columns (pushed ++ [b])) count s) := by
  have hfires : (matcherPush b (w.scanned columns pushed).matcher).2 = true ↔ syncPatternAt columns (pushed ++ [b]) := by
    rw [← matcherFires_matcherAfter hc, ← matcherPush_matcherAfter]
    rfl
  rw [scanBit_eq, Scan.pushed_scanned]
  exact ⟨fun h => if_pos (hfires.2 h), fun h => if_neg fun hf => h (hfires.1 hf)⟩

/-- Phase 1 passes over bits without a match (R242). -/
theorem settle_continueScan_quiet {who : Finder} {w : Scan} {columns : Columns} (hw : w.columnsLeft.length ≤ 8)
    (hc : columnSet.contains columns = true) {pushed bits : List Bool} {s u : State} (hcancel : s.cancel = [])
    (hr : Reads bits s u) (hlimit : pushed.length + bits.length ≤ searchLimit columns)
    (hquiet : ∀ k, k < bits.length → ¬syncPatternAt columns (pushed ++ bits.take (k + 1))) (count : Nat) :
    ∃ count', settle (continueScan who (w.scanned columns pushed) count s) =
      settle (continueScan who (w.scanned columns (pushed ++ bits)) count' u) := by
  induction bits generalizing pushed s count with
  | nil =>
    obtain rfl := hr
    exact ⟨count, by rw [List.append_nil]⟩
  | cons b rest ih =>
    obtain ⟨t, hb, ht⟩ := hr
    rw [List.length_cons] at hlimit hquiet
    have hno : ¬syncPatternAt columns (pushed ++ [b]) := hquiet 0 (Nat.zero_lt_succ _)
    obtain ⟨count', hrun⟩ := ih (pushed := pushed ++ [b]) ((nextBit_cancel hb).trans hcancel) ht
      (by simp; omega) (fun k hk => by simpa using hquiet (k + 1) (Nat.succ_lt_succ hk)) (count + 1)
    refine ⟨count', ?_⟩
    rw [settle_continueScan hw hcancel (by omega) hb, (scanBit_scanned hc pushed b _ t).2 hno, hrun,
      List.append_assoc]
    rfl

/-- Phase 1 comes to its first match (R242). -/
theorem settle_continueScan_match {who : Finder} {w : Scan} {columns : Columns} (hw : w.columnsLeft.length ≤ 8)
    (hc : columnSet.contains columns = true) {pushed bits : List Bool} {s u : State} (hcancel : s.cancel = [])
    (hr : Reads bits s u) (hne : bits ≠ []) (hlimit : pushed.length + bits.length ≤ searchLimit columns)
    (hquiet : ∀ k, k < bits.length → 0 < k → ¬syncPatternAt columns (pushed ++ bits.take k))
    (hmatch : syncPatternAt columns (pushed ++ bits)) (count : Nat) :
    ∃ count', settle (continueScan who (w.scanned columns pushed) count s) =
      settle (tryRows who ((w.matchedAt (mark u)).scanned columns (pushed ++ bits))
        (rowCandidates w.rowsHint) count' u) := by
  obtain ⟨front, b, rfl⟩ := bits.eq_nil_or_concat.resolve_left hne
  rw [List.concat_eq_append] at *
  obtain ⟨t, hfront, v, hb, rfl⟩ := reads_append_iff.1 hr
  rw [List.length_append, List.length_singleton] at hlimit hquiet
  rw [← List.append_assoc] at hmatch ⊢
  obtain ⟨count', hrun⟩ := settle_continueScan_quiet (who := who) (pushed := pushed) hw hc hcancel hfront (by omega)
    (fun k hk => by
      have := hquiet (k + 1) (by omega) (Nat.zero_lt_succ k)
      rwa [List.take_append_of_le_length hk] at this) count
  refine ⟨count' + 1, ?_⟩
  rw [hrun, settle_continueScan hw (hfront.cancel.trans hcancel) (by rw [List.length_append]; omega) hb,
    (scanBit_scanned hc _ b _ _).1 hmatch]

/-! ## A search that finds sync at its first match -/

/-- A bit that is read lay in the history, or came from the tail (R27). -/
theorem indexInRange_of_nextBit {s t : State} {b : Bool} (h : nextBit s = some (.ok b t)) : IndexInRange s := by
  refine indexInRange_iff.2 fun i hi => ?_
  rcases nextBit_iff.1 h with ⟨j, level, delta, n, hj, hd, -, -⟩ | ⟨e, rest, hsentinel, -, -, -, -⟩
  · obtain rfl := ReadIndex.entry.inj (hi.symm.trans hj)
    obtain ⟨hpos, -, hlen⟩ := decodeChain_length hd
    rw [List.length_drop] at hlen
    unfold History.size
    omega
  · rw [hsentinel] at hi
    cases hi

theorem Reads.indexInRange {bits : List Bool} {s u : State} (h : Reads bits s u) (hi : IndexInRange s) :
    IndexInRange u := by
  induction bits generalizing s with
  | nil => obtain rfl := h; exact hi
  | cons b rest ih =>
    obtain ⟨t, hb, ht⟩ := h
    exact ih ht ((upholds_nextBit hb).index hi)

theorem restore_mark_self {s : State} (hi : IndexInRange s) : restore (mark s) s = .ok () s := by
  rw [restore_of_usable rfl (mark_index_le (indexInRange_iff.1 hi)), restoreRegs_mark_self hi]

/-- A hint that is a candidate is the only one (R240). -/
theorem candidates_of_legalShape {rows : Rows} {columns : Columns} (h : legalShape rows columns = true) :
    rowCandidates rows = [rows] ∧ columnCandidates columns = [columns] := by
  obtain ⟨hr, -, hc, -⟩ := legalShape_bounds h
  refine ⟨if_neg ?_, if_neg ?_⟩
  all_goals
    rintro rfl
    contradiction

/-- A search with one column candidate begins it where the command was issued (R241). -/
theorem startFind_of_candidate {who : Finder} {rowsHint : Rows} {columnsHint columns : Columns} {s : State}
    (hcand : columnCandidates columnsHint = [columns]) (hc : columnSet.contains columns = true) (hi : IndexInRange s) :
    startFind who rowsHint columnsHint s =
      continueScan who ((firstScan rowsHint columnsHint (mark s)).scanned columns []) 0 s := by
  have hself := restoreRegs_mark_self hi
  have hrestore : restore (mark s) s = .ok () (restoreRegs (mark s) s) := by rw [restore_mark_self hi, hself]
  rw [startFind_eq, hcand, nextColumn_cons, startColumn_eq (w := firstScan rowsHint columnsHint (mark s)) hrestore hc]
  exact congrArg _ hself

/-- Settles O50: phase 1 passes over the bits before the match, and phase 2 is the restores, the skip and the check of the
commands. -/
theorem findSyncCommitsValidShape : Obligations.FindSyncCommitsValidShape := by
  intro s u v a c rows columns n bits skipped last hs hcancel hl hlast hn hu hmatch hquiet hv hvc hskip hcheck hc hresult
  obtain ⟨rfl, t, hreads, hut⟩ := reads_of_readBits hs hu
  have hcolumns : columnSet.contains columns = true := List.contains_iff_mem.2 (legalShape_iff.1 hl).2
  have hne : bits ≠ [] := List.ne_nil_of_length_pos (Nat.lt_of_lt_of_le (Nat.succ_pos _) hlast)
  have his : IndexInRange s := by
    obtain ⟨b, rest, rfl⟩ := List.exists_cons_of_ne_nil hne
    obtain ⟨t', hb, -⟩ := hreads
    exact indexInRange_of_nextBit hb
  have hready : Ready u := by rw [hut]; exact hreads.onlyReads.ready hs
  obtain ⟨hstart, rfl⟩ := restore_of_completed hready hv hvc
  obtain ⟨hepoch, hindex, -⟩ := restore_eq_ok.1 hstart
  have hself := restore_mark_self (hreads.indexInRange his)
  rw [hut] at hepoch hindex
  have hback : restore (mark s) (restoreRegs (mark t) t) = .ok () (restoreRegs (mark s) t) :=
    restore_of_usable (s := restoreRegs (mark t) t) hepoch hindex
  obtain ⟨hrowsHint, hcolumnsHint⟩ := candidates_of_legalShape hl
  obtain ⟨count, hrun⟩ := settle_continueScan_match (who := .command) (w := firstScan rows columns (mark s))
    (Nat.zero_le _) hcolumns (pushed := []) hcancel hreads hne (by simpa [searchLimit, searchWindowBits,
      totalBitsInFrame] using hn) (fun k hk _ => hquiet k hk) hmatch 0
  rw [exec_sfFindSync hs, startFind_of_candidate hcolumnsHint hcolumns his, hrun]
  refine congrArg Host.Outcome.next ?_
  have hport : ((restoreRegs (mark s) u).returning .none).returning s.result = restoreRegs (mark s) t := by
    rw [hut, ← hreads.onlyReads.result, ← hreads.cancel]
    rfl
  obtain ⟨entry, z, count', he, hi, rfl, hchecked⟩ := settle_startAlign_of_commands
    (askLeft_trying (w := (firstScan rows columns (mark s)).matchedAt (mark t)) (Nat.zero_le _) (rest := [])
      (Nat.zero_le _) .command columns bits rows)
    (v := (restoreRegs (mark s) u).returning .none) hready (by rw [hut]; exact hcancel) hskip hcheck hc hresult s.result
    count
  have hrows : rowCandidates (firstScan rows columns (mark s)).rowsHint = [rows] := hrowsHint
  rw [hport] at hchecked
  have hmatched : restore (mark t) t = .ok () (restoreRegs (mark t) t) := by
    rw [hself, restoreRegs_mark_self (hreads.indexInRange his)]
  rw [hrows, tryRows_scanned]
  refine (congrArg settle (startTest_of_le hl hmatched hlast hback)).trans (hchecked.trans ?_)
  rw [finishCheck_search he hi]
  rfl

end Sys2Proof.Machine
end

section
/-! PROOFS. A decoder that goes back and forth over one stretch (R72, R144): where it stands and how far it has read is all
that its state depends on. -/

namespace Sys2Proof.Machine

open Sys2Proof

/-! ## Marks that stay usable -/

theorem markUsable_mark {s : State} (h : PendingWhole s) : MarkUsable (mark s) s := by
  refine ⟨rfl, h.mark_index_le, ?_⟩
  cases hi : s.bd.nextHistoryReadIndex with
  | sentinel =>
    rw [mark_index_sentinel hi, History.size, List.drop_length]
    rfl
  | entry i =>
    rw [mark_index_entry hi]
    exact ((pendingWhole_of_entry hi).1 h).2

theorem MarkUsable.restore {m : Mark} {s : State} (h : MarkUsable m s) : restore m s = .ok () (restoreRegs m s) :=
  restore_of_usable h.1 h.2.1

/-- A bit, which adds whole chains to the history at most, leaves a mark usable (R132). -/
theorem MarkUsable.nextBit {m : Mark} {s t : State} {b : Bool} (h : MarkUsable m s)
    (hb : nextBit s = some (.ok b t)) : MarkUsable m t := by
  obtain ⟨hepoch, hindex, hwf⟩ := h
  have hread := onlyReads_nextBit hb
  refine ⟨hepoch.trans hread.epoch.symm, hindex.trans hread.size_le, ?_⟩
  rcases nextBit_iff.1 hb with ⟨i, level, delta, n, -, -, -, rfl⟩ | ⟨e, rest, -, -, -, -, rfl⟩
  · exact hwf
  · rw [State.afterEdge_hb, List.drop_append_of_le_length hindex]
    refine Memory.wf_append hwf ?_
    unfold collectedChain
    split
    · exact encodeChain_wf _ _
    · rfl

/-- A mark restored is the mark there (R141, R142). -/
theorem mark_restoreRegs {m : Mark} {s : State} (h : MarkUsable m s) : mark (restoreRegs m s) = m := by
  have hindex : (mark (restoreRegs m s)).index = m.index := by
    refine mark_index_of_readIndex (s := restoreRegs m s) ?_
    simp only [restoreRegs, ge_iff_le, h.2.1.ge_iff_eq]
  obtain ⟨level, parity, sample, index, epoch⟩ := m
  exact congrArg₂ (Mark.mk level parity sample) hindex h.1.symm

/-! ## A stretch that can be read to its end -/

/-- A block that searches as R345 asks: collection on, whole chains pending, room for every edge at its input, and the
cancel input at 0. -/
structure Searching (s : State) : Prop where
  collecting : s.bd.collectHistory = true
  pending : PendingWhole s
  room : RoomFor s.edges.length s
  cancel : s.cancel = []

theorem Searching.supplied {s : State} (h : Searching s) : Supplied s.ahead.levels.length s :=
  .of_room h.pending h.room le_rfl

theorem Searching.nextBit {s t : State} {b : Bool} (h : Searching s) (hb : nextBit s = some (.ok b t)) :
    Searching t := by
  have hahead := congrArg (fun a => a.levels.length) (nextBit_ahead hb).1
  have ht : Supplied t.ahead.levels.length t :=
    Supplied.of_reads (bits := [b]) (h.supplied.mono (by rw [hahead]; simp; omega)) ⟨t, hb, rfl⟩
  have hroom := ht.room
  rw [length_ahead, Nat.add_sub_cancel_left] at hroom
  exact ⟨(onlyReads_nextBit hb).collectHistory.trans h.collecting, ht.pending, hroom,
    (nextBit_cancel hb).trans h.cancel⟩

theorem Searching.exists_nextBit {s : State} (h : Searching s) (hne : 0 < s.ahead.levels.length) :
    ∃ b t, Machine.nextBit s = some (.ok b t) := by
  obtain ⟨b, t, hb, -⟩ := (h.supplied.mono hne : Supplied (0 + 1) s).nextBit
  exact ⟨b, t, hb⟩

/-- The state after `n` bits. -/
def State.afterBits (s : State) : Nat → State
  | 0 => s
  | n + 1 =>
    match nextBit (s.afterBits n) with
    | some (.ok _ t) => t
    | _ => s.afterBits n

theorem State.afterBits_succ {s t : State} {n : Nat} {b : Bool} (h : nextBit (s.afterBits n) = some (.ok b t)) :
    s.afterBits (n + 1) = t := by
  rw [State.afterBits, h]

/-- What a run of bits comes to is the state after as many bits. -/
theorem Reads.afterBits {bits : List Bool} {s u : State} (h : Reads bits s u) : s.afterBits bits.length = u := by
  induction bits using List.reverseRecOn generalizing u with
  | nil => exact h.symm
  | append_singleton bits b ih =>
    obtain ⟨t, ht, v, hb, rfl⟩ := reads_append_iff.1 h
    rw [List.length_append, List.length_singleton]
    exact State.afterBits_succ ((ih ht).symm ▸ hb)

/-- A stretch is its level before and its bits (R133, R145). -/
theorem Stream.ext_bits {a b : Stream} (hbefore : a.before = b.before) (hbits : a.bits = b.bits) : a = b := by
  obtain ⟨before, levels⟩ := a
  obtain ⟨before', levels'⟩ := b
  obtain rfl : before = before' := hbefore
  induction levels generalizing before levels' with
  | nil =>
    have hlen := congrArg List.length hbits
    rw [length_bits, length_bits] at hlen
    exact congrArg (Stream.mk before) (List.eq_nil_of_length_eq_zero hlen.symm).symm
  | cons level levels ih =>
    cases levels' with
    | nil => cases hbits
    | cons level' levels' =>
      rw [bits_cons, bits_cons, List.cons.injEq] at hbits
      obtain rfl : level = level' := Bool.bne_left_inj.1 hbits.1
      have htail := ih level levels' hbits.2
      rw [Stream.mk.injEq] at htail
      rw [htail.2]

theorem Searching.of_reads {bits : List Bool} {s u : State} (h : Searching s) (hr : Reads bits s u) : Searching u := by
  induction bits generalizing s with
  | nil => obtain rfl := hr; exact h
  | cons b rest ih =>
    obtain ⟨t, hb, ht⟩ := hr
    exact ih (h.nextBit hb) ht

section

variable {s : State} (h : Searching s)

include h

theorem Searching.reads_afterBits {k : Nat} (hk : k ≤ s.ahead.levels.length) :
    Reads (s.ahead.bits.take k) s (s.afterBits k) := by
  obtain ⟨u, hu, -⟩ := (h.supplied.mono hk : Supplied (k + 0) s).reads
  have hlen := Stream.length_take_bits hk
  have hafter := hu.afterBits
  rw [hlen] at hafter
  exact hafter ▸ hu

theorem Searching.afterBits {k : Nat} (hk : k ≤ s.ahead.levels.length) :
    Searching (s.afterBits k) ∧ (s.afterBits k).ahead = s.ahead.drop k := by
  have hreads := h.reads_afterBits hk
  obtain ⟨-, -, hahead⟩ := hreads.ahead
  rw [Stream.length_take_bits hk] at hahead
  exact ⟨h.of_reads hreads, hahead⟩

/-- Each bit of the stretch is read when its turn comes. -/
theorem Searching.nextBit_afterBits {k : Nat} (hk : k < s.ahead.levels.length) :
    ∃ b, Machine.nextBit (s.afterBits k) = some (.ok b (s.afterBits (k + 1))) ∧
      s.ahead.bits.take (k + 1) = s.ahead.bits.take k ++ [b] := by
  obtain ⟨hs, hahead⟩ := h.afterBits hk.le
  obtain ⟨b, t, hb⟩ := hs.exists_nextBit (by rw [hahead, Stream.drop_levels, List.length_drop]; omega)
  have hreads : Reads (s.ahead.bits.take k ++ [b]) s t := (h.reads_afterBits hk.le).append ⟨t, hb, rfl⟩
  have hlen : (s.ahead.bits.take k ++ [b]).length = k + 1 := by
    rw [List.length_append, Stream.length_take_bits hk.le, List.length_singleton]
  obtain ⟨-, hbits, -⟩ := hreads.ahead
  rw [hlen] at hbits
  exact ⟨b, by rw [State.afterBits_succ hb]; exact hb, hbits.symm⟩

theorem Searching.onlyReads_afterBits {i j : Nat} (hij : i ≤ j) (hj : j ≤ s.ahead.levels.length) :
    OnlyReads (s.afterBits i) (s.afterBits j) := by
  induction j, hij using Nat.le_induction with
  | base => exact .refl _
  | succ j hij ih =>
    obtain ⟨b, hb, -⟩ := h.nextBit_afterBits hj
    exact (ih (Nat.le_of_succ_le hj)).trans (onlyReads_nextBit hb)

theorem Searching.markUsable_afterBits {i j : Nat} (hij : i ≤ j) (hj : j ≤ s.ahead.levels.length) :
    MarkUsable (mark (s.afterBits i)) (s.afterBits j) := by
  induction j, hij using Nat.le_induction with
  | base => exact markUsable_mark (h.afterBits hj).1.pending
  | succ j hij ih =>
    obtain ⟨b, hb, -⟩ := h.nextBit_afterBits hj
    exact (ih (Nat.le_of_succ_le hj)).nextBit hb

end

/-! ## Back and forth -/

/-- The decoder of `s` at its bit number `i`, with `j` bits read so far. -/
def State.back (s : State) (i j : Nat) : State := restoreRegs (mark (s.afterBits i)) (s.afterBits j)

section

variable {s : State} (h : Searching s) {i j : Nat} (hij : i ≤ j) (hj : j ≤ s.ahead.levels.length)

include h hj

theorem Searching.back_self : s.back j j = s.afterBits j :=
  restoreRegs_mark_self (indexInRange_of_pendingWhole (h.afterBits hj).1.pending)

theorem Searching.onlyReads_back : OnlyReads s (s.back i j) :=
  (h.onlyReads_afterBits (Nat.zero_le j) hj).trans (onlyReads_restoreRegs _ _)

include hij

theorem Searching.back : Searching (s.back i j) := by
  obtain ⟨⟨hcollecting, -, hroom, hcancel⟩, -⟩ := h.afterBits hj
  exact ⟨hcollecting, pendingWhole_restoreRegs (h.markUsable_afterBits hij hj), hroom, hcancel⟩

theorem Searching.mark_back : mark (s.back i j) = mark (s.afterBits i) :=
  mark_restoreRegs (h.markUsable_afterBits hij hj)

/-- A bit read again, or for the first time. -/
theorem Searching.nextBit_back (hi : i < s.ahead.levels.length) :
    ∃ b, Machine.nextBit (s.back i j) = some (.ok b (s.back (i + 1) (max j (i + 1)))) ∧
      s.ahead.bits.take (i + 1) = s.ahead.bits.take i ++ [b] := by
  obtain ⟨b, hb, hbits⟩ := h.nextBit_afterBits hi
  refine ⟨b, ?_, hbits⟩
  rcases hij.eq_or_lt with rfl | hlt
  · rw [max_eq_right (Nat.le_succ i), h.back_self hj, h.back_self hi]
    exact hb
  · rw [max_eq_left hlt]
    exact nextBit_restoreRegs_mark (h.afterBits hi.le).1.collecting hb (h.onlyReads_afterBits hlt hj).entries

theorem Searching.exists_reads_back (n : Nat) (hn : i + n ≤ s.ahead.levels.length) :
    ∃ bits, bits.length = n ∧ s.ahead.bits.take (i + n) = s.ahead.bits.take i ++ bits ∧
      Reads bits (s.back i j) (s.back (i + n) (max j (i + n))) := by
  induction n with
  | zero => exact ⟨[], rfl, (List.append_nil _).symm, by rw [Nat.add_zero, max_eq_left hij]; rfl⟩
  | succ n ih =>
    obtain ⟨bits, hlen, htake, hreads⟩ := ih (Nat.le_of_succ_le hn)
    obtain ⟨b, hb, hbit⟩ := h.nextBit_back (le_max_right j (i + n)) (max_le hj (Nat.le_of_succ_le hn)) hn
    rw [max_assoc, max_eq_right (Nat.le_succ (i + n))] at hb
    refine ⟨bits ++ [b], by simp [hlen], ?_, hreads.append ⟨_, hb, rfl⟩⟩
    rw [← List.append_assoc, ← htake, ← hbit]
    rfl

/-- What lies ahead is the stretch from there, read before or not (R72, R144). -/
theorem Searching.ahead_back : (s.back i j).ahead = s.ahead.drop i := by
  have hi := hij.trans hj
  obtain ⟨bits, hlen, htake, hreads⟩ := h.exists_reads_back hij hj _ (Nat.add_sub_of_le hi).le
  obtain ⟨-, hbits, hahead⟩ := hreads.ahead
  rw [Nat.add_sub_of_le hi, max_eq_right hj, h.back_self le_rfl, (h.afterBits le_rfl).2] at hahead
  have hend := congrArg (fun a => a.levels.length) hahead
  rw [Stream.drop_levels, Stream.drop_levels, List.length_drop, List.length_drop, Nat.sub_self] at hend
  refine Stream.ext_bits ?_ ?_
  · exact (congrArg Stream.before (h.afterBits hi).2 :)
  · rw [Stream.bits_drop hi, ← List.take_of_length_le (l := (s.back i j).ahead.bits) (i := bits.length)
      (by rw [Stream.length_bits]; omega), ← hbits]
    rw [Nat.add_sub_of_le hi, List.take_of_length_le (Stream.length_bits _).le] at htake
    rw [htake, List.drop_left' (Stream.length_take_bits hi)]

/-- Where a run of bits comes to. -/
theorem Searching.reads_back {bits : List Bool} {u : State} (hr : Reads bits (s.back i j) u) :
    i + bits.length ≤ s.ahead.levels.length ∧ u = s.back (i + bits.length) (max j (i + bits.length)) := by
  have hn := hr.ahead.1
  rw [h.ahead_back hij hj, Stream.drop_levels, List.length_drop] at hn
  have hn : i + bits.length ≤ s.ahead.levels.length := by have := hij.trans hj; omega
  obtain ⟨bits', hlen, -, hr'⟩ := h.exists_reads_back hij hj _ hn
  exact ⟨hn, by rw [← hr.afterBits, ← hr'.afterBits, hlen]⟩

end

end Sys2Proof.Machine
end

section
/-! PROOFS. The candidates of a search window (R240 to R244), as the stream has them: one that is turned down costs its bits,
and one that validates ends the search. -/

namespace Sys2Proof.Machine

open Sys2Proof

/-! ## The furthest bit read -/

/-- `k` is `j`, or the furthest of the places `P` if one of them is further. -/
def Furthest (P : Nat → Prop) (j k : Nat) : Prop := ∀ b, k ≤ b ↔ j ≤ b ∧ ∀ p, P p → p ≤ b

theorem Furthest.le {P : Nat → Prop} {j k : Nat} (h : Furthest P j k) : j ≤ k := ((h k).1 le_rfl).1

theorem Furthest.none {P : Nat → Prop} (h : ∀ p, ¬P p) (j : Nat) : Furthest P j j := fun _ =>
  ⟨fun hj => ⟨hj, fun p hp => absurd hp (h p)⟩, And.left⟩

theorem Furthest.one {P : Nat → Prop} {q : Nat} (h : ∀ p, P p ↔ p = q) (j : Nat) : Furthest P j (max j q) := fun b => by
  simp only [h, forall_eq, max_le_iff]

/-- Places after places. -/
theorem Furthest.trans {P Q R : Nat → Prop} {i j k : Nat} (h : Furthest P i j) (g : Furthest Q j k)
    (hR : ∀ p, R p ↔ P p ∨ Q p) : Furthest R i k := fun b => by
  simp only [g b, h b, hR, or_imp, forall_and, and_assoc]

/-! ## One candidate -/

theorem CheckAnswer.unique {a : Stream} {rows : Rows} {columns : Columns} {m n : Nat}
    (h : CheckAnswer a rows columns m) (g : CheckAnswer a rows columns n) : m = n := by
  have no_lt : ∀ {m n}, CheckAnswer a rows columns m → CheckAnswer a rows columns n → ¬m < n := by
    intro m n h g hlt
    rcases h.2 with rfl | ⟨-, -, hbad⟩
    · exact absurd g.le (by omega)
    · rw [(g.1 m hlt).2] at hbad
      cases hbad
  exact Nat.le_antisymm (not_lt.1 (no_lt g h)) (not_lt.1 (no_lt h g))

/-- Where the frames read for the answer `n` end, for a candidate aligned at bit number `start`. -/
def checkEnd (a : Stream) (rows : Rows) (columns : Columns) (start n : Nat) : Nat :=
  start + frameOffset (a.drop start) rows columns (framesRead n)

theorem le_checkEnd (a : Stream) (rows : Rows) (columns : Columns) (start n : Nat) :
    start ≤ checkEnd a rows columns start n := Nat.le_add_right _ _

/-- The stretch holds the frames read for an answer. -/
theorem CheckAnswer.checkEnd_le {a : Stream} {rows : Rows} {columns : Columns} {start n : Nat}
    (hl : legalShape rows columns = true) (h : CheckAnswer (a.drop start) rows columns n) :
    checkEnd a rows columns start n ≤ a.levels.length := by
  have hend := h.offset_le
  have hfirst : frameOffset (a.drop start) rows columns 1 ≤ frameOffset (a.drop start) rows columns (framesRead n) :=
    frameOffset_mono _ _ _ (by unfold framesRead; omega)
  have hsize : frameOffset (a.drop start) rows columns 1 = rows.toNat * columns.toNat := by
    rw [frameOffset_succ, frameOffset_zero, Nat.zero_add]
    rfl
  obtain ⟨hc, hframe⟩ := frame_bound hl
  rw [Stream.drop_levels, List.length_drop] at hend
  unfold checkEnd
  omega

section

variable {s : State} (h : Searching s)

include h

/-- An alignment skip of `k` bits and then the check of the candidate there. -/
theorem Searching.settle_startAlign {ask : Asker} (hask : askLeft ask < windowRestores) {rows : Rows}
    {columns : Columns} (hl : legalShape rows columns = true) {i j k n : Nat} (hij : i ≤ j)
    (hj : j ≤ s.ahead.levels.length) (ha : CheckAnswer (s.ahead.drop (i + k)) rows columns n) (count : Nat) :
    ∃ count' q, settle (startAlign ask rows columns k count (s.back i j)) =
      settle (finishCheck ask (mark (s.afterBits (i + k))) n count'
        ((s.back (checkEnd s.ahead rows columns (i + k) n)
          (max j (checkEnd s.ahead rows columns (i + k) n))).withParity q)) := by
  have hend := ha.checkEnd_le hl
  have hk : i + k ≤ s.ahead.levels.length := (le_checkEnd ..).trans hend
  obtain ⟨bits, rfl, -, hskip⟩ := h.exists_reads_back hij hj k hk
  have hjk : max j (i + bits.length) ≤ s.ahead.levels.length := max_le hj hk
  have hahead := h.ahead_back (le_max_right j (i + bits.length)) hjk
  have hsup := (h.back (le_max_right j (i + bits.length)) hjk).supplied
  obtain ⟨z, q, hto, hread⟩ := checksTo_of_checkAnswer (s := s.back (i + bits.length) (max j (i + bits.length))) hl
    (hahead ▸ ha) (hsup.mono (CheckAnswer.offset_le (hahead ▸ ha)))
  obtain ⟨-, hz⟩ := h.reads_back (le_max_right j (i + bits.length)) hjk hread
  have hlen := Stream.length_take_bits (CheckAnswer.offset_le (hahead ▸ ha))
  rw [hlen, hahead, ← checkEnd, max_assoc, max_eq_right (le_checkEnd ..)] at hz
  obtain ⟨count', hrun⟩ := settle_startAlign_of_checksTo hask hl (h.back hij hj).cancel hskip hto count
  rw [h.mark_back (le_max_right j (i + bits.length)) hjk, hz] at hrun
  exact ⟨count', q, hrun⟩

/-- Phase 2 on a candidate, up to the answer of its check (R243, R244). -/
theorem Searching.settle_startTest {ask : Asker} (hask : askLeft ask < windowRestores) {rows : Rows}
    {columns : Columns} (hl : legalShape rows columns = true) {m j n : Nat} (hm : m ≤ j)
    (hj : j ≤ s.ahead.levels.length) (ha : CheckAnswer (s.ahead.drop (alignedStart rows columns m)) rows columns n)
    (count : Nat) :
    ∃ count' q, settle (startTest ask rows columns m (mark s) (mark (s.afterBits m)) count (s.back m j)) =
      settle (finishCheck ask (mark (s.afterBits (alignedStart rows columns m))) n count'
        ((s.back (checkEnd s.ahead rows columns (alignedStart rows columns m) n)
          (max j (checkEnd s.ahead rows columns (alignedStart rows columns m) n))).withParity q)) := by
  have hmatched := MarkUsable.restore (s := s.back m j) (h.markUsable_afterBits hm hj)
  by_cases hlast : 31 * columns.toNat + 1 ≤ m
  · have hstart : MarkUsable (mark s) (s.back m j) := h.markUsable_afterBits (Nat.zero_le j) hj
    have hal : alignedStart rows columns m = 0 + (m - lastStaticSyncBitOffset columns) :=
      (if_pos hlast).trans (Nat.zero_add _).symm
    rw [hal] at ha ⊢
    rw [startTest_of_le hl hmatched hlast (hstart.restore :)]
    exact h.settle_startAlign hask hl (Nat.zero_le j) hj ha count
  · obtain ⟨hc, hframe⟩ := frame_bound hl
    have hal : alignedStart rows columns m = m + (totalBitsInFrame rows columns - lastStaticSyncBitOffset columns) := by
      unfold alignedStart totalBitsInFrame lastStaticSyncBitOffset
      rw [if_neg hlast]
      omega
    rw [hal] at ha ⊢
    rw [startTest_of_lt hl hmatched hlast]
    exact h.settle_startAlign hask hl hm hj ha count

end

/-! ## The candidates of a match -/

/-- A search that looks from `s` on: its window starts there, and its hints are those of R240. -/
structure InWindow (s : State) (w : Scan) : Prop where
  start : w.startMark = mark s
  left : w.columnsLeft.length ≤ 8
  rows : legalRowsHint w.rowsHint = true

/-- What a search keeps while it is in one column window. -/
structure SameColumn (w w' : Scan) : Prop where
  rowsHint : w'.rowsHint = w.rowsHint
  columnsHint : w'.columnsHint = w.columnsHint
  startMark : w'.startMark = w.startMark
  columnsLeft : w'.columnsLeft = w.columnsLeft

theorem SameColumn.refl (w : Scan) : SameColumn w w := ⟨rfl, rfl, rfl, rfl⟩

theorem SameColumn.trans {w w' w'' : Scan} (h : SameColumn w w') (g : SameColumn w' w'') : SameColumn w w'' :=
  ⟨g.1.trans h.1, g.2.trans h.2, g.3.trans h.3, g.4.trans h.4⟩

theorem SameColumn.inWindow {s : State} {w w' : Scan} (h : SameColumn w w') (hw : InWindow s w) : InWindow s w' :=
  ⟨h.startMark.trans hw.start, h.columnsLeft ▸ hw.left, h.rowsHint.symm ▸ hw.rows⟩

theorem rowCandidates_legal {hint : Rows} (h : legalRowsHint hint = true) : ∀ r ∈ rowCandidates hint, r ∈ rowSet := by
  unfold rowCandidates
  unfold legalRowsHint at h
  split
  · exact fun r => id
  · rename_i hne
    rw [beq_eq_false_iff_ne.2 hne, Bool.false_or, List.contains_iff_mem] at h
    exact List.forall_mem_singleton.2 h

theorem columnCandidates_legal {hint : Columns} (h : legalColumnsHint hint = true) :
    ∀ c ∈ columnCandidates hint, c ∈ columnSet := by
  unfold columnCandidates
  unfold legalColumnsHint at h
  split
  · exact fun c => id
  · rename_i hne
    rw [beq_eq_false_iff_ne.2 hne, Bool.false_or, List.contains_iff_mem] at h
    exact List.forall_mem_singleton.2 h

/-- The places to which turning down these row candidates reads (R244). -/
def CandidateEnd (a : Stream) (rows : List Rows) (columns : Columns) (m p : Nat) : Prop :=
  ∃ r ∈ rows, ∃ n, n < 16 ∧ CheckAnswer (a.drop (alignedStart r columns m)) r columns n ∧
    p = checkEnd a r columns (alignedStart r columns m) n

theorem candidateEnd_cons {a : Stream} {r : Rows} {rest : List Rows} {columns : Columns} {m n : Nat} (hn : n < 16)
    (ha : CheckAnswer (a.drop (alignedStart r columns m)) r columns n) (p : Nat) :
    CandidateEnd a (r :: rest) columns m p ↔
      p = checkEnd a r columns (alignedStart r columns m) n ∨ CandidateEnd a rest columns m p := by
  simp only [CandidateEnd, List.mem_cons, exists_eq_or_imp]
  refine or_congr_left ⟨?_, fun hp => ⟨n, hn, ha, hp⟩⟩
  rintro ⟨n', -, ha', rfl⟩
  rw [ha'.unique ha]

section

variable {s : State} (h : Searching s) {columns : Columns} (hc : columns ∈ columnSet) {m j : Nat} (hm : m ≤ j)
  (hj : j ≤ s.ahead.levels.length) {w : Scan} (hw : InWindow s w) (hmark : w.matchMark = mark (s.afterBits m))
  {pushed : List Bool} (hpushed : pushed.length = m)

include h hc hm hj hw hmark hpushed

/-- A row candidate is tried, up to its answer (R241, R243). -/
theorem Searching.settle_tryRows {who : Finder} {r : Rows} {rest : List Rows} (hr : r ∈ rowSet)
    (hrest : rest.length ≤ 22) {n : Nat}
    (ha : CheckAnswer (s.ahead.drop (alignedStart r columns m)) r columns n) (count : Nat) :
    ∃ count', settle (tryRows who (w.scanned columns pushed) (r :: rest) count (s.back m j)) = settle (
      if n > 15 then
        foundSync who r columns
          (s.back (alignedStart r columns m) (max j (checkEnd s.ahead r columns (alignedStart r columns m) n)))
      else
        tryRows who ((w.trying r rest).scanned columns pushed) rest count'
          (s.back m (max j (checkEnd s.ahead r columns (alignedStart r columns m) n)))) := by
  have hl := legalShape_iff.2 ⟨hr, hc⟩
  obtain ⟨count', q, hrun⟩ := h.settle_startTest (askLeft_trying hw.left hrest who columns pushed r) hl hm hj ha count
  have hj' := max_le hj (ha.checkEnd_le hl)
  have hentry := h.markUsable_afterBits ((le_checkEnd s.ahead r columns _ n).trans (le_max_right j _)) hj'
  have hmatched := h.markUsable_afterBits (hm.trans (le_max_left j _)) hj'
  refine ⟨count', ?_⟩
  rw [tryRows_scanned, hpushed, hw.start, hmark, hrun]
  refine congrArg settle ((finishCheck_search (u := (s.back _ _).withParity q) hentry.1 hentry.2.1 ..).trans ?_)
  refine if_congr Iff.rfl rfl ?_
  have hagain := MarkUsable.restore (s := s.back (alignedStart r columns m) _) hmatched
  have hmark' : ((w.scanned columns pushed).trying r rest).matchMark = mark (s.afterBits m) := hmark
  rw [hmark']
  exact (congrArg (Res.andThen · _) hagain).trans rfl

end

/-- Row candidates that the stream turns down are tried, and others are left to try (R241). -/
theorem Searching.settle_tryRows_rejected {s : State} (h : Searching s) {columns : Columns} (hc : columns ∈ columnSet)
    {m j : Nat} (hm : m ≤ j) (hj : j ≤ s.ahead.levels.length) {w : Scan} (hw : InWindow s w)
    (hmark : w.matchMark = mark (s.afterBits m)) {pushed : List Bool} (hpushed : pushed.length = m) {who : Finder}
    {rows more : List Rows} (hlegal : ∀ r ∈ rows, r ∈ rowSet) (hlen : (rows ++ more).length ≤ 23)
    (hrejected : ∀ r ∈ rows, Rejected s.ahead r columns m) (count : Nat) :
    ∃ w' j' count', SameColumn w w' ∧ w'.matchMark = w.matchMark ∧ j' ≤ s.ahead.levels.length ∧
      Furthest (CandidateEnd s.ahead rows columns m) j j' ∧
      settle (tryRows who (w.scanned columns pushed) (rows ++ more) count (s.back m j)) =
        settle (tryRows who (w'.scanned columns pushed) more count' (s.back m j')) := by
  induction rows generalizing w j count with
  | nil => exact ⟨w, j, count, .refl w, rfl, hj, .none (fun p ⟨r, hr, _⟩ => absurd hr List.not_mem_nil) j, rfl⟩
  | cons r rest ih =>
    obtain ⟨hr, hlegal⟩ := List.forall_mem_cons.1 hlegal
    obtain ⟨⟨n, hn, ha⟩, hrejected⟩ := List.forall_mem_cons.1 hrejected
    rw [List.cons_append, List.length_cons] at hlen
    obtain ⟨count', hrun⟩ := h.settle_tryRows hc hm hj hw hmark hpushed (who := who) (rest := rest ++ more) hr
      (Nat.le_of_succ_le_succ hlen) ha count
    have hsame : SameColumn w (w.trying r (rest ++ more)) := ⟨rfl, rfl, rfl, rfl⟩
    obtain ⟨w', j', count'', hw', hmark', hj', hfurthest, hrest⟩ := ih (hm.trans (le_max_left _ _))
      (max_le hj (ha.checkEnd_le (legalShape_iff.2 ⟨hr, hc⟩))) (hsame.inWindow hw) hmark hlegal (by omega) hrejected
      count'
    refine ⟨w', j', count'', hsame.trans hw', hmark', hj',
      (Furthest.one (fun _ => Iff.rfl) j).trans hfurthest (candidateEnd_cons hn ha), ?_⟩
    rw [List.cons_append, hrun, if_neg (by omega), hrest]

/-! ## A column window -/

/-- The places to which phase 1 reads at bit number `m`, with the candidates of a match there turned down (R242). -/
def BitEnd (a : Stream) (rowsHint : Rows) (columns : Columns) (m p : Nat) : Prop :=
  p = m ∨ MatchAt a columns m ∧ CandidateEnd a (rowCandidates rowsHint) columns m p

/-- The places to which phase 1 reads from bit number `k` on up to bit number `l`. -/
def ScanEnd (a : Stream) (rowsHint : Rows) (columns : Columns) (k l p : Nat) : Prop :=
  ∃ m, k < m ∧ m ≤ l ∧ BitEnd a rowsHint columns m p

theorem scanEnd_succ {a : Stream} {rowsHint : Rows} {columns : Columns} {k l : Nat} (hkl : k ≤ l) (p : Nat) :
    ScanEnd a rowsHint columns k (l + 1) p ↔
      ScanEnd a rowsHint columns k l p ∨ BitEnd a rowsHint columns (l + 1) p := by
  constructor
  · rintro ⟨m, hk, hl, hp⟩
    rcases hl.lt_or_eq with hlt | rfl
    · exact .inl ⟨m, hk, Nat.lt_succ_iff.1 hlt, hp⟩
    · exact .inr hp
  · rintro (⟨m, hk, hl, hp⟩ | hp)
    · exact ⟨m, hk, Nat.le_succ_of_le hl, hp⟩
    · exact ⟨l + 1, Nat.lt_succ_of_le hkl, le_rfl, hp⟩

section

variable {s : State} (h : Searching s) {columns : Columns} (hc : columns ∈ columnSet) {who : Finder}

include h hc

/-- One bit of phase 1, with a match or without (R242). -/
theorem Searching.settle_continueScan_bit {k j : Nat} (hk : k ≤ j) (hj : j ≤ s.ahead.levels.length) {w : Scan}
    (hw : InWindow s w) (hlimit : k < searchLimit columns) (hlen : k < s.ahead.levels.length) (count : Nat) :
    (MatchAt s.ahead columns (k + 1) →
      settle (continueScan who (w.scanned columns (s.ahead.bits.take k)) count (s.back k j)) =
        settle (tryRows who ((w.matchedAt (mark (s.afterBits (k + 1)))).scanned columns (s.ahead.bits.take (k + 1)))
          (rowCandidates w.rowsHint) (count + 1) (s.back (k + 1) (max j (k + 1))))) ∧
    (¬MatchAt s.ahead columns (k + 1) →
      settle (continueScan who (w.scanned columns (s.ahead.bits.take k)) count (s.back k j)) =
        settle (continueScan who (w.scanned columns (s.ahead.bits.take (k + 1))) (count + 1)
          (s.back (k + 1) (max j (k + 1))))) := by
  obtain ⟨b, hb, hbits⟩ := h.nextBit_back hk hj hlen
  have hpushed := Stream.length_take_bits hlen.le
  obtain ⟨hmatch, hquiet⟩ := scanBit_scanned (who := who) (w := w) (List.contains_iff_mem.2 hc) (s.ahead.bits.take k) b
    (count + 1) (s.back (k + 1) (max j (k + 1)))
  rw [← hbits, h.mark_back (le_max_right j (k + 1)) (max_le hj hlen)] at hmatch
  rw [← hbits] at hquiet
  rw [settle_continueScan hw.left (h.back hk hj).cancel (hpushed.symm ▸ hlimit) hb count]
  exact ⟨fun hat => by rw [hmatch hat.2.2], fun hno => by rw [hquiet fun hsync => hno ⟨hlimit, hlen, hsync⟩]⟩

/-- One bit of phase 1, with the candidates of a match there turned down (R241, R242). -/
theorem Searching.settle_continueScan_bit_rejected {k j : Nat} (hk : k ≤ j) (hj : j ≤ s.ahead.levels.length) {w : Scan}
    (hw : InWindow s w) (hlimit : k < searchLimit columns) (hlen : k < s.ahead.levels.length)
    (hrejected : MatchAt s.ahead columns (k + 1) →
      ∀ r ∈ rowCandidates w.rowsHint, Rejected s.ahead r columns (k + 1)) (count : Nat) :
    ∃ w' j' count', SameColumn w w' ∧ j' ≤ s.ahead.levels.length ∧
      Furthest (BitEnd s.ahead w.rowsHint columns (k + 1)) j j' ∧
      settle (continueScan who (w.scanned columns (s.ahead.bits.take k)) count (s.back k j)) =
        settle (continueScan who (w'.scanned columns (s.ahead.bits.take (k + 1))) count' (s.back (k + 1) j')) := by
  have hj' : max j (k + 1) ≤ s.ahead.levels.length := max_le hj hlen
  obtain ⟨hmatch, hquiet⟩ := h.settle_continueScan_bit hc (who := who) hk hj hw hlimit hlen count
  by_cases hat : MatchAt s.ahead columns (k + 1)
  · have hsame : SameColumn w (w.matchedAt (mark (s.afterBits (k + 1)))) := ⟨rfl, rfl, rfl, rfl⟩
    obtain ⟨w', j'', count', hw', -, hj'', hfurthest, hrun⟩ := h.settle_tryRows_rejected hc (le_max_right j (k + 1)) hj'
      (hsame.inWindow hw) rfl (Stream.length_take_bits hlen) (who := who) (more := [])
      (rowCandidates_legal hw.rows) (by rw [List.append_nil]; exact rowCandidates_length_le _) (hrejected hat)
      (count + 1)
    refine ⟨w', j'', count', hsame.trans hw', hj'',
      (Furthest.one (fun _ => Iff.rfl) j).trans hfurthest fun p => or_congr_right (and_iff_right hat), ?_⟩
    rw [hmatch hat, ← List.append_nil (rowCandidates w.rowsHint), hrun]
    rfl
  · exact ⟨w, _, count + 1, .refl w, hj', Furthest.one (fun p => or_iff_left fun hp => hat hp.1) j, hquiet hat⟩

/-- Phase 1 from one bit to another, with the candidates of the matches between them turned down. -/
theorem Searching.settle_continueScan_rejected {k l j : Nat} (hkl : k ≤ l) (hk : k ≤ j)
    (hj : j ≤ s.ahead.levels.length) {w : Scan} (hw : InWindow s w) (hlimit : l ≤ searchLimit columns)
    (hlen : l ≤ s.ahead.levels.length)
    (hrejected : ∀ m, k < m → m ≤ l → MatchAt s.ahead columns m →
      ∀ r ∈ rowCandidates w.rowsHint, Rejected s.ahead r columns m) (count : Nat) :
    ∃ w' j' count', SameColumn w w' ∧ l ≤ j' ∧ j' ≤ s.ahead.levels.length ∧
      Furthest (ScanEnd s.ahead w.rowsHint columns k l) j j' ∧
      settle (continueScan who (w.scanned columns (s.ahead.bits.take k)) count (s.back k j)) =
        settle (continueScan who (w'.scanned columns (s.ahead.bits.take l)) count' (s.back l j')) := by
  induction l, hkl using Nat.le_induction with
  | base =>
    exact ⟨w, j, count, .refl w, hk, hj, .none (fun p ⟨m, hlt, hle, _⟩ => absurd hle hlt.not_ge) j, rfl⟩
  | succ l hkl ih =>
    obtain ⟨w1, j1, count1, hw1, hl1, hj1, hfurthest1, hrun1⟩ := ih (Nat.le_of_succ_le hlimit) (Nat.le_of_succ_le hlen)
      fun m hlt hle => hrejected m hlt (Nat.le_succ_of_le hle)
    have hat := hrejected (l + 1) (Nat.lt_succ_of_le hkl) le_rfl
    rw [← hw1.rowsHint] at hat
    obtain ⟨w2, j2, count2, hw2, hj2, hfurthest2, hrun2⟩ :=
      h.settle_continueScan_bit_rejected hc hl1 hj1 (hw1.inWindow hw) hlimit hlen hat count1
    rw [hw1.rowsHint] at hfurthest2
    refine ⟨w2, j2, count2, hw1.trans hw2, ?_, hj2, hfurthest1.trans hfurthest2 (scanEnd_succ hkl),
      hrun1.trans hrun2⟩
    exact ((hfurthest2 j2).1 le_rfl).2 _ (.inl rfl)

end

end Sys2Proof.Machine
end

section
/-! PROOFS. SF.FIND_SYNC in its first window (R240, R241, R247): column after column, up to the first candidate that
validates. -/

namespace Sys2Proof.Machine

open Sys2Proof

/-! ## Column after column -/

theorem searchLimit_eq (columns : Columns) : searchLimit columns = 4096 + 256 * columns.toNat := rfl

/-- The places to which turning down a column reads (R241, R242). -/
def ColumnEnd (a : Stream) (rowsHint : Rows) (columns : Columns) (p : Nat) : Prop :=
  ScanEnd a rowsHint columns 0 (searchLimit columns) p

section

variable {s : State} (h : Searching s) {who : Finder} {i j : Nat} (hj : j ≤ s.ahead.levels.length)
  {w : Scan} (hw : InWindow s w)

include h hj hw

/-- A column begins at the window's start again (R242). -/
theorem Searching.startColumn_back {columns : Columns} (hc : columns ∈ columnSet) (rest : List Columns) (count : Nat) :
    startColumn who w columns rest count (s.back i j) =
      continueScan who (({ w with columnsLeft := rest } : Scan).scanned columns (s.ahead.bits.take 0)) count
        (s.back 0 j) := by
  have hstart : MarkUsable (mark s) (s.back i j) := h.markUsable_afterBits (Nat.zero_le j) hj
  rw [startColumn_eq (by rw [hw.start, hstart.restore]) (List.contains_iff_mem.2 hc), hw.start]
  rfl

/-- A column is spent without success (R241). -/
theorem Searching.settle_startColumn_rejected {columns : Columns} (hc : columns ∈ columnSet) {rest : List Columns}
    (hrest : rest.length ≤ 8) (hrejected : ColumnRejected s.ahead w.rowsHint columns) (count : Nat) :
    ∃ w' i' j' count', SameColumn { w with columnsLeft := rest } w' ∧ i' ≤ j' ∧ j' ≤ s.ahead.levels.length ∧
      Furthest (ColumnEnd s.ahead w.rowsHint columns) j j' ∧
      settle (startColumn who w columns rest count (s.back i j)) =
        settle (nextColumn who w' rest count' (s.back i' j')) := by
  have hw1 : InWindow s { w with columnsLeft := rest } := ⟨hw.start, hrest, hw.rows⟩
  obtain ⟨w', j', count', hw', hl, hj', hfurthest, hrun⟩ := h.settle_continueScan_rejected hc (who := who)
    (Nat.zero_le _) (Nat.zero_le j) hj hw1 le_rfl hrejected.1 (fun m _ _ => hrejected.2 m) count
  have hlen := Stream.length_take_bits (show searchLimit columns ≤ s.ahead.levels.length from hrejected.1)
  refine ⟨w'.scanned columns (s.ahead.bits.take (searchLimit columns)), _, j', count', hw'.trans ⟨rfl, rfl, rfl, rfl⟩,
    hl, hj', hfurthest, ?_⟩
  rw [h.startColumn_back hj hw hc, hrun, continueScan_scanned, hlen, if_neg (lt_irrefl _),
    endColumn_eq (h.back hl hj').cancel]
  exact congrArg (fun left => settle (nextColumn _ _ left _ _)) hw'.columnsLeft

end

/-- Columns are spent without success, and others are left. -/
theorem Searching.settle_nextColumn_rejected {s : State} (h : Searching s) {who : Finder} {before more : List Columns}
    {i j : Nat} (hij : i ≤ j) (hj : j ≤ s.ahead.levels.length) {w : Scan} (hw : InWindow s w)
    (hlegal : ∀ c ∈ before, c ∈ columnSet) (hlen : (before ++ more).length ≤ 8)
    (hrejected : ∀ c ∈ before, ColumnRejected s.ahead w.rowsHint c) (count : Nat) :
    ∃ w' i' j' count', InWindow s w' ∧ w'.rowsHint = w.rowsHint ∧ w'.columnsHint = w.columnsHint ∧ i' ≤ j' ∧
      j' ≤ s.ahead.levels.length ∧ Furthest (fun p => ∃ c ∈ before, ColumnEnd s.ahead w.rowsHint c p) j j' ∧
      settle (nextColumn who w (before ++ more) count (s.back i j)) =
        settle (nextColumn who w' more count' (s.back i' j')) := by
  induction before generalizing w i j count with
  | nil =>
    exact ⟨w, i, j, count, hw, rfl, rfl, hij, hj, .none (fun p ⟨c, hc, _⟩ => absurd hc List.not_mem_nil) j, rfl⟩
  | cons c rest ih =>
    obtain ⟨hc, hlegal⟩ := List.forall_mem_cons.1 hlegal
    obtain ⟨hcolumn, hrejected⟩ := List.forall_mem_cons.1 hrejected
    rw [List.cons_append, List.length_cons] at hlen
    have hrest : (rest ++ more).length ≤ 8 := Nat.le_of_succ_le hlen
    obtain ⟨w1, i1, j1, count1, hw1, hij1, hj1, hfurthest1, hrun1⟩ :=
      h.settle_startColumn_rejected (who := who) (i := i) hj hw hc hrest hcolumn count
    have hin1 : InWindow s w1 := hw1.inWindow ⟨hw.start, hrest, hw.rows⟩
    have hrows1 : w1.rowsHint = w.rowsHint := hw1.rowsHint
    rw [← hrows1] at hrejected
    obtain ⟨w2, i2, j2, count2, hin2, hrows2, hcolumns2, hij2, hj2, hfurthest2, hrun2⟩ :=
      ih hij1 hj1 hin1 hlegal hrest hrejected count1
    rw [hrows1] at hfurthest2
    exact ⟨w2, i2, j2, count2, hin2, hrows2.trans hrows1, hcolumns2.trans hw1.columnsHint, hij2, hj2,
      hfurthest1.trans hfurthest2 fun p => by simp only [List.mem_cons, exists_eq_or_imp], hrun1.trans hrun2⟩

/-! ## The candidate that validates -/

theorem not_syncPatternAt_nil (columns : Columns) : ¬syncPatternAt columns [] := fun h => by
  simpa using h 0 (by decide)

/-- A search comes to the candidate that validates, with all before it turned down (R241, R243, R247). -/
theorem Searching.settle_startColumn_validated {s : State} (h : Searching s) {columns : Columns}
    (hc : columns ∈ columnSet) {i j : Nat} (hj : j ≤ s.ahead.levels.length) {w : Scan} (hw : InWindow s w)
    {rest : List Columns} (hrest : rest.length ≤ 8) {rowsBefore rowsAfter : List Rows} {rows : Rows} {m : Nat}
    (hrows : rowCandidates w.rowsHint = rowsBefore ++ rows :: rowsAfter) (hat : MatchAt s.ahead columns m)
    (hvalid : Validates s.ahead rows columns m)
    (hmatches : ∀ k, k < m → MatchAt s.ahead columns k →
      ∀ r ∈ rowCandidates w.rowsHint, Rejected s.ahead r columns k)
    (hbefore : ∀ r ∈ rowsBefore, Rejected s.ahead r columns m) (count : Nat) :
    ∃ j', alignedStart rows columns m ≤ j' ∧ j' ≤ s.ahead.levels.length ∧
      settle (startColumn .command w columns rest count (s.back i j)) =
        settle (foundSync .command rows columns (s.back (alignedStart rows columns m) j')) := by
  have hw1 : InWindow s { w with columnsLeft := rest } := ⟨hw.start, hrest, hw.rows⟩
  obtain ⟨hlimit, hlen, hsync⟩ := hat
  cases m with
  | zero => exact absurd hsync (not_syncPatternAt_nil columns)
  | succ k =>
    obtain ⟨w1, j1, count1, hw1', hk1, hj1, -, hrun1⟩ := h.settle_continueScan_rejected hc (who := .command)
      (Nat.zero_le k) (Nat.zero_le j) hj hw1 (Nat.le_of_succ_le hlimit) (Nat.le_of_succ_le hlen)
      (fun m _ hm => hmatches m (Nat.lt_succ_of_le hm)) count
    have hin1 := hw1'.inWindow hw1
    have hrun2 := (h.settle_continueScan_bit hc (who := .command) hk1 hj1 hin1 hlimit hlen count1).1
      ⟨hlimit, hlen, hsync⟩
    have hsame : SameColumn w1 (w1.matchedAt (mark (s.afterBits (k + 1)))) := ⟨rfl, rfl, rfl, rfl⟩
    have hlegal := rowCandidates_legal hw.rows
    have hcount := rowCandidates_length_le w.rowsHint
    rw [hrows] at hlegal hcount
    obtain ⟨w3, j3, count3, hw3, hmark3, hj3, hfurthest3, hrun3⟩ := h.settle_tryRows_rejected hc
      (le_max_right j1 (k + 1)) (max_le hj1 hlen) (hsame.inWindow hin1) rfl (who := .command)
      (pushed := s.ahead.bits.take (k + 1)) (Stream.length_take_bits hlen)
      (fun r hr => hlegal r (List.mem_append_left _ hr)) hcount hbefore (count1 + 1)
    obtain ⟨count4, hrun4⟩ := h.settle_tryRows hc ((le_max_right _ _).trans hfurthest3.le) hj3
      (hw3.inWindow (hsame.inWindow hin1)) hmark3 (pushed := s.ahead.bits.take (k + 1)) (Stream.length_take_bits hlen)
      (who := .command) (rest := rowsAfter) (hlegal rows (by simp)) (by simp at hcount; omega) hvalid count3
    have hrows1 : rowCandidates w1.rowsHint = rowsBefore ++ rows :: rowsAfter := by
      rw [hw1'.rowsHint]
      exact hrows
    have hl := legalShape_iff.2 ⟨hlegal rows (by simp), hc⟩
    refine ⟨_, (le_checkEnd ..).trans (le_max_right j3 _), max_le hj3 (hvalid.checkEnd_le hl), ?_⟩
    rw [h.startColumn_back hj hw hc, hrun1, hrun2, hrows1, hrun3, hrun4, if_pos (by decide)]

theorem CanSearch.searching {s : State} {rowsHint : Rows} {columnsHint : Columns} (h : CanSearch s rowsHint columnsHint)
    (hc : s.cancel = []) : Searching s := ⟨h.2.1, h.2.2.1, h.2.2.2.1, hc⟩

/-- With all before it turned down, the first candidate that validates is found, committed and returned. -/
theorem findSync_validated {s : State} {rowsHint rows : Rows} {columnsHint columns : Columns}
    {before after : List Columns} {rowsBefore rowsAfter : List Rows} {m : Nat}
    (hs : CanSearch s rowsHint columnsHint) (hcancel : s.cancel = [])
    (hcolumns : columnCandidates columnsHint = before ++ columns :: after)
    (hrows : rowCandidates rowsHint = rowsBefore ++ rows :: rowsAfter) (hat : MatchAt s.ahead columns m)
    (hvalid : Validates s.ahead rows columns m) (hbefore : ∀ c ∈ before, ColumnRejected s.ahead rowsHint c)
    (hmatches : ∀ k, k < m → MatchAt s.ahead columns k → ∀ r ∈ rowCandidates rowsHint, Rejected s.ahead r columns k)
    (hrowsBefore : ∀ r ∈ rowsBefore, Rejected s.ahead r columns m) :
    ∃ j, alignedStart rows columns m ≤ j ∧ j ≤ s.ahead.levels.length ∧
      exec (.sfFindSync rowsHint columnsHint) s =
        .next ({ s.back (alignedStart rows columns m) j with sf := ⟨rows, columns⟩ }.returning
          (.shape rows columns)) := by
  have h := hs.searching hcancel
  obtain ⟨hready, -, -, -, hlegalRows, hlegalColumns⟩ := hs
  have hlegal := columnCandidates_legal hlegalColumns
  have hlen := columnCandidates_length_le columnsHint
  rw [hcolumns] at hlegal hlen
  obtain ⟨w, i, j, count, hw, hrowsw, -, hij, hj, -, hrun⟩ := h.settle_nextColumn_rejected (who := .command)
    (more := columns :: after) le_rfl (Nat.zero_le _) (w := firstScan rowsHint columnsHint (mark s))
    ⟨rfl, Nat.zero_le _, hlegalRows⟩ (fun c hc => hlegal c (List.mem_append_left _ hc)) hlen hbefore 0
  have hrowsw : w.rowsHint = rowsHint := hrowsw
  rw [← hrowsw] at hrows hmatches
  obtain ⟨j', halign, hj', hfound⟩ := h.settle_startColumn_validated (hlegal columns (by simp)) hj hw (i := i)
    (rest := after) (by simp at hlen; omega) hrows hat hvalid hmatches hrowsBefore count
  refine ⟨j', halign, hj', ?_⟩
  have hstart : startFind .command rowsHint columnsHint s =
      nextColumn .command (firstScan rowsHint columnsHint (mark s)) (before ++ columns :: after) 0 (s.back 0 0) := by
    rw [h.back_self (Nat.zero_le _), ← hcolumns]
    exact startFind_eq ..
  rw [exec_sfFindSync hready, hstart, hrun]
  exact congrArg Host.Outcome.next hfound

end Sys2Proof.Machine
end

section
/-! PROOFS. A search that goes on from one state goes on alike from the same state with another result port, whatever it has
counted and whatever is left of its earlier matches (R241, R251, R331). -/

namespace Sys2Proof.Machine

open Sys2Proof

/-! ## Searches that go on alike -/

theorem MarkUsable.of_hb {m : Mark} {s t : State} (h : MarkUsable m s) (ht : t.hb = s.hb) : MarkUsable m t := by
  rwa [MarkUsable, ht]

theorem Searching.restored {m : Mark} {s : State} (h : Searching s) (hm : MarkUsable m s) :
    Searching (restoreRegs m s) :=
  ⟨h.collecting, pendingWhole_restoreRegs hm, h.room, h.cancel⟩

/-- What phase 1 reads of its working values is the same (R242). -/
structure SameScan (w w' : Scan) : Prop extends SameColumn w w' where
  matcher : w'.matcher = w.matcher
  offset : w'.offset = w.offset

theorem SameScan.matchedAt {w w' : Scan} (h : SameScan w w') (m : Mark) : SameScan (w.matchedAt m) (w'.matchedAt m) :=
  ⟨⟨h.rowsHint, h.columnsHint, h.startMark, h.columnsLeft⟩, h.matcher, h.offset⟩

/-- With the same match, phase 2 on a row candidate has the same working values (R243). -/
theorem SameScan.trying_eq {w w' : Scan} (h : SameScan w w') (hm : w'.matchMark = w.matchMark) (r : Rows)
    (rest : List Rows) : w'.trying r rest = w.trying r rest := by
  obtain ⟨⟨h1, h2, h3, h4⟩, h5, h6⟩ := h
  unfold Scan.trying
  rw [h1, h2, h3, h4, h5, h6, hm]

/-- A search that cannot fault: its hints and strides are legal, and its window's start can be restored. -/
structure SoundScan (s : State) (w : Scan) : Prop where
  rowsHint : legalRowsHint w.rowsHint = true
  columnsHint : legalColumnsHint w.columnsHint = true
  columns : w.matcher.columns ∈ columnSet
  columnsLeft : ∀ c ∈ w.columnsLeft, c ∈ columnSet
  start : MarkUsable w.startMark s

/-- A search in phase 2 that cannot fault. -/
structure SoundMatch (s : State) (w : Scan) : Prop extends SoundScan s w where
  rowsLeft : ∀ r ∈ w.rowsLeft, r ∈ rowSet
  matched : MarkUsable w.matchMark s

theorem SoundScan.of_marks {s t : State} {w : Scan} (h : SoundScan s w) (ht : ∀ m, MarkUsable m s → MarkUsable m t) :
    SoundScan t w := ⟨h.rowsHint, h.columnsHint, h.columns, h.columnsLeft, ht _ h.start⟩

theorem SoundMatch.of_marks {s t : State} {w : Scan} (h : SoundMatch s w) (ht : ∀ m, MarkUsable m s → MarkUsable m t) :
    SoundMatch t w := ⟨h.toSoundScan.of_marks ht, h.rowsLeft, ht _ h.matched⟩

/-- Two searches have the same hints, those of R240. -/
structure SameHints (w w' : Scan) : Prop where
  rowsHint : w'.rowsHint = w.rowsHint
  columnsHint : w'.columnsHint = w.columnsHint
  legalRows : legalRowsHint w.rowsHint = true
  legalColumns : legalColumnsHint w.columnsHint = true

theorem SameScan.hints {s : State} {w w' : Scan} (h : SameScan w w') (hs : SoundScan s w) : SameHints w w' :=
  ⟨h.rowsHint, h.columnsHint, hs.rowsHint, hs.columnsHint⟩

/-- The commands in progress are the same, but for what is counted and for what a scan does not read. -/
inductive AlikeTask (s : State) : Task → Task → Prop
  | scan {w w' : Scan} {n n' : Nat} (h : SameScan w w') (hs : SoundScan s w) :
    AlikeTask s (.scan .command w n) (.scan .command w' n')
  | advance {w w' : Scan} {n n' : Nat} (h : SameHints w w') :
    AlikeTask s (.advance .command w n) (.advance .command w' n')
  | align {w : Scan} {rows : Rows} {columns : Columns} {left n n' : Nat} (hl : legalShape rows columns = true)
    (hs : SoundMatch s w) :
    AlikeTask s (.align (.search .command w) rows columns left n) (.align (.search .command w) rows columns left n')
  | check {w : Scan} {c : Check} {n n' : Nat} (hs : SoundMatch s w) (he : MarkUsable c.entryMark s) :
    AlikeTask s (.check (.search .command w) c n) (.check (.search .command w) c n')

/-- Two parts of a search go on alike, the second with `r` at its result port, or are done alike. -/
inductive Alike (r : Value) : Res Progress → Res Progress → Prop
  | done (v : Value) (s : State) : Alike r (.ok (.done v) s) (.ok (.done v) (s.returning r))
  | more {t t' : Task} {s : State} (hs : Searching s) (ht : AlikeTask s t t') :
    Alike r (.ok (.more t) s) (.ok (.more t') (s.returning r))

theorem discardHistory_returning (s : State) (r : Value) :
    discardHistory (s.returning r) = (discardHistory s).returning r := by
  unfold discardHistory State.returning
  dsimp only
  split <;> rfl

section

variable {r : Value} {s : State} (h : Searching s) {n n' : Nat}

include h

theorem Searching.alike_startAlign {w : Scan} (hw : SoundMatch s w) {rows : Rows} {columns : Columns}
    (hl : legalShape rows columns = true) (left : Nat) :
    Alike r (startAlign (.search .command w) rows columns left n s)
      (startAlign (.search .command w) rows columns left n' (s.returning r)) := by
  unfold startAlign
  split
  · rw [startCheck_legal hl, startCheck_legal hl]
    exact .more h (.check hw (markUsable_mark h.pending))
  · exact .more h (.align hl hw)

theorem Searching.alike_startTest {w : Scan} (hw : SoundMatch s w) {rows : Rows} {columns : Columns}
    (hl : legalShape rows columns = true) {start matched : Mark} (hstart : MarkUsable start s)
    (hmatched : MarkUsable matched s) (offset : Nat) :
    Alike r (startTest (.search .command w) rows columns offset start matched n s)
      (startTest (.search .command w) rows columns offset start matched n' (s.returning r)) := by
  have hm := hmatched.restore
  have hm' := MarkUsable.restore (s := s.returning r) hmatched
  have hkeep : ∀ m m', MarkUsable m s → MarkUsable m (restoreRegs m' s) := fun m m' hm => hm.of_hb rfl
  by_cases hoffset : lastStaticSyncBitOffset columns ≤ offset
  · rw [startTest_of_le hl hm hoffset (hkeep _ _ hstart).restore,
      startTest_of_le hl hm' hoffset (MarkUsable.restore (s := restoreRegs matched (s.returning r)) hstart)]
    exact (h.restored hstart).alike_startAlign (hw.of_marks fun m hm => hm) hl _
  · rw [startTest_of_lt hl hm hoffset, startTest_of_lt hl hm' hoffset]
    exact (h.restored hmatched).alike_startAlign (hw.of_marks fun m hm => hm) hl _

theorem Searching.alike_startColumn {w w' : Scan} (hints : SameHints w w') (hstart : w'.startMark = w.startMark)
    (husable : MarkUsable w.startMark s) {c : Columns} (hc : c ∈ columnSet) {rest : List Columns}
    (hrest : ∀ c ∈ rest, c ∈ columnSet) :
    Alike r (startColumn .command w c rest n s) (startColumn .command w' c rest n' (s.returning r)) := by
  unfold startColumn matcherInit
  rw [hstart, husable.restore, MarkUsable.restore (s := s.returning r) husable, Res.andThen_ok, Res.andThen_ok,
    if_pos (List.contains_iff_mem.2 hc), if_pos (List.contains_iff_mem.2 hc)]
  exact .more (h.restored husable) (.scan ⟨⟨hints.rowsHint, hints.columnsHint, rfl, rfl⟩, rfl, rfl⟩
    ⟨hints.legalRows, hints.legalColumns, hc, hrest, husable.of_hb rfl⟩)

/-- A new window begins at the mark of the place it begins at (R241). -/
theorem Searching.alike_startWindow {w w' : Scan} (hints : SameHints w w') :
    Alike r (startWindow .command w n s) (startWindow .command w' n' (s.returning r)) := by
  rw [startWindow_eq, startWindow_eq, congrArg columnCandidates hints.columnsHint]
  have hlegal := columnCandidates_legal hints.legalColumns
  cases hcand : columnCandidates w.columnsHint with
  | nil => exact absurd hcand (columnCandidates_ne_nil _)
  | cons c rest =>
    rw [hcand] at hlegal
    obtain ⟨hc, hrest⟩ := List.forall_mem_cons.1 hlegal
    have hints' : SameHints { w with startMark := mark s } { w' with startMark := mark (s.returning r) } :=
      ⟨hints.rowsHint, hints.columnsHint, hints.legalRows, hints.legalColumns⟩
    rw [nextColumn_cons, nextColumn_cons]
    exact h.alike_startColumn hints' rfl (markUsable_mark h.pending) hc hrest

/-- What is discarded leaves a search that looks from there on (R140, R246). -/
theorem Searching.discarded : Searching (discardHistory s) := by
  unfold discardHistory
  cases hi : s.bd.nextHistoryReadIndex with
  | entry i => exact h
  | sentinel =>
    refine ⟨h.collecting, pendingWhole_of_sentinel hi, h.room.imp_right fun hroom => ?_, h.cancel⟩
    have hsize : (histClear s).hb.size = 0 := rfl
    have hedges : (histClear s).edges = s.edges := rfl
    rw [hsize, hedges]
    exact (Nat.add_le_add_right (Nat.zero_le _) _).trans hroom

theorem Searching.alike_advanceWindow {w w' : Scan} (hints : SameHints w w') :
    Alike r (advanceWindow .command w n s) (advanceWindow .command w' n' (s.returning r)) := by
  have hr : (s.returning r).bd.nextHistoryReadIndex = s.bd.nextHistoryReadIndex := rfl
  unfold advanceWindow
  rw [hr]
  cases hi : s.bd.nextHistoryReadIndex with
  | entry i => exact .more h (.advance hints)
  | sentinel =>
    dsimp only
    rw [discardHistory_returning]
    exact h.discarded.alike_startWindow hints

theorem Searching.alike_continueScan {w w' : Scan} (hw : SameScan w w') (hs : SoundScan s w) :
    Alike r (continueScan .command w n s) (continueScan .command w' n' (s.returning r)) := by
  unfold continueScan
  rw [hw.offset, hw.matcher]
  split
  · exact .more h (.scan hw hs)
  · rw [endColumn_eq h.cancel, endColumn_eq (s := s.returning r) h.cancel, hw.columnsLeft]
    have hlegal := hs.columnsLeft
    cases hleft : w.columnsLeft with
    | nil => exact h.alike_advanceWindow (hw.hints hs)
    | cons c rest =>
      rw [hleft] at hlegal
      obtain ⟨hc, hrest⟩ := List.forall_mem_cons.1 hlegal
      exact h.alike_startColumn (hw.hints hs) hw.startMark hs.start hc hrest

theorem Searching.alike_tryRows {w w' : Scan} (hw : SameScan w w') (hs : SoundScan s w)
    (hmark : w'.matchMark = w.matchMark) (hmatched : MarkUsable w.matchMark s) {rows : List Rows}
    (hrows : ∀ r ∈ rows, r ∈ rowSet) :
    Alike r (tryRows .command w rows n s) (tryRows .command w' rows n' (s.returning r)) := by
  cases rows with
  | nil => exact h.alike_continueScan hw hs
  | cons row rest =>
    obtain ⟨hrow, hrest⟩ := List.forall_mem_cons.1 hrows
    rw [tryRows_cons, tryRows_cons, hw.trying_eq hmark, hw.matcher, hw.offset, hw.startMark, hmark]
    have hs' : SoundMatch s (w.trying row rest) :=
      ⟨⟨hs.rowsHint, hs.columnsHint, hs.columns, hs.columnsLeft, hs.start⟩, hrest, hmatched⟩
    exact h.alike_startTest hs' (legalShape_iff.2 ⟨hrow, hs.columns⟩) hs.start hmatched _

theorem Searching.alike_scanBit {w w' : Scan} (hw : SameScan w w') (hs : SoundScan s w) (b : Bool) :
    Alike r (scanBit .command w n b s) (scanBit .command w' n' b (s.returning r)) := by
  rw [scanBit_eq, scanBit_eq, hw.matcher, hw.rowsHint]
  have hw' : SameScan (w.pushed b) (w'.pushed b) :=
    ⟨⟨hw.rowsHint, hw.columnsHint, hw.startMark, hw.columnsLeft⟩,
      congrArg (fun m => (matcherPush b m).1) hw.matcher, congrArg (· + 1) hw.offset⟩
  have hs' : SoundScan s (w.pushed b) := ⟨hs.rowsHint, hs.columnsHint, hs.columns, hs.columnsLeft, hs.start⟩
  split
  · exact h.alike_tryRows (hw'.matchedAt (mark s)) ⟨hs'.rowsHint, hs'.columnsHint, hs'.columns, hs'.columnsLeft, hs'.start⟩
      rfl (markUsable_mark h.pending) (rowCandidates_legal hs.rowsHint)
  · exact h.alike_continueScan hw' hs'

theorem Searching.alike_finishCheck {w : Scan} (hs : SoundMatch s w) {entry : Mark} (he : MarkUsable entry s)
    (answer : Nat) :
    Alike r (finishCheck (.search .command w) entry answer n s)
      (finishCheck (.search .command w) entry answer n' (s.returning r)) := by
  rw [finishCheck_search he.1 he.2.1, finishCheck_search (u := s.returning r) he.1 he.2.1]
  split
  · exact .done _ _
  · have hm : MarkUsable w.matchMark (restoreRegs entry s) := hs.matched.of_hb rfl
    rw [hm.restore, MarkUsable.restore (s := restoreRegs entry (s.returning r)) hs.matched, Res.andThen_ok,
      Res.andThen_ok]
    exact (h.restored hs.matched).alike_tryRows ⟨.refl w, rfl, rfl⟩ (hs.toSoundScan.of_marks fun m hm => hm) rfl
      (hs.matched.of_hb rfl) hs.rowsLeft

/-- A bit of a check (R245). -/
theorem Searching.alike_checkBit {w : Scan} (hs : SoundMatch s w) {c : Check} (he : MarkUsable c.entryMark s) (b : Bool) :
    Alike r (checkBit (.search .command w) c n b s) (checkBit (.search .command w) c n' b (s.returning r)) := by
  rw [checkBit_of_cancel h.cancel, checkBit_of_cancel (s := s.returning r) h.cancel]
  rcases hon : c.onBit b s with ⟨c' | answer, t⟩
  all_goals
    have hon' := Check.onBit_withPorts hon s.cancel r
    have hr : s.withPorts s.cancel r = s.returning r := rfl
    have ht : t.withPorts s.cancel r = t.returning r := by rw [← (Check.onBit_onlyReads hon).2]; rfl
    rw [hr, ht] at hon'
    rw [hon']
    have hhb : t.hb = s.hb ∧ Searching t := by
      rcases Check.onBit_state hon with rfl | rfl
      · exact ⟨rfl, h⟩
      · exact ⟨rfl, h.collecting, h.pending, h.room, h.cancel⟩
    have hmarks : ∀ m, MarkUsable m s → MarkUsable m t := fun m hm => hm.of_hb hhb.1
  · exact .more hhb.2 (.check (hs.of_marks hmarks) (by rw [Check.onBit_entryMark hon]; exact hmarks _ he))
  · exact hhb.2.alike_finishCheck (hs.of_marks hmarks) (hmarks _ he) answer

/-- Every bit of a search leads both on alike. -/
theorem Searching.alike_onBit {t t' : Task} (ht : AlikeTask s t t') (b : Bool) :
    Alike r (onBit t b s) (onBit t' b (s.returning r)) := by
  have hc : ∀ count, countBit count (s.returning r) = .ok (count + 1) (s.returning r) := fun count =>
    countBit_of_cancel h.cancel
  cases ht
  all_goals simp only [onBit, countBit_of_cancel h.cancel, hc, Res.andThen_ok]
  case scan hw hs => exact h.alike_scanBit hw hs b
  case advance hints => exact h.alike_advanceWindow hints
  case align hl hs => exact h.alike_startAlign hs hl _
  case check hs he => exact h.alike_checkBit hs he b

end

end Sys2Proof.Machine
end

section
/-! PROOFS. SF.FIND_SYNC whole (R241, R246): what its first window leaves, and the search that goes on behind it. -/

namespace Sys2Proof.Machine

open Sys2Proof

/-! ## Searches that end alike -/

/-- Two runs ended alike: both wait or neither does, with the same result where they completed, and with the same state
but for the ports. -/
structure EndsAlike (t t' : State) : Prop where
  task : t.task = none ↔ t'.task = none
  result : t'.task = none → t.result = t'.result
  rest : { t with task := none, result := .none } = { t' with task := none, result := .none }

theorem nextBit_returning {s t : State} {b : Bool} (h : nextBit s = some (.ok b t)) (r : Value) :
    nextBit (s.returning r) = some (.ok b (t.returning r)) := by
  have hports := nextBit_withPorts h s.cancel r
  have ht : t.withPorts s.cancel r = t.returning r := by rw [← nextBit_cancel h]; rfl
  rw [ht] at hports
  exact hports

theorem pendingLevels_pos {s : State} (hp : PendingWhole s) {i : Nat} (hi : s.bd.nextHistoryReadIndex = .entry i) :
    0 < (pendingLevels s).length := by
  obtain ⟨level, delta, n, hd, -⟩ := decodeChain_of_pendingWhole hi hp
  rw [pendingLevels_eq, mark_index_entry hi, chainLevels_of_decodeChain hd]
  exact Nat.zero_lt_succ _

/-- A search reads its next bit or waits: nothing stops it (R312, R317). -/
theorem Searching.nextBit_cases {s : State} (h : Searching s) :
    Machine.nextBit s = none ∨ ∃ b t, Machine.nextBit s = some (.ok b t) := by
  cases hi : s.bd.nextHistoryReadIndex with
  | entry i =>
    have := pendingLevels_pos h.pending hi
    exact .inr (h.exists_nextBit (by rw [length_ahead]; omega))
  | sentinel =>
    cases he : s.edges with
    | nil => exact .inl (nextBit_eq_none.2 ⟨hi, he⟩)
    | cons e rest => exact .inr (h.exists_nextBit (by rw [length_ahead, he, List.length_cons]; omega))

theorem AlikeTask.taskOk {s : State} {t t' : Task} (h : AlikeTask s t t') (ht : TaskOk t) : TaskOk t' := by
  cases h with
  | @scan w w' n n' hw hs =>
    obtain ⟨hleft, hoff⟩ := ht
    have hsame : scanLeft w' = scanLeft w := by unfold scanLeft; rw [hw.matcher, hw.offset, hw.columnsLeft]
    have hless : w'.offset < searchLimit w'.matcher.columns := by rw [hw.matcher, hw.offset]; exact hoff
    exact ⟨hsame.trans_lt hleft, hless⟩
  | advance _ => exact ⟨windowRestores_pos, trivial⟩
  | align _ _ => exact ht
  | check _ _ => exact ht

theorem AlikeTask.of_marks {s u : State} {t t' : Task} (h : AlikeTask s t t')
    (hu : ∀ m, MarkUsable m s → MarkUsable m u) : AlikeTask u t t' := by
  cases h with
  | scan hw hs => exact .scan hw (hs.of_marks hu)
  | advance hints => exact .advance hints
  | align hl hs => exact .align hl (hs.of_marks hu)
  | check hs he => exact .check (hs.of_marks hu) (hu _ he)

/-- Searches that go on alike end alike. -/
theorem Alike.endsAlike {r : Value} {p p' : Res Progress} (h : Alike r p p')
    (hok : ∀ t u, p = .ok (.more t) u → TaskOk t) : EndsAlike (settle p) (settle p') := by
  cases h with
  | done v s => exact ⟨Iff.rfl, fun _ => rfl, rfl⟩
  | @more t t' s hs ht =>
    refine task_induction (P := fun t s => Searching s → ∀ t', AlikeTask s t t' →
      EndsAlike (settle (.ok (.more t) s)) (settle (.ok (.more t') (s.returning r)))) ?_ (hok t s rfl) s hs t' ht
    intro t s hok ih hs t' ht
    rcases hs.nextBit_cases with hb | ⟨b, u, hb⟩
    · have hb' : nextBit (s.returning r) = none := nextBit_eq_none.2 (nextBit_eq_none (s := s).1 hb)
      rw [settle_more_of_none hok hb, settle_more_of_none (ht.taskOk hok) hb']
      exact ⟨⟨nofun, nofun⟩, nofun, rfl⟩
    · have halike := (hs.nextBit hb).alike_onBit (r := r) (ht.of_marks fun m hm => hm.nextBit hb) b
      rw [settle_more_of_nextBit hok hb, settle_more_of_nextBit (ht.taskOk hok) (nextBit_returning hb r)]
      generalize hp : onBit t b u = p at halike
      generalize onBit t' b (u.returning r) = p' at halike
      cases halike with
      | done v s => exact ⟨Iff.rfl, fun _ => rfl, rfl⟩
      | more hs' ht' => exact ih _ _ _ hb hp hs' _ ht'

/-! ## The end of a window -/

theorem advanceWindow_sentinel {s : State} (h : s.bd.nextHistoryReadIndex = .sentinel) (who : Finder) (w : Scan)
    (count : Nat) : advanceWindow who w count s = startWindow who w count (discardHistory s) := by
  simp only [advanceWindow, h]

theorem advanceWindow_entry {s : State} {i : Nat} (h : s.bd.nextHistoryReadIndex = .entry i) (who : Finder) (w : Scan)
    (count : Nat) : advanceWindow who w count s = .ok (.more (.advance who w count)) s := by
  simp only [advanceWindow, h]

section

variable {s : State} (h : Searching s)

include h

theorem Searching.pending_afterBits {j : Nat} (hj : j ≤ s.ahead.levels.length) :
    (pendingLevels (s.afterBits j)).length = (pendingLevels s).length - j := by
  induction j with
  | zero => rfl
  | succ j ih =>
    obtain ⟨b, hb, -⟩ := h.nextBit_afterBits hj
    rw [(nextBit_ahead hb).2, ih (Nat.le_of_succ_le hj)]
    omega

/-- What is pending reaches to the end of what was pending first, or of what was read. -/
theorem Searching.pending_back {i j : Nat} (hij : i ≤ j) (hj : j ≤ s.ahead.levels.length) :
    (pendingLevels (s.back i j)).length = max j (pendingLevels s).length - i := by
  have hback := congrArg (fun a => a.levels.length) (h.ahead_back hij hj)
  have hafter := congrArg (fun a => a.levels.length) (h.afterBits hj).2
  have hedges : (s.back i j).edges = (s.afterBits j).edges := rfl
  have hs := length_ahead s
  rw [length_ahead, Stream.drop_levels, List.length_drop] at hback hafter
  rw [hedges] at hback
  rw [h.pending_afterBits hj] at hafter
  omega

/-- AdvanceWindow() replays to the live tail, discards, and begins a window there (R246). -/
theorem Searching.settle_advanceWindow {i j : Nat} (hij : i ≤ j) (hj : j ≤ s.ahead.levels.length) (who : Finder)
    (w : Scan) (count : Nat) :
    ∃ count', settle (advanceWindow who w count (s.back i j)) =
      settle (startWindow who w count' (discardHistory (s.afterBits (max j (pendingLevels s).length)))) := by
  have hpending := h.pending_back hij hj
  have hend : max j (pendingLevels s).length ≤ s.ahead.levels.length :=
    max_le hj (by rw [length_ahead]; exact Nat.le_add_right _ _)
  induction hd : max j (pendingLevels s).length - i generalizing i j count with
  | zero =>
    obtain rfl : i = j := by omega
    have hi : (s.back i i).bd.nextHistoryReadIndex = .sentinel := by
      cases hi : (s.back i i).bd.nextHistoryReadIndex with
      | sentinel => rfl
      | entry k =>
        have := pendingLevels_pos (h.back hij hj).pending hi
        omega
    refine ⟨count, ?_⟩
    rw [advanceWindow_sentinel hi, h.back_self hj, max_eq_left (by omega)]
  | succ d ih =>
    cases hi : (s.back i j).bd.nextHistoryReadIndex with
    | sentinel =>
      rw [pendingLevels_sentinel hi] at hpending
      simp only [List.length_nil] at hpending
      omega
    | entry k =>
      have hlt : i < s.ahead.levels.length := by omega
      obtain ⟨b, hb, -⟩ := h.nextBit_back hij hj hlt
      have hmax : max (max j (i + 1)) (pendingLevels s).length = max j (pendingLevels s).length := by omega
      have hj' : max j (i + 1) ≤ s.ahead.levels.length := max_le hj hlt
      obtain ⟨count', hrun⟩ := ih (le_max_right j (i + 1)) hj' (count + 1) (h.pending_back (le_max_right _ _) hj')
        (hmax.symm ▸ hend) (by omega)
      have hok : TaskOk (.advance who w count) := ⟨windowRestores_pos, trivial⟩
      refine ⟨count', ?_⟩
      rw [hmax] at hrun
      rw [advanceWindow_entry hi, settle_more_of_nextBit hok hb, ← hrun]
      simp only [onBit, countBit_of_cancel (h.back (le_max_right j (i + 1)) hj').cancel, Res.andThen_ok]

end

/-! ## How far a window reads -/

theorem framesRead_of_lt {n : Nat} (h : n < 16) : framesRead n = n + 1 := min_eq_left h

/-- The places of R242 to R244 to which a window without success reads, as they are said of the stream. -/
theorem exists_columnEnd_of_readTo {a : Stream} {rowsHint : Rows} {columnsHint : Columns} {p : Nat}
    (h : ReadTo a rowsHint columnsHint p) : ∃ c ∈ columnCandidates columnsHint, ColumnEnd a rowsHint c p := by
  obtain ⟨c, hc, rfl | ⟨m, hat, r, hr, n, hn, ha, rfl⟩⟩ := h
  · exact ⟨c, hc, searchLimit c, by rw [searchLimit_eq]; omega, le_rfl, .inl rfl⟩
  · have hm : 0 < m := Nat.pos_of_ne_zero fun h0 => not_syncPatternAt_nil c (by rw [h0] at hat; exact hat.2.2)
    exact ⟨c, hc, m, hm, hat.1, .inr ⟨hat, r, hr, n, hn, ha, by rw [checkEnd, framesRead_of_lt hn]⟩⟩

theorem exists_readTo_of_columnEnd {a : Stream} {rowsHint : Rows} {columnsHint c : Columns} {p : Nat}
    (hc : c ∈ columnCandidates columnsHint) (h : ColumnEnd a rowsHint c p) :
    ∃ q, p ≤ q ∧ ReadTo a rowsHint columnsHint q := by
  obtain ⟨m, -, hm, rfl | ⟨hat, r, hr, n, hn, ha, rfl⟩⟩ := h
  · exact ⟨searchLimit c, hm, c, hc, .inl rfl⟩
  · exact ⟨_, le_rfl, c, hc, .inr ⟨m, hat, r, hr, n, hn, ha, by rw [checkEnd, framesRead_of_lt hn]⟩⟩

/-- The furthest bit that a window without success reads, replayed or live (R246). -/
theorem Furthest.max_eq {a : Stream} {rowsHint : Rows} {columnsHint : Columns} {j k w : Nat}
    (h : Furthest (fun p => ∃ c ∈ columnCandidates columnsHint, ColumnEnd a rowsHint c p) 0 j) (hk : k ≤ w)
    (hle : ∀ p, ReadTo a rowsHint columnsHint p → p ≤ w) (hw : w = k ∨ ReadTo a rowsHint columnsHint w) :
    max j k = w := by
  refine le_antisymm (max_le ((h w).2 ⟨Nat.zero_le w, ?_⟩) hk) ?_
  · rintro p ⟨c, hc, hp⟩
    obtain ⟨q, hpq, hq⟩ := exists_readTo_of_columnEnd hc hp
    exact hpq.trans (hle q hq)
  · rcases hw with rfl | hw
    · exact le_max_right j w
    · exact (((h j).1 le_rfl).2 w (exists_columnEnd_of_readTo hw)).trans (le_max_left j k)

/-! ## The search whole -/

/-- A window without success leads to a new one behind all that it read (R241, R246). -/
theorem settle_startFind_rejected {s : State} {rowsHint : Rows} {columnsHint : Columns}
    (hs : CanSearch s rowsHint columnsHint) (hcancel : s.cancel = [])
    (hrejected : ∀ c ∈ columnCandidates columnsHint, ColumnRejected s.ahead rowsHint c) {w : Nat}
    (hpending : (pendingLevels s).length ≤ w) (hle : ∀ p, ReadTo s.ahead rowsHint columnsHint p → p ≤ w)
    (hw : w = (pendingLevels s).length ∨ ReadTo s.ahead rowsHint columnsHint w) :
    ∃ x count, x.rowsHint = rowsHint ∧ x.columnsHint = columnsHint ∧
      settle (startFind .command rowsHint columnsHint s) =
        settle (startWindow .command x count (discardHistory (s.afterBits w))) := by
  have h := hs.searching hcancel
  obtain ⟨-, -, -, -, hlegalRows, hlegalColumns⟩ := hs
  obtain ⟨x, i, j, count, -, hrows, hcolumns, hij, hj, hfurthest, hrun⟩ := h.settle_nextColumn_rejected (who := .command)
    (more := []) le_rfl (Nat.zero_le _) (w := firstScan rowsHint columnsHint (mark s))
    ⟨rfl, Nat.zero_le _, hlegalRows⟩ (columnCandidates_legal hlegalColumns)
    (by rw [List.append_nil]; exact columnCandidates_length_le _) hrejected 0
  obtain ⟨count', hadvance⟩ := h.settle_advanceWindow hij hj .command x count
  rw [hfurthest.max_eq hpending hle hw] at hadvance
  refine ⟨x, count', hrows, hcolumns, ?_⟩
  rw [startFind_eq, ← List.append_nil (columnCandidates columnsHint)]
  rw [h.back_self (Nat.zero_le _)] at hrun
  exact hrun.trans hadvance

theorem exec_bdDiscardHistory {s : State} (hs : Ready s) :
    exec .bdDiscardHistory s = .next ((discardHistory s).returning .none) :=
  issue_ready hs.1 hs.2 fun s => atOnce (.ok .none (discardHistory s))

/-- Bits read by commands and the history discarded by command: the state behind the window, but for the result port. -/
theorem discardHistory_of_commands {s u v : State} {n : Nat} {bits : List Bool} (hs : Ready s)
    (hu : readBits n s = some (bits, u)) (hv : exec .bdDiscardHistory u = .next v) :
    v = (discardHistory (s.afterBits n)).returning .none := by
  obtain ⟨rfl, t, hreads, hut⟩ := reads_of_readBits hs hu
  have hport : u = t.returning u.result := by rw [hut, ← hreads.cancel]; rfl
  have hready : Ready u := by rw [hut]; exact hreads.onlyReads.ready hs
  rw [exec_bdDiscardHistory hready, hport, discardHistory_returning] at hv
  rw [hreads.afterBits]
  exact (Host.Outcome.next.inj hv).symm

theorem discardHistory_ready {s : State} (h : Ready s) : Ready (discardHistory s) := by
  unfold discardHistory
  split <;> exact h

/-- Settles O51: the first window comes to the candidate that validates, or to the search behind it, which goes on as the
one issued there. -/
theorem findSyncCompletes : Obligations.FindSyncCompletes := by
  constructor
  · intro s rowsHint rows columnsHint columns before after rowsBefore rowsAfter m hs hcancel hcolumns hrows hat hvalid
      hbefore hmatches hrowsBefore
    have h := hs.searching hcancel
    obtain ⟨j, halign, hj, hrun⟩ :=
      findSync_validated hs hcancel hcolumns hrows hat hvalid hbefore hmatches hrowsBefore
    have hreads := h.onlyReads_back (i := alignedStart rows columns m) hj
    obtain ⟨hstatus, htask⟩ := hreads.ready hs.1
    exact ⟨_, hrun, ⟨htask, hstatus⟩, rfl, rfl, h.ahead_back halign hj, hreads.status, hreads.fe, hreads.readers,
      hreads.words, hreads.matchers, hreads.generators, hreads.epoch, hreads.progressSample, hreads.events⟩
  · intro s u v t rowsHint columnsHint w bits hs hcancel hrejected hpending hle hw hu hv ht
    have h := hs.searching hcancel
    obtain ⟨x, count, hrows, hcolumns, hrun⟩ := settle_startFind_rejected hs hcancel hrejected hpending hle hw
    obtain ⟨hready, -, -, -, hlegalRows, hlegalColumns⟩ := hs
    obtain rfl := discardHistory_of_commands hready hu hv
    obtain ⟨rfl, z, hreads, -⟩ := reads_of_readBits hready hu
    obtain rfl := hreads.afterBits
    have hbehind := discardHistory_ready (hreads.onlyReads.ready hready)
    rw [exec_sfFindSync (s := (discardHistory _).returning .none) hbehind] at ht
    obtain rfl := Host.Outcome.next.inj ht
    have hints : SameHints x (firstScan rowsHint columnsHint Mark.zero) :=
      ⟨hrows.symm, hcolumns.symm, hrows ▸ hlegalRows, hcolumns ▸ hlegalColumns⟩
    obtain ⟨htask, hresult, hrest⟩ := ((h.of_reads hreads).discarded.alike_startWindow (r := .none) (n := count)
      (n' := 0) hints).endsAlike fun t u hmore => (startWindow_below t u hmore).1
    exact ⟨_, by rw [exec_sfFindSync hready, hrun], htask, hresult, hrest⟩

end Sys2Proof.Machine
end

section
/-! PROOFS. The driver at its decoded bit (R270 to R274, R276, R278, R301, R302, R304). FE.START is a BD.NEXT_BIT and
what follows its priming bit; an FE.STEP in sync is a BD.NEXT_BIT, an FR.PUSH_BIT on the driver's reader, and what the
driver does with the reader's answer. -/

namespace Sys2Proof.Machine

open Sys2Proof

/-! ## FE.START -/

/-- The history after a discard (R140): cleared with nothing pending, else as it was. -/
def keptHistory (s : State) : History :=
  if s.bd.nextHistoryReadIndex = .sentinel then ⟨[], s.hb.epoch + 1⟩ else s.hb

/-- FE.START goes on with its priming bit, RUNNING (R270). -/
theorem exec_feStart_of_ok {s t : State} {b : Bool} (hs : Ready s) (hidle : s.status = .idle)
    (hb : nextBit { s with status := .running } = some (.ok b t)) :
    exec .feStart s = .next ((feStartRest t).returning .none) := by
  have hexec : exec .feStart s = execFeStart s := rfl
  rw [hexec, execFeStart, issue_ready hs.1 hs.2, if_pos hidle, settle_more_of_nextBit taskOk_feStart hb]
  rfl

/-- What FE.START leaves once its bit is there (R270), as one update. -/
theorem feStartRest_eq (s : State) :
    let u : State := { s with hb := keptHistory s, bd := { s.bd with collectHistory := true } }
    feStartRest s =
      { u with fe := { s.fe with startMark := mark u, inSync := false, firstFrame := false, started := true } } := by
  have hcollect : collectHistory true s =
      { s with hb := keptHistory s, bd := { s.bd with collectHistory := true } } := by
    rw [collectHistory, if_pos rfl, discardHistory_eq]
    rfl
  rw [feStartRest, hcollect]

/-- Settles O52: the bit of BD.NEXT_BIT is the priming bit. -/
theorem startPrimesAndCollects : Obligations.StartPrimesAndCollects := by
  intro s u hs hidle hu hc hb' u1
  obtain ⟨b, t, hb, rfl⟩ := nextBit_of_completed (s := { s with status := .running }) ⟨rfl, hs.2⟩ hu hc
  have hfe : t.fe = s.fe := (onlyReads_nextBit hb).fe
  rw [exec_feStart_of_ok hs hidle hb, feStartRest_eq, ← hfe]
  rfl

/-! ## FE.STEP in sync -/

/-- A block whose next FE.STEP takes one bit (R271). -/
structure InSync (s : State) : Prop where
  ready : Ready s
  running : s.status = .running
  started : s.fe.started = true
  inSync : s.fe.inSync = true

/-- The state with the bit `b` pushed into the driver's reader. -/
def State.pushed (b : Bool) (s : State) : State := s.setReader .driver (readerPush b s.fe.reader).1

theorem exec_feStep_inSync {s : State} (hs : InSync s) : exec .feStep s = .next (settle (.ok (.more .feBit) s)) := by
  have hexec : exec .feStep s = execFeStep s := rfl
  rw [hexec, execFeStep, issue_ready hs.ready.1 hs.ready.2, if_neg (by simp [hs.running, hs.started]), if_pos hs.inSync]

/-- An FE.STEP in sync goes on with its bit (R271). -/
theorem exec_feStep_of_ok {s t : State} {b : Bool} (hs : InSync s) (hb : nextBit s = some (.ok b t)) :
    exec .feStep s = .next (settle (feBitRest b t)) := by
  rw [exec_feStep_inSync hs, settle_more_of_nextBit taskOk_feBit hb]
  rfl

/-- With the cancel input at 0, the end of an FE.STEP writes progress (R278). -/
theorem feStepEnd_of_cancel {s : State} (h : s.cancel = []) :
    feStepEnd s = .ok (.done .none) { s with progressSample := s.bd.currentSample } := by
  rw [feStepEnd, poll_nil (by exact h), Res.andThen_ok]

theorem feBitRest_eq (b : Bool) (s : State) :
    feBitRest b s = (onReaderResult (readerPush b s.fe.reader).2 (s.pushed b)).andThen fun _ s => feStepEnd s := rfl

theorem onReaderResult_frameComplete (s : State) : onReaderResult .frameComplete s = onFrameComplete s := rfl

/-- An FE.STEP in sync whose reader's answer leads to `t` (R271, R278). -/
theorem exec_feStep_of_onReaderResult {s t u : State} {b : Bool} (hs : InSync s) (hb : nextBit s = some (.ok b u))
    (ht : onReaderResult (readerPush b u.fe.reader).2 (u.pushed b) = .ok () t) (hcancel : t.cancel = []) :
    exec .feStep s = .next { t with progressSample := t.bd.currentSample, result := .none } := by
  rw [exec_feStep_of_ok hs hb, feBitRest_eq, ht, Res.andThen_ok, feStepEnd_of_cancel hcancel]
  rfl

/-- An FE.STEP in sync in terms of the commands it is made of: with `w` behind the bit read, BD.NEXT_BIT leaves `w` and
FR.PUSH_BIT leaves `w` with the bit pushed, each with its result, and the step goes on from there with the reader's
answer. -/
theorem exec_feStep_of_commands {s u p : State} {bit : Bool} {code : BitVec 2} (hs : InSync s) (hcancel : s.cancel = [])
    (hu : exec .bdNextBit s = .next u) (hc : Completed u) (hbit : u.result = .u1 bit)
    (hp : exec (.frPushBit .driver bit) u = .next p) (hcode : p.result = .u2 code) :
    ∃ (w : State) (answer : ReaderResult), w.fe = s.fe ∧ w.cancel = [] ∧ u = w.returning (.u1 bit) ∧
      p = (w.pushed bit).returning (.u2 code) ∧ code = readerResultCode answer ∧
      ∀ t, onReaderResult answer (w.pushed bit) = .ok () t → t.cancel = [] →
        exec .feStep s = .next { t with progressSample := t.bd.currentSample, result := .none } := by
  obtain ⟨b, w, hb, rfl⟩ := nextBit_of_completed hs.ready hu hc
  obtain rfl : b = bit := Value.u1.inj hbit
  rw [exec_frPushBit ⟨hc.2, hc.1⟩] at hp
  obtain rfl := Host.Outcome.next.inj hp
  obtain rfl : readerResultCode (readerPush b w.fe.reader).2 = code := Value.u2.inj hcode
  exact ⟨w, _, (onlyReads_nextBit hb).fe, (nextBit_cancel hb).trans hcancel, rfl, rfl, rfl,
    fun t => exec_feStep_of_onReaderResult hs hb⟩

/-- Settles O53: each answer but FRAME_COMPLETE has its own update of the driver. -/
theorem inSyncStepWithinFrame : Obligations.InSyncStepWithinFrame := by
  intro s u p bit code hs hrun hstarted hsync hcancel hu hc hbit hp hcode hne
  obtain ⟨w, answer, hfe, hwcancel, rfl, rfl, rfl, hstep⟩ :=
    exec_feStep_of_commands ⟨hs, hrun, hstarted, hsync⟩ hcancel hu hc hbit hp hcode
  rw [← hfe]
  cases answer with
  | frameStart => exact hstep _ rfl hwcancel
  | needMoreBits => exact hstep _ rfl hwcancel
  | captureParity => exact hstep _ rfl hwcancel
  | frameComplete => exact absurd rfl hne

/-- FRAME_COMPLETE is the answer with code 3 (R95). -/
theorem readerResultCode_eq_three {answer : ReaderResult} (h : readerResultCode answer = 3) :
    answer = .frameComplete := by
  cases answer with
  | frameComplete => rfl
  | _ => exact absurd h (by decide)

/-! ## The end of a frame -/

/-- What a completed frame announces after its record (R276, R304). -/
def shapeEvents (v : CtrlWord) (sample : Sample) : List Event :=
  if cwShapeChange v = true then
    if (cwNewShape v).1 = 0 then [.invalidShape sample (cwRegData v)]
    else [.shapeChange sample (cwNewShape v).1 (cwNewShape v).2]
  else []

/-- ApplyShapeChange never stops, since a new shape with rows is legal (R222, R276). -/
theorem applyShapeChange_eq (v : CtrlWord) (s : State) :
    applyShapeChange v s = .ok () { s with
      fe := { s.fe with reader := reshaped v s.fe.reader }
      events := s.events ++ shapeEvents v s.bd.currentSample } := by
  unfold applyShapeChange reshaped shapeEvents
  by_cases hchange : cwShapeChange v = true
  · by_cases hrows : (cwNewShape v).1 = 0
    · simp only [hchange, hrows, if_true, ne_eq, not_true_eq_false, and_false, if_false]
      rfl
    · have hshape := (readerSetShape_eq_ok (r := s.fe.reader) (s := s)).2 ⟨legalShape_cwNewShape hrows, rfl, rfl⟩
      simp only [hchange, hrows, if_true, ne_eq, not_false_eq_true, and_self, if_false, hshape, Res.andThen_ok]
      rfl
  · simp only [hchange, Bool.false_eq_true, if_false, false_and, List.append_nil]

/-- An accepted frame (R274): the reader for the next frame, the history discarded, the start mark retaken. -/
def State.accepted (v : CtrlWord) (s : State) : State :=
  { s with
    hb := keptHistory s
    events := s.events ++ shapeEvents v s.bd.currentSample
    fe := { s.fe with
      reader := reshaped v s.fe.reader
      startMark := mark { s with hb := keptHistory s } } }

theorem acceptFrame_eq (v : CtrlWord) (s : State) : acceptFrame v s = .ok () (s.accepted v) := by
  rw [acceptFrame, applyShapeChange_eq, Res.andThen_ok]
  dsimp only
  rw [discardHistory_eq]
  rfl

/-! ## The conditions on a frame -/

theorem cwStaticSync_eq_iff (v : CtrlWord) : cwStaticSync v = staticSync ↔ v.toNat / 2 ^ 16 % 256 = 0xB1 :=
  extractLsb'_eq_iff_toNat v 16 8 0xB1

theorem cwDynamicSync_eq_ofNat (v : CtrlWord) : cwDynamicSync v = BitVec.ofNat 4 (v.toNat / 2 ^ 3) :=
  extractLsb'_eq_ofNat v 3 4

/-- SYNC_LOST (R301). -/
theorem syncLost_iff (expected : DSync) (v : CtrlWord) :
    syncLost expected v = true ↔ v.toNat / 2 ^ 16 % 256 ≠ 0xB1 ∨ v.toNat / 2 ^ 3 % 16 ≠ expected.toNat := by
  have hdynamic : cwDynamicSync v = expected ↔ v.toNat / 2 ^ 3 % 16 = expected.toNat :=
    extractLsb'_eq_iff_toNat v 3 4 expected
  simp only [ne_eq, ← hdynamic, ← cwStaticSync_eq_iff]
  simp [syncLost, staticSync]

/-- The flags of a later frame (R96, R302): PARITY_BAD where the captured parity is not PAR. -/
theorem frameFlags_eq (captured : Bool) (v : CtrlWord) (lost : Bool) :
    frameFlags (parityBad captured v) lost =
      if captured = decide (v.toNat / 2 ^ 2 % 2 = 1) then (if lost then 2 else 0) else (if lost then 3 else 1) := by
  rw [parityBad, cwPar, getLsbD_eq_decide]
  generalize decide (v.toNat / 2 ^ 2 % 2 = 1) = par
  revert captured par lost
  decide

/-! ## The three ends of a frame -/

/-- A later frame that loses sync (R274, R301): it is emitted, and no more. -/
theorem onFrameComplete_of_lost {s : State} (hlater : s.fe.firstFrame = false)
    (hlost : syncLost (dsyncNext s.fe.gen) s.fe.reader.cw.value = true) :
    onFrameComplete s = .ok ()
      { s with
        events := s.events ++
          [.frame (frameRecord (frameFlags (parityBad s.fe.actualParityIsOdd s.fe.reader.cw.value) true) s)]
        fe := { s.fe with
          gen := if cwStaticSync s.fe.reader.cw.value = staticSync then dsyncNext s.fe.gen else s.fe.gen
          inSync := false } } := by
  have hlost' : syncLost (if cwStaticSync s.fe.reader.cw.value = staticSync then dsyncNext s.fe.gen else s.fe.gen)
      s.fe.reader.cw.value = true := by
    split
    · exact hlost
    · rename_i hne
      exact (syncLost_iff _ _).2 (.inl (mt (cwStaticSync_eq_iff _).2 hne))
  rw [onFrameComplete, if_neg (by simp [hlater]), onLaterFrame]
  simp only [hlost', if_true]
  rfl

/-- A frame that is accepted (R274): the seed frame whatever its word says, or a later one in sync. Either way the
generator is left at the frame's own DynamicSync. -/
theorem onFrameComplete_of_accepted {s : State}
    (h : s.fe.firstFrame = true ∨ syncLost (dsyncNext s.fe.gen) s.fe.reader.cw.value = false) :
    onFrameComplete s = .ok () (State.accepted s.fe.reader.cw.value
      { s with
        events := s.events ++ [.frame (frameRecord (if s.fe.firstFrame then 0 else
          frameFlags (parityBad s.fe.actualParityIsOdd s.fe.reader.cw.value) false) s)]
        fe := { s.fe with gen := cwDynamicSync s.fe.reader.cw.value, firstFrame := false } }) := by
  cases hfirst : s.fe.firstFrame with
  | true =>
    rw [onFrameComplete, if_pos hfirst, onSeedFrame]
    exact acceptFrame_eq ..
  | false =>
    have hsync := h.resolve_left (by simp [hfirst])
    have hboth : cwStaticSync s.fe.reader.cw.value = staticSync ∧
        cwDynamicSync s.fe.reader.cw.value = dsyncNext s.fe.gen := by
      simpa [syncLost, staticSync] using hsync
    have hdriver : { s.fe with gen := dsyncNext s.fe.gen } =
        { s.fe with gen := dsyncNext s.fe.gen, firstFrame := false } := by rw [← hfirst]
    rw [onFrameComplete, if_neg (by simp [hfirst]), onLaterFrame]
    simp only [hboth.1, if_true, hsync, Bool.false_eq_true, if_false, acceptFrame_eq, hboth.2, hdriver]
    rfl

/-- All that the end of a frame can be (R274): the frame is emitted, and either accepted or, as a later one, the loss of
sync. -/
theorem onFrameComplete_cases (s : State) :
    ∃ (record : FrameRecord) (gen : DSync),
      onFrameComplete s = .ok () (State.accepted s.fe.reader.cw.value
        { s with
          events := s.events ++ [.frame record]
          fe := { s.fe with gen := gen, firstFrame := false } }) ∨
      s.fe.firstFrame = false ∧ onFrameComplete s = .ok ()
        { s with
          events := s.events ++ [.frame record]
          fe := { s.fe with gen := gen, inSync := false } } := by
  by_cases h : s.fe.firstFrame = true ∨ syncLost (dsyncNext s.fe.gen) s.fe.reader.cw.value = false
  · exact ⟨_, _, .inl (onFrameComplete_of_accepted h)⟩
  · obtain ⟨hlater, hlost⟩ := not_or.1 h
    have hlater' := Bool.eq_false_iff.2 hlater
    exact ⟨_, _, .inr ⟨hlater', onFrameComplete_of_lost hlater' (Bool.not_eq_false _ ▸ hlost)⟩⟩

/-! ## The steps that complete a frame -/

/-- Settles O56: the frame is emitted with its flags, and the driver goes out of sync. -/
theorem syncLostFrame : Obligations.SyncLostFrame := by
  intro s u p bit hs hrun hstarted hsync hlater hcancel hu hc hbit hp hcode v hlost
  obtain ⟨w, answer, hfe, hwcancel, rfl, rfl, hanswer, hstep⟩ :=
    exec_feStep_of_commands ⟨hs, hrun, hstarted, hsync⟩ hcancel hu hc hbit hp hcode
  obtain rfl : answer = .frameComplete := readerResultCode_eq_three hanswer.symm
  rw [← hfe] at hlater hlost ⊢
  have hframe := onFrameComplete_of_lost (s := w.pushed bit) hlater ((syncLost_iff _ _).2 hlost)
  rw [hstep _ hframe hwcancel]
  simp only [frameFlags_eq, cwStaticSync_eq_iff]
  rfl

/-- An FE.STEP that completes an accepted frame (R274, R276, R302, R304), in terms of the commands it is made of. -/
theorem exec_feStep_of_accepted {s u p : State} {bit : Bool} (hs : InSync s) (hcancel : s.cancel = [])
    (hu : exec .bdNextBit s = .next u) (hc : Completed u) (hbit : u.result = .u1 bit)
    (hp : exec (.frPushBit .driver bit) u = .next p) (hcode : p.result = .u2 3)
    (hsync : let v := p.fe.reader.cw.value.toNat
      s.fe.firstFrame = true ∨ v / 2 ^ 16 % 256 = 0xB1 ∧ v / 2 ^ 3 % 16 = (dsyncNext s.fe.gen).toNat) :
    let v := p.fe.reader.cw.value
    let flags : BitVec 2 :=
      if s.fe.firstFrame = true ∨ s.fe.actualParityIsOdd = decide (v.toNat / 2 ^ 2 % 2 = 1) then 0 else 1
    exec .feStep s = .next
      { p with
        hb := keptHistory u
        events := u.events ++ (.frame ⟨s.fe.fStart, u.bd.currentSample, v, flags⟩ ::
          shapeEvents v u.bd.currentSample)
        fe := { p.fe with
          reader := reshaped v p.fe.reader
          gen := BitVec.ofNat 4 (v.toNat / 2 ^ 3)
          firstFrame := false
          startMark := mark { u with hb := keptHistory u } }
        progressSample := u.bd.currentSample
        result := .none } := by
  obtain ⟨w, answer, hfe, hwcancel, rfl, rfl, hanswer, hstep⟩ := exec_feStep_of_commands hs hcancel hu hc hbit hp hcode
  obtain rfl : answer = .frameComplete := readerResultCode_eq_three hanswer.symm
  rw [← hfe] at hsync ⊢
  have hframe := onFrameComplete_of_accepted (s := w.pushed bit) (hsync.imp_right fun h => by
    rw [← Bool.not_eq_true, syncLost_iff]
    exact not_or.2 ⟨not_not.2 h.1, not_not.2 h.2⟩)
  have hflags : ∀ (first captured : Bool) (v : CtrlWord),
      (if first then 0 else frameFlags (parityBad captured v) false) =
        if first = true ∨ captured = decide (v.toNat / 2 ^ 2 % 2 = 1) then (0 : BitVec 2) else 1 := by
    intro first captured v
    rw [frameFlags_eq]
    cases first <;> simp
  rw [hstep _ hframe hwcancel]
  simp only [hflags, State.accepted, List.append_assoc, cwDynamicSync_eq_ofNat]
  rfl

/-- A frame that announces no shape change resets the reader. -/
theorem reshaped_of_no_change {v : CtrlWord} (h : cwShapeChange v = false) (r : FrameReader) (sample : Sample) :
    reshaped v r = ⟨r.rows, r.columns, 0, 0, ⟨0, (1 : BitVec 48) <<< 47⟩, .frameStart⟩ ∧
      shapeEvents v sample = [] := by
  unfold reshaped shapeEvents
  simp only [h, Bool.false_eq_true, false_and, if_false, and_true]
  rfl

/-- Settles O55: the seed frame is accepted, whatever its control word says. -/
theorem seedFrameEmittedUnchecked : Obligations.SeedFrameEmittedUnchecked := by
  intro s u p bit hs hrun hstarted hsync hfirst hcancel hu hc hbit hp hcode hchange hb'
  obtain ⟨hreader, hevents⟩ := reshaped_of_no_change hchange p.fe.reader u.bd.currentSample
  rw [exec_feStep_of_accepted ⟨hs, hrun, hstarted, hsync⟩ hcancel hu hc hbit hp hcode (.inl hfirst), hreader, hevents,
    if_pos (.inl hfirst)]
  rfl

/-- Settles O57: a later frame in sync is accepted, and the generator's next value is its DynamicSync. -/
theorem parityBadFrameKeepsSync : Obligations.ParityBadFrameKeepsSync := by
  intro s u p bit hs hrun hstarted hsync hlater hcancel hu hc hbit hp hcode hchange v hb' hgood
  obtain ⟨hreader, hevents⟩ := reshaped_of_no_change hchange p.fe.reader u.bd.currentSample
  have hgen : BitVec.ofNat 4 (p.fe.reader.cw.value.toNat / 2 ^ 3) = dsyncNext s.fe.gen :=
    BitVec.eq_of_toNat_eq ((BitVec.toNat_ofNat ..).trans hgood.2)
  have hfirst : p.fe.firstFrame = false := by
    obtain ⟨w, -, hfe, -, -, rfl, -⟩ :=
      exec_feStep_of_commands ⟨hs, hrun, hstarted, hsync⟩ hcancel hu hc hbit hp hcode
    exact (congrArg Driver.firstFrame hfe).trans hlater
  rw [exec_feStep_of_accepted ⟨hs, hrun, hstarted, hsync⟩ hcancel hu hc hbit hp hcode (.inr hgood), hreader, hevents,
    hgen]
  simp only [hlater, hfirst, Bool.false_eq_true, false_or]
  rfl

/-- Settles O58: either frame is accepted, and its new shape is legal unless it has no rows. -/
theorem shapeChangeAppliedAfterFrame : Obligations.ShapeChangeAppliedAfterFrame := by
  intro s u p bit hs hrun hstarted hsync hcancel hu hc hbit hp hcode hchange v hgood flags frame rows columns hb' word0
  have hevents : .frame frame :: shapeEvents p.fe.reader.cw.value u.bd.currentSample =
      if rows = 0 then [.frame frame, .invalidShape u.bd.currentSample (cwRegData p.fe.reader.cw.value)]
      else [.frame frame, .shapeChange u.bd.currentSample rows columns] := by
    rw [shapeEvents, if_pos hchange]
    exact apply_ite (Event.frame frame :: ·) ..
  have hreader : reshaped p.fe.reader.cw.value p.fe.reader =
      if rows = 0 then ⟨p.fe.reader.rows, p.fe.reader.columns, 0, 0, word0, .frameStart⟩
      else ⟨rows, columns, 0, 0, word0, .frameStart⟩ := by
    simp only [reshaped, hchange, true_and]
    exact ite_not ..
  rw [exec_feStep_of_accepted ⟨hs, hrun, hstarted, hsync⟩ hcancel hu hc hbit hp hcode hgood, ← hevents, ← hreader]
  rfl

/-! ## The driver's commands complete -/

/-- One bit is there for a command at the live tail with an edge and room (R82, R312). -/
theorem nextBit_of_roomFor {s : State} {e : Edge} {rest : List Edge} (hi : s.bd.nextHistoryReadIndex = .sentinel)
    (he : s.edges = e :: rest) (hroom : RoomFor 1 s) :
    nextBit s = some (.ok (e.level != s.bd.lastLevel) (s.afterEdge e)) :=
  nextBit_of_edge hi he (RoomFor.afterEdge (n := 0) hroom e).1

/-- The driver is never stopped by the reader's answer (R271), and takes no edge and no poll on it. -/
theorem exists_onReaderResult (answer : ReaderResult) (s : State) :
    ∃ t, onReaderResult answer s = .ok () t ∧ t.status = s.status ∧ t.task = s.task ∧ t.cancel = s.cancel ∧
      t.edges = s.edges ∧ t.edgesTaken = s.edgesTaken ∧ t.bd.currentSample = s.bd.currentSample := by
  cases answer with
  | frameStart | needMoreBits | captureParity => exact ⟨_, rfl, rfl, rfl, rfl, rfl, rfl, rfl⟩
  | frameComplete =>
    rw [onReaderResult_frameComplete]
    obtain ⟨record, gen, h | ⟨-, h⟩⟩ := onFrameComplete_cases s
    all_goals exact ⟨_, h, rfl, rfl, rfl, rfl, rfl, rfl⟩

/-- Settles O54: the edge is the bit both commands need, and the driver never stops on a bit. -/
theorem driverCommandsComplete : Obligations.DriverCommandsComplete := by
  intro s e rest hs hi he hroom
  refine ⟨fun hidle => ?start, fun hrun hstarted hsync hcancel => ?step⟩
  case start =>
    have hb := nextBit_of_roomFor (s := { s with status := .running }) hi he hroom
    refine ⟨_, exec_feStart_of_ok hs hidle hb, ?_⟩
    rw [feStartRest_eq]
    simp [Completed, keptHistory, mark, hi, he, hs.2, statusEnded, History.size]
  case step =>
    obtain ⟨t, ht, hstatus, htask, htcancel, hedges, htaken, hsample⟩ :=
      exists_onReaderResult (readerPush (e.level != s.bd.lastLevel) (s.afterEdge e).fe.reader).2
        ((s.afterEdge e).pushed (e.level != s.bd.lastLevel))
    have hb := nextBit_of_roomFor hi he hroom
    refine ⟨_, exec_feStep_of_onReaderResult ⟨hs, hrun, hstarted, hsync⟩ hb ht
      (htcancel.trans ((nextBit_cancel hb).trans hcancel)), ?_⟩
    simp [State.pushed, Completed, hstatus, htask, hedges, htaken, hsample, hs.2, hrun, he, statusEnded]

end Sys2Proof.Machine
end

section
/-! PROOFS. The driver's resync (R275): out of sync, an FE.STEP is BD.RESTORE of the start mark and then the search of
SF.FIND_SYNC, part by part, up to the shape it finds; what it does with that shape is its own. -/

namespace Sys2Proof.Machine

open Sys2Proof

/-! ## The same search for another finder -/

/-- The command in progress of SF.FIND_SYNC, and the one of a resync that stands where it does. -/
inductive SameTask : Task → Task → Prop
  | scan (w : Scan) (n : Nat) : SameTask (.scan .command w n) (.scan .driver w n)
  | advance (w : Scan) (n : Nat) : SameTask (.advance .command w n) (.advance .driver w n)
  | align (w : Scan) (rows : Rows) (columns : Columns) (left n : Nat) :
    SameTask (.align (.search .command w) rows columns left n) (.align (.search .driver w) rows columns left n)
  | check (w : Scan) (c : Check) (n : Nat) : SameTask (.check (.search .command w) c n) (.check (.search .driver w) c n)

theorem SameTask.taskOk {t t' : Task} (h : SameTask t t') (ht : TaskOk t) : TaskOk t' := by
  cases h <;> exact ht

/-- A search issued in `s₀` has got to `s`: the driver and the result port are as they were, and the cancel input is at
0. -/
structure SearchedTo (s₀ s : State) : Prop where
  fe : s.fe = s₀.fe
  cancel : s.cancel = []
  result : s.result = s₀.result

/-- A part of a search of SF.FIND_SYNC issued in `s₀`, and the same part of a resync, which has `r` at its result port:
both go on, or the first is done with the shape with which the second ends its FE.STEP. -/
inductive FindsAlike (s₀ : State) (r : Value) : Res Progress → Res Progress → Prop
  | stop {s : State} {p : Res Progress} (hs : s.result = s₀.result) : FindsAlike s₀ r (.stop s) p
  | more {t t' : Task} {s : State} (hs : SearchedTo s₀ s) (ht : SameTask t t') :
    FindsAlike s₀ r (.ok (.more t) s) (.ok (.more t') (s.returning r))
  | found {rows : Rows} {columns : Columns} {s : State} (hs : SearchedTo s₀ s) :
    FindsAlike s₀ r (.ok (.done (.shape rows columns)) s) (feResyncRest rows columns (s.returning r))

/-- A restore in front of both parts (R142). -/
theorem FindsAlike.restore {s₀ s : State} {r : Value} (h : SearchedTo s₀ s) (m : Mark)
    {k k' : Unit → State → Res Progress}
    (hk : FindsAlike s₀ r (k () (restoreRegs m s)) (k' () ((restoreRegs m s).returning r))) :
    FindsAlike s₀ r ((restore m s).andThen k) ((Machine.restore m (s.returning r)).andThen k') := by
  cases hr : Machine.restore m s with
  | ok a u =>
    obtain ⟨he, hi, rfl⟩ := restore_eq_ok.1 hr
    rw [restore_of_usable (s := s.returning r) he hi]
    exact hk
  | stop u => rcases restore_eq_stop.1 hr with ⟨-, rfl⟩ | ⟨-, -, rfl⟩ <;> exact .stop h.result

section

variable {s₀ s : State} {r : Value} (h : SearchedTo s₀ s) (w : Scan) (n : Nat)

include h

theorem findsAlike_startAlign (rows : Rows) (columns : Columns) (left : Nat) :
    FindsAlike s₀ r (startAlign (.search .command w) rows columns left n s)
      (startAlign (.search .driver w) rows columns left n (s.returning r)) := by
  unfold startAlign
  split
  · cases hl : legalShape rows columns with
    | true =>
      rw [startCheck_legal hl, startCheck_legal hl]
      exact .more h (.check ..)
    | false =>
      rw [startCheck_illegal hl]
      exact .stop h.result
  · exact .more h (.align ..)

theorem findsAlike_startTest (rows : Rows) (columns : Columns) (offset : Nat) (start matched : Mark) :
    FindsAlike s₀ r (startTest (.search .command w) rows columns offset start matched n s)
      (startTest (.search .driver w) rows columns offset start matched n (s.returning r)) := by
  unfold startTest
  split
  · refine .restore h matched ?_
    dsimp only
    split
    · exact .restore (s := restoreRegs matched s) { h with } start
        (findsAlike_startAlign (s := restoreRegs start _) { h with } ..)
    · exact findsAlike_startAlign (s := restoreRegs matched s) { h with } ..
  · exact .stop h.result

theorem findsAlike_startColumn (c : Columns) (rest : List Columns) :
    FindsAlike s₀ r (startColumn .command w c rest n s) (startColumn .driver w c rest n (s.returning r)) := by
  refine .restore h w.startMark ?_
  unfold matcherInit
  split
  · exact .more (s := restoreRegs _ s) { h with } (.scan ..)
  · exact .stop h.result

theorem findsAlike_startWindow :
    FindsAlike s₀ r (startWindow .command w n s) (startWindow .driver w n (s.returning r)) := by
  rw [startWindow_eq, startWindow_eq]
  cases hcand : columnCandidates w.columnsHint with
  | nil => exact absurd hcand (columnCandidates_ne_nil _)
  | cons c rest => exact findsAlike_startColumn h ..

theorem searchedTo_discardHistory : SearchedTo s₀ (discardHistory s) := by
  rw [discardHistory_eq]
  exact { h with }

theorem findsAlike_advanceWindow :
    FindsAlike s₀ r (advanceWindow .command w n s) (advanceWindow .driver w n (s.returning r)) := by
  have hr : (s.returning r).bd.nextHistoryReadIndex = s.bd.nextHistoryReadIndex := rfl
  unfold advanceWindow
  rw [hr]
  cases s.bd.nextHistoryReadIndex with
  | entry i => exact .more h (.advance ..)
  | sentinel =>
    dsimp only
    rw [discardHistory_returning]
    exact findsAlike_startWindow (searchedTo_discardHistory h) ..

theorem findsAlike_continueScan :
    FindsAlike s₀ r (continueScan .command w n s) (continueScan .driver w n (s.returning r)) := by
  unfold continueScan
  split
  · exact .more h (.scan ..)
  · rw [endColumn_eq h.cancel, endColumn_eq (s := s.returning r) h.cancel]
    cases w.columnsLeft with
    | nil => exact findsAlike_advanceWindow h ..
    | cons c rest => exact findsAlike_startColumn h ..

theorem findsAlike_tryRows (rows : List Rows) :
    FindsAlike s₀ r (tryRows .command w rows n s) (tryRows .driver w rows n (s.returning r)) := by
  cases rows with
  | nil => exact findsAlike_continueScan h ..
  | cons row rest => exact findsAlike_startTest h ..

theorem findsAlike_scanBit (b : Bool) :
    FindsAlike s₀ r (scanBit .command w n b s) (scanBit .driver w n b (s.returning r)) := by
  rw [scanBit_eq, scanBit_eq]
  split
  · exact findsAlike_tryRows h ..
  · exact findsAlike_continueScan h ..

/-- The answer of a check: the shape found, or the next row candidate (R241). -/
theorem findsAlike_finishCheck (entry : Mark) (answer : Nat) :
    FindsAlike s₀ r (finishCheck (.search .command w) entry answer n s)
      (finishCheck (.search .driver w) entry answer n (s.returning r)) := by
  refine .restore h entry ?_
  dsimp only
  split
  · exact .found (s := { restoreRegs entry s with sf := ⟨w.row, w.matcher.columns⟩ }) { h with }
  · exact .restore (s := restoreRegs entry s) { h with } w.matchMark
      (findsAlike_tryRows (s := restoreRegs _ (restoreRegs _ s)) { h with } ..)

theorem findsAlike_checkBit (c : Check) (b : Bool) :
    FindsAlike s₀ r (checkBit (.search .command w) c n b s) (checkBit (.search .driver w) c n b (s.returning r)) := by
  rw [checkBit_of_cancel h.cancel, checkBit_of_cancel (s := s.returning r) h.cancel]
  rcases hon : c.onBit b s with ⟨answer, t⟩
  have hon' : c.onBit b (s.returning r) = (answer, t.returning r) := by
    have hports := Check.onBit_withPorts hon s.cancel r
    have ht : t.withPorts s.cancel r = t.returning r := by rw [← (Check.onBit_onlyReads hon).2]; rfl
    rw [ht] at hports
    exact hports
  have ht : SearchedTo s₀ t := by rcases Check.onBit_state hon with rfl | rfl <;> exact { h with }
  rw [hon']
  cases answer with
  | inl c' => exact .more ht (.check ..)
  | inr answer => exact findsAlike_finishCheck ht ..

end

/-- Every bit leads both searches on alike. -/
theorem SameTask.findsAlike_onBit {s₀ s : State} {r : Value} {t t' : Task} (ht : SameTask t t') (h : SearchedTo s₀ s)
    (b : Bool) : FindsAlike s₀ r (onBit t b s) (onBit t' b (s.returning r)) := by
  have hcount : ∀ n, countBit n (s.returning r) = .ok (n + 1) (s.returning r) := fun n => countBit_of_cancel h.cancel
  cases ht
  all_goals simp only [onBit, countBit_of_cancel h.cancel, hcount, Res.andThen_ok]
  case scan => exact findsAlike_scanBit h ..
  case advance => exact findsAlike_advanceWindow h ..
  case align => exact findsAlike_startAlign h ..
  case check => exact findsAlike_checkBit h ..

/-! ## The resync whole -/

/-- `t` is where a search of SF.FIND_SYNC issued in `s₀` completed with a shape. -/
structure Found (s₀ : State) (rows : Rows) (columns : Columns) (t : State) : Prop where
  completed : Completed t
  result : t.result = .shape rows columns
  issued : s₀.result = .none

theorem Found.result_ne {s₀ t : State} {rows : Rows} {columns : Columns} (h : Found s₀ rows columns t) :
    t.result ≠ s₀.result := by
  rw [h.result, h.issued]
  exact nofun

/-- Where SF.FIND_SYNC goes on from `p` to a shape, the resync goes on from `p'` to the end of its FE.STEP with it. -/
def EndsWith (s₀ : State) (r : Value) (rows : Rows) (columns : Columns) (p p' : Res Progress) : Prop :=
  Found s₀ rows columns (settle p) →
    SearchedTo s₀ ((settle p).returning s₀.result) ∧
      settle p' = settle (feResyncRest rows columns ((settle p).returning r))

section

variable {s₀ : State} {r : Value} {rows : Rows} {columns : Columns}

/-- Two parts that go on alike end so if the commands in progress they lead to do. -/
theorem FindsAlike.endsWith {p p' : Res Progress} (h : FindsAlike s₀ r p p')
    (hmore : ∀ t t' s, p = .ok (.more t) s → SearchedTo s₀ s → SameTask t t' →
      EndsWith s₀ r rows columns (.ok (.more t) s) (.ok (.more t') (s.returning r))) :
    EndsWith s₀ r rows columns p p' := by
  cases h with
  | stop hs => exact fun hp => absurd hs hp.result_ne
  | more hs ht => exact hmore _ _ _ rfl hs ht
  | found hs =>
    intro hp
    obtain ⟨rfl, rfl⟩ := Value.shape.inj hp.result
    exact ⟨⟨hs.fe, hs.cancel, rfl⟩, rfl⟩

/-- The commands in progress end so, bit after bit. -/
theorem SameTask.endsWith {t : Task} {s : State} (hok : TaskOk t) (hs : SearchedTo s₀ s) {t' : Task}
    (ht : SameTask t t') : EndsWith s₀ r rows columns (.ok (.more t) s) (.ok (.more t') (s.returning r)) := by
  refine task_induction (P := fun t s => SearchedTo s₀ s → ∀ t', SameTask t t' →
    EndsWith s₀ r rows columns (.ok (.more t) s) (.ok (.more t') (s.returning r))) ?_ hok s hs t' ht
  intro t s hok ih hs t' ht hp
  rcases hb : nextBit s with _ | ⟨b, u⟩ | u
  · rw [settle_more_of_none hok hb] at hp
    cases hp.completed.1
  · have hread := onlyReads_nextBit hb
    have hu : SearchedTo s₀ u :=
      ⟨hread.fe.trans hs.fe, (nextBit_cancel hb).trans hs.cancel, hread.result.trans hs.result⟩
    rw [settle_more_of_nextBit hok hb] at hp ⊢
    rw [settle_more_of_nextBit (ht.taskOk hok) (nextBit_returning hb r)]
    exact (ht.findsAlike_onBit hu b).endsWith (fun t₁ t₁' s₁ hon hs₁ ht₁ => ih _ t₁ s₁ hb hon hs₁ t₁' ht₁) hp
  · rw [settle_more_of_stop hok hb] at hp
    have hkeeps : Untouched s u := keeps_nextBit hb
    exact absurd (hkeeps.result.trans hs.result) hp.result_ne

end

/-- An FE.STEP out of sync is a resync (R275). -/
theorem exec_feStep_outOfSync {s : State} (hs : Ready s) (hrun : s.status = .running) (hstarted : s.fe.started = true)
    (hsync : s.fe.inSync = false) : exec .feStep s = .next (settle (startResync s)) := by
  have hexec : exec .feStep s = execFeStep s := rfl
  rw [hexec, execFeStep, issue_ready hs.1 hs.2, if_neg (by simp [hrun, hstarted]), if_neg (by simp [hsync])]

/-- What a resync does with the shape it found, up to the end of its FE.STEP (R275). -/
theorem feResyncRest_of_legal {rows : Rows} {columns : Columns} (hl : legalShape rows columns = true) (s : State) :
    feResyncRest rows columns s = feStepEnd
      { s with
        events := s.events ++ [.shapeChange s.bd.currentSample rows columns]
        hb := keptHistory s
        fe := { s.fe with reader := readerShaped rows columns s.fe.reader, inSync := true, firstFrame := true } } := by
  have hshape := (readerSetShape_eq_ok (r := s.fe.reader)
    (s := emit (.shapeChange s.bd.currentSample rows columns) s)).2 ⟨hl, rfl, rfl⟩
  rw [feResyncRest]
  dsimp only [emit_fe]
  rw [hshape, Res.andThen_ok, discardHistory_eq]
  rfl

/-- Settles O59: the resync searches as the command does, from the same mark, and ends with the shape the command
returned. -/
theorem resyncFindsAndAnnounces : Obligations.ResyncFindsAndAnnounces := by
  intro s v c rows columns hs hrun hstarted hsync hcancel hv hvc hfind hc hresult hl
  obtain ⟨hrestore, rfl⟩ := restore_of_completed hs hv hvc
  rw [exec_sfFindSync (s := (restoreRegs s.fe.startMark s).returning .none) hs] at hfind
  have hcommand := Host.Outcome.next.inj hfind
  have halike : FindsAlike ((restoreRegs s.fe.startMark s).returning .none) s.result
      (startFind .command s.cfg.hintRows s.cfg.hintColumns ((restoreRegs s.fe.startMark s).returning .none))
      (startFind .driver s.cfg.hintRows s.cfg.hintColumns (restoreRegs s.fe.startMark s)) :=
    findsAlike_startWindow (s := (restoreRegs s.fe.startMark s).returning .none) ⟨rfl, hcancel, rfl⟩ ..
  have hend : EndsWith _ _ rows columns _ _ :=
    halike.endsWith fun t t' u hmore hu ht => ht.endsWith (taskOk_startFind hmore) hu
  rw [EndsWith, hcommand] at hend
  obtain ⟨⟨hfe, hcancel', -⟩, hresync⟩ := hend ⟨hc, hresult, rfl⟩
  have hfe' : s.fe = c.fe := hfe.symm
  rw [exec_feStep_outOfSync hs hrun hstarted hsync, startResync, hrestore, Res.andThen_ok, restoreRegs_cfg,
    hresync, feResyncRest_of_legal hl, feStepEnd_of_cancel (by exact hcancel'), settle_done, hfe']
  rfl

end Sys2Proof.Machine
end

section
/-! PROOFS. The block's own sequence (R334, log entry 6) from creation: FE.START, and then FE.STEP after FE.STEP.
Between two steps, and between two bits of a step, every mark that is still to be restored is usable, whole chains are
pending, and the hints are legal; so no restore, no chain read and no shape faults, and what stops the run is a poll or
HISTORY_OVERFLOW. -/

namespace Sys2Proof.Machine

open Sys2Proof

/-! ## Where the run stands -/

/-- The ends that the run may come to: cancellation (R305), or HISTORY_OVERFLOW (R312). -/
abbrev EndedWell (s : State) : Prop := s.status = .halted ∨ s.status = .faulted .historyOverflow

/-- A block that runs its own sequence, at any point of it from its priming bit on. -/
structure Running (s : State) : Prop where
  running : s.status = .running
  task : s.task = none
  commands : s.commands = []
  hints : legalConfiguration s.cfg = true
  pending : PendingWhole s

/-- The same after FE.START. -/
structure Started (s : State) : Prop extends Running s where
  started : s.fe.started = true

/-- The same between two commands. A resync may leave a stale start mark (R275), which no rule reads before the seed
frame retakes it (R274). -/
structure AtRest (s : State) : Prop extends Started s where
  startMark : s.fe.inSync = true ∧ s.fe.firstFrame = true ∨ MarkUsable s.fe.startMark s

/-- A search on a row candidate that cannot fault, whatever its check answers. -/
structure Trying (s : State) (w : Scan) : Prop extends SoundMatch s w where
  row : w.row ∈ rowSet

theorem Trying.of_marks {s t : State} {w : Scan} (h : Trying s w) (ht : ∀ m, MarkUsable m s → MarkUsable m t) :
    Trying t w := ⟨h.toSoundMatch.of_marks ht, h.row⟩

/-- A resync in progress that cannot fault. -/
inductive ResyncTask (s : State) : Task → Prop
  | scan {w : Scan} {n : Nat} (hw : SoundScan s w) : ResyncTask s (.scan .driver w n)
  | advance {w : Scan} {n : Nat} (hw : SameHints w w) : ResyncTask s (.advance .driver w n)
  | align {w : Scan} {rows : Rows} {columns : Columns} {left n : Nat} (hl : legalShape rows columns = true)
    (hw : Trying s w) : ResyncTask s (.align (.search .driver w) rows columns left n)
  | check {w : Scan} {c : Check} {n : Nat} (hw : Trying s w) (he : MarkUsable c.entryMark s) :
    ResyncTask s (.check (.search .driver w) c n)

theorem ResyncTask.of_marks {s u : State} {t : Task} (h : ResyncTask s t) (hu : ∀ m, MarkUsable m s → MarkUsable m u) :
    ResyncTask u t := by
  cases h with
  | scan hw => exact .scan (hw.of_marks hu)
  | advance hw => exact .advance hw
  | align hl hw => exact .align hl (hw.of_marks hu)
  | check hw he => exact .check (hw.of_marks hu) (hu _ he)

/-- A command of the sequence in progress. -/
inductive InProgress (s : State) : Task → Prop
  | feStart (h : Running s) : InProgress s .feStart
  | feBit (h : AtRest s) : InProgress s .feBit
  | resync {t : Task} (h : Started s) (ht : ResyncTask s t) : InProgress s t

theorem InProgress.toRunning {s : State} {t : Task} (h : InProgress s t) : Running s := by
  cases h with
  | feStart h => exact h
  | feBit h => exact h.toRunning
  | resync h _ => exact h.toRunning

/-- What a part of an FE.STEP ends in: a resync in progress, a step that is done, or one of the two ends. -/
def GoesOn : Res Progress → Prop
  | .ok (.more t) s => Started s ∧ ResyncTask s t
  | .ok (.done _) s => AtRest s
  | .stop s => EndedWell s

/-! ## The operations under a part of a step -/

theorem GoesOn.poll {s : State} {k : Unit → State → Res Progress} (hk : ∀ c, GoesOn (k () { s with cancel := c })) :
    GoesOn ((poll s).andThen k) := by
  cases hp : Machine.poll s with
  | ok a u =>
    obtain ⟨-, rfl⟩ := poll_eq_ok.1 hp
    exact hk _
  | stop u =>
    obtain ⟨-, rfl⟩ := poll_eq_stop.1 hp
    exact .inl rfl

theorem GoesOn.countBit {s : State} {count : Nat} {k : Nat → State → Res Progress}
    (hk : ∀ n c, GoesOn (k n { s with cancel := c })) : GoesOn ((countBit count s).andThen k) := by
  unfold Machine.countBit
  split
  · rw [Res.andThen_assoc]
    exact .poll (hk _)
  · exact hk _ s.cancel

theorem GoesOn.restore {s : State} {m : Mark} {k : Unit → State → Res Progress} (hm : MarkUsable m s)
    (hk : GoesOn (k () (restoreRegs m s))) : GoesOn ((restore m s).andThen k) := by
  rw [hm.restore]
  exact hk

theorem Started.withCancel {s : State} (h : Started s) (c : List Bool) : Started { s with cancel := c } := { h with }

theorem Started.restored {s : State} {m : Mark} (h : Started s) (hm : MarkUsable m s) : Started (restoreRegs m s) :=
  { h with pending := pendingWhole_restoreRegs hm }

/-- A discard leaves nothing pending, or what was pending (R140). -/
theorem PendingWhole.kept {s : State} (h : PendingWhole s) : PendingWhole { s with hb := keptHistory s } := by
  cases hi : s.bd.nextHistoryReadIndex with
  | sentinel => exact pendingWhole_of_sentinel hi
  | entry i =>
    have hkept : keptHistory s = s.hb := if_neg (by simp [hi])
    rw [hkept]
    exact h

theorem Started.discarded {s : State} (h : Started s) : Started (discardHistory s) := by
  rw [discardHistory_eq]
  exact { h with pending := h.pending.kept }

/-! ## The driver in sync -/

theorem goesOn_feStepEnd {s : State} (h : AtRest s) : GoesOn (feStepEnd s) :=
  GoesOn.poll (s := { s with progressSample := s.bd.currentSample }) fun _ => { h with }

/-- An accepted frame retakes the start mark (R274). -/
theorem atRest_accepted {s : State} (h : Started s) (v : CtrlWord) : AtRest (s.accepted v) :=
  { h with
    pending := h.pending.kept
    startMark := .inr (markUsable_mark (s := { s with hb := keptHistory s }) h.pending.kept) }

/-- The reader's answer leaves a driver that goes on (R271 to R274). -/
theorem AtRest.exists_onReaderResult {s : State} (h : AtRest s) (answer : ReaderResult) :
    ∃ t, onReaderResult answer s = .ok () t ∧ AtRest t := by
  cases answer with
  | frameStart | needMoreBits | captureParity => exact ⟨_, rfl, { h with }⟩
  | frameComplete =>
    rw [onReaderResult_frameComplete]
    obtain ⟨record, gen, hframe | ⟨hlater, hframe⟩⟩ := onFrameComplete_cases s
    · refine ⟨_, hframe, atRest_accepted ?_ _⟩
      exact { h with }
    · have hmark := h.startMark.resolve_left fun hseed => Bool.eq_false_iff.1 hlater hseed.2
      exact ⟨_, hframe, { h with startMark := .inr hmark }⟩

theorem goesOn_feBitRest {s : State} (h : AtRest s) (b : Bool) : GoesOn (feBitRest b s) := by
  have hpushed : AtRest (s.pushed b) := { h with }
  obtain ⟨t, ht, hrest⟩ := hpushed.exists_onReaderResult (readerPush b s.fe.reader).2
  rw [feBitRest_eq, ht]
  exact goesOn_feStepEnd hrest

/-! ## The resync -/

section

variable {s : State} (h : Started s)

include h

theorem goesOn_feResyncRest {rows : Rows} {columns : Columns} (hl : legalShape rows columns = true) :
    GoesOn (feResyncRest rows columns s) := by
  rw [feResyncRest_of_legal hl]
  exact goesOn_feStepEnd { h with pending := h.pending.kept, startMark := .inl ⟨rfl, rfl⟩ }

theorem goesOn_startAlign {w : Scan} (hw : Trying s w) {rows : Rows} {columns : Columns}
    (hl : legalShape rows columns = true) (left n : Nat) :
    GoesOn (startAlign (.search .driver w) rows columns left n s) := by
  unfold startAlign
  split
  · rw [startCheck_legal hl]
    exact ⟨h, .check hw (markUsable_mark h.pending)⟩
  · exact ⟨h, .align hl hw⟩

theorem goesOn_startTest {w : Scan} (hw : Trying s w) {rows : Rows} {columns : Columns}
    (hl : legalShape rows columns = true) {start matched : Mark} (hstart : MarkUsable start s)
    (hmatched : MarkUsable matched s) (offset n : Nat) :
    GoesOn (startTest (.search .driver w) rows columns offset start matched n s) := by
  unfold startTest
  rw [if_pos hl]
  refine .restore hmatched ?_
  dsimp only
  split
  · exact .restore (s := restoreRegs matched s) hstart
      (goesOn_startAlign ((h.restored hmatched).restored (m := start) hstart) (hw.of_marks fun _ => id) hl ..)
  · exact goesOn_startAlign (h.restored hmatched) (hw.of_marks fun _ => id) hl ..

theorem goesOn_startColumn {w : Scan} (hints : SameHints w w) (hstart : MarkUsable w.startMark s) {c : Columns}
    (hc : c ∈ columnSet) {rest : List Columns} (hrest : ∀ c ∈ rest, c ∈ columnSet) (n : Nat) :
    GoesOn (startColumn .driver w c rest n s) := by
  refine .restore hstart ?_
  rw [matcherInit, if_pos (List.contains_iff_mem.2 hc), Res.andThen_ok]
  exact ⟨h.restored hstart, .scan ⟨hints.legalRows, hints.legalColumns, hc, hrest, hstart⟩⟩

theorem goesOn_startWindow {w : Scan} (hints : SameHints w w) (n : Nat) : GoesOn (startWindow .driver w n s) := by
  have hlegal := columnCandidates_legal hints.legalColumns
  rw [startWindow_eq]
  cases hcand : columnCandidates w.columnsHint with
  | nil => exact absurd hcand (columnCandidates_ne_nil _)
  | cons c rest =>
    rw [hcand] at hlegal
    obtain ⟨hc, hrest⟩ := List.forall_mem_cons.1 hlegal
    exact goesOn_startColumn (w := { w with startMark := mark s }) h ⟨rfl, rfl, hints.legalRows, hints.legalColumns⟩
      (markUsable_mark h.pending) hc hrest n

theorem goesOn_advanceWindow {w : Scan} (hints : SameHints w w) (n : Nat) : GoesOn (advanceWindow .driver w n s) := by
  unfold advanceWindow
  cases s.bd.nextHistoryReadIndex with
  | entry i => exact ⟨h, .advance hints⟩
  | sentinel => exact goesOn_startWindow h.discarded hints n

theorem goesOn_continueScan {w : Scan} (hw : SoundScan s w) (n : Nat) : GoesOn (continueScan .driver w n s) := by
  have hints : SameHints w w := ⟨rfl, rfl, hw.rowsHint, hw.columnsHint⟩
  unfold continueScan
  split
  · exact ⟨h, .scan hw⟩
  · refine .poll fun c => ?_
    have hlegal := hw.columnsLeft
    cases hleft : w.columnsLeft with
    | nil => exact goesOn_advanceWindow (h.withCancel c) hints n
    | cons column rest =>
      rw [hleft] at hlegal
      obtain ⟨hc, hrest⟩ := List.forall_mem_cons.1 hlegal
      exact goesOn_startColumn (h.withCancel c) hints hw.start hc hrest n

theorem goesOn_tryRows {w : Scan} (hw : SoundScan s w) (hmatched : MarkUsable w.matchMark s) {rows : List Rows}
    (hrows : ∀ r ∈ rows, r ∈ rowSet) (n : Nat) : GoesOn (tryRows .driver w rows n s) := by
  cases rows with
  | nil => exact goesOn_continueScan h hw n
  | cons row rest =>
    obtain ⟨hrow, hrest⟩ := List.forall_mem_cons.1 hrows
    rw [tryRows_cons]
    have hw' : Trying s (w.trying row rest) := { hw with rowsLeft := hrest, matched := hmatched, row := hrow }
    exact goesOn_startTest h hw' (legalShape_iff.2 ⟨hrow, hw.columns⟩) hw.start hmatched _ n

theorem goesOn_scanBit {w : Scan} (hw : SoundScan s w) (n : Nat) (b : Bool) : GoesOn (scanBit .driver w n b s) := by
  rw [scanBit_eq]
  split
  · exact goesOn_tryRows (w := (w.pushed b).matchedAt (mark s)) h { hw with } (markUsable_mark h.pending)
      (rowCandidates_legal hw.rowsHint) n
  · exact goesOn_continueScan (w := w.pushed b) h { hw with } n

/-- The answer of a check: the shape found, or the next row candidate (R241). -/
theorem goesOn_finishCheck {w : Scan} (hw : Trying s w) {entry : Mark} (he : MarkUsable entry s) (answer n : Nat) :
    GoesOn (finishCheck (.search .driver w) entry answer n s) := by
  have h' := h.restored he
  refine .restore he ?_
  dsimp only
  split
  · exact goesOn_feResyncRest (s := { restoreRegs entry s with sf := ⟨w.row, w.matcher.columns⟩ }) { h' with }
      (legalShape_iff.2 ⟨hw.row, hw.columns⟩)
  · exact .restore (s := restoreRegs entry s) hw.matched
      (goesOn_tryRows (h'.restored (m := w.matchMark) hw.matched) (hw.toSoundScan.of_marks fun _ => id) hw.matched
        hw.rowsLeft n)

theorem goesOn_checkBit {w : Scan} (hw : Trying s w) {c : Check} (he : MarkUsable c.entryMark s) (n : Nat) (b : Bool) :
    GoesOn (checkBit (.search .driver w) c n b s) := by
  unfold checkBit
  dsimp only
  split
  · exact ⟨{ h with }, .check (hw.of_marks fun _ => id) he⟩
  · refine .poll fun k => ?_
    rw [frameRead_eq]
    generalize hc : ({ c with reader := (readerPush b c.reader).1 } : Check) = c₁
    have he₁ : c₁.entryMark = c.entryMark := by rw [← hc]
    rw [← he₁] at he
    rcases hverdict : c₁.verdict with c' | answer
    · rw [← Check.verdict_entryMark hverdict] at he
      exact ⟨h.withCancel k, .check (hw.of_marks fun _ => id) he⟩
    · exact goesOn_finishCheck (h.withCancel k) (hw.of_marks fun _ => id) he answer n
  all_goals exact ⟨h, .check hw he⟩

theorem goesOn_startResync (hmark : MarkUsable s.fe.startMark s) : GoesOn (startResync s) := by
  obtain ⟨hrows, hcolumns⟩ := Bool.and_eq_true_iff.1 h.hints
  exact .restore hmark (goesOn_startWindow (h.restored hmark) ⟨rfl, rfl, hrows, hcolumns⟩ 0)

/-- A resync goes on with every bit. -/
theorem goesOn_onBit {t : Task} (ht : ResyncTask s t) (b : Bool) : GoesOn (onBit t b s) := by
  cases ht with
  | scan hw => exact .countBit fun n c => goesOn_scanBit (h.withCancel c) (hw.of_marks fun _ => id) n b
  | advance hints => exact .countBit fun n c => goesOn_advanceWindow (h.withCancel c) hints n
  | align hl hw => exact .countBit fun n c => goesOn_startAlign (h.withCancel c) (hw.of_marks fun _ => id) hl _ n
  | check hw he => exact .countBit fun n c => goesOn_checkBit (h.withCancel c) (hw.of_marks fun _ => id) he n b

end

/-! ## A bit -/

/-- A bit leaves whole chains pending (R65, R131, R132). -/
theorem PendingWhole.nextBit {s t : State} {b : Bool} (h : PendingWhole s) (hb : nextBit s = some (.ok b t)) :
    PendingWhole t := by
  rcases nextBit_iff.1 hb with ⟨i, level, delta, n, hi, hd, -, rfl⟩ | ⟨e, rest, hi, -, -, -, rfl⟩
  · obtain ⟨level', delta', n', hd', hwhole⟩ := decodeChain_of_pendingWhole hi h
    obtain ⟨rfl, rfl, rfl⟩ : level = level' ∧ delta = delta' ∧ n = n' := by simpa [hd] using hd'
    exact hwhole
  · exact pendingWhole_of_sentinel (by simpa using hi)

/-- With whole chains pending, the one fault of a bit is HISTORY_OVERFLOW (R312, R317). -/
theorem nextBit_stop_overflow {s t : State} (h : PendingWhole s) (hb : nextBit s = some (.stop t)) :
    t.status = .faulted .historyOverflow := by
  rcases nextBit_eq_some_stop.1 hb with ⟨i, hi, hstop⟩ | ⟨-, e, rest, -, hstop⟩
  · obtain ⟨level, delta, n, hd, -⟩ := decodeChain_of_pendingWhole hi h
    rcases Res.andThen_eq_stop.1 hstop with hread | ⟨_, _, -, hk⟩
    · rw [(hbReadChain_eq_stop.1 hread).1] at hd
      cases hd
    · cases hk
  · rcases Res.andThen_eq_stop.1 hstop with hcollect | ⟨_, _, -, hk⟩
    · unfold collectEdge at hcollect
      split at hcollect
      · rw [(histAppendChain_eq_stop.1 hcollect).2]
      · cases hcollect
    · cases hk

theorem Running.nextBit {s t : State} {b : Bool} (h : Running s) (hb : nextBit s = some (.ok b t)) : Running t := by
  have hread := onlyReads_nextBit hb
  exact ⟨hread.status.trans h.running, hread.task.trans h.task, hread.commands.trans h.commands,
    by rw [hread.cfg]; exact h.hints, h.pending.nextBit hb⟩

theorem Started.nextBit {s t : State} {b : Bool} (h : Started s) (hb : nextBit s = some (.ok b t)) : Started t :=
  ⟨h.toRunning.nextBit hb, by rw [(onlyReads_nextBit hb).fe]; exact h.started⟩

theorem AtRest.nextBit {s t : State} {b : Bool} (h : AtRest s) (hb : nextBit s = some (.ok b t)) : AtRest t := by
  refine ⟨h.toStarted.nextBit hb, ?_⟩
  rw [(onlyReads_nextBit hb).fe]
  exact h.startMark.imp_right fun hmark => hmark.nextBit hb

/-- FE.START takes its mark where it turns collection on (R270). -/
theorem atRest_feStartRest {s : State} (h : Running s) : AtRest (feStartRest s) := by
  rw [feStartRest_eq]
  have hmark : MarkUsable (mark { s with hb := keptHistory s }) { s with hb := keptHistory s } :=
    markUsable_mark h.pending.kept
  exact { h with pending := h.pending.kept, started := rfl, startMark := .inr hmark }

/-- Whatever is in progress goes on with its bit, or the bit is the overflow. -/
theorem InProgress.goesOn {s : State} {t : Task} {r : Res Bool} (h : InProgress s t) (hb : nextBit s = some r) :
    GoesOn (r.andThen (onBit t)) := by
  cases r with
  | stop u => exact .inr (nextBit_stop_overflow h.toRunning.pending hb)
  | ok b u =>
    cases h with
    | feStart h => exact atRest_feStartRest (h.nextBit hb)
    | feBit h => exact goesOn_feBitRest (h.nextBit hb) b
    | resync h ht => exact goesOn_onBit (h.nextBit hb) (ht.of_marks fun m hm => hm.nextBit hb) b

/-! ## The steps -/

/-- Where the run stands between two steps. -/
inductive Standing (s : State) : Prop
  | ended (h : EndedWell s)
  | idle (hidle : s.status = .idle) (h : Running { s with status := .running })
  | atRest (h : AtRest s)
  | waiting {t : Task} (htask : s.task = some t) (h : InProgress { s with task := none } t)

theorem standing_runTask {t : Task} {s : State} (n : Nat) (h : InProgress s t) : Standing (runTask n t s) := by
  have hbit : ∀ {t s r x}, InProgress s t → nextBit s = some r → r.andThen (onBit t) = x → GoesOn x :=
    fun h hb hr => hr ▸ h.goesOn hb
  refine runTask_induction (P := fun t s => InProgress s t) (Q := Standing) ?wait ?stop ?done ?more n t s h
  case wait =>
    intro t s h
    have hself : { s with task := none } = s := by rw [← h.toRunning.task]
    refine .waiting rfl ?_
    show InProgress { s with task := none } t
    rwa [hself]
  case stop =>
    intro t s r s₁ h hb hr
    exact .ended (hbit h hb hr)
  case done =>
    intro t s r v s₁ h hb hr
    have hrest : AtRest s₁ := hbit h hb hr
    exact .atRest { hrest with }
  case more =>
    intro t s r t₁ s₁ h hb hr
    obtain ⟨hstarted, hresync⟩ : Started s₁ ∧ ResyncTask s₁ t₁ := hbit h hb hr
    exact .resync hstarted hresync

/-- A part of an FE.STEP that goes on leads to where the run stands after it. -/
theorem standing_settle {r : Res Progress} (h : GoesOn r) : Standing (settle r) := by
  rcases r with ⟨t | v, s⟩ | s
  · obtain ⟨hstarted, hresync⟩ : Started s ∧ ResyncTask s t := h
    exact standing_runTask _ (.resync hstarted hresync)
  · have hrest : AtRest s := h
    exact .atRest { hrest with }
  · exact .ended h

theorem standing_feStart {s : State} (hidle : s.status = .idle) (h : Running { s with status := .running }) {t : State}
    (ht : exec .feStart s = .next t) : Standing t := by
  have hexec : exec .feStart s = execFeStart s := rfl
  rw [hexec, execFeStart, issue_ready (s := s) (by rw [hidle]; rfl) h.task, if_pos hidle] at ht
  obtain rfl := Host.Outcome.next.inj ht
  exact standing_runTask _ (.feStart h)

theorem standing_feStep {s : State} (h : AtRest s) {t : State} (ht : exec .feStep s = .next t) : Standing t := by
  have hready : Ready s := ⟨by rw [h.running]; rfl, h.task⟩
  cases hsync : s.fe.inSync with
  | true =>
    rw [exec_feStep_inSync ⟨hready, h.running, h.started, hsync⟩] at ht
    obtain rfl := Host.Outcome.next.inj ht
    exact standing_runTask _ (.feBit h)
  | false =>
    rw [exec_feStep_outOfSync hready h.running h.started hsync] at ht
    obtain rfl := Host.Outcome.next.inj ht
    have hmark := h.startMark.resolve_left fun hseed => Bool.eq_false_iff.1 hsync hseed.1
    exact standing_settle (goesOn_startResync h.toStarted hmark)

/-- A step of a block with a command in progress resumes it. -/
theorem step_of_task {s t : State} {k : Task} (hk : s.task = some k) (h : step s = .next t) : t = resume k s := by
  unfold step at h
  rw [hk] at h
  split at h
  · cases h
  · dsimp only at h
    split at h
    · cases h
    · exact (Host.Outcome.next.inj h).symm

/-- Every step of the sequence leads on. -/
theorem Standing.step {s t : State} (h : Standing s) (hstep : step s = .next t) : Standing t := by
  cases h with
  | ended h =>
    have hend : statusEnded s.status = true := by rcases h with h | h <;> rw [h] <;> rfl
    rw [Machine.step, if_pos hend] at hstep
    cases hstep
  | idle hidle h =>
    rw [stepRunsDecodedCommand.2 s ⟨by rw [hidle]; rfl, h.task⟩ h.commands, if_pos hidle] at hstep
    exact standing_feStart hidle h hstep
  | atRest h =>
    rw [stepRunsDecodedCommand.2 s ⟨by rw [h.running]; rfl, h.task⟩ h.commands, if_neg (by simp [h.running])] at hstep
    exact standing_feStep h hstep
  | waiting htask h =>
    rw [step_of_task htask hstep]
    exact standing_runTask _ h

/-- What every step of a machine keeps, every run of it keeps. -/
theorem run_induction {M : Host.Core} {P : M.State → Prop} (hstep : ∀ s t, P s → M.step s = .next t → P t) {k : Nat}
    {s t : M.State} (hs : P s) (h : M.run k s = .next t) : P t := by
  induction k generalizing s with
  | zero => exact Host.Outcome.next.inj h ▸ hs
  | succ k ih =>
    unfold Host.Core.run at h
    split at h
    · rename_i u hu
      exact ih (hstep s u hs hu) h
    all_goals cases h

/-- The one fault of a run that stands. -/
theorem Standing.fault_eq {s : State} {f : FaultCode} (h : Standing s) (hf : s.status = .faulted f) :
    f = .historyOverflow := by
  cases h with
  | ended h =>
    rcases h with h | h
    · cases hf.symm.trans h
    · exact Status.faulted.inj (hf.symm.trans h)
  | idle hidle _ => cases hf.symm.trans hidle
  | atRest h => cases hf.symm.trans h.running
  | waiting _ h => cases hf.symm.trans h.toRunning.running

/-- Settles O15: a block just created stands at the head of its sequence, every step leads on, and wherever the run
stands it has met no other fault. -/
theorem autonomousRunFaultsOnlyOnOverflow : Obligations.AutonomousRunFaultsOnlyOnOverflow := by
  intro c edges cancel k t f hlegal hrun hf
  have hstart : Standing { State.resetWith c with edges := edges, cancel := cancel } :=
    .idle rfl ⟨rfl, rfl, rfl, hlegal, pendingWhole_of_sentinel rfl⟩
  have hend : Standing t := run_induction (M := core) (P := Standing) (fun _ _ hs => hs.step) hstart hrun
  exact hend.fault_eq hf

end Sys2Proof.Machine
end

section
/-! PROOFS. The exceptions that need no run (60_exceptions.md): the faults raised at once, an ended block, a waiting one, and the
refusal of a configuration. -/

namespace Sys2Proof.Machine

open Sys2Proof

/-! ## Faults at once -/

/-- A reserved command word raises RESERVED_COMMAND (R316). -/
theorem step_of_reserved {s u : State} {e : Reserved} (hs : Ready s) (h : nextCommand s = (.error e, u)) :
    step s = .next { u with status := .faulted .reservedCommand } := by
  obtain ⟨hrun, htask⟩ := hs
  simp [step, hrun, htask, h, raise_eq]

/-- Settles O4: a word outside R99 does not decode, and both driver commands check STATUS first. -/
theorem reservedWordAndBadSequenceFault : Obligations.ReservedWordAndBadSequenceFault := by
  intro s hs
  refine ⟨fun c rest hc hcode => ?_, fun hrun => ?_, fun hidle => ?_⟩
  · exact step_of_reserved hs (by rw [nextCommand_cons hc, decode_of_reserved hcode])
  · have hexec : exec .feStart s = execFeStart s := rfl
    rw [hexec, execFeStart, issue_ready hs.1 hs.2, if_neg (by simp [hrun]), raise_eq, settle_stop]
  · have hexec : exec .feStep s = execFeStep s := rfl
    rw [hexec, execFeStep, issue_ready hs.1 hs.2, if_pos (.inl (by simp [hidle])), raise_eq, settle_stop]

/-- Settles O22: the record is taken, and its chain does not fit. -/
theorem nextBitOverflow : Obligations.NextBitOverflow := by
  intro s e rest hs hi he hc hfull
  have hstop : nextBit s = some (.stop
      { s with edges := rest, edgesTaken := s.edgesTaken + 1, status := .faulted .historyOverflow }) := by
    refine nextBit_eq_some_stop.2 (.inr ⟨hi, e, rest, he, Res.andThen_eq_stop.2 (.inl ?_)⟩)
    rw [collectEdge, if_pos hc]
    exact histAppendChain_eq_stop.2 ⟨hfull, rfl⟩
  rw [exec_bdNextBit hs, runTask_unfold taskOk_nextBit, hstop]
  rfl

/-- Settles O47: both commands check the shape before anything else. -/
theorem syncCommandsRefuseIllegalShape : Obligations.SyncCommandsRefuseIllegalShape := by
  intro s rows columns offset start matched hs hshape
  have hl : legalShape rows columns = false := Bool.eq_false_iff.2 (legalShape_iff.not.2 hshape)
  constructor
  · rw [exec_sfCheckSync hs, startCheck_illegal hl, settle_stop]
  · rw [exec_sfTestIfSyncIsReal hs, startTest_illegal hl, settle_stop]

/-! ## Waiting -/

/-- Settles O6: at the live tail without a record no bit can be read, whatever command needs it. -/
theorem nextBitWaitsForEdge : Obligations.NextBitWaitsForEdge := by
  intro s hs hi he
  have hnone : ∀ k, nextBit { s with task := k } = none := fun _ => nextBit_eq_none.2 ⟨hi, he⟩
  refine ⟨?_, fun t => ?_⟩
  · rw [exec_bdNextBit hs, runTask_unfold taskOk_nextBit, nextBit_eq_none.2 ⟨hi, he⟩]
  · simp [step, waiting, hs.1, hnone]

/-! ## The configuration -/

theorem legalRowsHint_iff (h : Rows) : legalRowsHint h = true ↔
    h.toNat ∈ ([0, 48, 50, 60, 64, 72, 75, 80, 90, 96, 100, 120, 125, 128, 144, 147, 150, 169, 180, 192, 200, 240, 250,
      256] : List Nat) := by
  revert h
  decide

theorem legalColumnsHint_iff (h : Columns) :
    legalColumnsHint h = true ↔ h.toNat ∈ ([0, 2, 4, 6, 8, 10, 12, 14, 16] : List Nat) := by
  revert h
  decide

/-- Settles O8: the check of R311 is that of both hints. -/
theorem illegalConfigurationRefused : Obligations.IllegalConfigurationRefused := by
  intro c rowsOk columnsOk
  have hlegal : legalConfiguration c = true ↔ rowsOk ∧ columnsOk := by
    rw [legalConfiguration, Bool.and_eq_true, legalRowsHint_iff, legalColumnsHint_iff]
  exact ⟨fun h => if_pos (hlegal.2 h), fun h => if_neg (hlegal.not.2 h)⟩

end Sys2Proof.Machine
end

section
/-! PROOFS. HB.READ_CHAIN on a corrupt history (R83, R84, R317): the four ways in which no chain can be decoded. -/

namespace Sys2Proof.Machine

open Sys2Proof

/-- Entry number `k` is there and another follows it in its chain (R80). -/
def FollowedAt (es : List Entry) (k : Nat) : Prop := ∃ e, es[k]? = some e ∧ entryMore e = true

/-- Two entries of the first chain, one behind the other, carry different levels (R81). -/
def MixedLevels (es : List Entry) : Prop :=
  ∃ k a b, (∀ j, j ≤ k → FollowedAt es j) ∧ es[k]? = some a ∧ es[k + 1]? = some b ∧ entryLevel a ≠ entryLevel b

/-- A chain taken ends at the first entry that none follows (R84). -/
theorem takeChain_ends {fuel : Nat} {es c : List Entry} (h : takeChain fuel es = some c) :
    ∃ n, c = es.take (n + 1) ∧ n < fuel ∧ n < es.length ∧ (∀ j, j < n → FollowedAt es j) ∧ ¬FollowedAt es n := by
  induction fuel generalizing es c with
  | zero => cases h
  | succ fuel ih =>
    cases es with
    | nil => cases h
    | cons e rest =>
      unfold takeChain at h
      split at h
      · rename_i hm
        obtain ⟨c', hc, rfl⟩ := Option.map_eq_some_iff.1 h
        obtain ⟨n, rfl, hfuel, hlen, hmore, hlast⟩ := ih hc
        refine ⟨n + 1, rfl, Nat.succ_lt_succ hfuel, Nat.succ_lt_succ hlen, fun j hj => ?_, hlast⟩
        cases j with
        | zero => exact ⟨e, rfl, hm⟩
        | succ j => exact hmore j (Nat.lt_of_succ_lt_succ hj)
      · rename_i hm
        obtain rfl := Option.some.inj h
        refine ⟨0, rfl, Nat.zero_lt_succ _, Nat.zero_lt_succ _, fun j hj => absurd hj (Nat.not_lt_zero j), ?_⟩
        rintro ⟨e', he, hm'⟩
        obtain rfl : e = e' := Option.some.inj he
        exact hm hm'

/-- No chain can be taken where it runs past the entries, or has too many of them (R317). -/
theorem takeChain_eq_none_iff {fuel : Nat} {es : List Entry} :
    takeChain fuel es = none ↔ (∀ e ∈ es, entryMore e = true) ∨ ∀ k, k < fuel → FollowedAt es k := by
  constructor
  · intro h
    induction fuel generalizing es with
    | zero => exact .inr fun k hk => absurd hk (Nat.not_lt_zero k)
    | succ fuel ih =>
      cases es with
      | nil => exact .inl fun e he => absurd he List.not_mem_nil
      | cons e rest =>
        unfold takeChain at h
        split at h
        · rename_i hm
          refine (ih (Option.map_eq_none_iff.1 h)).imp (fun hall => List.forall_mem_cons.2 ⟨hm, hall⟩) fun hall k hk => ?_
          cases k with
          | zero => exact ⟨e, rfl, hm⟩
          | succ k => exact hall k (Nat.lt_of_succ_lt_succ hk)
        · cases h
  · intro h
    by_contra hne
    obtain ⟨c, hc⟩ := Option.ne_none_iff_exists'.1 hne
    obtain ⟨n, -, hfuel, hlen, -, hlast⟩ := takeChain_ends hc
    refine hlast (h.elim (fun hall => ?_) fun hall => hall n hfuel)
    exact ⟨es[n], List.getElem?_eq_getElem hlen, hall _ (List.getElem_mem hlen)⟩

/-- A chain has a level where neighbours agree (R81, R83). -/
theorem chainLevel_eq_none_iff {es : List Entry} (hne : es ≠ []) :
    chainLevel es = none ↔ ∃ k a b, es[k]? = some a ∧ es[k + 1]? = some b ∧ entryLevel a ≠ entryLevel b := by
  obtain ⟨e, rest, rfl⟩ := List.exists_cons_of_ne_nil hne
  have hlevel : chainLevel (e :: rest) = none ↔ ¬∀ x ∈ rest, entryLevel x = entryLevel e := by
    simp [chainLevel]
  rw [hlevel]
  constructor
  · intro h
    by_contra hno
    refine h fun x hx => ?_
    have hchain : List.IsChain (fun a b => entryLevel a = entryLevel b) (e :: rest) := by
      rw [List.isChain_iff_getElem]
      intro k hk
      by_contra hne'
      exact hno ⟨k, _, _, List.getElem?_eq_getElem (by omega), List.getElem?_eq_getElem hk, hne'⟩
    have := (List.isChain_iff_pairwise (R := fun a b : Entry => entryLevel a = entryLevel b)).1 hchain
    exact ((List.pairwise_cons.1 this).1 x hx).symm
  · rintro ⟨k, a, b, ha, hb, hab⟩ hall
    have hmem : ∀ x ∈ e :: rest, entryLevel x = entryLevel e := List.forall_mem_cons.2 ⟨rfl, hall⟩
    exact hab ((hmem a (List.mem_of_getElem? ha)).trans (hmem b (List.mem_of_getElem? hb)).symm)

/-- The ways in which no chain can be decoded (R317). -/
theorem decodeChain_eq_none_iff {es : List Entry} :
    decodeChain es = none ↔
      (∀ e ∈ es, entryMore e = true) ∨ MixedLevels es ∨ ∀ k, k < maxChainEntries → FollowedAt es k := by
  unfold decodeChain
  cases hc : takeChain maxChainEntries es with
  | none =>
    have := takeChain_eq_none_iff.1 hc
    simp only [true_iff]
    tauto
  | some c =>
    obtain ⟨hends, hlong⟩ := not_or.1 (takeChain_eq_none_iff.not.1 (by rw [hc]; exact nofun))
    obtain ⟨n, rfl, -, hlen, hmore, hlast⟩ := takeChain_ends hc
    have hne : es.take (n + 1) ≠ [] := List.ne_nil_of_length_pos (by simp; omega)
    have hmixed : chainLevel (es.take (n + 1)) = none ↔ MixedLevels es := by
      rw [chainLevel_eq_none_iff hne]
      refine exists_congr fun k => exists_congr fun a => exists_congr fun b => ?_
      constructor
      · rintro ⟨ha, hb, hab⟩
        simp only [List.getElem?_take, Option.ite_none_right_eq_some] at ha hb
        exact ⟨fun j hj => hmore j (by omega), ha.2, hb.2, hab⟩
      · rintro ⟨hfollowed, ha, hb, hab⟩
        have hk : k < n := by
          by_contra hk
          exact hlast (hfollowed n (not_lt.1 hk))
        exact ⟨by rwa [List.getElem?_take_of_lt (by omega)], by rwa [List.getElem?_take_of_lt (by omega)], hab⟩
    simp only [hends, hlong, false_or, or_false, ← hmixed]
    split <;> simp_all

/-- HB.READ_CHAIN where no chain can be decoded faults, and changes nothing else (R121, R317). -/
theorem exec_hbReadChain_of_corrupt {s : State} {index : Nat} (hs : Ready s)
    (hd : decodeChain (s.hb.entries.drop index) = none) :
    exec (.hbReadChain index) s = .next { s with status := .faulted .historyCorrupt } := by
  have hexec : exec (.hbReadChain index) s = execHbReadChain index s := rfl
  have hread : hbReadChain index s = .stop { s with status := .faulted .historyCorrupt } :=
    hbReadChain_eq_stop.2 ⟨hd, rfl⟩
  rw [hexec, execHbReadChain, issue_ready hs.1 hs.2, hread]
  rfl

/-- Settles O19: an index past the buffer leaves no entry, which all have another after them; the other causes are those of
the decoding. -/
theorem corruptChainFaults : Obligations.CorruptChainFaults := by
  intro s index hs more corrupt
  have hcorrupt : corrupt ↔ decodeChain (s.hb.entries.drop index) = none := by
    have hpast : s.hb.size ≤ index → ∀ e ∈ s.hb.entries.drop index, entryMore e = true := fun h e he => by
      rw [List.drop_eq_nil_of_le h] at he
      exact absurd he List.not_mem_nil
    have hmore : ∀ k, more k ↔ FollowedAt (s.hb.entries.drop index) k := fun k => by
      rw [FollowedAt, List.getElem?_drop]
      rfl
    have hmixed : (∃ k a b, (∀ j, j ≤ k → more j) ∧ s.hb.entries[index + k]? = some a ∧
        s.hb.entries[index + k + 1]? = some b ∧ a.getLsbD 15 ≠ b.getLsbD 15) ↔
        MixedLevels (s.hb.entries.drop index) := by
      simp only [MixedLevels, hmore, List.getElem?_drop, Nat.add_assoc]
      rfl
    rw [decodeChain_eq_none_iff, ← hmixed]
    simp only [← hmore]
    exact or_iff_right_of_imp fun h => .inl (hpast h)
  refine ⟨fun h => exec_hbReadChain_of_corrupt hs (hcorrupt.1 h), fun h => ?_⟩
  obtain ⟨⟨level, delta, n⟩, hd⟩ := Option.ne_none_iff_exists'.1 (hcorrupt.not.1 h)
  obtain ⟨hpos, -, hlen⟩ := decodeChain_length hd
  rw [List.length_drop] at hlen
  exact ⟨level, delta, index + n, exec_hbReadChain_of_decodes hs hd, by omega, by unfold History.size; omega⟩

end Sys2Proof.Machine
end

section
/-! PROOFS. What a command reads of its inputs besides its bits: the cancel input at its polls (R308), in the states said
here, and nothing of the edge input. -/

namespace Sys2Proof.Machine

open Sys2Proof

/-! ## A part of a command and its polls -/

/-- The state with the cancel input and the edge input at the values given (R50, R51). -/
def State.withInputs (k : List Bool) (es : List Edge) (s : State) : State := { s with cancel := k, edges := es }

/-- The same end of a part of a command, with the inputs at the values given. -/
def Res.withInputs {α : Type} (k : List Bool) (es : List Edge) : Res α → Res α
  | .ok a s => .ok a (s.withInputs k es)
  | .stop s => .stop (s.withInputs k es)

/-- The block halted by a poll (R308). -/
def State.halted (s : State) : State := { s with status := .halted }

/-- The end of a part of a command for each cancel input: it polls in the states `polls`, one after the other, and comes to
`r` where none of these polls reads 1. -/
def Res.afterPolls {α : Type} (r : Res α) (es : List Edge) : List State → List Bool → Res α
  | [], k => r.withInputs k es
  | _ :: _, [] => r.withInputs [] es
  | h :: polls, c :: k => if c then .stop (h.halted.withInputs k es) else r.afterPolls es polls k

/-- The part `f` of a command polls in the states `polls` when it begins in `s`, and comes to `r`. -/
def Polls {α : Type} (s : State) (f : State → Res α) (polls : List State) (r : Res α) : Prop :=
  ∀ k es, f (s.withInputs k es) = r.afterPolls es polls k

/-- The part `f` does not read the inputs in `s`. -/
abbrev Blind {α : Type} (s : State) (f : State → Res α) : Prop := Polls s f [] (f s)

theorem Res.afterPolls_nil {α : Type} (r : Res α) (es : List Edge) (polls : List State) :
    r.afterPolls es polls [] = r.withInputs [] es := by
  cases polls <;> rfl

/-- Polls that read 0 are passed. -/
theorem Res.afterPolls_append {α : Type} (r : Res α) (es : List Edge) (polls more : List State) (k : List Bool) :
    r.afterPolls es (polls ++ more) (List.replicate polls.length false ++ k) = r.afterPolls es more k := by
  induction polls with
  | nil => rfl
  | cons h polls ih => exact ih

/-- A poll that reads 1, after others that read 0, halts the block there. -/
theorem Res.afterPolls_true {α : Type} (r : Res α) (es : List Edge) {polls : List State} {j : Nat} {h : State}
    (hj : polls[j]? = some h) (later : List Bool) :
    r.afterPolls es polls (List.replicate j false ++ true :: later) = .stop (h.halted.withInputs later es) := by
  induction polls generalizing j with
  | nil => cases hj
  | cons h' polls ih =>
    cases j with
    | zero =>
      obtain rfl : h' = h := Option.some.inj hj
      rfl
    | succ j => exact ih hj

/-- Where the first part polls and completes, the second goes on from there. -/
theorem Polls.andThen {α β : Type} {s u : State} {p : State → Res α} {g : α → State → Res β} {polls more : List State}
    {a : α} {r : Res β} (hp : Polls s p polls (.ok a u)) (hg : Polls u (g a) more r) :
    Polls s (fun s => (p s).andThen g) (polls ++ more) r := by
  have key : ∀ (polls : List State) (k : List Bool) (es : List Edge),
      ((Res.ok a u).afterPolls es polls k).andThen g = r.afterPolls es (polls ++ more) k := by
    intro polls
    induction polls with
    | nil => exact hg
    | cons h polls ih =>
      rintro (_ | ⟨_ | _, k⟩) es
      · exact (hg [] es).trans (Res.afterPolls_nil ..)
      · exact ih k es
      · rfl
  intro k es
  rw [← key]
  exact congrArg (Res.andThen · g) (hp k es)

theorem Polls.andThen_stop {α β : Type} {s u : State} {p : State → Res α} {g : α → State → Res β}
    (hp : Polls s p [] (.stop u)) : Polls s (fun s => (p s).andThen g) [] (.stop u) := fun k es =>
  congrArg (Res.andThen · g) (hp k es)

theorem polls_poll (s : State) : Polls s poll [s] (.ok () s) := by
  rintro (_ | ⟨_ | _, k⟩) es <;> rfl

/-- The bit counter polls at every 4096th bit (R251). -/
theorem polls_countBit (n : Nat) (s : State) :
    Polls s (countBit n) (if (n + 1) % pollInterval = 0 then [s] else []) (.ok (n + 1) s) := by
  unfold countBit
  split
  · exact (polls_poll s).andThen (more := []) fun _ _ => rfl
  · exact fun _ _ => rfl

/-! ## Where the polls of a command stand -/

/-- `t` is `s` but for the decoder and the history. -/
def Quiet (s t : State) : Prop := t = { s with bd := t.bd, hb := t.hb }

theorem Quiet.refl (s : State) : Quiet s s := rfl

theorem Quiet.trans {s t u : State} (h : Quiet s t) (g : Quiet t u) : Quiet s u := by
  rw [Quiet] at *
  rw [h] at g
  exact g

/-- The search is a resync's, which ends an FE.STEP. -/
def Finder.endsStep : Finder → Bool
  | .command => false
  | .driver => true

def Asker.endsStep : Asker → Bool
  | .check => false
  | .test => false
  | .search who _ => who.endsStep

/-- The command in progress is an FE.STEP (R271, R275). -/
def Task.endsStep : Task → Bool
  | .nextBit => false
  | .skipBits _ => false
  | .feStart => false
  | .feBit => true
  | .scan who _ _ => who.endsStep
  | .advance who _ _ => who.endsStep
  | .align ask _ _ _ _ => ask.endsStep
  | .check ask _ _ => ask.endsStep

/-- What a part of a command that begins in `s` comes to, with its polls: an FE.STEP is done at the poll that ends it, and
no other poll finds anything changed but the decoder and the history. -/
inductive Ends (s : State) : Bool → List State → Res Progress → Prop
  | stop {step : Bool} {polls : List State} {u : State} (hq : ∀ h ∈ polls, Quiet s h)
    (hu : statusEnded u.status = true) : Ends s step polls (.stop u)
  | more {polls : List State} {t : Task} {u : State} (hq : ∀ h ∈ polls, Quiet s h) (hu : Quiet s u) :
    Ends s t.endsStep polls (.ok (.more t) u)
  | done {polls : List State} {v : Value} {u : State} (hq : ∀ h ∈ polls, Quiet s h) :
    Ends s false polls (.ok (.done v) u)
  | step {polls : List State} {u : State} (hq : ∀ h ∈ polls, Quiet s h) :
    Ends s true (polls ++ [u]) (.ok (.done .none) u)

/-- The part `f` of a command, of an FE.STEP or not, reads no input in `s` but at its polls, which stand as `Ends` says. -/
def OnlyPolls (step : Bool) (s : State) (f : State → Res Progress) : Prop :=
  ∃ polls r, Polls s f polls r ∧ Ends s step polls r

/-- Polls that find nothing changed may come first. -/
theorem Ends.prepend {s u : State} {step : Bool} {polls more : List State} {r : Res Progress}
    (hq : ∀ h ∈ polls, Quiet s h) (hu : Quiet s u) (h : Ends u step more r) : Ends s step (polls ++ more) r := by
  have hall : ∀ {more : List State}, (∀ h ∈ more, Quiet u h) → ∀ h ∈ polls ++ more, Quiet s h := fun hm =>
    List.forall_mem_append.2 ⟨hq, fun h hh => hu.trans (hm h hh)⟩
  cases h with
  | stop hm he => exact .stop (hall hm) he
  | more hm hv => exact .more (hall hm) (hu.trans hv)
  | done hm => exact .done (hall hm)
  | step hm =>
    rw [← List.append_assoc]
    exact .step (hall hm)

section

variable {step : Bool} {s : State} {f : State → Res Progress}

theorem OnlyPolls.congr {g : State → Res Progress} (h : OnlyPolls step s g)
    (hfg : ∀ k es, f (s.withInputs k es) = g (s.withInputs k es)) : OnlyPolls step s f := by
  obtain ⟨polls, r, hpolls, hends⟩ := h
  exact ⟨polls, r, fun k es => (hfg k es).trans (hpolls k es), hends⟩

theorem OnlyPolls.blind (h : Blind s f) (hf : Ends s step [] (f s)) : OnlyPolls step s f := ⟨[], f s, h, hf⟩

theorem OnlyPolls.andThen {α : Type} {u : State} {p : State → Res α} {g : α → State → Res Progress} {polls : List State}
    {a : α} (hp : Polls s p polls (.ok a u)) (hq : ∀ h ∈ polls, Quiet s h) (hu : Quiet s u)
    (hg : OnlyPolls step u (g a)) : OnlyPolls step s fun s => (p s).andThen g := by
  obtain ⟨more, r, hmore, hends⟩ := hg
  exact ⟨polls ++ more, r, hp.andThen hmore, hends.prepend hq hu⟩

/-- A part that does not read the inputs comes first, and may raise a fault. -/
theorem OnlyPolls.andThen_blind {α : Type} {p : State → Res α} {g : α → State → Res Progress} (hp : Blind s p)
    (hok : ∀ a u, p s = .ok a u → Quiet s u ∧ OnlyPolls step u (g a))
    (hstop : ∀ u, p s = .stop u → statusEnded u.status = true) : OnlyPolls step s fun s => (p s).andThen g := by
  cases hr : p s with
  | ok a u =>
    obtain ⟨hu, hg⟩ := hok a u hr
    rw [Blind, hr] at hp
    exact .andThen hp (List.forall_mem_nil _) hu hg
  | stop u =>
    rw [Blind, hr] at hp
    exact ⟨[], .stop u, hp.andThen_stop, .stop (List.forall_mem_nil _) (hstop u hr)⟩

theorem OnlyPolls.andThen_poll {g : Unit → State → Res Progress} (hg : OnlyPolls step s (g ())) :
    OnlyPolls step s fun s => (poll s).andThen g :=
  .andThen (polls_poll s) (List.forall_mem_singleton.2 (.refl s)) (.refl s) hg

theorem OnlyPolls.andThen_countBit {n : Nat} {g : Nat → State → Res Progress} (hg : OnlyPolls step s (g (n + 1))) :
    OnlyPolls step s fun s => (countBit n s).andThen g := by
  refine .andThen (polls_countBit n s) ?_ (.refl s) hg
  split
  · exact List.forall_mem_singleton.2 (.refl s)
  · exact (List.forall_mem_nil _)

theorem OnlyPolls.andThen_restore {m : Mark} {g : Unit → State → Res Progress}
    (hg : OnlyPolls step (restoreRegs m s) (g ())) : OnlyPolls step s fun s => (restore m s).andThen g := by
  refine .andThen_blind (fun k es => ?_) (fun a u hr => ?_) fun u hr => ?_
  · show (if m.epoch ≠ s.hb.epoch then _ else if m.index > s.hb.size then _ else _) = (restore m s).withInputs k es
    unfold restore
    split
    · rfl
    · split <;> rfl
  · obtain ⟨-, -, rfl⟩ := restore_eq_ok.1 hr
    exact ⟨rfl, hg⟩
  · rcases restore_eq_stop.1 hr with ⟨-, rfl⟩ | ⟨-, -, rfl⟩ <;> rfl

theorem OnlyPolls.andThen_readerSetShape {rows : Rows} {columns : Columns} {r : FrameReader}
    {g : FrameReader → State → Res Progress}
    (hg : OnlyPolls step s (g (readerShaped rows columns r))) :
    OnlyPolls step s fun s => (readerSetShape rows columns r s).andThen g := by
  refine .andThen_blind (fun k es => ?_) (fun a u hr => ?_) fun u hr => ?_
  · unfold readerSetShape
    split <;> rfl
  · obtain ⟨-, rfl, rfl⟩ := readerSetShape_eq_ok.1 hr
    exact ⟨.refl u, hg⟩
  · rw [(readerSetShape_eq_stop.1 hr).2]
    rfl

/-- A part that goes on at once with its next bit. -/
theorem OnlyPolls.of_more {t : Task} {u : State} (hf : Polls s f [] (.ok (.more t) u)) (hu : Quiet s u) :
    OnlyPolls t.endsStep s f := ⟨[], _, hf, .more (List.forall_mem_nil _) hu⟩

end

/-! ## The driver -/

/-- The end of an FE.STEP is its last poll (R278). -/
theorem polls_feStepEnd (s : State) :
    Polls s feStepEnd [{ s with progressSample := s.bd.currentSample }]
      (.ok (.done .none) { s with progressSample := s.bd.currentSample }) := by
  rintro (_ | ⟨_ | _, k⟩) es <;> rfl

/-- The reader's answer is taken without reading an input (R271). -/
theorem blind_onReaderResult (answer : ReaderResult) (s : State) : Blind s (onReaderResult answer) := by
  intro k es
  cases answer with
  | frameStart | needMoreBits | captureParity => rfl
  | frameComplete =>
    have haccept : ∀ v u u', u' = State.withInputs k es u → acceptFrame v u' = (acceptFrame v u).withInputs k es := by
      rintro v u _ rfl
      rw [acceptFrame_eq, acceptFrame_eq]
      rfl
    show (if s.fe.firstFrame then _ else _) = (onFrameComplete s).withInputs k es
    unfold onFrameComplete
    split
    · exact haccept _ _ _ rfl
    · unfold onLaterFrame
      dsimp only
      rw [apply_ite (Res.withInputs k es)]
      exact ite_congr rfl (fun _ => rfl) fun _ => haccept _ _ _ rfl

/-- An in-sync FE.STEP polls once, at its end (R271, R308). -/
theorem polls_feBitRest (b : Bool) (s : State) :
    ∃ u, Polls s (feBitRest b) [u] (.ok (.done .none) u) := by
  obtain ⟨t, ht, -⟩ := exists_onReaderResult (readerPush b s.fe.reader).2 (s.pushed b)
  have hanswer := blind_onReaderResult (readerPush b s.fe.reader).2 (s.pushed b)
  rw [Blind, ht] at hanswer
  exact ⟨_, fun k es => hanswer.andThen (polls_feStepEnd t) k es⟩

/-- The state in which a resync that found a legal shape ends its FE.STEP (R275). -/
def State.resynced (rows : Rows) (columns : Columns) (s : State) : State :=
  { s with
    events := s.events ++ [.shapeChange s.bd.currentSample rows columns]
    hb := keptHistory s
    fe := { s.fe with reader := readerShaped rows columns s.fe.reader, inSync := true, firstFrame := true } }

/-- What a resync does with its shape ends with the poll of its FE.STEP, or faults (R275, R308). -/
theorem polls_feResyncRest (rows : Rows) (columns : Columns) (s : State) :
    (∃ u, Polls s (feResyncRest rows columns) [u] (.ok (.done .none) u)) ∨
    ∃ u, Polls s (feResyncRest rows columns) [] (.stop u) ∧ statusEnded u.status = true := by
  cases hl : legalShape rows columns with
  | true =>
    refine .inl ⟨{ s.resynced rows columns with progressSample := s.bd.currentSample }, fun k es => ?_⟩
    rw [feResyncRest_of_legal hl]
    exact polls_feStepEnd (s.resynced rows columns) k es
  | false =>
    have hstop : ∀ u, feResyncRest rows columns u =
        .stop { emit (.shapeChange u.bd.currentSample rows columns) u with status := .faulted .illegalShape } := by
      intro u
      simp [feResyncRest, readerSetShape, hl, raise_eq]
    refine .inr ⟨{ emit (.shapeChange s.bd.currentSample rows columns) s with status := .faulted .illegalShape },
      fun k es => ?_, rfl⟩
    rw [hstop]
    rfl

/-! ## The search -/

section

variable (s : State) (n : Nat)

theorem onlyPolls_startCheck (ask : Asker) (rows : Rows) (columns : Columns) :
    OnlyPolls ask.endsStep s (startCheck ask rows columns n) :=
  .andThen_readerSetShape
    (.of_more (t := .check ask ⟨readerShaped rows columns FrameReader.reset, 0, mark s, 0, false⟩ n) (fun _ _ => rfl)
      (.refl s))

theorem onlyPolls_startAlign (ask : Asker) (rows : Rows) (columns : Columns) (left : Nat) :
    OnlyPolls ask.endsStep s (startAlign ask rows columns left n) := by
  unfold startAlign
  split
  · exact onlyPolls_startCheck s n ask rows columns
  · exact .of_more (t := .align ask rows columns left n) (fun _ _ => rfl) (.refl s)

theorem onlyPolls_startTest (ask : Asker) (rows : Rows) (columns : Columns) (offset : Nat) (start matched : Mark) :
    OnlyPolls ask.endsStep s (startTest ask rows columns offset start matched n) := by
  unfold startTest
  split
  · refine .andThen_restore ?_
    dsimp only
    split
    · exact .andThen_restore (onlyPolls_startAlign ..)
    · exact onlyPolls_startAlign ..
  · exact .blind (fun _ _ => rfl) (.stop (List.forall_mem_nil _) rfl)

theorem onlyPolls_startColumn (who : Finder) (w : Scan) (c : Columns) (rest : List Columns) :
    OnlyPolls who.endsStep s (startColumn who w c rest n) := by
  refine .andThen_restore (.andThen_blind (fun k es => ?_) (fun m u hm => ?_) fun u hm => ?_)
  · unfold matcherInit
    split <;> rfl
  · obtain ⟨-, rfl, rfl⟩ := matcherInit_eq_ok.1 hm
    exact ⟨.refl _, .of_more (t := .scan who _ n) (fun _ _ => rfl) (.refl _)⟩
  · rw [(matcherInit_eq_stop.1 hm).2]
    rfl

theorem onlyPolls_startWindow (who : Finder) (w : Scan) : OnlyPolls who.endsStep s (startWindow who w n) := by
  obtain ⟨c, rest, hcand⟩ := List.exists_cons_of_ne_nil (columnCandidates_ne_nil w.columnsHint)
  refine (onlyPolls_startColumn s n who { w with startMark := mark s } c rest).congr fun k es => ?_
  rw [startWindow_eq, hcand]
  rfl

theorem onlyPolls_advanceWindow (who : Finder) (w : Scan) : OnlyPolls who.endsStep s (advanceWindow who w n) := by
  cases hi : s.bd.nextHistoryReadIndex with
  | entry i =>
    refine .of_more (t := .advance who w n) (fun k es => ?_) (.refl s)
    exact advanceWindow_entry (s := s.withInputs k es) hi who w n
  | sentinel =>
    obtain ⟨polls, r, hpolls, hends⟩ := onlyPolls_startWindow (discardHistory s) n who w
    have hquiet : Quiet s (discardHistory s) := by
      rw [discardHistory_eq]
      exact rfl
    refine ⟨polls, r, fun k es => ?_, hends.prepend (polls := []) (List.forall_mem_nil _) hquiet⟩
    rw [← hpolls, advanceWindow_sentinel (s := s.withInputs k es) hi, discardHistory_eq, discardHistory_eq]
    rfl

theorem onlyPolls_endColumn (who : Finder) (w : Scan) : OnlyPolls who.endsStep s (endColumn who w n) := by
  refine .andThen_poll ?_
  cases w.columnsLeft with
  | nil => exact onlyPolls_advanceWindow s n who w
  | cons c rest => exact onlyPolls_startColumn s n who w c rest

theorem onlyPolls_continueScan (who : Finder) (w : Scan) : OnlyPolls who.endsStep s (continueScan who w n) := by
  unfold continueScan
  split
  · exact .of_more (t := .scan who w n) (fun _ _ => rfl) (.refl s)
  · exact onlyPolls_endColumn s n who w

theorem onlyPolls_tryRows (who : Finder) (w : Scan) (rows : List Rows) :
    OnlyPolls who.endsStep s (tryRows who w rows n) := by
  cases rows with
  | nil => exact onlyPolls_continueScan s n who w
  | cons r rest => exact onlyPolls_startTest s n (.search who _) ..

theorem onlyPolls_scanBit (who : Finder) (w : Scan) (b : Bool) : OnlyPolls who.endsStep s (scanBit who w n b) := by
  cases hfires : (matcherPush b w.matcher).2 with
  | true =>
    refine (onlyPolls_tryRows s n who ((w.pushed b).matchedAt (mark s)) (rowCandidates w.rowsHint)).congr fun k es => ?_
    rw [scanBit_eq, if_pos hfires]
    rfl
  | false =>
    refine (onlyPolls_continueScan s n who (w.pushed b)).congr fun k es => ?_
    rw [scanBit_eq, if_neg (by simp [hfires])]

theorem onlyPolls_foundSync (who : Finder) (rows : Rows) (columns : Columns) :
    OnlyPolls who.endsStep s (foundSync who rows columns) := by
  cases who with
  | command => exact .blind (fun _ _ => rfl) (.done (List.forall_mem_nil _))
  | driver =>
    rcases polls_feResyncRest rows columns { s with sf := ⟨rows, columns⟩ } with ⟨u, hu⟩ | ⟨u, hu, hended⟩
    · exact ⟨_, _, hu, .step (polls := []) (List.forall_mem_nil _)⟩
    · exact ⟨_, _, hu, .stop (List.forall_mem_nil _) hended⟩

theorem onlyPolls_finishCheck (ask : Asker) (entry : Mark) (answer : Nat) :
    OnlyPolls ask.endsStep s (finishCheck ask entry answer n) := by
  refine .andThen_restore ?_
  cases ask with
  | check | test => exact .blind (fun _ _ => rfl) (.done (List.forall_mem_nil _))
  | search who w =>
    dsimp only
    split
    · exact onlyPolls_foundSync _ who ..
    · exact .andThen_restore (onlyPolls_tryRows ..)

theorem onlyPolls_proceed (ask : Asker) (entry : Mark) (r : Check ⊕ Nat) :
    OnlyPolls ask.endsStep s (proceed ask entry n r) := by
  cases r with
  | inl c => exact .of_more (t := .check ask c n) (fun _ _ => rfl) (.refl s)
  | inr answer => exact onlyPolls_finishCheck s n ask entry answer

/-- A check on its bit polls where the bit ends a frame (R244, R308). -/
theorem onlyPolls_checkBit (ask : Asker) (c : Check) (b : Bool) : OnlyPolls ask.endsStep s (checkBit ask c n b) := by
  unfold checkBit
  dsimp only
  cases (readerPush b c.reader).2 with
  | captureParity =>
    exact .of_more (u := resetParity s)
      (t := .check ask { c with reader := (readerPush b c.reader).1, cap := s.bd.parityIsOdd } n) (fun _ _ => rfl) rfl
  | frameComplete =>
    refine .andThen_poll ((onlyPolls_proceed s n ask c.entryMark
      (Check.verdict { c with reader := (readerPush b c.reader).1 })).congr fun k es => ?_)
    exact frameRead_eq ..
  | frameStart | needMoreBits =>
    exact .of_more (t := .check ask { c with reader := (readerPush b c.reader).1 } n) (fun _ _ => rfl) (.refl s)

/-- Every command in progress on its bit. -/
theorem onlyPolls_onBit (t : Task) (b : Bool) : OnlyPolls t.endsStep s (onBit t b) := by
  cases t with
  | nextBit => exact .blind (fun _ _ => rfl) (.done (List.forall_mem_nil _))
  | skipBits left =>
    unfold onBit
    dsimp only
    split
    · exact .blind (fun _ _ => rfl) (.done (List.forall_mem_nil _))
    · exact .of_more (t := .skipBits (left - 1)) (fun _ _ => rfl) (.refl s)
  | feStart =>
    refine .blind (fun k es => ?_) (.done (List.forall_mem_nil _))
    simp only [onBit, feStartRest_eq]
    rfl
  | feBit =>
    obtain ⟨u, hu⟩ := polls_feBitRest b s
    exact ⟨_, _, hu, .step (polls := []) (List.forall_mem_nil _)⟩
  | scan who w n => exact .andThen_countBit (onlyPolls_scanBit ..)
  | advance who w n => exact .andThen_countBit (onlyPolls_advanceWindow ..)
  | align ask rows columns left n => exact .andThen_countBit (onlyPolls_startAlign ..)
  | check ask c n => exact .andThen_countBit (onlyPolls_checkBit ..)

theorem onlyPolls_startFind (who : Finder) (rowsHint : Rows) (columnsHint : Columns) :
    OnlyPolls who.endsStep s (startFind who rowsHint columnsHint) :=
  onlyPolls_startWindow s 0 who (firstScan rowsHint columnsHint Mark.zero)

/-- A resync up to its first bit does not poll (R275, R308). -/
theorem onlyPolls_startResync : OnlyPolls true s startResync := by
  have hfind : OnlyPolls true s fun u => (restore s.fe.startMark u).andThen fun _ u =>
      startFind .driver s.cfg.hintRows s.cfg.hintColumns u :=
    .andThen_restore (onlyPolls_startFind _ .driver ..)
  refine hfind.congr fun k es => ?_
  show (restore s.fe.startMark _).andThen _ = _
  cases hr : restore s.fe.startMark (s.withInputs k es) with
  | stop u => rfl
  | ok a u =>
    obtain ⟨-, -, rfl⟩ := restore_eq_ok.1 hr
    rfl

end

end Sys2Proof.Machine
end

section
/-! PROOFS. Settles EndedBlockDoesNothing and WaitingCommandResumes: what a command is, at its issue and when it goes on. -/

namespace Sys2Proof.Machine

open Sys2Proof

/-! ## The edge input beside a command -/

def State.withEdges (es : List Edge) (s : State) : State := { s with edges := es }

def Res.withEdges {α : Type} (es : List Edge) : Res α → Res α
  | .ok a s => .ok a (s.withEdges es)
  | .stop s => .stop (s.withEdges es)

theorem Res.withEdges_afterPolls {α : Type} (r : Res α) (es es' : List Edge) (polls : List State) (k : List Bool) :
    (r.afterPolls es polls k).withEdges es' = r.afterPolls es' polls k := by
  induction polls generalizing k with
  | nil => cases r <;> rfl
  | cons h polls ih =>
    match k with
    | [] => cases r <;> rfl
    | true :: k => rfl
    | false :: k => exact ih k

/-- A part of a command that only polls leaves the edge input as it finds it. -/
theorem Polls.withEdges {α : Type} {s : State} {f : State → Res α} {polls : List State} {r : Res α} (h : Polls s f polls r)
    (es : List Edge) : f (s.withEdges es) = (f s).withEdges es :=
  calc f (s.withInputs s.cancel es) = r.afterPolls es polls s.cancel := h ..
    _ = (r.afterPolls s.edges polls s.cancel).withEdges es := (r.withEdges_afterPolls ..).symm
    _ = (f s).withEdges es := congrArg (Res.withEdges es) (h s.cancel s.edges).symm

/-- A part of a command goes on with its next bit only where no poll has read 1. -/
theorem Res.afterPolls_eq_ok {α : Type} {r : Res α} {es : List Edge} {polls : List State} {k : List Bool} {a : α}
    {u : State} (h : r.afterPolls es polls k = .ok a u) : ∃ v j, r = .ok a v ∧ u = v.withInputs j es := by
  induction polls generalizing k with
  | nil =>
    cases r with
    | ok a' v => cases h; exact ⟨v, k, rfl, rfl⟩
    | stop v => cases h
  | cons p polls ih =>
    match k with
    | [] =>
      cases r with
      | ok a' v => cases h; exact ⟨v, [], rfl, rfl⟩
      | stop v => cases h
    | true :: k => cases h
    | false :: k => exact ih h

/-- What the first part of a command, or what it does with a bit, comes to: it leaves the edge input as it finds it and
the field `task` too, and where it goes on with its next bit the run has not ended. -/
structure Begins (f : State → Res Progress) (s : State) : Prop where
  withEdges : ∀ es, f (s.withEdges es) = (f s).withEdges es
  keeps : Keeps s (f s)
  goesOn : ∀ t u, f s = .ok (.more t) u → TaskOk t ∧ (statusEnded s.status = false → statusEnded u.status = false)

theorem Begins.edges {f : State → Res Progress} {s u : State} {p : Progress} (h : Begins f s) (hf : f s = .ok p u) :
    u.edges = s.edges := by
  have hes := h.withEdges s.edges
  change f s = _ at hes
  rw [hf] at hes
  injection hes with _ hu
  rw [hu]
  rfl

theorem begins_of_onlyPolls {step : Bool} {f : State → Res Progress} {s : State} (h : OnlyPolls step s f)
    (hk : Keeps s (f s)) (ht : ∀ t u, f s = .ok (.more t) u → TaskOk t) : Begins f s := by
  obtain ⟨polls, r, hpolls, hends⟩ := h
  refine ⟨hpolls.withEdges, hk, fun t u hf => ⟨ht t u hf, fun hs => ?_⟩⟩
  obtain ⟨v, k, rfl, rfl⟩ := Res.afterPolls_eq_ok ((hpolls s.cancel s.edges).symm.trans hf)
  cases hends with
  | more _ hv =>
    rw [Quiet] at hv
    rw [hv]
    exact hs

/-! ## The commands -/

/-- What a command is where no command is in progress: it completes at once or stops, or it goes on bit by bit. -/
inductive Body (i : Instr) : Prop
  | atOnce (f : State → Res Value) (hexec : ∀ s, exec i s = issue s fun s => atOnce (f s))
    (htask : ∀ s, (f s).final.task = s.task)
  | settles (f : State → Res Progress) (hexec : ∀ s, exec i s = issue s fun s => settle (f s))
    (hbegins : ∀ s, Begins f s)

theorem task_andThen {α : Type} {s : State} {r : Res α} (h : Keeps s r) {g : α → State → Res Value}
    (hg : ∀ a u, (g a u).final.task = u.task) : (r.andThen g).final.task = s.task := by
  cases r with
  | ok a u => exact (hg a u).trans h.task
  | stop u => exact h.task

theorem body_readWord (w : WordName) (f : CtrlWord → Value) {i : Instr} (h : ∀ s, exec i s = readWord w f s) : Body i :=
  .atOnce (fun s => .ok (f (s.word w).value) s) h fun _ => rfl

theorem body_changeWord (w : WordName) (f : ControlWord → ControlWord) {i : Instr}
    (h : ∀ s, exec i s = changeWord w f s) : Body i :=
  .atOnce (fun s => .ok .none (s.setWord w (f (s.word w)))) h fun s => State.setWord_task s w _

theorem begins_more {t : Task} (ht : TaskOk t) (s : State) : Begins (fun s => .ok (.more t) s) s where
  withEdges _ := rfl
  keeps := .refl s
  goesOn _ _ h := by cases h; exact ⟨ht, id⟩

theorem begins_raise (c : FaultCode) (s : State) : Begins (fun s => raise c s) s where
  withEdges _ := rfl
  keeps := keeps_raise c s
  goesOn _ _ h := by cases h

/-- A first part that is one of two, by a condition that is not on the edge input. -/
theorem begins_ite {p : State → Prop} [DecidablePred p] {f g : State → Res Progress} {s : State}
    (hp : ∀ es, p (s.withEdges es) ↔ p s) (hf : p s → Begins f s) (hg : ¬p s → Begins g s) :
    Begins (fun s => if p s then f s else g s) s := by
  by_cases h : p s
  · obtain ⟨hedges, hkeeps, hmore⟩ := hf h
    refine ⟨fun es => ?_, ?_, ?_⟩
    · rw [if_pos h, if_pos ((hp es).2 h), hedges]
    · rw [if_pos h]; exact hkeeps
    · rw [if_pos h]; exact hmore
  · obtain ⟨hedges, hkeeps, hmore⟩ := hg h
    refine ⟨fun es => ?_, ?_, ?_⟩
    · rw [if_neg h, if_neg (mt (hp es).1 h), hedges]
    · rw [if_neg h]; exact hkeeps
    · rw [if_neg h]; exact hmore

/-- FE.START sets STATUS before its bit (R270). -/
theorem begins_feStart (s : State) :
    Begins (fun s => if s.status = .idle then .ok (.more .feStart) { s with status := .running }
      else raise .badSequence s) s :=
  begins_ite (p := fun s => s.status = .idle) (fun _ => .rfl)
    (fun _ => ⟨fun _ => rfl, ⟨rfl, rfl, rfl, rfl, rfl, rfl, rfl, rfl⟩, fun _ _ h => by
      cases h; exact ⟨taskOk_feStart, fun _ => rfl⟩⟩)
    fun _ => begins_raise _ s

theorem keeps_startResync (s : State) : Keeps s (startResync s) :=
  (keeps_restore _ s).andThen fun _ _ _ => keeps_startWindow ..

theorem begins_feStep (s : State) :
    Begins (fun s => if s.status ≠ .running ∨ s.fe.started = false then raise .badSequence s
      else if s.fe.inSync then .ok (.more .feBit) s else startResync s) s :=
  begins_ite (p := fun s => s.status ≠ .running ∨ s.fe.started = false) (fun _ => .rfl) (fun _ => begins_raise _ s)
    fun _ => begins_ite (p := fun s => s.fe.inSync = true) (fun _ => .rfl) (fun _ => begins_more taskOk_feBit s)
      fun _ => begins_of_onlyPolls (onlyPolls_startResync s) (keeps_startResync s) fun _ _ => taskOk_startResync

/-- Every command is issued so (R76, R309). -/
theorem body (i : Instr) : Body i := by
  cases i
  case hbAppend level delta =>
    exact .atOnce _ (fun _ => rfl) fun s => task_andThen (keeps_histAppendChain _ s) fun _ _ => rfl
  case hbReadChain index =>
    exact .atOnce _ (fun _ => rfl) fun s => task_andThen (keeps_hbReadChain index s) fun _ _ => rfl
  case bdRestore m => exact .atOnce _ (fun _ => rfl) fun s => task_andThen (keeps_restore m s) fun _ _ => rfl
  case smInit sm columns =>
    exact .atOnce _ (fun _ => rfl) fun s => task_andThen (keeps_matcherInit columns s) fun _ _ => rfl
  case frSetShape r rows columns =>
    exact .atOnce _ (fun _ => rfl) fun s =>
      task_andThen (keeps_readerSetShape rows columns _ s) fun _ _ => State.setReader_task ..
  case hbClear | bdResetParity | bdIsParityOdd | bdCurrentSample | bdMark | smPushBit =>
    exact .atOnce _ (fun _ => rfl) fun _ => rfl
  case bdCollectHistory enable => exact .atOnce _ (fun _ => rfl) fun s => collectHistory_task enable s
  case bdDiscardHistory => exact .atOnce _ (fun _ => rfl) fun s => discardHistory_task s
  case dsgSeed | dsgNext => exact .atOnce _ (fun _ => rfl) fun _ => State.setGenerator_task ..
  case frReset | frPushBit => exact .atOnce _ (fun _ => rfl) fun _ => State.setReader_task ..
  case cwReset | cwLoad | cwPushBit | cwSkipBits =>
    apply body_changeWord
    intro s
    dsimp only [exec]
    rfl
  case bdNextBit => exact .settles _ (fun _ => rfl) (begins_more taskOk_nextBit)
  case bdSkipBits n =>
    refine .settles _ (fun _ => rfl) fun s => begins_ite (p := fun _ => n = 0) (fun _ => .rfl) (fun _ => ?_) fun _ =>
      begins_more (taskOk_skipBits _) s
    exact ⟨fun _ => rfl, .refl s, fun _ _ h => by cases h⟩
  case sfFindSync rowsHint columnsHint =>
    exact .settles _ (fun _ => rfl) fun s => begins_of_onlyPolls (onlyPolls_startFind s .command rowsHint columnsHint)
      (keeps_startWindow ..) fun _ _ => taskOk_startFind
  case sfTestIfSyncIsReal rows columns offset start matched =>
    exact .settles _ (fun _ => rfl) fun s =>
      begins_of_onlyPolls (onlyPolls_startTest s 0 .test rows columns offset start matched) (keeps_startTest ..)
        fun _ _ => taskOk_startTest
  case sfCheckSync rows columns =>
    exact .settles _ (fun _ => rfl) fun s => begins_of_onlyPolls (onlyPolls_startCheck s 0 .check rows columns)
      (keeps_startCheck ..) fun _ _ => taskOk_startCheck
  case feStart => exact .settles _ (fun _ => rfl) begins_feStart
  case feStep => exact .settles _ (fun _ => rfl) begins_feStep
  -- The commands left read a control word (44_control_word.md section 2).
  all_goals
    apply body_readWord
    intro s
    dsimp only [exec]
    rfl

theorem Body.exec_of_ended {i : Instr} (h : Body i) {s : State} (hs : statusEnded s.status = true) :
    exec i s = .next s := by
  obtain ⟨f, hexec, -⟩ | ⟨f, hexec, -⟩ := h <;> exact (hexec s).trans (if_pos hs)

/-- Settles O5: every command is issued, and the issue asks first whether the run has ended; so does the step. -/
theorem endedBlockDoesNothing : Obligations.EndedBlockDoesNothing := by
  intro s hs
  have hended : statusEnded s.status = true := by
    rcases hs with hs | ⟨c, hs⟩ <;> rw [hs] <;> rfl
  exact ⟨fun i => (body i).exec_of_ended hended, if_pos hended⟩

end Sys2Proof.Machine
end

section
/-! PROOFS. Settles WaitingCommandResumes: a command in progress with more edges behind those it has. -/

namespace Sys2Proof.Machine

open Sys2Proof

/-- The state with `extra` behind the edges it has (R50). -/
def State.addEdges (extra : List Edge) (s : State) : State := s.withEdges (s.edges ++ extra)

theorem afterEdge_addEdges {s : State} {e : Edge} (h : s.edges ≠ []) (extra : List Edge) :
    (s.addEdges extra).afterEdge e = (s.afterEdge e).addEdges extra := by
  rw [State.addEdges, State.addEdges, State.afterEdge_edges, ← List.tail_append_of_ne_nil h, State.afterEdge,
    State.afterEdge, busResetCount_eq, busResetCount_eq]
  rfl

/-- A bit that is read is the same bit with more edges behind. -/
theorem nextBit_addEdges {s u : State} {b : Bool} (h : nextBit s = some (.ok b u)) (extra : List Edge) :
    nextBit (s.addEdges extra) = some (.ok b (u.addEdges extra)) := by
  refine nextBit_iff.2 ?_
  rcases nextBit_iff.1 h with ⟨i, level, delta, n, hi, hd, hb, rfl⟩ | ⟨e, rest, hi, he, hfits, hb, rfl⟩
  · exact .inl ⟨i, level, delta, n, hi, hd, hb, rfl⟩
  · exact .inr ⟨e, rest ++ extra, hi, congrArg (· ++ extra) he, hfits, hb,
      (afterEdge_addEdges (by simp [he]) extra).symm⟩

/-- Every command in progress, on its bit. -/
theorem begins_onBit {t : Task} (ht : TaskOk t) (b : Bool) {s u : State} (h : nextBit s = some (.ok b u)) :
    Begins (onBit t b) u :=
  begins_of_onlyPolls (onlyPolls_onBit u t b) (keeps_onBit t b u) fun _ _ hk =>
    (bitsLeft_lt ht h (Res.andThen_eq_ok.2 ⟨b, u, rfl, hk⟩)).1

/-- Where the command that runs to `w` waits, it goes on with more edges to `v`. -/
def GoesOnTo (extra : List Edge) (w v : State) : Prop :=
  ∀ t, w.task = some t → TaskOk t ∧ statusEnded w.status = false ∧
    settle (.ok (.more t) ({ w with task := none }.addEdges extra)) = v

theorem goesOnTo_of_task {extra : List Edge} {w v : State} (h : w.task = none) : GoesOnTo extra w v := fun t ht => by
  rw [h] at ht
  cases ht

/-- A part of a command runs on with more edges as it does with those it has, for as long as these last. -/
theorem Begins.goesOnTo {f : State → Res Progress} {s : State} (hf : Begins f s) (hs : s.task = none)
    (hlive : statusEnded s.status = false) (extra : List Edge)
    (hmore : ∀ t u, f s = .ok (.more t) u → u.task = none → statusEnded u.status = false →
      GoesOnTo extra (settle (.ok (.more t) u)) (settle (.ok (.more t) (u.addEdges extra)))) :
    GoesOnTo extra (settle (f s)) (settle (f (s.addEdges extra))) := by
  have htask := hf.keeps
  rw [State.addEdges, hf.withEdges]
  rcases hr : f s with ⟨t | v, u⟩ | u
  all_goals rw [hr] at htask
  · have hgo := hmore t u hr (htask.task.trans hs) ((hf.goesOn t u hr).2 hlive)
    rw [State.addEdges, hf.edges hr] at hgo
    exact hgo
  · exact goesOnTo_of_task (htask.task.trans hs)
  · exact goesOnTo_of_task (htask.task.trans hs)

theorem goesOnTo_settle_more (extra : List Edge) {t : Task} (ht : TaskOk t) (s : State) (hs : s.task = none)
    (hlive : statusEnded s.status = false) :
    GoesOnTo extra (settle (.ok (.more t) s)) (settle (.ok (.more t) (s.addEdges extra))) := by
  revert hs hlive
  refine task_induction (P := fun t s => s.task = none → statusEnded s.status = false →
    GoesOnTo extra (settle (.ok (.more t) s)) (settle (.ok (.more t) (s.addEdges extra)))) ?_ ht s
  intro t s ht ih hs hlive
  rcases hb : nextBit s with _ | ⟨b, u⟩ | u
  · rw [settle_more_of_none ht hb]
    rintro t' ⟨⟩
    refine ⟨ht, hlive, ?_⟩
    rw [State.addEdges, State.addEdges, State.withEdges, State.withEdges, ← hs]
  · rw [settle_more_of_nextBit ht hb, settle_more_of_nextBit ht (nextBit_addEdges hb extra)]
    refine (begins_onBit ht b hb).goesOnTo ((keeps_nextBit hb).task.trans hs) ((nextBit_status hb).symm ▸ hlive) extra ?_
    exact fun t' v hk => ih _ t' v hb hk
  · rw [settle_more_of_stop ht hb]
    exact goesOnTo_of_task ((keeps_nextBit hb).task.trans hs)

/-- A waiting command is resumed by the step that finds an edge (R318, R326). -/
theorem GoesOnTo.step_eq {w v : State} {e : Edge} {more : List Edge} (h : GoesOnTo (e :: more) w v)
    (hw : w.task ≠ none) : step (w.addEdges (e :: more)) = .next v := by
  obtain ⟨t, ht⟩ := Option.ne_none_iff_exists'.1 hw
  obtain ⟨-, hlive, rfl⟩ := h t ht
  have hwait : waiting (w.addEdges (e :: more)) = false := by
    unfold waiting
    split
    · rename_i hnone
      exact absurd (nextBit_eq_none.1 hnone).2 (by simp [State.addEdges, State.withEdges])
    · rfl
  have htask : (w.addEdges (e :: more)).task = some t := ht
  have hlive' : statusEnded (w.addEdges (e :: more)).status = false := hlive
  simp only [step, hlive', htask, hwait, Bool.false_eq_true, if_false]
  rfl

/-- Settles O7: a command that waits goes on with the edges that come as its run does that finds them there. -/
theorem waitingCommandResumes : Obligations.WaitingCommandResumes := by
  intro i s t e more hs hexec ht
  obtain ⟨f, hbody, htask⟩ | ⟨f, hbody, hbegins⟩ := body i
  · rw [hbody, issue_ready hs.1 hs.2] at hexec
    obtain rfl := Host.Outcome.next.inj hexec
    refine absurd ?_ ht
    have hf := (htask s).trans hs.2
    cases hr : f s <;> rw [hr] at hf <;> exact hf
  · rw [hbody, issue_ready hs.1 hs.2] at hexec
    obtain rfl := Host.Outcome.next.inj hexec
    have hgo : GoesOnTo (e :: more) (settle (f s)) (settle (f (s.addEdges (e :: more)))) :=
      (hbegins s).goesOnTo hs.2 hs.1 _ fun t u hu hu' hlive =>
        goesOnTo_settle_more _ ((hbegins s).goesOn t u hu).1 u hu' hlive
    have hnext : exec i (s.addEdges (e :: more)) = .next (settle (f (s.addEdges (e :: more)))) :=
      (hbody _).trans (issue_ready (s := s.addEdges (e :: more)) hs.1 hs.2 fun s => settle (f s))
    exact (hgo.step_eq ht).trans hnext.symm

end Sys2Proof.Machine
end

section
/-! PROOFS. An FE.STEP that a poll stops (R308): at its end, in sync or after a resync, and at an earlier poll of a
resync. -/

namespace Sys2Proof.Machine

open Sys2Proof

/-- The cancel input at 0 for `n` polls, and at 1 for the next (R51). -/
def cancelAfter (n : Nat) (later : List Bool) : List Bool := List.replicate n false ++ true :: later

theorem cancelAfter_add (m n : Nat) (later : List Bool) :
    cancelAfter (m + n) later = List.replicate m false ++ cancelAfter n later := by
  rw [cancelAfter, List.replicate_add, List.append_assoc]
  rfl

/-- The state with the cancel input at the values given. -/
def State.withCancel (k : List Bool) (s : State) : State := s.withInputs k s.edges

theorem withInputs_nil {s : State} (h : s.cancel = []) : s.withInputs [] s.edges = s := by
  unfold State.withInputs
  rw [← h]

theorem nextBit_withCancel {s u : State} {b : Bool} (h : nextBit s = some (.ok b u)) (k : List Bool) :
    nextBit (s.withCancel k) = some (.ok b (u.withCancel k)) := by
  have hresult : s.withPorts k u.result = s.withCancel k := by
    rw [(keeps_nextBit h).result]
    rfl
  have hb := nextBit_withPorts h k u.result
  rw [hresult] at hb
  exact hb

/-- The block stopped by a poll in the middle of a search that leads from `s` to `t` (R308). -/
structure StoppedInside (later : List Bool) (s t h : State) : Prop where
  status : h.status = .halted
  task : h.task = none
  cancel : h.cancel = later
  fe : h.fe = s.fe
  sf : h.sf = s.sf
  progressSample : h.progressSample = s.progressSample
  events : s.events <+: h.events
  eventsBefore : h.events <+: t.events

/-- The part `f` of an FE.STEP polls `q` times in `s` before the poll that ends the step. -/
structure StepPolls (s : State) (f : State → Res Progress) (q : Nat) : Prop where
  atEnd : ∀ later, settle (f (s.withCancel (cancelAfter q later))) =
    { settle (f s) with status := .halted, cancel := later, result := s.result }
  inside : ∀ j, j < q → ∀ later,
    StoppedInside later s (settle (f s)) (settle (f (s.withCancel (cancelAfter j later))))

/-- A poll of the first part of an FE.STEP stops it with nothing changed but the decoder and the history. -/
theorem stoppedInside_of_poll {s t h : State} (hq : Quiet s h) (hs : s.task = none) (ht : s.events <+: t.events)
    (later : List Bool) (es : List Edge) : StoppedInside later s t (h.halted.withInputs later es) := by
  rw [Quiet] at hq
  rw [hq]
  exact ⟨rfl, hs, rfl, rfl, rfl, rfl, List.prefix_rfl, ht⟩

section

variable {s : State} {f : State → Res Progress}

theorem Polls.eq_of_cancel {polls : List State} {r : Res Progress} (h : Polls s f polls r) (hc : s.cancel = []) :
    f s = r.withInputs [] s.edges := by
  rw [← Res.afterPolls_nil r s.edges polls, ← h [] s.edges, withInputs_nil hc]

/-- The polls of a part that ends an FE.STEP. -/
theorem stepPolls_of_done {polls : List State} {u : State} (h : Polls s f (polls ++ [u]) (.ok (.done .none) u))
    (hq : ∀ h ∈ polls, Quiet s h) (hk : Keeps s (f s)) (hs : s.task = none) (hc : s.cancel = [])
    (hev : s.events <+: (settle (f s)).events) : StepPolls s f polls.length where
  atEnd later := by
    have hf := h.eq_of_cancel hc
    rw [hf] at hk
    have hresult : u.result = s.result := hk.result
    have hlast : (polls ++ [u])[polls.length]? = some u := by simp
    rw [State.withCancel, h, cancelAfter, Res.afterPolls_true _ _ hlast, hf, ← hresult]
    rfl
  inside j hj later := by
    have hpoll : (polls ++ [u])[j]? = some polls[j] := by
      rw [List.getElem?_append_left hj, List.getElem?_eq_getElem hj]
    rw [State.withCancel, h, cancelAfter, Res.afterPolls_true _ _ hpoll]
    exact stoppedInside_of_poll (hq _ (List.getElem_mem hj)) hs hev later s.edges

/-- Where the block stands so, it has not yet come further than before. -/
theorem StoppedInside.of_start {later : List Bool} {u t h : State} (hstop : StoppedInside later u t h) (hfe : u.fe = s.fe)
    (hsf : u.sf = s.sf) (hprogress : u.progressSample = s.progressSample) (hev : s.events <+: u.events) :
    StoppedInside later s t h :=
  { hstop with
    fe := hstop.fe.trans hfe
    sf := hstop.sf.trans hsf
    progressSample := hstop.progressSample.trans hprogress
    events := hev.trans hstop.events }

/-- Polls before a part of an FE.STEP that goes on. -/
theorem StepPolls.prepend {polls : List State} {t : Task} {u : State} {q : Nat}
    (h : Polls s f polls (.ok (.more t) u)) (hq : ∀ h ∈ polls, Quiet s h) (hu : Quiet s u) (hs : s.task = none)
    (hc : s.cancel = []) (hev : s.events <+: (settle (f s)).events)
    (hgo : StepPolls (u.withInputs [] s.edges) (fun v => .ok (.more t) v) q) : StepPolls s f (polls.length + q) := by
  have hf : settle (f s) = settle (.ok (.more t) (u.withInputs [] s.edges)) := by rw [h.eq_of_cancel hc]; rfl
  have hrun : ∀ n later, f (s.withCancel (cancelAfter (polls.length + n) later)) =
      .ok (.more t) ((u.withInputs [] s.edges).withCancel (cancelAfter n later)) := by
    intro n later
    have happend := (Res.ok (Progress.more t) u).afterPolls_append s.edges polls [] (cancelAfter n later)
    rw [List.append_nil] at happend
    rw [State.withCancel, h, cancelAfter_add, happend]
    rfl
  rw [Quiet] at hu
  refine ⟨fun later => ?_, fun j hj later => ?_⟩
  · rw [hrun, hf, hgo.atEnd, hu]
    rfl
  · rcases Nat.lt_or_ge j polls.length with hlt | hge
    · rw [State.withCancel, h, cancelAfter, Res.afterPolls_true _ _ (List.getElem?_eq_getElem hlt)]
      exact stoppedInside_of_poll (hq _ (List.getElem_mem hlt)) hs hev later s.edges
    · obtain ⟨n, rfl⟩ := Nat.exists_eq_add_of_le hge
      rw [hrun, hf]
      refine (hgo.inside n (by omega) later).of_start ?_ ?_ ?_ ?_ <;> rw [hu]
      · rfl
      · rfl
      · rfl
      · exact List.prefix_rfl

/-- A part of an FE.STEP that polls as `Ends` says, and the rest of the step. -/
theorem exists_stepPolls (h : OnlyPolls true s f) (hk : Keeps s (f s)) (hs : s.task = none) (hc : s.cancel = [])
    (hev : s.events <+: (settle (f s)).events) (hdone : Completed (settle (f s)))
    (hmore : ∀ t u, f s = .ok (.more t) u → t.endsStep = true → u.task = none → u.cancel = [] →
      ∃ q, StepPolls u (fun v => .ok (.more t) v) q) : ∃ q, StepPolls s f q := by
  obtain ⟨polls, r, hpolls, hends⟩ := h
  have hf := hpolls.eq_of_cancel hc
  generalize hstep : true = step at hends
  cases hends with
  | stop hq hu =>
    rw [hf] at hdone
    exact absurd (hu.symm.trans hdone.2) (by decide)
  | more hq hu =>
    rw [hf] at hk
    obtain ⟨q, hgo⟩ := hmore _ _ hf hstep.symm (hk.task.trans hs) rfl
    exact ⟨_, hgo.prepend hpolls hq hu hs hc hev⟩
  | done hq => cases hstep
  | step hq => exact ⟨_, stepPolls_of_done hpolls hq hk hs hc hev⟩

end

/-- A bit of an FE.STEP, and the rest of the step. -/
theorem StepPolls.of_nextBit {t : Task} (ht : TaskOk t) {s u : State} {b : Bool} (hb : nextBit s = some (.ok b u))
    {q : Nat} (h : StepPolls u (onBit t b) q) : StepPolls s (fun v => .ok (.more t) v) q := by
  have hrun : ∀ k, settle (.ok (.more t) (s.withCancel k)) = settle (onBit t b (u.withCancel k)) := fun k =>
    settle_more_of_nextBit ht (nextBit_withCancel hb k)
  have hreads := onlyReads_nextBit hb
  obtain ⟨ev, hev, -⟩ := hreads.events
  refine ⟨fun later => ?_, fun j hj later => ?_⟩
  · rw [hrun, settle_more_of_nextBit ht hb, h.atEnd, hreads.result]
  · rw [hrun, settle_more_of_nextBit ht hb]
    exact (h.inside j hj later).of_start hreads.fe hreads.sf hreads.progressSample (hev ▸ List.prefix_append _ _)

theorem events_prefix_settle_onBit (t : Task) (b : Bool) (s : State) : s.events <+: (settle (onBit t b s)).events :=
  (changes_settle (changes_onBit t b s)).onlyAppends.events

/-- The command in progress read its bit, where it came to its end. -/
theorem nextBit_of_completed_more {t : Task} (ht : TaskOk t) {s : State}
    (h : Completed (settle (.ok (.more t) s))) : ∃ b u, nextBit s = some (.ok b u) := by
  rcases hb : nextBit s with _ | ⟨b, u⟩ | u
  · rw [settle_more_of_none ht hb] at h
    cases h.1
  · exact ⟨b, u, rfl⟩
  · rw [settle_more_of_stop ht hb] at h
    exact absurd ((nextBit_stop_ended hb).symm.trans h.2) (by decide)

/-- An FE.STEP in progress polls some times before its end. -/
theorem exists_stepPolls_more {t : Task} (ht : TaskOk t) (hstep : t.endsStep = true) {s : State} (hs : s.task = none)
    (hc : s.cancel = []) (hdone : Completed (settle (.ok (.more t) s))) :
    ∃ q, StepPolls s (fun v => .ok (.more t) v) q := by
  revert hstep hs hc hdone
  refine task_induction (P := fun t s => t.endsStep = true → s.task = none → s.cancel = [] →
    Completed (settle (.ok (.more t) s)) → ∃ q, StepPolls s (fun v => .ok (.more t) v) q) ?_ ht s
  intro t s ht ih hstep hs hc hdone
  obtain ⟨b, u, hb⟩ := nextBit_of_completed_more ht hdone
  rw [settle_more_of_nextBit ht hb] at hdone
  have honly := onlyPolls_onBit u t b
  rw [hstep] at honly
  obtain ⟨q, hq⟩ := exists_stepPolls honly (keeps_onBit t b u) ((keeps_nextBit hb).task.trans hs)
    ((nextBit_cancel hb).trans hc) (events_prefix_settle_onBit t b u) hdone fun t' v hk hstep' hv hcv => by
      rw [hk] at hdone
      exact ih _ t' v hb hk hstep' hv hcv hdone
  exact ⟨q, hq.of_nextBit ht hb⟩

/-- R308: the only poll of an FE.STEP in sync is that of its end. -/
theorem stepPolls_feBit {s : State} (hs : s.task = none) (hc : s.cancel = [])
    (hdone : Completed (settle (.ok (.more .feBit) s))) : StepPolls s (fun v => .ok (.more .feBit) v) 0 := by
  obtain ⟨b, u, hb⟩ := nextBit_of_completed_more taskOk_feBit hdone
  obtain ⟨h, hpolls⟩ := polls_feBitRest b u
  exact (stepPolls_of_done (polls := []) hpolls (List.forall_mem_nil _) (keeps_feBitRest b u)
    ((keeps_nextBit hb).task.trans hs) ((nextBit_cancel hb).trans hc) (events_prefix_settle_onBit .feBit b u)).of_nextBit
    taskOk_feBit hb

/-- R308: the polls of a resync. -/
theorem exists_stepPolls_startResync {s : State} (hs : s.task = none) (hc : s.cancel = [])
    (hdone : Completed (settle (startResync s))) : ∃ q, StepPolls s startResync q :=
  exists_stepPolls (onlyPolls_startResync s) (keeps_startResync s) hs hc
    (changes_settle (changes_startResync s)).onlyAppends.events hdone fun t u hf hstep hu hcu => by
      rw [hf] at hdone
      exact exists_stepPolls_more (taskOk_startResync hf) hstep hu hcu hdone

/-- An FE.STEP in sync with the cancel input at 1 halts at its end (R305, R308). -/
theorem feStep_inSync_cancelled {s t : State} (later : List Bool) (hs : InSync { s with cancel := [] })
    (ht : exec .feStep { s with cancel := [] } = .next t) (hdone : Completed t) :
    exec .feStep { s with cancel := true :: later } =
      .next { t with status := .halted, cancel := later, result := s.result } := by
  rw [exec_feStep_inSync hs] at ht
  obtain rfl := Host.Outcome.next.inj ht
  have hpolls := stepPolls_feBit hs.ready.2 rfl hdone
  rw [exec_feStep_inSync (s := { s with cancel := true :: later }) ⟨hs.ready, hs.running, hs.started, hs.inSync⟩]
  exact congrArg Host.Outcome.next (hpolls.atEnd later)

/-- An FE.STEP out of sync halts at the poll that reads 1 (R305, R308). -/
theorem feStep_outOfSync_cancelled {s t : State} (later : List Bool) (hs : Ready s) (hrun : s.status = .running)
    (hstarted : s.fe.started = true) (hsync : s.fe.inSync = false)
    (ht : exec .feStep { s with cancel := [] } = .next t) (hdone : Completed t) :
    ∃ q, exec .feStep { s with cancel := List.replicate q false ++ true :: later } =
        .next { t with status := .halted, cancel := later, result := s.result } ∧
      ∀ j, j < q → ∃ h, exec .feStep { s with cancel := List.replicate j false ++ true :: later } = .next h ∧
        StoppedInside later s t h := by
  have hexec : ∀ k, exec .feStep { s with cancel := k } = .next (settle (startResync { s with cancel := k })) := fun k =>
    exec_feStep_outOfSync (s := { s with cancel := k }) hs hrun hstarted hsync
  rw [hexec] at ht
  obtain rfl := Host.Outcome.next.inj ht
  obtain ⟨q, hq⟩ := exists_stepPolls_startResync (s := { s with cancel := [] }) hs.2 rfl hdone
  refine ⟨q, ?_, fun j hj => ⟨_, hexec _, ?_⟩⟩
  · rw [hexec]
    exact congrArg Host.Outcome.next (hq.atEnd later)
  · obtain ⟨hstatus, htask, hcancel, hfe, hsf, hprogress, hev, hev'⟩ := hq.inside j hj later
    exact ⟨hstatus, htask, hcancel, hfe, hsf, hprogress, hev, hev'⟩

end Sys2Proof.Machine
end

section
/-! PROOFS. A search that a poll stops in phase 1 (R251, R308): its polls are those of the bit counter and those at the end
of each column window. -/

namespace Sys2Proof.Machine

open Sys2Proof

/-! ## The polls of the bit counter -/

/-- The polls of a bit counter that goes from `count` on by `n` bits (R251). -/
def pollsIn (count n : Nat) : Nat := (count + n) / pollInterval - count / pollInterval

theorem pollsIn_zero (count : Nat) : pollsIn count 0 = 0 := Nat.sub_self _

theorem pollsIn_add (count m n : Nat) : pollsIn count (m + n) = pollsIn count m + pollsIn (count + m) n := by
  unfold pollsIn pollInterval
  omega

theorem length_countBit_polls (count : Nat) (s : State) :
    (if (count + 1) % pollInterval = 0 then [s] else []).length = pollsIn count 1 := by
  unfold pollsIn
  split <;> simp only [List.length_cons, List.length_nil, pollInterval] at * <;> omega

/-- A bit is counted where its poll, if there is one, reads 0. -/
theorem countBit_passed (count : Nat) (s : State) (k : List Bool) :
    countBit count (s.withCancel (List.replicate (pollsIn count 1) false ++ k)) = .ok (count + 1) (s.withCancel k) := by
  have happend := (Res.ok (count + 1) s).afterPolls_append s.edges
    (if (count + 1) % pollInterval = 0 then [s] else []) [] k
  rw [List.append_nil, length_countBit_polls] at happend
  exact (polls_countBit count s _ _).trans happend

/-- A bit is counted and the block halted where its poll reads 1. -/
theorem countBit_stopped {count : Nat} (hcount : (count + 1) % pollInterval = 0) (s : State) (later : List Bool) :
    countBit count (s.withCancel (true :: later)) = .stop (s.halted.withCancel later) := by
  have h := polls_countBit count s (true :: later) s.edges
  rw [if_pos hcount] at h
  exact h

theorem poll_stopped (s : State) (later : List Bool) :
    poll (s.withCancel (true :: later)) = .stop (s.halted.withCancel later) := rfl

theorem poll_passed (s : State) (k : List Bool) : poll (s.withCancel (false :: k)) = .ok () (s.withCancel k) := rfl

/-! ## Phase 1 with a cancel input -/

section

variable {who : Finder} {w : Scan} {columns : Columns} (hw : w.columnsLeft.length ≤ 8)

include hw

/-- Phase 1 takes its next bit, and counts it. -/
theorem settle_continueScan_withCancel {s t : State} {pushed : List Bool} (hoff : pushed.length < searchLimit columns)
    {b : Bool} (hb : nextBit s = some (.ok b t)) (count : Nat) (k : List Bool) :
    settle (continueScan who (w.scanned columns pushed) count (s.withCancel k)) =
      settle ((countBit count (t.withCancel k)).andThen fun count u =>
        scanBit who (w.scanned columns pushed) count b u) := by
  have hok : TaskOk (.scan who (w.scanned columns pushed) count) :=
    ⟨(Nat.le_add_right _ 24).trans_lt (scanLeft_scanned_le w columns pushed hw), hoff⟩
  rw [continueScan_scanned, if_pos hoff, settle_more_of_nextBit hok (nextBit_withCancel hb k)]
  rfl

/-- Phase 1 passes over bits without a match while its polls read 0 (R242, R251). -/
theorem settle_continueScan_passed (hc : columnSet.contains columns = true) {pushed bits : List Bool} {s u : State}
    (hr : Reads bits s u) (hlimit : pushed.length + bits.length ≤ searchLimit columns)
    (hquiet : ∀ k, k < bits.length → ¬syncPatternAt columns (pushed ++ bits.take (k + 1))) (count : Nat)
    (k : List Bool) :
    settle (continueScan who (w.scanned columns pushed) count
        (s.withCancel (List.replicate (pollsIn count bits.length) false ++ k))) =
      settle (continueScan who (w.scanned columns (pushed ++ bits)) (count + bits.length) (u.withCancel k)) := by
  induction bits generalizing pushed s count with
  | nil =>
    obtain rfl := hr
    rw [List.length_nil, pollsIn_zero, List.append_nil]
    rfl
  | cons b rest ih =>
    obtain ⟨t, hb, ht⟩ := hr
    rw [List.length_cons, Nat.add_comm rest.length 1] at *
    have hno : ¬syncPatternAt columns (pushed ++ [b]) := hquiet 0 (Nat.zero_lt_of_lt (Nat.lt_add_right _ Nat.one_pos))
    have hrest := ih (pushed := pushed ++ [b]) ht (by simp; omega)
      (fun k hk => by simpa using hquiet (k + 1) (by omega)) (count + 1)
    rw [settle_continueScan_withCancel hw (by omega) hb, pollsIn_add, List.replicate_add, List.append_assoc,
      countBit_passed, Res.andThen_ok, (scanBit_scanned hc pushed b _ _).2 hno, hrest, List.append_assoc, Nat.add_assoc]
    rfl

/-- Phase 1 halts at a bit whose poll reads 1 (R251, R308). -/
theorem settle_continueScan_halted {s u : State} {pushed : List Bool} (hoff : pushed.length < searchLimit columns)
    {b : Bool} (hb : nextBit s = some (.ok b u)) {count : Nat} (hcount : (count + 1) % pollInterval = 0)
    (later : List Bool) :
    settle (continueScan who (w.scanned columns pushed) count (s.withCancel (true :: later))) =
      u.halted.withCancel later := by
  rw [settle_continueScan_withCancel hw hoff hb, countBit_stopped hcount]
  rfl

end

/-- A column window that is over polls, and the next begins (R241, R308). -/
theorem continueScan_passed {who : Finder} {w : Scan} {columns : Columns} {pushed : List Bool}
    (hfull : pushed.length = searchLimit columns) (count : Nat) (s : State) (k : List Bool) :
    continueScan who (w.scanned columns pushed) count (s.withCancel (false :: k)) =
      nextColumn who (w.scanned columns pushed) w.columnsLeft count (s.withCancel k) := by
  rw [continueScan_scanned, hfull, if_neg (lt_irrefl _), endColumn, poll_passed, Res.andThen_ok]
  rfl

/-- At the end of a column window the block halts where its poll reads 1 (R308). -/
theorem continueScan_halted {who : Finder} {w : Scan} {columns : Columns} {pushed : List Bool}
    (hfull : pushed.length = searchLimit columns) (count : Nat) (s : State) (later : List Bool) :
    continueScan who (w.scanned columns pushed) count (s.withCancel (true :: later)) =
      .stop (s.halted.withCancel later) := by
  rw [continueScan_scanned, hfull, if_neg (lt_irrefl _), endColumn, poll_stopped]
  rfl

/-! ## Column windows without a match -/

/-- No bit up to number `m` of the column window is a match. -/
def NoMatchUpTo (a : Stream) (columns : Columns) (m : Nat) : Prop := ∀ k, k ≤ m → ¬MatchAt a columns k

section

variable {s : State} (h : Searching s) {who : Finder} {columns : Columns} (hc : columns ∈ columnSet) {i j m : Nat}
  (hj : j ≤ s.ahead.levels.length) {w : Scan} (hw : InWindow s w) (hm : m ≤ s.ahead.levels.length)
  (hlimit : m ≤ searchLimit columns) (hno : NoMatchUpTo s.ahead columns m)

include h hc hj hw hm hlimit hno

/-- A column candidate passes over `m` bits without a match while its polls read 0. -/
theorem Searching.settle_startColumn_passed {rest : List Columns} (hrest : rest.length ≤ 8) (count : Nat)
    (k : List Bool) :
    settle (startColumn who w columns rest count
        ((s.back i j).withCancel (List.replicate (pollsIn count m) false ++ k))) =
      settle (continueScan who (({ w with columnsLeft := rest } : Scan).scanned columns (s.ahead.bits.take m))
        (count + m) ((s.back m (max j m)).withCancel k)) := by
  have hstart : MarkUsable (mark s) (s.back i j) := h.markUsable_afterBits (Nat.zero_le j) hj
  obtain ⟨bits, hlen, htake, hreads⟩ := h.exists_reads_back (Nat.zero_le j) hj m (by rwa [Nat.zero_add])
  rw [Nat.zero_add] at htake hreads
  have hbits : s.ahead.bits.take m = bits := htake
  have hrun := settle_continueScan_passed (who := who) (w := { w with columnsLeft := rest }) hrest
    (List.contains_iff_mem.2 hc) (pushed := []) hreads (by rw [hlen]; simpa using hlimit) (fun k hk hsync => by
      rw [hlen] at hk
      refine hno (k + 1) hk ⟨Nat.le_trans hk hlimit, Nat.le_trans hk hm, ?_⟩
      rw [← hbits, List.take_take, min_eq_left hk] at hsync
      exact hsync) count k
  rw [hlen] at hrun
  have hrestore : restore w.startMark ((s.back i j).withCancel (List.replicate (pollsIn count m) false ++ k)) =
      .ok () (restoreRegs w.startMark ((s.back i j).withCancel (List.replicate (pollsIn count m) false ++ k))) := by
    rw [hw.start]
    exact restore_of_usable hstart.1 hstart.2.1
  have hback : restoreRegs w.startMark ((s.back i j).withCancel (List.replicate (pollsIn count m) false ++ k)) =
      (s.back 0 j).withCancel (List.replicate (pollsIn count m) false ++ k) := by
    rw [hw.start]
    rfl
  rw [startColumn_eq hrestore (List.contains_iff_mem.2 hc), hbits, hback]
  exact hrun

end

/-- The bits of the column windows of `before`. -/
def windowBits (before : List Columns) : Nat := (before.map searchLimit).sum

/-- Column windows without a match are passed over while their polls read 0 (R241, R251, R308). -/
theorem Searching.settle_nextColumn_passed {s : State} (h : Searching s) {who : Finder} {before more : List Columns}
    {i j : Nat} (hij : i ≤ j) (hj : j ≤ s.ahead.levels.length) {w : Scan} (hw : InWindow s w)
    (hlegal : ∀ c ∈ before, c ∈ columnSet) (hlen : (before ++ more).length ≤ 8)
    (hno : ∀ c ∈ before, searchLimit c ≤ s.ahead.levels.length ∧ ∀ m, ¬MatchAt s.ahead c m) (count : Nat)
    (k : List Bool) :
    ∃ w' i' j', InWindow s w' ∧ i' ≤ j' ∧ j' ≤ s.ahead.levels.length ∧
      settle (nextColumn who w (before ++ more) count
          ((s.back i j).withCancel (List.replicate (before.length + pollsIn count (windowBits before)) false ++ k))) =
        settle (nextColumn who w' more (count + windowBits before) ((s.back i' j').withCancel k)) := by
  induction before generalizing w i j count with
  | nil => exact ⟨w, i, j, hw, hij, hj, by rw [windowBits]; simp [pollsIn_zero]⟩
  | cons c rest ih =>
    obtain ⟨hc, hlegal⟩ := List.forall_mem_cons.1 hlegal
    obtain ⟨⟨hheld, hnone⟩, hno⟩ := List.forall_mem_cons.1 hno
    rw [List.cons_append, List.length_cons] at hlen
    have hrest : (rest ++ more).length ≤ 8 := Nat.le_of_succ_le hlen
    have hfull : (s.ahead.bits.take (searchLimit c)).length = searchLimit c := Stream.length_take_bits hheld
    have hin : InWindow s (({ w with columnsLeft := rest ++ more } : Scan).scanned c (s.ahead.bits.take (searchLimit c))) :=
      ⟨hw.start, hrest, hw.rows⟩
    obtain ⟨w', i', j', hw', hij', hj', hrun⟩ := ih (le_max_right j _) (max_le hj hheld) hin hlegal hrest hno
      (count + searchLimit c)
    refine ⟨w', i', j', hw', hij', hj', ?_⟩
    have hbits : windowBits (c :: rest) = searchLimit c + windowBits rest := rfl
    have hpolls : (c :: rest).length + pollsIn count (windowBits (c :: rest)) =
        pollsIn count (searchLimit c) + (1 + (rest.length + pollsIn (count + searchLimit c) (windowBits rest))) := by
      rw [hbits, pollsIn_add, List.length_cons]
      omega
    rw [hpolls, List.replicate_add, List.append_assoc, List.cons_append, nextColumn_cons,
      h.settle_startColumn_passed hc hj hw hheld le_rfl (fun m _ => hnone m) hrest, List.replicate_add,
      List.append_assoc]
    refine (congrArg settle (continueScan_passed hfull ..)).trans (hrun.trans ?_)
    rw [hbits, Nat.add_assoc]

/-! ## The search halted -/

theorem exec_sfFindSync_withCancel {s : State} (hs : Ready s) (rowsHint : Rows) (columnsHint : Columns)
    (k : List Bool) : exec (.sfFindSync rowsHint columnsHint) (s.withCancel k) =
      .next (settle (startFind .command rowsHint columnsHint (s.withCancel k))) :=
  exec_sfFindSync (s := s.withCancel k) hs ..

/-- A search halted after `n` bits of its window (R305, R308). -/
theorem Searching.haltedAfter {s : State} (h : Searching s) {i j : Nat} (hij : i ≤ j) (hj : j ≤ s.ahead.levels.length)
    (hs : s.task = none) (later : List Bool) : HaltedAfter i later s ((s.back i j).halted.withCancel later) := by
  have hreads := h.onlyReads_back (i := i) hj
  exact ⟨rfl, hreads.task.trans hs, rfl, h.ahead_back hij hj, hreads.fe, hreads.sf, hreads.result, hreads.progressSample,
    hreads.events⟩

section

variable {s : State} (h : Searching s) {rowsHint : Rows} {columnsHint columns : Columns}
  (hrows : legalRowsHint rowsHint = true) (hcolumns : legalColumnsHint columnsHint = true) {before after : List Columns}
  (hcand : columnCandidates columnsHint = before ++ columns :: after)
  (hbefore : ∀ c ∈ before, searchLimit c ≤ s.ahead.levels.length ∧ ∀ m, ¬MatchAt s.ahead c m) {m : Nat}

include h hrows hcolumns hcand hbefore

/-- The column windows before that of `columns` and `m` bits of this are passed over without a match. -/
theorem Searching.settle_startFind_passed (hm : m ≤ s.ahead.levels.length) (hlimit : m ≤ searchLimit columns)
    (hno : NoMatchUpTo s.ahead columns m) (k : List Bool) :
    ∃ (w : Scan) (j : Nat), w.columnsLeft.length ≤ 8 ∧ m ≤ j ∧ j ≤ s.ahead.levels.length ∧
      settle (startFind .command rowsHint columnsHint
          (s.withCancel (List.replicate (before.length + (windowBits before + m) / pollInterval) false ++ k))) =
        settle (continueScan .command (w.scanned columns (s.ahead.bits.take m)) (windowBits before + m)
          ((s.back m j).withCancel k)) := by
  have hlegal := columnCandidates_legal hcolumns
  have hcount := columnCandidates_length_le columnsHint
  rw [hcand] at hlegal hcount
  have hafter : after.length ≤ 8 := by
    simp only [List.length_append, List.length_cons] at hcount
    omega
  obtain ⟨w, i, j, hw, hij, hj, hpassed⟩ := h.settle_nextColumn_passed (who := .command)
    (w := firstScan rowsHint columnsHint (mark s)) (more := columns :: after) le_rfl (Nat.zero_le _)
    ⟨rfl, Nat.zero_le _, hrows⟩ (fun c hc => hlegal c (List.mem_append_left _ hc)) hcount hbefore 0
    (List.replicate (pollsIn (windowBits before) m) false ++ k)
  refine ⟨{ w with columnsLeft := after }, max j m, hafter, le_max_right j m, max_le hj hm, ?_⟩
  have hpolls : before.length + (windowBits before + m) / pollInterval =
      before.length + pollsIn 0 (windowBits before) + pollsIn (windowBits before) m := by
    unfold pollsIn pollInterval
    omega
  rw [h.back_self (Nat.zero_le _), ← hcand, Nat.zero_add, nextColumn_cons,
    h.settle_startColumn_passed (hlegal columns (by simp)) hj hw hm hlimit hno hafter] at hpassed
  rw [startFind_eq, hpolls, List.replicate_add, List.append_assoc]
  exact hpassed

/-- In phase 1 without a match a search halts at a poll of its bit counter (R251, R308). -/
theorem Searching.exec_sfFindSync_halted_at_count (hs : Ready s) (hm : m + 1 ≤ s.ahead.levels.length)
    (hlimit : m + 1 ≤ searchLimit columns) (hno : NoMatchUpTo s.ahead columns (m + 1)) (later : List Bool)
    (hread : (windowBits before + m + 1) % pollInterval = 0) :
    ∃ t, exec (.sfFindSync rowsHint columnsHint)
        (s.withCancel (cancelAfter (before.length + (windowBits before + m) / pollInterval) later)) = .next t ∧
      HaltedAfter (m + 1) later s t := by
  obtain ⟨w, j, hw, hmj, hj, hpassed⟩ := h.settle_startFind_passed hrows hcolumns hcand hbefore
    (Nat.le_of_succ_le hm) (Nat.le_of_succ_le hlimit) (fun k hk => hno k (Nat.le_succ_of_le hk)) (true :: later)
  obtain ⟨b, hb, -⟩ := h.nextBit_back hmj hj hm
  have hpushed := Stream.length_take_bits (Nat.le_of_succ_le hm)
  have hhalted := hpassed.trans (settle_continueScan_halted hw (by rw [hpushed]; exact hlimit) hb hread later)
  exact ⟨_, (exec_sfFindSync_withCancel hs ..).trans (congrArg Host.Outcome.next hhalted),
    h.haltedAfter (le_max_right j (m + 1)) (max_le hj hm) hs.2 later⟩

/-- In phase 1 without a match a search halts at the poll of a column window's end (R308). -/
theorem Searching.exec_sfFindSync_halted_at_end (hs : Ready s) (hm : searchLimit columns ≤ s.ahead.levels.length)
    (hno : NoMatchUpTo s.ahead columns (searchLimit columns)) (later : List Bool) :
    ∃ t, exec (.sfFindSync rowsHint columnsHint) (s.withCancel
        (cancelAfter (before.length + (windowBits before + searchLimit columns) / pollInterval) later)) = .next t ∧
      HaltedAfter (searchLimit columns) later s t := by
  obtain ⟨w, j, -, hmj, hj, hpassed⟩ := h.settle_startFind_passed hrows hcolumns hcand hbefore hm le_rfl hno
    (true :: later)
  rw [continueScan_halted (Stream.length_take_bits hm)] at hpassed
  exact ⟨_, (exec_sfFindSync_withCancel hs ..).trans (congrArg Host.Outcome.next hpassed),
    h.haltedAfter hmj hj hs.2 later⟩

end

/-- A search without a match that a poll stops (R241, R305, R308), at the bits read `m` of its last column window. -/
theorem exec_sfFindSync_halted {s : State} {rowsHint : Rows} {columnsHint columns : Columns}
    {before after : List Columns} {m : Nat} (hs : CanSearch s rowsHint columnsHint)
    (hcand : columnCandidates columnsHint = before ++ columns :: after)
    (hbefore : ∀ c ∈ before, searchLimit c ≤ s.ahead.levels.length ∧ ∀ k, ¬MatchAt s.ahead c k) (hpos : 1 ≤ m)
    (hlimit : m ≤ searchLimit columns) (hm : m ≤ s.ahead.levels.length) (hno : NoMatchUpTo s.ahead columns m)
    (later : List Bool) :
    ((windowBits before + m) % pollInterval = 0 →
      s.cancel = cancelAfter (before.length + (windowBits before + m) / pollInterval - 1) later →
      ∃ t, exec (.sfFindSync rowsHint columnsHint) s = .next t ∧ HaltedAfter m later s t) ∧
    (m = searchLimit columns →
      s.cancel = cancelAfter (before.length + (windowBits before + m) / pollInterval) later →
      ∃ t, exec (.sfFindSync rowsHint columnsHint) s = .next t ∧ HaltedAfter m later s t) := by
  obtain ⟨hready, hcollecting, hpending, hroom, hrows, hcolumns⟩ := hs
  have h : Searching (s.withCancel []) := ⟨hcollecting, hpending, hroom, rfl⟩
  have hself : ∀ {k}, s.cancel = k → (s.withCancel []).withCancel k = s := by rintro _ rfl; rfl
  refine ⟨fun hread hcancel => ?_, ?_⟩
  · obtain ⟨n, rfl⟩ := Nat.exists_eq_add_of_le' hpos
    have hpolls : before.length + (windowBits before + (n + 1)) / pollInterval - 1 =
        before.length + (windowBits before + n) / pollInterval := by
      unfold pollInterval at *
      omega
    rw [hpolls] at hcancel
    have hhalted := h.exec_sfFindSync_halted_at_count hrows hcolumns hcand hbefore hready hm hlimit hno later hread
    rw [hself hcancel] at hhalted
    exact hhalted
  · rintro rfl hcancel
    have hhalted := h.exec_sfFindSync_halted_at_end hrows hcolumns hcand hbefore hready hm hno later
    rw [hself hcancel] at hhalted
    exact hhalted

end Sys2Proof.Machine
end

section
/-! PROOFS. A check that a poll stops (R244, R251, R308): its polls are those of the bit counter and one after each frame. -/

namespace Sys2Proof.Machine

open Sys2Proof

/-! ## One bit of a check, with a cancel input -/

/-- The polls after a bit of a check: one where the bit ends a frame (R244, R308). -/
def framePolls (b : Bool) (c : Check) : Nat := if (readerPush b c.reader).2 = .frameComplete then 1 else 0

/-- A check goes on from its bit where the poll after a frame reads 0. -/
theorem checkBit_passed {c : Check} {b : Bool} {s t : State} {r : Check ⊕ Nat} (h : c.onBit b s = (r, t)) (ask : Asker)
    (count : Nat) (k : List Bool) :
    checkBit ask c count b (s.withCancel (List.replicate (framePolls b c) false ++ k)) =
      proceed ask c.entryMark count r (t.withCancel k) := by
  unfold checkBit framePolls
  unfold Check.onBit at h
  dsimp only at h ⊢
  cases hread : (readerPush b c.reader).2 with
  | frameComplete =>
    rw [hread] at h
    cases h
    exact frameRead_eq ..
  | frameStart | needMoreBits | captureParity =>
    rw [hread] at h
    cases h
    rfl

/-- A check halts at the bit that ends a frame where the poll after it reads 1 (R308). -/
theorem checkBit_stopped {c : Check} {b : Bool} (h : (readerPush b c.reader).2 = .frameComplete) (ask : Asker)
    (count : Nat) (s : State) (later : List Bool) :
    checkBit ask c count b (s.withCancel (true :: later)) = .stop (s.halted.withCancel later) := by
  unfold checkBit
  dsimp only
  rw [h]
  rfl

/-- SF.CHECK_SYNC in progress takes its next bit, and counts it. -/
theorem settle_check_withCancel {s t : State} {b : Bool} (hb : nextBit s = some (.ok b t)) (c : Check) (count : Nat)
    (k : List Bool) :
    settle (.ok (.more (.check .check c count)) (s.withCancel k)) =
      settle ((countBit count (t.withCancel k)).andThen fun count u => checkBit .check c count b u) :=
  settle_more_of_nextBit (taskOk_check (ask := .check) windowRestores_pos c count) (nextBit_withCancel hb k)

/-- A check halts at a bit whose poll of the bit counter reads 1 (R251, R308). -/
theorem settle_check_halted_at_count {s t : State} {b : Bool} (hb : nextBit s = some (.ok b t)) (c : Check)
    {count : Nat} (hcount : (count + 1) % pollInterval = 0) (later : List Bool) :
    settle (.ok (.more (.check .check c count)) (s.withCancel (true :: later))) = t.halted.withCancel later := by
  rw [settle_check_withCancel hb, countBit_stopped hcount]
  rfl

/-- A check halts at the end of a frame where the poll there reads 1 (R244, R308). -/
theorem settle_check_halted_at_frame {s t : State} {b : Bool} (hb : nextBit s = some (.ok b t)) {c : Check}
    (hread : (readerPush b c.reader).2 = .frameComplete) (count : Nat) (later : List Bool) :
    settle (.ok (.more (.check .check c count))
      (s.withCancel (List.replicate (pollsIn count 1) false ++ true :: later))) = t.halted.withCancel later := by
  rw [settle_check_withCancel hb, countBit_passed, Res.andThen_ok, checkBit_stopped hread]
  rfl

/-! ## The bits of a check that goes on -/

/-- The check at `c` in `s` reads on over `n` bits, which end `f` frames, to the check at `d` in `v`. -/
inductive Passes (c : Check) (s : State) : Nat → Nat → Check → State → Prop
  | refl : Passes c s 0 0 c s
  | bit {n f : Nat} {d d' : Check} {v t v' : State} {b : Bool} (h : Passes c s n f d v)
    (hb : nextBit v = some (.ok b t)) (hon : d.onBit b t = (.inl d', v')) :
    Passes c s (n + 1) (f + framePolls b d) d' v'

/-- A check reads on while its polls read 0: those of its bit counter, and one for each frame. -/
theorem Passes.settle_eq {c d : Check} {s v : State} {n f : Nat} (h : Passes c s n f d v) (count : Nat)
    (k : List Bool) :
    settle (.ok (.more (.check .check c count))
        (s.withCancel (List.replicate (f + pollsIn count n) false ++ k))) =
      settle (.ok (.more (.check .check d (count + n))) (v.withCancel k)) := by
  induction h generalizing k with
  | refl =>
    rw [pollsIn_zero]
    rfl
  | @bit n f d d' v t v' b h hb hon ih =>
    have hpolls : f + framePolls b d + pollsIn count (n + 1) =
        f + pollsIn count n + (pollsIn (count + n) 1 + framePolls b d) := by
      rw [pollsIn_add]
      omega
    rw [hpolls, List.replicate_add, List.append_assoc, ih, List.replicate_add, List.append_assoc,
      settle_check_withCancel hb, countBit_passed, Res.andThen_ok, checkBit_passed hon]
    rfl

/-! ## The bits inside a frame -/

/-- The next bit of a stretch that is read, with its level. -/
theorem Supplied.nextBit_at {y z : State} {n : Nat} (hs : Supplied (n + 1) y) (h : Reads (y.ahead.bits.take n) y z) :
    ∃ b t, Machine.nextBit z = some (.ok b t) ∧ Reads (y.ahead.bits.take (n + 1)) y t ∧
      y.ahead.bits.take (n + 1) = y.ahead.bits.take n ++ [b] ∧
      y.ahead.levels.take (n + 1) = y.ahead.levels.take n ++ [t.bd.lastLevel] := by
  have hlen := Stream.length_take_bits (Nat.le_of_succ_le hs.length)
  obtain ⟨b, t, hb, -⟩ := (Supplied.of_reads (n := 0 + 1) (by rw [hlen]; exact hs) h).nextBit
  have hreads : Reads (y.ahead.bits.take n ++ [b]) y t := h.append ⟨t, hb, rfl⟩
  have hbits := hreads.ahead.2.1
  rw [List.length_append, hlen, List.length_singleton] at hbits
  have hahead := h.ahead.2.2
  rw [hlen, (nextBit_ahead hb).1] at hahead
  have hlevels : t.bd.lastLevel :: t.ahead.levels = y.ahead.levels.drop n := congrArg Stream.levels hahead
  refine ⟨b, t, hb, hbits ▸ hreads, hbits.symm, ?_⟩
  rw [List.take_add, ← hlevels]
  rfl

/-- The check `d` after the first `n` bits of the frame `f`, which the check `c` began with the parity `p` (R244, R245). -/
structure InsideFrame (f : FrameAt) (p : Bool) (c : Check) (n : Nat) (d : Check) : Prop where
  reader : InFrame f.rows f.columns (f.stream.bits.take n) d.reader
  cap : d.cap = capturedParity p c.cap f.columns (f.stream.levels.take n)
  rest : d = { c with reader := d.reader, cap := d.cap }

/-- One bit inside a frame. -/
theorem InsideFrame.onBit {f : FrameAt} (hl : legalShape f.rows f.columns = true) {p : Bool} {c d : Check} {n : Nat}
    (h : InsideFrame f p c n d) (hn : n + 1 < f.size) (hheld : f.held) {b l : Bool}
    (hbits : f.stream.bits.take (n + 1) = f.stream.bits.take n ++ [b])
    (hlevels : f.stream.levels.take (n + 1) = f.stream.levels.take n ++ [l]) (t : State) :
    ∃ d', framePolls b d = 0 ∧
      d.onBit b (t.withParity (heldParity p f.columns (f.stream.levels.take n) != l)) =
        (.inl d', t.withParity (heldParity p f.columns (f.stream.levels.take (n + 1)))) ∧
      InsideFrame f p c (n + 1) d' := by
  have hle : n ≤ f.stream.levels.length := (Nat.le_of_succ_le hn.le).trans hheld
  have hpushed := Stream.length_take_bits hle
  have hread : (f.stream.levels.take n).length = n := List.length_take_of_le hle
  obtain ⟨hin, hres⟩ := h.reader.push_inside hl (by rw [hpushed]; exact hn.ne) b
  rw [h.reader.report_eq, hpushed] at hres
  have hcap := capturedParity_concat p c.cap f.columns (f.stream.levels.take n) l
  have hpar := heldParity_concat p f.columns (f.stream.levels.take n) l
  rw [← hlevels, hread] at hcap hpar
  rw [← hbits] at hin
  by_cases h44 : n = 44 * f.columns.toNat
  · rw [if_pos h44] at hres hcap hpar
    refine ⟨_, if_neg (by simp [hres]), by rw [Check.onBit_capture _ hres, hpar]; rfl, ⟨hin, hcap.symm, ?_⟩⟩
    rw [h.rest]
  · rw [if_neg h44] at hres hcap hpar
    have hne : (readerPush b d.reader).2 ≠ .frameComplete := by rw [hres]; split <;> simp
    refine ⟨{ d with reader := (readerPush b d.reader).1 }, if_neg hne, ?_, hin, h.cap.trans hcap.symm, ?_⟩
    · rw [Check.onBit_inside _ (by rw [hres]; split <;> simp) hne, hpar]
    · rw [h.rest]

theorem FrameAt.size_pos {f : FrameAt} (hl : legalShape f.rows f.columns = true) : 1 ≤ f.size := by
  obtain ⟨hc, hframe⟩ := frame_bound hl
  unfold FrameAt.size
  omega

/-- The check `d`, which the check `c` began with the parity `p`, ends the frame `f` with the bit `b` of the level `l`
(R184, R244, R245). -/
structure FrameEnds (f : FrameAt) (p : Bool) (c d : Check) (b l : Bool) : Prop where
  complete : (readerPush b d.reader).2 = .frameComplete
  rows : (readerPush b d.reader).1.rows = f.rows
  columns : (readerPush b d.reader).1.columns = f.columns
  value : (readerPush b d.reader).1.cw.value = f.value
  check : ({ d with reader := (readerPush b d.reader).1 } : Check) = { c with
    reader := (readerPush b d.reader).1, cap := p != oddHighs (f.stream.levels.take (44 * f.columns.toNat + 1)) }
  parity : (heldParity p f.columns (f.stream.levels.take (f.size - 1)) != l) = parityBehind f

theorem InsideFrame.ends {f : FrameAt} (hl : legalShape f.rows f.columns = true) {p : Bool} {c d : Check}
    (h : InsideFrame f p c (f.size - 1) d) (hheld : f.held) {b l : Bool}
    (hbits : f.stream.bits.take f.size = f.stream.bits.take (f.size - 1) ++ [b])
    (hlevels : f.stream.levels.take f.size = f.stream.levels.take (f.size - 1) ++ [l]) : FrameEnds f p c d b l := by
  obtain ⟨hc0, hframe⟩ := frame_bound hl
  have hsize : 44 * f.columns.toNat < f.size - 1 := by unfold FrameAt.size; omega
  have hle : f.size - 1 ≤ f.stream.levels.length := (Nat.sub_le _ _).trans hheld
  have hread : (f.stream.levels.take (f.size - 1)).length = f.size - 1 := List.length_take_of_le hle
  have hsucc : f.size - 1 + 1 = f.size := by omega
  obtain ⟨hdone, hres⟩ := h.reader.push_last (by rw [Stream.length_take_bits hle, hsucc]; rfl) b
  obtain ⟨hrows, hcolumns⟩ := readerPush_shape b d.reader
  rw [← hbits] at hdone
  refine ⟨hres, hrows.trans h.reader.rows_eq, hcolumns.trans h.reader.columns_eq, FrameAt.eq_value hl hdone.value, ?_, ?_⟩
  · have hcap := h.cap
    rw [capturedParity, hread, if_neg hsize.not_ge, List.take_take, min_eq_left hsize] at hcap
    rw [h.rest, hcap]
  · have hpar := heldParity_concat p f.columns (f.stream.levels.take (f.size - 1)) l
    rw [← hlevels, hread, if_neg hsize.ne', heldParity, List.length_take_of_le hheld, if_neg (by omega)] at hpar
    exact hpar.symm

section

variable {c₀ : Check} {s : State} {n₀ f₀ : Nat} {f : FrameAt} (hl : legalShape f.rows f.columns = true)
  (hheld : f.held) {c : Check} (hc : ∃ r, c.reader = readerShaped f.rows f.columns r) {p : Bool} {y : State}
  (hy : y.ahead = f.stream) (hpre : Passes c₀ s n₀ f₀ c (y.withParity p))

include hl hheld hc hy hpre

/-- A check reads on inside a frame. -/
theorem exists_passes_inside {n : Nat} (hn : n < f.size) (hs : Supplied n y) :
    ∃ z d, Reads (y.ahead.bits.take n) y z ∧
      Passes c₀ s (n₀ + n) f₀ d (z.withParity (heldParity p f.columns (f.stream.levels.take n))) ∧
      InsideFrame f p c n d := by
  induction n with
  | zero =>
    obtain ⟨r, hr⟩ := hc
    have hp : heldParity p f.columns [] = p := by simp [heldParity, oddHighs]
    refine ⟨y, c, rfl, ?_, ⟨hr ▸ inFrame_readerShaped hl r, by simp [capturedParity], rfl⟩⟩
    rw [List.take_zero, hp]
    exact hpre
  | succ n ih =>
    obtain ⟨z, d, hz, hpass, hin⟩ := ih (Nat.lt_of_succ_lt hn) (hs.mono (Nat.le_succ n))
    obtain ⟨b, t, hb, ht, hbits, hlevels⟩ := hs.nextBit_at hz
    rw [hy] at hbits hlevels
    obtain ⟨d', hpolls, hon, hin'⟩ := hin.onBit hl hn hheld hbits hlevels t
    have hstep := hpass.bit (nextBit_withParity hb _) hon
    rw [hpolls] at hstep
    exact ⟨t, d', ht, hstep, hin'⟩

/-- A check comes to the last bit of a frame (R184, R244). -/
theorem exists_passes_last (hs : Supplied f.size y) :
    ∃ z d b t, Reads (y.ahead.bits.take f.size) y t ∧ nextBit z = some (.ok b t) ∧
      Passes c₀ s (n₀ + (f.size - 1)) f₀ d
        (z.withParity (heldParity p f.columns (f.stream.levels.take (f.size - 1)))) ∧
      FrameEnds f p c d b t.bd.lastLevel := by
  have hpos : f.size - 1 + 1 = f.size := Nat.sub_add_cancel (FrameAt.size_pos hl)
  obtain ⟨z, d, hz, hpass, hin⟩ := exists_passes_inside hl hheld hc hy hpre (n := f.size - 1) (by omega)
    (hs.mono (Nat.sub_le _ _))
  obtain ⟨b, t, hb, ht, hbits, hlevels⟩ := Supplied.nextBit_at (n := f.size - 1) (by rw [hpos]; exact hs) hz
  rw [hpos] at ht
  rw [hpos, hy] at hbits hlevels
  exact ⟨z, d, b, t, ht, hb, hpass, hin.ends hl hheld hbits hlevels⟩

end

/-! ## The frames of a check -/

/-- A frame that passes leads to the next, where it is not the sixteenth (R244). -/
theorem AtFrame.onBit_last {a : Stream} {rows : Rows} {columns : Columns} {k : Nat} {c d : Check} {p : Bool}
    (h : AtFrame a rows columns k c p) (hgood : frameGood a rows columns k = true) (hk : k + 1 < 16) {b l : Bool}
    (hends : FrameEnds (frameNo a rows columns k) p c d b l) (s : State) :
    ∃ c', d.onBit b s = (.inl c', s) ∧
      AtFrame a rows columns (k + 1) c' (parityBehind (frameNo a rows columns k)) := by
  obtain ⟨-, -, hverdict⟩ := h.verdict hends.rows hends.columns hends.value (cap := p != oddHighs
    ((frameNo a rows columns k).stream.levels.take (44 * (frameNo a rows columns k).columns.toNat + 1)))
    fun j hj => by rw [parityBetween_eq, ← h.parity j hj]
  obtain ⟨c', hc', hat⟩ := hverdict hgood hk
  refine ⟨c', ?_, hat⟩
  rw [Check.onBit_complete _ hends.complete, hends.check, hc']

section

variable {s : State} (hs : Supplied s.ahead.levels.length s) {rows : Rows} {columns : Columns}
  (hl : legalShape rows columns = true) {k : Nat}

include hs

/-- Where the check of `s` stands at frame number `k`, with all before it passed. -/
theorem Reads.at_frame {y : State} (hheld : ∀ j, j ≤ k → (frameNo s.ahead rows columns j).held)
    (h : Reads (s.ahead.bits.take (frameOffset s.ahead rows columns k)) s y) :
    y.ahead = (frameNo s.ahead rows columns k).stream ∧ Supplied (frameNo s.ahead rows columns k).size y ∧
      ∀ {n t}, Reads (y.ahead.bits.take n) y t →
        Reads (s.ahead.bits.take (frameOffset s.ahead rows columns k + n)) s t := by
  obtain ⟨hoff, hstream⟩ := frameNo_stream fun j hj => hheld j (Nat.le_of_lt hj)
  obtain ⟨hnext, -⟩ := frameNo_stream (k := k + 1) fun j hj => hheld j (Nat.le_of_lt_succ hj)
  have hlen := Stream.length_take_bits hoff
  rw [frameOffset_succ] at hnext
  refine ⟨?_, Supplied.of_reads (hlen.symm ▸ hs.mono hnext) h, fun ht => h.append_take hoff ht⟩
  rw [h.ahead.2.2, hstream, hlen]

include hl

/-- A check reads on over the frames that pass (R244). -/
theorem exists_passes_frames (hk : k < 16) (hgood : ∀ j, j < k → frameGood s.ahead rows columns j = true)
    (hheld : ∀ j, j < k → (frameNo s.ahead rows columns j).held) :
    ∃ y c p, Reads (s.ahead.bits.take (frameOffset s.ahead rows columns k)) s y ∧
      Passes (firstCheck rows columns s) s (frameOffset s.ahead rows columns k) k c (y.withParity p) ∧
      AtFrame s.ahead rows columns k c p := by
  induction k with
  | zero =>
    exact ⟨s, _, s.bd.parityIsOdd, rfl, .refl, rfl, ⟨_, rfl⟩, fun j hj => absurd hj (Nat.succ_ne_zero j).symm,
      fun j hj => absurd hj (Nat.succ_ne_zero j).symm⟩
  | succ k ih =>
    obtain ⟨y, c, p, hy, hpass, hat⟩ := ih (Nat.lt_of_succ_lt hk) (fun j hj => hgood j (Nat.lt_succ_of_lt hj))
      fun j hj => hheld j (Nat.lt_succ_of_lt hj)
    obtain ⟨hahead, hsupplied, hon⟩ := hy.at_frame hs fun j hj => hheld j (Nat.lt_succ_of_le hj)
    obtain ⟨z, d, b, t, ht, hb, hpass', hends⟩ := exists_passes_last (frameNo_legal hl s.ahead k)
      (hheld k (Nat.lt_succ_self k)) hat.reader hahead hpass hsupplied
    have hsize := Nat.sub_add_cancel (FrameAt.size_pos (frameNo_legal hl s.ahead k))
    have hbit := nextBit_withParity hb
      (heldParity p (frameNo s.ahead rows columns k).columns ((frameNo s.ahead rows columns k).stream.levels.take
        ((frameNo s.ahead rows columns k).size - 1)))
    rw [hends.parity] at hbit
    obtain ⟨c', hc', hat'⟩ := hat.onBit_last (hgood k (Nat.lt_succ_self k)) hk hends
      (t.withParity (parityBehind (frameNo s.ahead rows columns k)))
    have hstep := hpass'.bit hbit hc'
    rw [framePolls, if_pos hends.complete, Nat.add_assoc, hsize, ← frameOffset_succ] at hstep
    exact ⟨t, c', _, frameOffset_succ s.ahead rows columns k ▸ hon ht, hstep, hat'⟩

end

/-! ## The check halted -/

theorem exec_sfCheckSync_withCancel {s : State} (hs : Ready s) {rows : Rows} {columns : Columns}
    (hl : legalShape rows columns = true) (k : List Bool) :
    exec (.sfCheckSync rows columns) (s.withCancel k) =
      .next (settle (.ok (.more (.check .check (firstCheck rows columns s) 0)) (s.withCancel k))) := by
  rw [exec_sfCheckSync (s := s.withCancel k) hs, startCheck_legal hl]
  rfl

/-- A check halted after `n` bits (R305, R308). -/
theorem haltedAfter_of_reads {s t : State} {n : Nat} (hn : n ≤ s.ahead.levels.length)
    (h : Reads (s.ahead.bits.take n) s t) (hs : s.task = none) (p : Bool) (later : List Bool) :
    HaltedAfter n later s ((t.withParity p).halted.withCancel later) := by
  have hreads := h.onlyReads
  have hahead := h.ahead.2.2
  rw [Stream.length_take_bits hn] at hahead
  exact ⟨rfl, hreads.task.trans hs, rfl, hahead, hreads.fe, hreads.sf, hreads.result, hreads.progressSample,
    hreads.events⟩

section

variable {s : State} (hready : Ready s) (hs : Supplied s.ahead.levels.length s) {rows : Rows} {columns : Columns}
  (hl : legalShape rows columns = true) {k : Nat} (hk : k < 16)
  (hgood : ∀ j, j < k → frameGood s.ahead rows columns j = true)
  (hheld : ∀ j, j ≤ k → (frameNo s.ahead rows columns j).held)

include hready hs hl hk hgood hheld

/-- In frame number `k` a check halts at a poll of its bit counter (R251, R308). -/
theorem exec_sfCheckSync_halted_at_count {n : Nat} (hn : n < (frameNo s.ahead rows columns k).size)
    (hcount : (frameOffset s.ahead rows columns k + n + 1) % pollInterval = 0) (later : List Bool) :
    ∃ t, exec (.sfCheckSync rows columns)
        (s.withCancel (cancelAfter (k + (frameOffset s.ahead rows columns k + n) / pollInterval) later)) = .next t ∧
      HaltedAfter (frameOffset s.ahead rows columns k + n + 1) later s t := by
  obtain ⟨y, c, p, hy, hpass, hat⟩ := exists_passes_frames hs hl hk hgood fun j hj => hheld j hj.le
  obtain ⟨hahead, hsupplied, hon⟩ := hy.at_frame hs hheld
  obtain ⟨z, d, hz, hpass', -⟩ := exists_passes_inside (frameNo_legal hl s.ahead k) (hheld k le_rfl) hat.reader hahead
    hpass hn (hsupplied.mono hn.le)
  obtain ⟨b, t, hb, ht, -, -⟩ := Supplied.nextBit_at (hsupplied.mono hn) hz
  have hreads := hon ht
  have hlen := (frameNo_stream (k := k + 1) fun j hj => hheld j (Nat.le_of_lt_succ hj)).1
  rw [frameOffset_succ] at hlen
  have hrun := hpass'.settle_eq 0 (true :: later)
  rw [settle_check_halted_at_count (nextBit_withParity hb _) d (by rw [Nat.zero_add]; exact hcount), pollsIn,
    Nat.zero_add, Nat.zero_div, Nat.sub_zero] at hrun
  exact ⟨_, (exec_sfCheckSync_withCancel hready hl _).trans (congrArg Host.Outcome.next hrun),
    haltedAfter_of_reads (by omega) hreads hready.2 _ later⟩

/-- After frame number `k` a check halts at the poll there (R244, R308). -/
theorem exec_sfCheckSync_halted_at_frame (later : List Bool) :
    ∃ t, exec (.sfCheckSync rows columns)
        (s.withCancel (cancelAfter (k + frameOffset s.ahead rows columns (k + 1) / pollInterval) later)) = .next t ∧
      HaltedAfter (frameOffset s.ahead rows columns (k + 1)) later s t := by
  obtain ⟨y, c, p, hy, hpass, hat⟩ := exists_passes_frames hs hl hk hgood fun j hj => hheld j hj.le
  obtain ⟨hahead, hsupplied, hon⟩ := hy.at_frame hs hheld
  obtain ⟨z, d, b, t, ht, hb, hpass', hends⟩ := exists_passes_last (frameNo_legal hl s.ahead k) (hheld k le_rfl)
    hat.reader hahead hpass hsupplied
  have hlen := (frameNo_stream (k := k + 1) fun j hj => hheld j (Nat.le_of_lt_succ hj)).1
  have hsize := Nat.sub_add_cancel (FrameAt.size_pos (frameNo_legal hl s.ahead k))
  have hpolls : k + frameOffset s.ahead rows columns (k + 1) / pollInterval =
      k + pollsIn 0 (frameOffset s.ahead rows columns k + ((frameNo s.ahead rows columns k).size - 1)) +
        pollsIn (0 + (frameOffset s.ahead rows columns k + ((frameNo s.ahead rows columns k).size - 1))) 1 := by
    rw [Nat.add_assoc, ← pollsIn_add, Nat.add_assoc, hsize, ← frameOffset_succ, pollsIn, Nat.zero_add, Nat.zero_div,
      Nat.sub_zero]
  have hrun := (hpass'.settle_eq 0 _).trans
    (settle_check_halted_at_frame (nextBit_withParity hb _) hends.complete _ later)
  rw [← List.append_assoc, ← List.replicate_add, ← hpolls] at hrun
  exact ⟨_, (exec_sfCheckSync_withCancel hready hl _).trans (congrArg Host.Outcome.next hrun),
    haltedAfter_of_reads hlen (frameOffset_succ s.ahead rows columns k ▸ hon ht) hready.2 _ later⟩

end

/-- A check that a poll stops (R305, R308), of its bit counter at bit number `4096 * j` or at the end of frame number
`k`. -/
theorem exec_sfCheckSync_halted {s : State} {rows : Rows} {columns : Columns} {k : Nat} (hready : Ready s)
    (hs : Supplied s.ahead.levels.length s) (hl : legalShape rows columns = true) (hk : k < 16)
    (hgood : ∀ j, j < k → frameGood s.ahead rows columns j = true)
    (hheld : ∀ j, j ≤ k → (frameNo s.ahead rows columns j).held) (later : List Bool) :
    (∀ j, frameOffset s.ahead rows columns k < pollInterval * j →
      pollInterval * j ≤ frameOffset s.ahead rows columns (k + 1) → s.cancel = cancelAfter (k + j - 1) later →
      ∃ t, exec (.sfCheckSync rows columns) s = .next t ∧ HaltedAfter (pollInterval * j) later s t) ∧
    (s.cancel = cancelAfter (k + frameOffset s.ahead rows columns (k + 1) / pollInterval) later →
      ∃ t, exec (.sfCheckSync rows columns) s = .next t ∧
        HaltedAfter (frameOffset s.ahead rows columns (k + 1)) later s t) := by
  have hself : ∀ {n}, s.cancel = cancelAfter n later → s.withCancel (cancelAfter n later) = s := fun h => by
    rw [← h]
    rfl
  refine ⟨fun j hstart hle hcancel => ?_, fun hcancel => ?_⟩
  · obtain ⟨n, hn⟩ := Nat.exists_eq_add_of_lt hstart
    have hpolls : k + j - 1 = k + (frameOffset s.ahead rows columns k + n) / pollInterval := by
      unfold pollInterval at *
      omega
    rw [frameOffset_succ] at hle
    have hhalted := exec_sfCheckSync_halted_at_count hready hs hl hk hgood hheld (n := n) (by omega)
      (by rw [← hn, Nat.mul_mod_right]) later
    rw [hpolls] at hcancel
    rw [hself hcancel, ← hn] at hhalted
    exact hhalted
  · have hhalted := exec_sfCheckSync_halted_at_frame hready hs hl hk hgood hheld later
    rw [hself hcancel] at hhalted
    exact hhalted

end Sys2Proof.Machine
end

section
/-! PROOFS. Settles CancelHaltsAtPollPoints: the poll points of R308, each with the cancel input at 0 up to it. -/

namespace Sys2Proof.Machine

open Sys2Proof

/-- Settles O60: an FE.STEP, a search without a match and a check each halt at the poll that reads 1. -/
theorem cancelHaltsAtPollPoints : Obligations.CancelHaltsAtPollPoints := by
  refine ⟨?_, ?_, ?_, ?_⟩
  · intro s t later hs hrun hstarted hsync ht hdone
    exact feStep_inSync_cancelled later ⟨hs, hrun, hstarted, hsync⟩ ht hdone
  · intro s t later hs hrun hstarted hsync ht hdone
    obtain ⟨q, hend, hinside⟩ := feStep_outOfSync_cancelled later hs hrun hstarted hsync ht hdone
    refine ⟨q, hend, fun j hj => ?_⟩
    obtain ⟨h, hexec, hstatus, htask, hcancel, hfe, hsf, hprogress, hev, hev'⟩ := hinside j hj
    exact ⟨h, hexec, hstatus, htask, hcancel, hfe, hsf, hprogress, hev, hev'⟩
  · intro s rowsHint columnsHint columns before after m later hs hcand hbefore hpos hlimit hm hno
    exact exec_sfFindSync_halted hs hcand hbefore hpos hlimit hm hno later
  · intro s rows columns k later hs hl hpending hroom hk hgood hheld
    exact exec_sfCheckSync_halted hs (.of_room hpending hroom le_rfl) hl hk hgood hheld later

end Sys2Proof.Machine
end
